-- ==== Sys2Proof/Word.lean ====
section
/-! DEFINITION. The words of the Tulveno 3124: bytes, CRC-16 and CRC-32 values, times and tags. -/

namespace Sys2Proof

/-- One byte of a frame, a flash record or a block. -/
abbrev Byte := BitVec 8

/-- A CRC-16 value (spec/11, 11.2). -/
abbrev Half := BitVec 16

/-- A 32-bit word: an image tag or a CRC-32 value (spec/11, Figure 11-1). -/
abbrev Word := BitVec 32

/-- A timebase value: milliseconds modulo 2^32 (R20). -/
abbrev Time := BitVec 32

end Sys2Proof
end

