-- ==== Sys2Proof/Config.lean ====
section
/-! DEFINITION. The fixed capacities of the part, and the values the manual leaves open. -/

namespace Sys2Proof.Config

/-- The notice queue holds at most 16 notices (R161). -/
def noticeCapacity : Nat := 16

/-- The Control Link has two receive holding places (R156). -/
def holdingPlaces : Nat := 2

/-- A load group has at most 8 members (R120). -/
def groupMax : Nat := 8

/-- At most 16 stations on one lane (R46). -/
def stationsPerLane : Nat := 16

/-- A lane holds at most two block buffers (R134). -/
def buffersPerLane : Nat := 2

/-- A span is taken as at most 65,535 ms (R32, R35), and an overdraw saturates there (R30). -/
def spanLimit : Nat := 65535

/-- DESIGN CHOICE (log 9): which of the bits that an interrupted or failed PROGRAM or ERASE should
have changed were in fact left unchanged, for a draw and a flash address. The manual does not say. -/
opaque interruptedBits : Nat → Nat → Byte

/-- DESIGN CHOICE (log 19): the difference between the right CRC-16 and the wrong one that a CORRUPT
injection sends (R115). The manual says only that it is wrong. -/
opaque corruptMask : Nat → Half

/-- DESIGN CHOICE (log 19): which bit of the 256-byte payload a FLIP injection inverts (R115). -/
opaque flippedBit : Nat → Nat

/-- DESIGN CHOICE (log 18): the bytes of an empty place of the park record after its station number
(R168, Figure 11-12). -/
opaque emptyPlaceByte : Nat → Byte

/-- DESIGN CHOICE (log 17): the two value bytes that a CONTEXT SET reply carries for a pair that made
its field absent (R56, Figure 11-5). -/
opaque absentPairByte : Nat → Byte

/-- DESIGN CHOICE (log 36): the one byte that carries a run counter above 255 in PASS COMPLETE (Figure
11-6). The manual bounds neither counter. -/
opaque wideCountByte : Nat → Byte

/-- DESIGN CHOICE (log 6): the level of the BAUDSEL strap that a return from park reads (R154), for a draw. The
strap may have been changed since the last cold start, and no command of the table says so. -/
opaque baudselLevel : Nat → Bool

/-- DESIGN CHOICE (log 43): the code of the leaf state that a poll reply with live status OK leaves to an entrance
station, taken modulo 7, where 6 stands for none. The manual lists no leaf state OK (R58). -/
opaque leafForOk : Nat → Nat

end Sys2Proof.Config
end

