-- ==== Sys2Proof/Syntax.lean ====
section
/-! DEFINITION. The commands of the part: one constructor for each row of spec/opcode_table.json, with
the operands that the command brings from outside. -/

namespace Sys2Proof

/-- The two lanes (spec/06). -/
inductive Lane where
  | a
  | b
  deriving DecidableEq, Repr

/-- The level of the LINEP input: low is ABSENT, high is PRESENT (spec/01, 1.1). -/
inductive LineLevel where
  | absent
  | present
  deriving DecidableEq, Repr

/-- The commands. A control request carries its request tag and its payload bytes (spec/11, Figures
11-3 and 11-4); its command is the arrival of the whole frame with a good check (log 3). -/
inductive Instr where
  /-- The rise of VDD, with the levels of LINEP and BAUDSEL at that moment (R171, R17, R154). -/
  | powerOn (line : LineLevel) (baudHigh : Bool)
  /-- RSTN goes low (R171). -/
  | resetLineAssert
  /-- RSTN returns high, with the levels of LINEP and BAUDSEL at that moment (R171). -/
  | resetLineRelease (line : LineLevel) (baudHigh : Bool)
  /-- One millisecond passes (R20). -/
  | millisecondTick
  /-- LINEP changes to a level (R1). -/
  | rawLineChange (level : LineLevel)
  /-- The filter confirm deadline expires (R2). -/
  | filterConfirmExpiry
  /-- The settle deadline expires (R7). -/
  | settleExpiry
  /-- The span horizon deadline expires (R8). -/
  | spanHorizonExpiry
  /-- The holdup sample deadline expires, with the bank voltage on HOLDV in millivolts (R9). -/
  | holdupSampleExpiry (millivolts : Nat)
  /-- A lane's response window expires (R100). -/
  | responseWindowExpiry (lane : Lane)
  /-- A lane's poll interval expires (R112). -/
  | pollIntervalExpiry (lane : Lane)
  /-- The restore limit of a station's job expires (R87). -/
  | restoreLimitExpiry (station : Nat)
  /-- The inter-byte timeout expires (R155). -/
  | interByteTimeoutExpiry
  /-- The store operation timeout expires (R140). -/
  | storeOperationTimeoutExpiry
  /-- A complete reply frame is received on a lane: every byte of it, the CRC-16 included (R99). -/
  | laneReplyReceived (lane : Lane) (frame : List Byte)
  /-- The last character of a BLOCK frame to address 31 has been sent (R98, R130). -/
  | groupFrameEnd (lane : Lane)
  /-- The flash operation completes (R138). A READ transfers the stored block, or the bytes given where
  the device delivers others (log 8). -/
  | flashOpComplete (transferred : Option (List Byte))
  /-- A byte is received on CRXD (R155). -/
  | controlByteReceived (byte : Byte)
  /-- The last byte of the reply in transmission has been sent (R157). -/
  | replySent
  /-- A request of a kind that Figure 11-4 does not list (R157). -/
  | unknownRequestKind (kind tag : Byte) (payload : List Byte)
  | status (tag : Byte) (payload : List Byte)
  | noticeFetch (tag : Byte) (payload : List Byte)
  | settingsSet (tag : Byte) (payload : List Byte)
  | settingsRead (tag : Byte) (payload : List Byte)
  | configSave (tag : Byte) (payload : List Byte)
  | nodeDefine (tag : Byte) (payload : List Byte)
  | nodeRemove (tag : Byte) (payload : List Byte)
  | nodeRead (tag : Byte) (payload : List Byte)
  | nodeQuery (tag : Byte) (payload : List Byte)
  | contextSet (tag : Byte) (payload : List Byte)
  | contextRead (tag : Byte) (payload : List Byte)
  | carStateSet (tag : Byte) (payload : List Byte)
  | restoreNow (tag : Byte) (payload : List Byte)
  | engineRestart (tag : Byte) (payload : List Byte)
  | gapRead (tag : Byte) (payload : List Byte)
  | imageOpen (tag : Byte) (payload : List Byte)
  | imageBlock (tag : Byte) (payload : List Byte)
  | imageClose (tag : Byte) (payload : List Byte)
  | imageAbort (tag : Byte) (payload : List Byte)
  | imageList (tag : Byte) (payload : List Byte)
  | laneInject (tag : Byte) (payload : List Byte)
  /-- The holdup bank drains and the part loses its supply (R15, R170). -/
  | supplyLoss
  deriving DecidableEq, Repr

end Sys2Proof
end

