-- ==== Sys2Proof/WellFormed.lean ====
section
/-! DEFINITION. Which commands can be sent at all: the bounds that the manual's frames, stations and
blocks put on the operands. The meanings are total, and need none of these checks. -/

namespace Sys2Proof

/-- The payload of a request frame is at most 259 bytes, since the frame is at most 265 (spec/11, 11.3). -/
def payloadFits (payload : List Byte) : Bool := payload.length ≤ 259

/-- A lane reply frame holds at least its 5 header bytes and its CRC-16 (Figure 11-8), and a payload
length of two bytes bounds it above. -/
def replyFits (frame : List Byte) : Bool := 7 ≤ frame.length && frame.length ≤ 65542

/-- A READ transfers one flash block of 256 bytes (R138). -/
def transferFits (transferred : Option (List Byte)) : Bool :=
  match transferred with
  | none => true
  | some bytes => bytes.length = 256

/-- A kind that Figure 11-4 does not list: its kinds are 0x01 to 0x15. -/
def kindUnlisted (kind : Byte) : Bool := kind.toNat = 0 || 0x15 < kind.toNat

/-- The bank voltage on HOLDV is read as millivolts below 65,536 (log 30). -/
def voltageFits (millivolts : Nat) : Bool := millivolts < 65536

/-- Station numbers are 1 to 24 (spec/00, Figure 0-3). -/
def stationFits (station : Nat) : Bool := 1 ≤ station && station ≤ 24

/-- The operands of a command lie within what can be sent. -/
def WellFormed (i : Instr) : Bool :=
  match i with
  | .powerOn _ _ => true
  | .resetLineAssert => true
  | .resetLineRelease _ _ => true
  | .millisecondTick => true
  | .rawLineChange _ => true
  | .filterConfirmExpiry => true
  | .settleExpiry => true
  | .spanHorizonExpiry => true
  | .holdupSampleExpiry mv => voltageFits mv
  | .responseWindowExpiry _ => true
  | .pollIntervalExpiry _ => true
  | .restoreLimitExpiry n => stationFits n
  | .interByteTimeoutExpiry => true
  | .storeOperationTimeoutExpiry => true
  | .laneReplyReceived _ frame => replyFits frame
  | .groupFrameEnd _ => true
  | .flashOpComplete x => transferFits x
  | .controlByteReceived _ => true
  | .replySent => true
  | .unknownRequestKind k _ p => kindUnlisted k && payloadFits p
  | .status _ p => payloadFits p
  | .noticeFetch _ p => payloadFits p
  | .settingsSet _ p => payloadFits p
  | .settingsRead _ p => payloadFits p
  | .configSave _ p => payloadFits p
  | .nodeDefine _ p => payloadFits p
  | .nodeRemove _ p => payloadFits p
  | .nodeRead _ p => payloadFits p
  | .nodeQuery _ p => payloadFits p
  | .contextSet _ p => payloadFits p
  | .contextRead _ p => payloadFits p
  | .carStateSet _ p => payloadFits p
  | .restoreNow _ p => payloadFits p
  | .engineRestart _ p => payloadFits p
  | .gapRead _ p => payloadFits p
  | .imageOpen _ p => payloadFits p
  | .imageBlock _ p => payloadFits p
  | .imageClose _ p => payloadFits p
  | .imageAbort _ p => payloadFits p
  | .imageList _ p => payloadFits p
  | .laneInject _ p => payloadFits p
  | .supplyLoss => true

end Sys2Proof
end

