-- ==== Sys2Proof/Decode.lean ====
section
/-! DEFINITION. The reading of table words. The opcode table gives no bits to any of its 42 rows, so no
word spells a command. -/

namespace Sys2Proof

/-- The command that a word spells by the table's bits. No row of spec/opcode_table.json has bits, so
every word is rejected. -/
def decodeTableWord (_nbits _w : Nat) : Option Instr := none

end Sys2Proof
end

