-- ==== Sys2Proof/Machine/State.lean ====
section
/-! DEFINITION. Everything the part holds (INVENTORY.md, State), block by block, as plain data; the
faults and refusals; and the state right after a power-on cold start. -/

namespace Sys2Proof.Machine

/-! ### Enumerated values (spec/11, Figure 11-2) -/

inductive SupplyState where
  | line | gap | settle | parking | parked
  deriving DecidableEq, Repr

inductive EnginePhase where
  | idle | active | held
  deriving DecidableEq, Repr

/-- The states of a job (R77); `opn` is OPEN. -/
inductive JobState where
  | probe | loadwait | opn | load | close | start | replay
  deriving DecidableEq, Repr

inductive Presence where
  | absent | seen | ready
  deriving DecidableEq, Repr

inductive ImageState where
  | blank | partly | held | running
  deriving DecidableEq, Repr

inductive Kind where
  | entrance | saloon | destination
  deriving DecidableEq, Repr

inductive Side where
  | left | right
  deriving DecidableEq, Repr

inductive Motion where
  | standstill | moving
  deriving DecidableEq, Repr

inductive ReleaseSide where
  | none | left | right | both
  deriving DecidableEq, Repr

inductive Release where
  | withheld | granted
  deriving DecidableEq, Repr

inductive LiveStatus where
  | closedLocked | closed | moving | opened | obstructed | fault | ok
  deriving DecidableEq, Repr

/-- The causes of a STARTED notice. -/
inductive Cause where
  | power | resetLine | parkReturn | engine
  deriving DecidableEq, Repr

inductive Finding where
  | blank | loaded
  deriving DecidableEq, Repr

inductive RestoreOutcome where
  | kept | replayed | reloaded
  deriving DecidableEq, Repr

inductive PredictionResult where
  | none | hit | miss
  deriving DecidableEq, Repr

/-- A job's prediction (Figure 5-2). -/
inductive Prediction where
  | none | lost | kept
  deriving DecidableEq, Repr

/-- The reasons of NODE FAILED (R89). -/
inductive Reason where
  | noReply | link | refused | check | noImage | wrongKind | time
  deriving DecidableEq, Repr

inductive StoreOperation where
  | imageClose | configSave
  deriving DecidableEq, Repr

inductive StoreOutcome where
  | ok | check | fault
  deriving DecidableEq, Repr

inductive ParkOutcome where
  | writing | skipped
  deriving DecidableEq, Repr

inductive InjectionKind where
  | corrupt | drop | flip
  deriving DecidableEq, Repr

/-- The status codes of a reply (Figure 9-1). -/
inductive Status where
  | ok | busy | format | range | unknown | state | conflict | order | unreachable
  deriving DecidableEq, Repr

inductive PresenceMode where
  | seen | ready
  deriving DecidableEq, Repr

inductive WritePhase where
  | erasing | receiving | checking | committing
  deriving DecidableEq, Repr

/-- The lane rates in kbit/s (Figure 9-3). -/
inductive LaneRate where
  | r500 | r1000 | r2000
  deriving DecidableEq, Repr

/-- The origins of a job (Figure 5-2). -/
inductive Origin where
  | gap | cold | poll | link | host
  deriving DecidableEq, Repr

/-! ### Pins -/

/-- An output pin that is driven for a piece of work: a lane's driver enable, LADE or LBDE, and the flash chip select, FCSN
(spec/00, Figure 0-4). Each stands with its block, in `LaneState.driver` and `Store.chipSelect`. DESIGN CHOICE (log 33): no
command marks a character on a lane or on the flash, so what is held is the work that the pin serves. -/
inductive Drive where
  /-- The pin is not driven. -/
  | released
  /-- The pin serves the frame or the operation in flight, and is driven for its characters, the first to the last. -/
  | inUse
  deriving DecidableEq, Repr

/-- The pins that are held as levels (spec/00, Figure 0-4). -/
structure Pins where
  /-- VDD is present. -/
  powered : Bool
  /-- RSTN is held low (R171). -/
  rstnLow : Bool
  /-- The level of BAUDSEL (R154). -/
  baudHigh : Bool
  /-- ATTN is driven (low) rather than released (R164). -/
  attn : Bool
  deriving DecidableEq, Repr

/-! ### Supply Watch (spec/01) -/

/-- A filter candidate (R1). -/
structure Candidate where
  level : LineLevel
  rawTime : Time
  deriving DecidableEq, Repr

/-- A gap record (Figure 1-4). -/
structure GapRecord where
  start : Time
  endTime : Option Time
  dark : Nat
  rebounds : Nat
  holdupAtStart : Option Nat
  minHoldup : Option Nat
  deriving DecidableEq, Repr

structure SupplyWatch where
  raw : LineLevel
  candidate : Option Candidate
  confirmed : LineLevel
  state : SupplyState
  horizonMark : Bool
  /-- The holdup level, none for UNKNOWN (R12). -/
  holdup : Option Nat
  heldRise : Bool
  /-- The raw time of the last confirmed fall handed on (R6). -/
  lastFall : Option Time
  openGap : Option GapRecord
  lastGap : Option GapRecord
  deriving DecidableEq, Repr

/-! ### Timebase (spec/02) -/

/-- The 34 purposes of the deadline list, each with its owner and, for the restore limit, its station
(Figure 2-2, R22). -/
inductive Purpose where
  | filterConfirm
  | settle
  | spanHorizon
  | holdupSample
  | responseWindow (lane : Lane)
  | pollInterval (lane : Lane)
  | restoreLimit (station : Nat)
  | interByte
  | storeOperation
  deriving DecidableEq, Repr

/-- An entry of the deadline list (R22, R23). -/
structure Deadline where
  purpose : Purpose
  due : Time
  position : Nat
  deriving DecidableEq, Repr

structure Timebase where
  count : Time
  /-- The list in its order: by remaining time, then by insertion position (R25). -/
  deadlines : List Deadline
  deriving DecidableEq, Repr

/-! ### Retention Estimator (spec/03) -/

/-- The Estimator's two raw times (R31). -/
structure Estimator where
  lastRise : Time
  lastFall : Option Time
  deriving DecidableEq, Repr

/-- The Estimator's values for one station (Figure 3-1): W, S, K, L and V. -/
structure Estimate where
  working : Nat
  reserve : Nat
  carry : Nat
  lost : Bool
  overdraw : Nat
  deriving DecidableEq, Repr

/-! ### Stations and their contexts (spec/04) -/

/-- A station entry without its presence (Figure 4-1); `aliasNo` is the alias. -/
structure Entry where
  number : Nat
  aliasNo : Nat
  lane : Lane
  address : Nat
  kind : Kind
  side : Option Side
  slot : Nat
  restoreClass : Nat
  capacity : Nat
  ratio : Nat
  deriving DecidableEq, Repr

/-- The context fields (Figure 11-7), each as the number that travels, none for absent (R53). -/
structure Fields where
  serviceMode : Option Nat
  chime : Option Nat
  obstruction : Option Nat
  route : Option Nat
  destination : Option Nat
  nextStop : Option Nat
  page : Option Nat
  brightness : Option Nat
  mode : Option Nat
  deriving DecidableEq, Repr

/-- A context record (R53, R54, R58, R60). -/
structure Context where
  fields : Fields
  epoch : Nat
  release : Release
  leaf : Option LiveStatus
  deriving DecidableEq, Repr

/-- What the part keeps for one defined station: its entry, presence, context record and Estimator
values. -/
structure Station where
  entry : Entry
  presence : Presence
  context : Context
  estimate : Estimate
  deriving DecidableEq, Repr

/-- The car state (R59). -/
structure CarState where
  motion : Motion
  side : ReleaseSide
  deriving DecidableEq, Repr

/-- An entry of a push list (R62). -/
structure Push where
  station : Nat
  urgent : Bool
  deriving DecidableEq, Repr

/-! ### Settings (spec/09, Figure 9-3) -/

structure Settings where
  fallFilter : Nat
  riseFilter : Nat
  settleWindow : Nat
  parkLevel : Nat
  laneRateA : LaneRate
  laneRateB : LaneRate
  responseWindowA : Nat
  responseWindowB : Nat
  retryLimit : Nat
  strictA : Bool
  strictB : Bool
  restoreLimit : Nat
  pollInterval : Nat
  groupLoading : Bool
  adaptation : Bool
  presenceMode : PresenceMode
  /-- The enable of the notice kind of code k in bit k - 1 (spec/11, 11.3). -/
  noticeMask : BitVec 11
  deriving DecidableEq, Repr

/-! ### Restore Engine (spec/05) -/

/-- What a STATE REPORT carries (Figure 11-9). -/
structure Report where
  state : ImageState
  kind : Kind
  tag : Word
  generation : Nat
  fill : Nat
  epoch : Nat
  deriving DecidableEq, Repr

/-- A job record (Figure 5-2). Its group membership is read from its lane's holder, and its restore-limit
deadline from the deadline list (log 28). -/
structure Job where
  station : Nat
  /-- The model's number of this record: each job is a record of its own (R70). -/
  id : Nat
  origin : Origin
  prediction : Prediction
  result : PredictionResult
  state : JobState
  inFlight : Bool
  pass : Option Nat
  fill : Nat
  needsOpen : Bool
  loaded : Bool
  blocksSent : Nat
  retriesUsed : Nat
  restarts : Nat
  mismatches : Nat
  finding : Option Report
  deriving DecidableEq, Repr

structure Engine where
  phase : EnginePhase
  pass : Nat
  queue : List Job
  nextJob : Nat
  restored : Nat
  failed : Nat
  runStart : Time
  deriving DecidableEq, Repr

/-! ### Lanes (spec/06, spec/07) -/

/-- The kinds of lane step (Figure 11-9); `opn` is OPEN. -/
inductive StepKind where
  | probe | opn | block | fill | close | start | context | poll
  deriving DecidableEq, Repr

/-- The owner of a step (Figure 6-2). `group` is a BLOCK frame to address 31 of the lane's present group;
`orphan` is one whose group has ended while the frame was in flight (log 27). -/
inductive Owner where
  | job (station id : Nat)
  | push (station : Nat)
  | poll (station : Nat)
  | query (station : Nat)
  | group
  | orphan
  deriving DecidableEq, Repr

/-- The error endings of an attempt (Figure 6-1). -/
inductive Ending where
  | crc | echo | busy | noReply | sequenceFault
  deriving DecidableEq, Repr

/-- An in-flight transaction (spec/06, opening list). -/
structure Txn where
  step : StepKind
  owner : Owner
  /-- The station the frame goes to, none for address 31. -/
  station : Option Nat
  address : Nat
  sequence : Nat
  /-- The lane rate read at the frame start (R98). -/
  rate : LaneRate
  /-- The bytes put on the lane, none for a frame that a DROP injection withheld (R115). -/
  frame : Option (List Byte)
  attempt : Nat
  endings : List Ending
  /-- The retry limit kept for the step (R101). -/
  limit : Nat
  /-- A stale reply was seen in this attempt (R99). -/
  stale : Bool
  /-- For a BLOCK frame: the block index and the buffer it is sent from. -/
  index : Nat
  buffer : Nat
  deriving DecidableEq, Repr

inductive TurnKind where
  | none | load | other
  deriving DecidableEq, Repr

/-- A load holder (R119): one job, or a load group with its members in queue order, its group count and
its fill round. Members are named by their stations, since a station has at most one job (R71). -/
inductive Holder where
  | single (station : Nat)
  | group (members : List Nat) (count : Nat) (round : Option (List Nat))
  deriving DecidableEq, Repr

structure Injection where
  kind : InjectionKind
  count : Nat
  deriving DecidableEq, Repr

/-- What a reply names of the frame that it answers: its destination and its sequence number (R96, R99). -/
structure FrameId where
  address : Nat
  sequence : Nat
  deriving DecidableEq, Repr

structure LaneState where
  seq : Nat
  txn : Option Txn
  /-- The driver enable of the lane, LADE or LBDE: in use from the frame start of a frame that is put on the lane (6.1, R98),
  and released at the latest when its transaction ends or is abandoned (R116), and while RSTN is low (R171). -/
  driver : Drive
  lastTurn : TurnKind
  holder : Option Holder
  cursor : Option Nat
  pendingPoll : Option Nat
  injection : Option Injection
  /-- The frames of abandoned transactions, whose late replies are ignored (R65, R99, log 47). -/
  abandoned : List FrameId
  deriving DecidableEq, Repr

/-! ### Store Interface (spec/08) -/

/-- The image of a slot that is VALID or SUSPECT (8.3). -/
structure Image where
  kind : Kind
  tag : Word
  generation : Nat
  length : Nat
  crc : Word
  deriving DecidableEq, Repr

/-- A slot record. In EMPTY and WRITING the image fields and the mismatch count are absent (8.3). -/
inductive Slot where
  | empty
  | writing
  | valid (image : Image) (mismatches : Nat)
  | suspect (image : Image) (mismatches : Nat)
  deriving DecidableEq, Repr

/-- The owners of block buffers, which are also the requesters of the wait list (R143). -/
inductive BufferOwner where
  | lane (lane : Lane)
  | imageWrite
  | parkWriter
  deriving DecidableEq, Repr

inductive BufferState where
  | free | filling | full | sending | programming
  deriving DecidableEq, Repr

/-- A buffer record (8.4). `released` marks a buffer given back while an operation still fills or
empties it: it stays owned until that operation ends (R136, R144). -/
structure Buffer where
  owner : Option BufferOwner
  slot : Nat
  block : Nat
  state : BufferState
  crc : Half
  data : List Byte
  released : Bool
  deriving DecidableEq, Repr

/-- A request of the buffer wait list (R143). -/
structure BufferRequest where
  who : BufferOwner
  count : Nat
  deriving DecidableEq, Repr

/-- A flash operation (R138): its region and region block, or its region and sector. -/
inductive FlashCommand where
  | read (region block : Nat)
  | program (region block : Nat) (data : List Byte)
  | erase (region sector : Nat)
  | status
  deriving DecidableEq, Repr

/-- The requesters of flash operations (R138); `recovery` asks for the STATUS after a timeout (R140). -/
inductive Requester where
  | lane (lane : Lane) (buffer : Nat)
  | imageWrite
  | configSave
  | markWriter (slot : Nat)
  | loader
  | parkWriter
  | recovery
  deriving DecidableEq, Repr

structure FlashOp where
  command : FlashCommand
  who : Requester
  deriving DecidableEq, Repr

/-- The image write record (8.5). `readIndex` and `crcSoFar` are the progress of the readback (R147). -/
structure ImageWrite where
  slot : Nat
  image : Image
  phase : WritePhase
  nextIndex : Nat
  sectorsErased : Nat
  readIndex : Nat
  crcSoFar : Word
  deriving DecidableEq, Repr

inductive SavePhase where
  | erasing
  | programming (block : Nat)
  | reading (block : Nat)
  deriving DecidableEq, Repr

/-- The config save: the copied record as it goes to flash, and how far the save has come (R151). -/
structure ConfigSave where
  record : List Byte
  phase : SavePhase
  deriving DecidableEq, Repr

structure Store where
  /-- The records of slots 1 to 15, in order. -/
  slots : List Slot
  /-- The four buffer records. -/
  buffers : List Buffer
  waitList : List BufferRequest
  queue : List FlashOp
  running : Option FlashOp
  /-- The flash chip select, FCSN: in use while an operation runs (8.1, R138), and released while RSTN is low (R171). -/
  chipSelect : Drive
  imageWrite : Option ImageWrite
  configSave : Option ConfigSave
  markList : List Nat
  prepared : Bool
  deriving DecidableEq, Repr

/-! ### Park writer and cold start loader (spec/10) -/

inductive ParkPhase where
  | none | waiting | page1 | page2 | ended
  deriving DecidableEq, Repr

structure Park where
  phase : ParkPhase
  image : List Byte
  outcome : Option ParkOutcome
  deriving DecidableEq, Repr

inductive LoadingStep where
  | status | config | headers | park | erase | ended
  deriving DecidableEq, Repr

structure Loader where
  step : LoadingStep
  configFinding : Finding
  parkFinding : Finding
  /-- The cause of the cold start, for the STARTED notice at the end of loading (R173). -/
  cause : Cause
  /-- The first block of a record of two blocks, once read. -/
  held : List Byte
  /-- The slot whose header is read next (R172). -/
  nextSlot : Nat
  deriving DecidableEq, Repr

/-! ### Control Link (spec/09) -/

/-- What a notice says (Figure 11-6). -/
inductive NoticeBody where
  | started (cause : Cause) (config park : Finding)
  | gapBegun (start : Time) (holdup : Option Nat)
  | gapEnded (start : Time) (endTime : Option Time) (dark rebounds : Nat)
  | passStarted (pass new carried : Nat)
  | nodeRestored (station pass : Nat) (outcome : RestoreOutcome) (result : PredictionResult) (blocksSent : Nat)
  | nodeFailed (station pass : Nat) (reason : Reason) (state : JobState)
  | passComplete (pass restored failed span : Nat)
  | presence (station : Nat) (presence : Presence)
  | queryReport (station : Nat) (report : Report) (live : LiveStatus)
  | queryNoReply (station : Nat)
  | queryUnreachable (station : Nat)
  | parking (holdup : Option Nat) (outcome : ParkOutcome)
  | storeResult (operation : StoreOperation) (slot : Nat) (outcome : StoreOutcome)
  deriving DecidableEq, Repr

/-- A notice with its notice number (R161). -/
structure Notice where
  number : Nat
  body : NoticeBody
  deriving DecidableEq, Repr

/-- A request: its tag, its kind code and its payload (Figure 11-3). -/
structure Request where
  tag : Byte
  kind : Byte
  payload : List Byte
  deriving DecidableEq, Repr

inductive Receiver where
  | idle
  | receiving (bytes : List Byte)
  | discarding
  deriving DecidableEq, Repr

structure Link where
  /-- 921,600 baud rather than 115,200 (R154). -/
  rateHigh : Bool
  receiver : Receiver
  /-- The held requests, oldest first (R156). -/
  held : List Request
  /-- The reply frame in transmission (R157). -/
  reply : Option (List Byte)
  notices : List Notice
  nextNumber : Nat
  lastFetched : Option Notice
  overrun : Bool
  linkFault : Bool
  noticeOverflow : Bool
  deriving DecidableEq, Repr

/-! ### The serial flash (spec/08, 8.1) -/

/-- An operation that the device still runs although the part no longer counts it as running: it has failed
(R140), or else a cold start or a loss of supply has cut it off (R170, R171). -/
structure Unfinished where
  op : FlashOp
  failed : Bool
  deriving DecidableEq, Repr

/-- The flash device. `cells` is its memory in canonical form: addresses strictly rising, no byte equal
to 0xFF, which is what an unlisted address reads as. `torn` lists the blocks whose program the manual says
leaves a record that is not good (R149, R151, R170), and `busy` the operation that the device still runs
although the part no longer counts it as running (R140, R171). -/
structure Flash where
  cells : List Host.Cell
  torn : List Nat
  busy : Option Unfinished
  deriving DecidableEq, Repr

/-! ### The whole -/

structure State where
  pins : Pins
  supply : SupplyWatch
  timebase : Timebase
  estimator : Estimator
  /-- The defined stations, in station order. -/
  stations : List Station
  car : CarState
  pushA : List Push
  pushB : List Push
  settings : Settings
  engine : Engine
  laneA : LaneState
  laneB : LaneState
  /-- The station of the pending NODE QUERY (R114). -/
  query : Option Nat
  store : Store
  park : Park
  loader : Loader
  link : Link
  flash : Flash
  /-- The model's own: how many free values have been drawn (log 9, log 19). -/
  free : Nat
  /-- The commands that wait, first in, first out. -/
  pending : List Instr
  deriving DecidableEq, Repr

/-- The faults of a command. There are none: the manual gives every command an effect in every state. -/
inductive Fault where
  deriving DecidableEq, Repr

/-- The refusals of a command. -/
inductive Refusal where
  /-- The model has no meaning for the command yet. Safe: nothing is claimed of it. No arm of exec raises
  it. -/
  | notModelled (mnemonic : String)
  deriving DecidableEq, Repr

/-! ### The state right after a power-on cold start -/

/-- The defaults of Figure 9-3. -/
def Settings.default : Settings where
  fallFilter := 2
  riseFilter := 10
  settleWindow := 150
  parkLevel := 4
  laneRateA := .r1000
  laneRateB := .r1000
  responseWindowA := 4
  responseWindowB := 4
  retryLimit := 3
  strictA := false
  strictB := false
  restoreLimit := 30000
  pollInterval := 50
  groupLoading := true
  adaptation := true
  presenceMode := .ready
  noticeMask := 0x7FF#11

/-- A lane at cold start (R118). -/
def LaneState.cold : LaneState where
  seq := 0
  txn := none
  driver := .released
  lastTurn := .none
  holder := none
  cursor := none
  pendingPoll := none
  injection := none
  abandoned := []

/-- A buffer that is FREE and unowned (R144). -/
def Buffer.unowned : Buffer where
  owner := none
  slot := 0
  block := 0
  state := .free
  crc := 0
  data := []
  released := false

/-- The state right after a cold start of cause POWER with LINEP PRESENT, RSTN high and BAUDSEL low, a
flash with every byte erased, and the loader's STATUS issued (R17, R28, R43, R59, R66, R68, R118, R153,
R167, R171; log 4 and log 38). -/
def State.reset : State where
  pins := { powered := true, rstnLow := false, baudHigh := false, attn := false }
  supply :=
    { raw := .present, candidate := none, confirmed := .present, state := .settle, horizonMark := false,
      holdup := none, heldRise := false, lastFall := none, openGap := none, lastGap := none }
  timebase :=
    { count := 0
      deadlines :=
        [{ purpose := .holdupSample, due := 2, position := 3 }, { purpose := .settle, due := 150, position := 1 },
         { purpose := .spanHorizon, due := 65535, position := 2 }] }
  estimator := { lastRise := 0, lastFall := none }
  stations := []
  car := { motion := .moving, side := .none }
  pushA := []
  pushB := []
  settings := Settings.default
  engine := { phase := .held, pass := 0, queue := [], nextJob := 0, restored := 0, failed := 0, runStart := 0 }
  laneA := LaneState.cold
  laneB := LaneState.cold
  query := none
  store :=
    { slots := List.replicate 15 Slot.empty, buffers := List.replicate 4 Buffer.unowned, waitList := [], queue := [],
      running := some { command := .status, who := .loader }, chipSelect := .inUse, imageWrite := none,
      configSave := none, markList := [], prepared := false }
  park := { phase := .none, image := [], outcome := none }
  loader :=
    { step := .status, configFinding := .blank, parkFinding := .blank, cause := .power, held := [], nextSlot := 1 }
  link :=
    { rateHigh := false, receiver := .idle, held := [], reply := none, notices := [], nextNumber := 0,
      lastFetched := none, overrun := false, linkFault := false, noticeOverflow := false }
  flash := { cells := [], torn := [], busy := none }
  free := 0
  pending := []

end Sys2Proof.Machine
end

