-- ==== Sys2Proof/Machine/Bytes.lean ====
section
/-! DEFINITION. Byte order and the two checks (spec/11, 11.1 and 11.2), and the codes of the enumerated
values (Figure 11-2). -/

namespace Sys2Proof.Machine

/-! ### Little-endian fields -/

/-- A byte holding a number modulo 256. -/
def byte (n : Nat) : Byte := BitVec.ofNat 8 n

/-- A two-byte field, least significant byte first. -/
def le16 (n : Nat) : List Byte := [byte n, byte (n / 256)]

/-- A four-byte field, least significant byte first. -/
def le32 (w : Word) : List Byte :=
  [byte w.toNat, byte (w.toNat / 256), byte (w.toNat / 65536), byte (w.toNat / 16777216)]

/-- The number in a two-byte field. -/
def nat16 (b0 b1 : Byte) : Nat := b0.toNat + 256 * b1.toNat

/-- The word in a four-byte field. -/
def word32 (b0 b1 b2 b3 : Byte) : Word :=
  BitVec.ofNat 32 (b0.toNat + 256 * b1.toNat + 65536 * b2.toNat + 16777216 * b3.toNat)

/-- A flag or mark: 0 for clear, 1 for set. -/
def flagByte (b : Bool) : Byte := if b then 1 else 0

/-- The byte of a value that is absent (spec/11, 11.1). -/
def absentByte : Byte := 0xFF

/-- `n` bytes of all ones. -/
def ones (n : Nat) : List Byte := List.replicate n 0xFF

/-- Bytes brought to exactly 256 by cutting or by filling with all ones. -/
def toBlock (bytes : List Byte) : List Byte := (bytes ++ ones 256).take 256

/-! ### The checks (11.2) -/

/-- `k n`, written so that the kernel evaluates `n` before it goes on: a long check is then evaluated
byte by byte. -/
def strictly (n : Nat) (k : Nat → Nat) : Nat :=
  match n with
  | 0 => k 0
  | m + 1 => k (m + 1)

/-- A left fold over bytes that evaluates its accumulator at each byte. -/
def foldBytes (f : Nat → Byte → Nat) : List Byte → Nat → Nat
  | [], c => c
  | b :: bs, c => strictly (f c b) (foldBytes f bs)

/-- One bit of the CRC-16: polynomial 0x1021, not reflected. -/
def crc16Bit (c : Nat) : Nat := if 0x8000 ≤ c then ((2 * c) % 65536) ^^^ 0x1021 else 2 * c

/-- One byte of the CRC-16. -/
def crc16Byte (c : Nat) (b : Byte) : Nat :=
  crc16Bit (crc16Bit (crc16Bit (crc16Bit (crc16Bit (crc16Bit (crc16Bit (crc16Bit (c ^^^ (256 * b.toNat)))))))))

/-- The CRC-16: initial value 0xFFFF, no final XOR. -/
def crc16 (bytes : List Byte) : Half := BitVec.ofNat 16 (foldBytes crc16Byte bytes 0xFFFF)

/-- One bit of the CRC-32: reflected polynomial 0xEDB88320. -/
def crc32Bit (c : Nat) : Nat := if c % 2 = 1 then (c / 2) ^^^ 0xEDB88320 else c / 2

/-- One byte of the CRC-32. -/
def crc32Byte (c : Nat) (b : Byte) : Nat :=
  crc32Bit (crc32Bit (crc32Bit (crc32Bit (crc32Bit (crc32Bit (crc32Bit (crc32Bit (c ^^^ b.toNat))))))))

/-- The register of the CRC-32 before the first byte. -/
def crc32Start : Word := 0xFFFFFFFF#32

/-- The register of the CRC-32 after some more bytes. -/
def crc32Feed (c : Word) (bytes : List Byte) : Word := BitVec.ofNat 32 (foldBytes crc32Byte bytes c.toNat)

/-- The CRC-32 that a register stands for: the final XOR. -/
def crc32Final (c : Word) : Word := c ^^^ 0xFFFFFFFF#32

/-- The CRC-32 of some bytes. -/
def crc32 (bytes : List Byte) : Word := crc32Final (crc32Feed crc32Start bytes)

/-! ### Codes (Figure 11-2) -/

def SupplyState.code : SupplyState → Nat
  | .line => 0 | .gap => 1 | .settle => 2 | .parking => 3 | .parked => 4

def EnginePhase.code : EnginePhase → Nat
  | .idle => 0 | .active => 1 | .held => 2

def JobState.code : JobState → Nat
  | .probe => 0 | .loadwait => 1 | .opn => 2 | .load => 3 | .close => 4 | .start => 5 | .replay => 6

def Presence.code : Presence → Nat
  | .absent => 0 | .seen => 1 | .ready => 2

def Slot.code : Slot → Nat
  | .empty => 0 | .writing => 1 | .valid _ _ => 2 | .suspect _ _ => 3

def ImageState.code : ImageState → Nat
  | .blank => 0 | .partly => 1 | .held => 2 | .running => 3

def ImageState.ofCode : Nat → Option ImageState
  | 0 => some .blank | 1 => some .partly | 2 => some .held | 3 => some .running | _ => none

def Kind.code : Kind → Nat
  | .entrance => 0 | .saloon => 1 | .destination => 2

def Kind.ofCode : Nat → Option Kind
  | 0 => some .entrance | 1 => some .saloon | 2 => some .destination | _ => none

def laneCode : Lane → Nat
  | .a => 0 | .b => 1

def laneOfCode : Nat → Option Lane
  | 0 => some .a | 1 => some .b | _ => none

def Side.code : Side → Nat
  | .left => 0 | .right => 1

/-- The side byte: 0xFF for no side. -/
def sideByte : Option Side → Byte
  | none => absentByte
  | some s => byte s.code

/-- What a side byte says: none for a byte that is no side byte (R175). -/
def sideOfByte (b : Byte) : Option (Option Side) :=
  match b.toNat with
  | 0 => some (some .left) | 1 => some (some .right) | 0xFF => some none | _ => none

def Motion.code : Motion → Nat
  | .standstill => 0 | .moving => 1

def Motion.ofCode : Nat → Option Motion
  | 0 => some .standstill | 1 => some .moving | _ => none

def ReleaseSide.code : ReleaseSide → Nat
  | .none => 0 | .left => 1 | .right => 2 | .both => 3

def ReleaseSide.ofCode : Nat → Option ReleaseSide
  | 0 => some .none | 1 => some .left | 2 => some .right | 3 => some .both | _ => Option.none

def Release.code : Release → Nat
  | .withheld => 0 | .granted => 1

def LiveStatus.code : LiveStatus → Nat
  | .closedLocked => 0 | .closed => 1 | .moving => 2 | .opened => 3 | .obstructed => 4 | .fault => 5 | .ok => 6

def LiveStatus.ofCode : Nat → Option LiveStatus
  | 0 => some .closedLocked | 1 => some .closed | 2 => some .moving | 3 => some .opened
  | 4 => some .obstructed | 5 => some .fault | 6 => some .ok | _ => none

def Cause.code : Cause → Nat
  | .power => 0 | .resetLine => 1 | .parkReturn => 2 | .engine => 3

def Finding.code : Finding → Nat
  | .blank => 0 | .loaded => 1

def RestoreOutcome.code : RestoreOutcome → Nat
  | .kept => 0 | .replayed => 1 | .reloaded => 2

def PredictionResult.code : PredictionResult → Nat
  | .none => 0 | .hit => 1 | .miss => 2

def Reason.code : Reason → Nat
  | .noReply => 0 | .link => 1 | .refused => 2 | .check => 3 | .noImage => 4 | .wrongKind => 5 | .time => 6

def StoreOperation.code : StoreOperation → Nat
  | .imageClose => 0 | .configSave => 1

def StoreOutcome.code : StoreOutcome → Nat
  | .ok => 0 | .check => 1 | .fault => 2

def ParkOutcome.code : ParkOutcome → Nat
  | .writing => 0 | .skipped => 1

def InjectionKind.ofCode : Nat → Option InjectionKind
  | 0 => some .corrupt | 1 => some .drop | 2 => some .flip | _ => none

def Status.code : Status → Nat
  | .ok => 0 | .busy => 1 | .format => 2 | .range => 3 | .unknown => 4 | .state => 5 | .conflict => 6
  | .order => 7 | .unreachable => 8

def PresenceMode.code : PresenceMode → Nat
  | .seen => 0 | .ready => 1

def PresenceMode.ofCode : Nat → Option PresenceMode
  | 0 => some .seen | 1 => some .ready | _ => none

def WritePhase.code : WritePhase → Nat
  | .erasing => 0 | .receiving => 1 | .checking => 2 | .committing => 3

def LaneRate.kbit : LaneRate → Nat
  | .r500 => 500 | .r1000 => 1000 | .r2000 => 2000

def LaneRate.ofKbit : Nat → Option LaneRate
  | 500 => some .r500 | 1000 => some .r1000 | 2000 => some .r2000 | _ => none

/-- An off-or-on value. -/
def switchOf : Nat → Option Bool
  | 0 => some false | 1 => some true | _ => none

/-- A flag byte: only 0 and 1 (R175). -/
def flagOf (b : Byte) : Option Bool := switchOf b.toNat

/-- The holdup level byte: 0xFF for UNKNOWN (Figure 11-1). -/
def holdupByte : Option Nat → Byte
  | none => absentByte
  | some n => byte n

/-- A number brought to the nearest limit of its range (R165). -/
def clamp (low high n : Nat) : Nat := max low (min high n)

end Sys2Proof.Machine
end

