-- ==== Sys2Proof/Machine/Timebase.lean ====
section
/-! DEFINITION. The Timebase: due times, the deadline list, and the delivery of expiries (spec/02). -/

namespace Sys2Proof.Machine

/-- A time is due when the count minus it, modulo 2^32, is less than 2^31 (R21). -/
def isDue (count x : Time) : Bool := (count - x).toNat < 2147483648

/-- The remaining time of a due time (R21). R21 and Figure 2-1 give none to a time that is due; DESIGN CHOICE
(log 40): it is zero or less by the time that has passed since, so that an entry set already overdue stands ahead
of every entry due later. -/
def remaining (count x : Time) : Int :=
  if isDue count x then -((count - x).toNat : Int) else ((x - count).toNat : Int)

/-- The next insertion position: after every entry already on the list (R23). -/
def nextPosition (ds : List Deadline) : Nat := (ds.map (·.position)).foldl max 0 + 1

/-- An entry put in its place: after every entry due no later than it (R25). -/
def insertDeadline (count : Time) (e : Deadline) : List Deadline → List Deadline
  | [] => [e]
  | d :: ds =>
    if remaining count e.due < remaining count d.due then e :: d :: ds
    else d :: insertDeadline count e ds

/-- The list without the entry of an identity (R24). -/
def withoutPurpose (p : Purpose) (ds : List Deadline) : List Deadline := ds.filter (·.purpose ≠ p)

/-- An entry set, replacing one of the same identity (R23). -/
def Timebase.set (t : Timebase) (p : Purpose) (due : Time) : Timebase :=
  let rest := withoutPurpose p t.deadlines
  { t with deadlines := insertDeadline t.count { purpose := p, due := due, position := nextPosition rest } rest }

/-- An entry removed; removing one that is not there has no effect (R24). -/
def Timebase.remove (t : Timebase) (p : Purpose) : Timebase :=
  { t with deadlines := withoutPurpose p t.deadlines }

/-- The expiry of an identity, if its entry stands at the head of the list and is due: the list without
it, and the due time (R25, log 2). -/
def Timebase.expire (t : Timebase) (p : Purpose) : Option (Timebase × Time) :=
  match t.deadlines with
  | [] => none
  | d :: ds => if d.purpose = p && isDue t.count d.due then some ({ t with deadlines := ds }, d.due) else none

/-- The entry at the head of the list is due, and its expiry is the next thing to be delivered (R25). -/
def Timebase.expiryDue (t : Timebase) : Bool :=
  match t.deadlines with
  | [] => false
  | d :: _ => isDue t.count d.due

/-- One millisecond (R20). An entry is delivered as soon as it falls due (R25), so that the next millisecond cannot
pass before it: while the head is due the count stays (log 1). -/
def Timebase.tick (t : Timebase) : Timebase :=
  if t.expiryDue then t else { t with count := t.count + 1 }

/-- A span of whole milliseconds as a time. -/
def ms (n : Nat) : Time := BitVec.ofNat 32 n

def setDeadline (p : Purpose) (due : Time) (s : State) : State := { s with timebase := s.timebase.set p due }

/-- A deadline set due some milliseconds from now. -/
def setDeadlineIn (p : Purpose) (delay : Nat) (s : State) : State := setDeadline p (s.timebase.count + ms delay) s

def removeDeadline (p : Purpose) (s : State) : State := { s with timebase := s.timebase.remove p }

/-- What an expiry command does: the owner acts on the expiry, given the expired due time; an entry that
is not at the head of the list, or not due, is not delivered (R25, log 2). -/
def onExpiry (p : Purpose) (act : Time → State → State) (s : State) : State :=
  match s.timebase.expire p with
  | none => s
  | some (t, due) => act due { s with timebase := t }

/-- The time from one raw time to a later one, modulo 2^32 (R20, R21). -/
def elapsed (later earlier : Time) : Nat := (later - earlier).toNat

end Sys2Proof.Machine
end

