-- ==== Sys2Proof/Machine/Flags.lean ====
section
/-! DEFINITION. The Control Link's notice queue, its numbering and mask, the attention line and the three
status flags (spec/09, 9.5; R161 to R164, R173). -/

namespace Sys2Proof.Machine

/-- The code of a notice's kind (Figure 11-6). -/
def NoticeBody.code : NoticeBody → Nat
  | .started _ _ _ => 1
  | .gapBegun _ _ => 2
  | .gapEnded _ _ _ _ => 3
  | .passStarted _ _ _ => 4
  | .nodeRestored _ _ _ _ _ => 5
  | .nodeFailed _ _ _ _ => 6
  | .passComplete _ _ _ _ => 7
  | .presence _ _ => 8
  | .queryReport _ _ _ => 9
  | .queryNoReply _ => 9
  | .queryUnreachable _ => 9
  | .parking _ _ => 10
  | .storeResult _ _ _ => 11

/-- The notice mask enables a kind; the enable for STARTED is held on (R162). -/
def noticeEnabled (mask : BitVec 11) (code : Nat) : Bool := code == 1 || mask.getLsbD (code - 1)

/-- Loading has ended, so notices are created and every request kind is served (R158, R173). -/
def State.loadingEnded (s : State) : Bool := s.loader.step = .ended

/-- The notice queue with one more notice created: it takes a number whether it joins or is discarded with
notice-overflow (R161). -/
def Link.create (l : Link) (b : NoticeBody) : Link :=
  let n : Notice := { number := l.nextNumber, body := b }
  let l' := { l with nextNumber := (l.nextNumber + 1) % 65536 }
  if l.notices.length < Config.noticeCapacity then { l' with notices := l.notices ++ [n] }
  else { l' with noticeOverflow := true }

/-- A notice posted by a block: not created before STARTED has been posted (R173) or where the mask
disables its kind (R161); one that joins the queue drives ATTN (R164). -/
def postNotice (b : NoticeBody) (s : State) : State :=
  if s.loadingEnded && noticeEnabled s.settings.noticeMask b.code then
    { s with
      link := s.link.create b
      pins := { s.pins with attn := s.pins.attn || decide (s.link.notices.length < Config.noticeCapacity) } }
  else s

/-- The link-fault flag set (R155, R156). -/
def setLinkFault (s : State) : State := { s with link := { s.link with linkFault := true } }

/-- The overrun flag set (R156). -/
def setOverrun (s : State) : State := { s with link := { s.link with overrun := true } }

/-- The three flags cleared (R160). -/
def clearFlags (s : State) : State :=
  { s with link := { s.link with overrun := false, linkFault := false, noticeOverflow := false } }

/-- The oldest notice removed and kept as the last fetched; ATTN is released with the last one (R163,
R164). -/
def takeNotice (s : State) : Option Notice × State :=
  match s.link.notices with
  | [] => (none, s)
  | n :: rest =>
    (some n,
      { s with
        link := { s.link with notices := rest, lastFetched := some n }
        pins := { s.pins with attn := !rest.isEmpty } })

end Sys2Proof.Machine
end

