-- ==== Sys2Proof/Machine/Operands.lean ====
section
/-! DEFINITION. What the bytes of frames and records say (spec/11): context fields, settings, station
entries, control frames and lane frames, each read and written in one place. -/

namespace Sys2Proof.Machine

/-- The byte at an index, 0 past the end. -/
def byteAt (bytes : List Byte) (i : Nat) : Byte := bytes.getD i 0

/-- The number in the byte at an index. -/
def numAt (bytes : List Byte) (i : Nat) : Nat := (byteAt bytes i).toNat

/-- The two-byte number at an index. -/
def num16At (bytes : List Byte) (i : Nat) : Nat := nat16 (byteAt bytes i) (byteAt bytes (i + 1))

/-- The word at an index. -/
def wordAt (bytes : List Byte) (i : Nat) : Word :=
  word32 (byteAt bytes i) (byteAt bytes (i + 1)) (byteAt bytes (i + 2)) (byteAt bytes (i + 3))

/-! ### Context fields (Figures 4-3 and 11-7) -/

/-- A record with every field absent (R53). -/
def Fields.blank : Fields where
  serviceMode := none
  chime := none
  obstruction := none
  route := none
  destination := none
  nextStop := none
  page := none
  brightness := none
  mode := none

/-- The field of a code (Figure 11-7). -/
def Fields.get (f : Fields) : Nat → Option Nat
  | 0 => f.serviceMode
  | 1 => f.chime
  | 2 => f.obstruction
  | 3 => f.route
  | 4 => f.destination
  | 5 => f.nextStop
  | 6 => f.page
  | 7 => f.brightness
  | 8 => f.mode
  | _ => none

/-- The field of a code written; a code that the figure does not list changes nothing. -/
def Fields.put (f : Fields) (code : Nat) (v : Option Nat) : Fields :=
  match code with
  | 0 => { f with serviceMode := v }
  | 1 => { f with chime := v }
  | 2 => { f with obstruction := v }
  | 3 => { f with route := v }
  | 4 => { f with destination := v }
  | 5 => { f with nextStop := v }
  | 6 => { f with page := v }
  | 7 => { f with brightness := v }
  | 8 => { f with mode := v }
  | _ => f

/-- The field codes, in order. -/
def fieldCodes : List Nat := [0, 1, 2, 3, 4, 5, 6, 7, 8]

/-- A field belongs to a kind (Figure 11-7). -/
def fieldBelongs (k : Kind) (code : Nat) : Bool :=
  match k with
  | .entrance => code ≤ 2
  | .saloon => 3 ≤ code && code ≤ 8
  | .destination => code = 3 || code = 4 || code = 7 || code = 8

/-- The bytes of a field's value (Figure 11-7). -/
def fieldWidth (code : Nat) : Nat := if code = 3 || code = 4 then 2 else 1

/-- A value for a field: clamped to its nearest limit for the chime profile, obstruction sensitivity, page
and brightness; none where a value of the others lies outside Figure 4-3 (R55). -/
def judgeField (code v : Nat) : Option Nat :=
  match code with
  | 0 => if v ≤ 2 then some v else none
  | 1 => some (min v 7)
  | 2 => some (min v 15)
  | 3 => if v ≤ 999 then some v else none
  | 4 => if v ≤ 4095 then some v else none
  | 5 => if v ≤ 127 then some v else none
  | 6 => some (min v 15)
  | 7 => some (min v 15)
  | 8 => if v ≤ 1 then some v else none
  | _ => none

/-- A number in as many bytes as a field's value has. -/
def valueBytes (code v : Nat) : List Byte := if fieldWidth code = 2 then le16 v else [byte v]

/-- The field mask: the field of code k present when bit k is set (spec/11, 11.4). -/
def Fields.mask (f : Fields) : Nat :=
  fieldCodes.foldl (fun m k => if (f.get k).isSome then m + 2 ^ k else m) 0

/-- The values of the present fields in code order. -/
def Fields.values (f : Fields) : List Byte :=
  fieldCodes.flatMap fun k => match f.get k with
    | none => []
    | some v => valueBytes k v

/-- The field mask and the values of the present fields. -/
def Fields.bytes (f : Fields) : List Byte := le16 f.mask ++ f.values

/-! ### Settings (Figure 9-3) -/

/-- The notice mask with its STARTED enable held on (R162). -/
def heldOn (v : Nat) : BitVec 11 := BitVec.ofNat 11 v ||| 1#11

/-- A setting written by its code: a numeric value clamped to its range, and none where an enumerated
value is not one of those Figure 9-3 lists (R165). -/
def Settings.put (s : Settings) (code v : Nat) : Option Settings :=
  match code with
  | 0 => some { s with fallFilter := clamp 1 15 v }
  | 1 => some { s with riseFilter := clamp 1 255 v }
  | 2 => some { s with settleWindow := clamp 20 2000 v }
  | 3 => some { s with parkLevel := clamp 1 14 v }
  | 4 => (LaneRate.ofKbit v).map fun r => { s with laneRateA := r }
  | 5 => (LaneRate.ofKbit v).map fun r => { s with laneRateB := r }
  | 6 => some { s with responseWindowA := clamp 1 255 v }
  | 7 => some { s with responseWindowB := clamp 1 255 v }
  | 8 => some { s with retryLimit := clamp 0 7 v }
  | 9 => (switchOf v).map fun b => { s with strictA := b }
  | 10 => (switchOf v).map fun b => { s with strictB := b }
  | 11 => some { s with restoreLimit := clamp 1000 65535 v }
  | 12 => some { s with pollInterval := clamp 5 1000 v }
  | 13 => (switchOf v).map fun b => { s with groupLoading := b }
  | 14 => (switchOf v).map fun b => { s with adaptation := b }
  | 15 => (PresenceMode.ofCode v).map fun m => { s with presenceMode := m }
  | 16 => some { s with noticeMask := heldOn v }
  | _ => none

/-- The value of a setting by its code. -/
def Settings.value (s : Settings) : Nat → Nat
  | 0 => s.fallFilter
  | 1 => s.riseFilter
  | 2 => s.settleWindow
  | 3 => s.parkLevel
  | 4 => s.laneRateA.kbit
  | 5 => s.laneRateB.kbit
  | 6 => s.responseWindowA
  | 7 => s.responseWindowB
  | 8 => s.retryLimit
  | 9 => s.strictA.toNat
  | 10 => s.strictB.toNat
  | 11 => s.restoreLimit
  | 12 => s.pollInterval
  | 13 => s.groupLoading.toNat
  | 14 => s.adaptation.toNat
  | 15 => s.presenceMode.code
  | 16 => s.noticeMask.toNat
  | _ => 0

/-- The setting codes, in order. -/
def settingCodes : List Nat := [0, 1, 2, 3, 4, 5, 6, 7, 8, 9, 10, 11, 12, 13, 14, 15, 16]

/-- The bytes of a setting in the config record (Figure 11-11). -/
def settingWidth (code : Nat) : Nat :=
  if code = 2 || code = 4 || code = 5 || code = 11 || code = 12 || code = 16 then 2 else 1

/-- The settings in setting-code order, each at its width of Figure 11-11. -/
def Settings.bytes (s : Settings) : List Byte :=
  settingCodes.flatMap fun c => if settingWidth c = 2 then le16 (s.value c) else [byte (s.value c)]

/-- Settings read in setting-code order: the codes left, the bytes from the first of them on. -/
def readSettings : List Nat → List Byte → Settings → Option Settings
  | [], _, s => some s
  | c :: cs, bytes, s =>
    let v := if settingWidth c = 2 then num16At bytes 0 else numAt bytes 0
    match s.put c v with
    | none => none
    | some s' => readSettings cs (bytes.drop (settingWidth c)) s'

def Settings.rate (s : Settings) : Lane → LaneRate
  | .a => s.laneRateA
  | .b => s.laneRateB

def Settings.responseWindow (s : Settings) : Lane → Nat
  | .a => s.responseWindowA
  | .b => s.responseWindowB

def Settings.strict (s : Settings) : Lane → Bool
  | .a => s.strictA
  | .b => s.strictB

/-! ### Station entries (Figures 4-1 and 11-4) -/

/-- The 11 bytes of a NODE DEFINE payload, which are also those of a config record's entry. -/
def Entry.bytes (e : Entry) : List Byte :=
  [byte e.number, byte e.aliasNo, byte (laneCode e.lane), byte e.address, byte e.kind.code, sideByte e.side,
    byte e.slot, byte e.restoreClass] ++ le16 e.capacity ++ [byte e.ratio]

/-- The side agrees with the kind: given for ENTRANCE, none for a display (R47, check 1). A kind that is
not known is judged by the RANGE check. DESIGN CHOICE (log 45): every byte but 0xFF is a side given, so that an unlisted
one beside a display kind is refused here, with FORMAT, and beside ENTRANCE by the RANGE check. -/
def sideAgrees (bytes : List Byte) : Bool :=
  match Kind.ofCode (numAt bytes 4) with
  | none => true
  | some .entrance => byteAt bytes 5 ≠ absentByte
  | some _ => byteAt bytes 5 = absentByte

/-- The entry that 11 bytes say, none where a value lies outside its range (R47, check 2, but for the
count of stations on the lane). -/
def readEntry (bytes : List Byte) : Option Entry :=
  match laneOfCode (numAt bytes 2), Kind.ofCode (numAt bytes 4), sideOfByte (byteAt bytes 5) with
  | some lane, some kind, some side =>
    let e : Entry :=
      { number := numAt bytes 0, aliasNo := numAt bytes 1, lane := lane, address := numAt bytes 3, kind := kind
        side := side, slot := numAt bytes 6, restoreClass := numAt bytes 7, capacity := num16At bytes 8
        ratio := numAt bytes 10 }
    if 1 ≤ e.number && e.number ≤ 24 && 1 ≤ e.aliasNo && e.aliasNo ≤ 127 && 1 ≤ e.address && e.address ≤ 30 &&
        1 ≤ e.slot && e.slot ≤ 15 && e.restoreClass ≤ 3 && e.capacity ≤ 2000 && 1 ≤ e.ratio && e.ratio ≤ 64 &&
        e.capacity * e.ratio ≤ 65535 then some e
    else none
  | _, _, _ => none

/-! ### The control frame (Figure 11-3) -/

/-- The CRC-16 of some bytes, as it follows them in a frame. -/
def crcBytes (bytes : List Byte) : List Byte := le16 (crc16 bytes).toNat

/-- A whole request frame. -/
def Request.frame (r : Request) : List Byte :=
  let body := le16 (r.payload.length + 6) ++ [r.tag, r.kind] ++ r.payload
  body ++ crcBytes body

/-- A whole reply frame. -/
def replyFrame (r : Request) (status : Status) (payload : List Byte) : List Byte :=
  let body := le16 (payload.length + 7) ++ [r.tag, r.kind, byte status.code] ++ payload
  body ++ crcBytes body

/-- The last two bytes of a frame hold the CRC-16 of those before (R155, R156). -/
def crcGood (frame : List Byte) : Bool :=
  let body := frame.take (frame.length - 2)
  frame.drop (frame.length - 2) = crcBytes body

/-- The request that a frame with a good check holds. -/
def readRequest (frame : List Byte) : Request where
  tag := byteAt frame 2
  kind := byteAt frame 3
  payload := (frame.take (frame.length - 2)).drop 4

/-! ### Lane frames (Figures 11-8 and 11-9) -/

/-- The code of a step's request frame. -/
def StepKind.code : StepKind → Nat
  | .probe => 0x10 | .opn => 0x11 | .block => 0x12 | .fill => 0x13 | .close => 0x14 | .start => 0x15
  | .context => 0x16 | .poll => 0x17

/-- A whole lane frame. -/
def laneFrame (address sequence kind : Nat) (payload : List Byte) : List Byte :=
  let body := [byte address, byte sequence, byte kind] ++ le16 payload.length ++ payload
  body ++ crcBytes body

/-- A lane reply whose check is good. -/
structure RawReply where
  address : Nat
  sequence : Nat
  kind : Nat
  payload : List Byte
  deriving DecidableEq, Repr

/-- What a lane reply frame holds, none where its check fails. A frame whose length is not that of its
header, its payload length and its CRC-16 fails its check (log 22). -/
def readReplyFrame (frame : List Byte) : Option RawReply :=
  if frame.length = num16At frame 3 + 7 && crcGood frame then
    some { address := numAt frame 0, sequence := numAt frame 1, kind := numAt frame 2,
           payload := (frame.take (frame.length - 2)).drop 5 }
  else none

/-- The reasons of a NAK (Figure 11-9). -/
inductive NakReason where
  | busy | badIndex | wrongState | noSpace
  deriving DecidableEq, Repr

/-- The replies of units (Figure 11-9). -/
inductive LaneReply where
  | report (r : Report)
  | ack
  | blockAck (index : Nat) (crc : Half)
  | fillReport (fill : Nat)
  | closeResult (equal : Bool)
  | contextAck (epoch : Nat)
  | pollReport (r : Report) (live : LiveStatus)
  | nak (reason : NakReason) (fill : Nat)
  deriving DecidableEq, Repr

/-- How a reply of a kind and payload answers a step: not at all, wrongly formed (R177), or with a reply. -/
inductive Answer where
  | unpaired
  | malformed
  | reply (r : LaneReply)
  deriving DecidableEq, Repr

/-- The 12 bytes of a STATE REPORT; none for a code that is not listed or a fill above 4095 (R177). -/
def readReport (p : List Byte) : Option Report :=
  match ImageState.ofCode (numAt p 0), Kind.ofCode (numAt p 1) with
  | some state, some kind =>
    if num16At p 8 ≤ 4095 then
      some { state := state, kind := kind, tag := wordAt p 2, generation := num16At p 6, fill := num16At p 8,
             epoch := num16At p 10 }
    else none
  | _, _ => none

/-- The bytes of a STATE REPORT. -/
def Report.bytes (r : Report) : List Byte :=
  [byte r.state.code, byte r.kind.code] ++ le32 r.tag ++ le16 r.generation ++ le16 r.fill ++ le16 r.epoch

def NakReason.ofCode : Nat → Option NakReason
  | 0 => some .busy | 1 => some .badIndex | 2 => some .wrongState | 3 => some .noSpace | _ => none

def NakReason.code : NakReason → Nat
  | .busy => 0 | .badIndex => 1 | .wrongState => 2 | .noSpace => 3

/-- A reply of the right length, or a malformed one. -/
def answerOf (right : Bool) (r : Option LaneReply) : Answer :=
  match right, r with
  | true, some x => .reply x
  | _, _ => .malformed

/-- The answer that a reply of a kind and payload is to a step (Figure 11-9, R99, R177). -/
def readAnswer (step : StepKind) (kind : Nat) (p : List Byte) : Answer :=
  if kind = 0x2F then
    answerOf (p.length = 3) ((NakReason.ofCode (numAt p 0)).map fun r => .nak r (num16At p 1))
  else
    match step with
    | .probe => if kind = 0x20 then answerOf (p.length = 12) ((readReport p).map .report) else .unpaired
    | .opn => if kind = 0x21 then answerOf (p.length = 0) (some .ack) else .unpaired
    | .block =>
      if kind = 0x22 then
        answerOf (p.length = 4) (some (.blockAck (num16At p 0) (BitVec.ofNat 16 (num16At p 2))))
      else .unpaired
    | .fill => if kind = 0x23 then answerOf (p.length = 2) (some (.fillReport (num16At p 0))) else .unpaired
    | .close =>
      if kind = 0x24 then answerOf (p.length = 1) ((flagOf (byteAt p 0)).map .closeResult) else .unpaired
    | .start => if kind = 0x21 then answerOf (p.length = 0) (some .ack) else .unpaired
    | .context =>
      if kind = 0x25 then answerOf (p.length = 2) (some (.contextAck (num16At p 0))) else .unpaired
    | .poll =>
      if kind = 0x26 then
        answerOf (p.length = 13)
          (match readReport p, LiveStatus.ofCode (numAt p 12) with
           | some r, some live => some (.pollReport r live)
           | _, _ => none)
      else .unpaired

/-- The kind code and payload of a unit's reply (Figure 11-9). -/
def LaneReply.encode : LaneReply → Nat × List Byte
  | .report r => (0x20, r.bytes)
  | .ack => (0x21, [])
  | .blockAck index crc => (0x22, le16 index ++ le16 crc.toNat)
  | .fillReport fill => (0x23, le16 fill)
  | .closeResult equal => (0x24, [flagByte equal])
  | .contextAck epoch => (0x25, le16 epoch)
  | .pollReport r live => (0x26, r.bytes ++ [byte live.code])
  | .nak reason fill => (0x2F, [byte reason.code] ++ le16 fill)

end Sys2Proof.Machine
end

