-- ==== Sys2Proof/Machine/Ops.lean ====
section
/-! DEFINITION. The named operations over the tables of State: stations, jobs, lanes, slots, presence,
release and push lists (spec/04, spec/05). -/

namespace Sys2Proof.Machine

/-- One more free value has been drawn (log 9, log 17 to log 19). -/
def State.drawn (s : State) : State := { s with free := s.free + 1 }

/-! ### Lanes -/

def State.lane (s : State) : Lane → LaneState
  | .a => s.laneA
  | .b => s.laneB

def State.setLane (s : State) (l : Lane) (x : LaneState) : State :=
  match l with
  | .a => { s with laneA := x }
  | .b => { s with laneB := x }

def State.updLane (s : State) (l : Lane) (f : LaneState → LaneState) : State := s.setLane l (f (s.lane l))

/-- Both lanes changed alike. -/
def State.bothLanes (s : State) (f : LaneState → LaneState) : State := (s.updLane .a f).updLane .b f

def State.pushes (s : State) : Lane → List Push
  | .a => s.pushA
  | .b => s.pushB

def State.setPushes (s : State) (l : Lane) (x : List Push) : State :=
  match l with
  | .a => { s with pushA := x }
  | .b => { s with pushB := x }

/-! ### Stations (4.1) -/

/-- The station of a number, if it is defined. -/
def State.station? (s : State) (n : Nat) : Option Station := s.stations.find? (·.entry.number = n)

/-- The station that carries an alias: the alias map (R46, log 28). -/
def State.aliased? (s : State) (a : Nat) : Option Station := s.stations.find? (·.entry.aliasNo = a)

def State.updStation (s : State) (n : Nat) (f : Station → Station) : State :=
  { s with stations := s.stations.map fun st => if st.entry.number = n then f st else st }

/-- A station put in its place in station order, replacing one of the same number. -/
def insertStation (st : Station) : List Station → List Station
  | [] => [st]
  | x :: xs =>
    if st.entry.number < x.entry.number then st :: x :: xs
    else if st.entry.number = x.entry.number then st :: xs
    else x :: insertStation st xs

/-- The Estimator's values of a station that has just been defined or loaded (R43, R44). -/
def Estimate.defined (capacity : Nat) : Estimate where
  working := capacity
  reserve := 0
  carry := 0
  lost := true
  overdraw := 0

/-- A context record that has just been reset (R48, R66). -/
def Context.blank : Context where
  fields := Fields.blank
  epoch := 1
  release := .withheld
  leaf := none

/-- A station as its definition leaves it (R44, R48, R66). -/
def Station.defined (e : Entry) : Station where
  entry := e
  presence := .absent
  context := Context.blank
  estimate := Estimate.defined e.capacity

/-! ### Slots (8.3) -/

/-- The record of a slot; numbers outside 1..15 name no slot and read EMPTY. -/
def State.slot (s : State) (n : Nat) : Slot := if n = 0 then .empty else s.store.slots.getD (n - 1) .empty

def State.setSlot (s : State) (n : Nat) (x : Slot) : State :=
  if n = 0 then s else { s with store := { s.store with slots := s.store.slots.set (n - 1) x } }

/-- The image of a slot that is VALID. -/
def State.validImage? (s : State) (n : Nat) : Option Image :=
  match s.slot n with
  | .valid image _ => some image
  | _ => none

/-- The slot of a station, 0 for one that is not defined. -/
def State.slotOf (s : State) (n : Nat) : Nat :=
  match s.station? n with
  | none => 0
  | some st => st.entry.slot

/-- The image length of a station's slot, 0 where it is not VALID. -/
def State.lengthOf (s : State) (n : Nat) : Nat :=
  match s.validImage? (s.slotOf n) with
  | none => 0
  | some image => image.length

/-! ### Jobs (5.2) -/

/-- The job of a station; a station has at most one (R71). -/
def State.job? (s : State) (n : Nat) : Option Job := s.engine.queue.find? (·.station = n)

def State.hasJob (s : State) (n : Nat) : Bool := (s.job? n).isSome

def State.updJob (s : State) (n : Nat) (f : Job → Job) : State :=
  { s with engine := { s.engine with queue := s.engine.queue.map fun j => if j.station = n then f j else j } }

/-- The jobs of a lane in a state, in queue order. -/
def State.laneJobs (s : State) (l : Lane) (keep : Job → Bool) : List Job :=
  s.engine.queue.filter fun j =>
    keep j && (match s.station? j.station with
      | none => false
      | some st => st.entry.lane = l)

/-- A lane transaction to a station is in flight (R47, R49). -/
def State.txnTo (s : State) (n : Nat) : Bool :=
  [s.laneA, s.laneB].any fun l => match l.txn with
    | none => false
    | some t => t.station = some n

/-! ### Presence (4.2) -/

/-- A change of presence is reported: every change in mode SEEN, and a change into or out of READY in mode
READY (R52). -/
def presenceReported (mode : PresenceMode) (old new : Presence) : Bool :=
  match mode with
  | .seen => true
  | .ready => old = .ready || new = .ready

/-- A station's presence set, with its PRESENCE notice where R52 calls for one. A presence set to the
value it holds is no change. -/
def setPresence (n : Nat) (p : Presence) (s : State) : State :=
  match s.station? n with
  | none => s
  | some st =>
    if st.presence = p then s
    else
      let s' := s.updStation n fun x => { x with presence := p }
      if presenceReported s.settings.presenceMode st.presence p then postNotice (.presence n p) s' else s'

/-- A reply taken from a station: ABSENT becomes SEEN (Figure 4-2). -/
def presenceReply (n : Nat) (s : State) : State :=
  match s.station? n with
  | none => s
  | some st => if st.presence = .absent then setPresence n .seen s else s

/-! ### Release and epochs (4.3, 4.4) -/

/-- The release side grants a unit's side (R60). -/
def sideGranted (r : ReleaseSide) (side : Option Side) : Bool :=
  match r, side with
  | .both, some _ => true
  | .left, some .left => true
  | .right, some .right => true
  | _, _ => false

/-- The effective release of a station: GRANTED only for an ENTRANCE station at STANDSTILL with its side
released and its service mode present and IN_SERVICE (R60). -/
def effectiveRelease (car : CarState) (e : Entry) (f : Fields) : Release :=
  if e.kind = .entrance && car.motion = .standstill && sideGranted car.side e.side && f.serviceMode = some 0 then
    .granted
  else .withheld

/-- The epoch after one more change: after 65535 it becomes 1 (R54). -/
def nextEpoch (e : Nat) : Nat := if 65535 ≤ e then 1 else e + 1

/-! ### Push lists (4.5) -/

/-- A station joins a push list at its tail, or its entry there takes the urgent mark (R62). -/
def joinPushes (n : Nat) (urgent : Bool) (ps : List Push) : List Push :=
  if ps.any (·.station = n) then
    ps.map fun p => if p.station = n then { p with urgent := p.urgent || urgent } else p
  else ps ++ [{ station := n, urgent := urgent }]

/-- A station joins the push list of its lane (R62). -/
def joinPush (n : Nat) (urgent : Bool) (s : State) : State :=
  match s.station? n with
  | none => s
  | some st => s.setPushes st.entry.lane (joinPushes n urgent (s.pushes st.entry.lane))

/-- A station's entry leaves the push lists (R48, R49, R64). -/
def removePush (n : Nat) (s : State) : State :=
  { s with pushA := s.pushA.filter (·.station ≠ n), pushB := s.pushB.filter (·.station ≠ n) }

/-- The push entry of a station, if it has one. -/
def State.push? (s : State) (n : Nat) : Option Push := (s.pushA ++ s.pushB).find? (·.station = n)

/-- A changed record becomes pending: a station without a job joins its lane's push list; one with a job
has its record sent by the job (R56, R61). -/
def makePending (n : Nat) (urgent : Bool) (s : State) : State := if s.hasJob n then s else joinPush n urgent s

/-- A poll made pending for a station and not begun is withdrawn (R49, R113). -/
def withdrawPoll (n : Nat) (s : State) : State :=
  s.bothLanes fun x => if x.pendingPoll = some n then { x with pendingPoll := none } else x

/-! ### Whether the part runs -/

/-- VDD is present and RSTN is high: the part holds state and acts (R171). -/
def State.runs (s : State) : Bool := s.pins.powered && !s.pins.rstnLow

/-- No request is served and every request is discarded (R159). -/
def State.silent (s : State) : Bool := s.supply.state = .parking || s.supply.state = .parked

end Sys2Proof.Machine
end

