-- ==== Sys2Proof/Machine/Estimator.lean ====
section
/-! DEFINITION. The Retention Estimator: spans, refill, drain, predictions and adaptation (spec/03). -/

namespace Sys2Proof.Machine

/-- A span between two raw times: 65,535 where the horizon mark is set or the difference exceeds it (R32,
R35). -/
def spanOf (mark : Bool) (later earlier : Time) : Nat :=
  if mark then Config.spanLimit else min Config.spanLimit (elapsed later earlier)

/-- The refill of one station from a powered span P, by the recharge ratio Q (R34). -/
def Estimate.refill (q p : Nat) (e : Estimate) : Estimate :=
  let t := e.carry + p
  let reserve := min e.working (e.reserve + t / q)
  { e with reserve := reserve, carry := if reserve = e.working then 0 else t % q }

/-- The drain of one station by a dark span D (R36). -/
def Estimate.drain (d : Nat) (e : Estimate) : Estimate :=
  if d < e.reserve then { e with reserve := e.reserve - d }
  else
    { e with overdraw := min Config.spanLimit (e.overdraw + (d - e.reserve)), reserve := 0, lost := true }

/-- One station at a confirmed fall: its overdraw cleared where the fall opens a gap, then its refill (R33,
R34). -/
def Station.atFall (opens : Bool) (p : Nat) (st : Station) : Station :=
  { st with
    estimate :=
      (if opens then { st.estimate with overdraw := 0 } else st.estimate).refill st.entry.ratio p }

/-- One station at a confirmed rise (R36). -/
def Station.atRise (d : Nat) (st : Station) : Station := { st with estimate := st.estimate.drain d }

/-- Every defined station changed alike. -/
def State.eachStation (s : State) (f : Station → Station) : State := { s with stations := s.stations.map f }

/-- A confirmed fall: every defined station refilled by the powered span, and the fall's raw time recorded
(R31 to R34). -/
def estimatorFall (raw : Time) (opens mark : Bool) (s : State) : State :=
  let s1 := s.eachStation (Station.atFall opens (spanOf mark raw s.estimator.lastRise))
  { s1 with estimator := { s.estimator with lastFall := some raw } }

/-- A confirmed rise: every defined station drained by the dark span, and the rise's raw time recorded (R31,
R35, R36). -/
def estimatorRise (raw : Time) (mark : Bool) (s : State) : State :=
  let s1 := s.eachStation (Station.atRise (spanOf mark raw (s.estimator.lastFall.getD 0)))
  { s1 with estimator := { s.estimator with lastRise := raw } }

/-- The prediction for a station (R37). -/
def Estimate.prediction (e : Estimate) : Prediction := if e.lost then .lost else .kept

/-- Every lost flag cleared, as the predictions are taken (R37, R38). -/
def clearLost (s : State) : State :=
  s.eachStation fun st => { st with estimate := { st.estimate with lost := false } }

/-- A probe finding shows the image intact: RUNNING, HELD or PARTIAL with the tag of the slot (R39). -/
def findingIntact (r : Report) (tag : Word) : Bool := r.state ≠ .blank && r.tag = tag

/-- The check of a prediction against a finding (R39). -/
def predictionResult (p : Prediction) (intact : Bool) : PredictionResult :=
  match p with
  | .none => .none
  | .lost => if intact then .miss else .hit
  | .kept => if intact then .hit else .miss

/-- The working capacity corrected at a miss, with the reserve and carry cleared (R41, R42). -/
def Estimate.adapt (capacity : Nat) (p : Prediction) (e : Estimate) : Estimate :=
  match p with
  | .kept => { e with working := e.working - (e.reserve + 1), reserve := 0, carry := 0 }
  | .lost => { e with working := min capacity (e.working + e.overdraw + 1), reserve := 0, carry := 0 }
  | .none => e

/-- A working capacity taken from a park record: limited to the configured capacity, with the reserve
limited to it, and the carry 0 where the reserve equals it (R43). -/
def Estimate.restore (capacity recorded : Nat) (e : Estimate) : Estimate :=
  let w := min capacity recorded
  let reserve := min w e.reserve
  { e with working := w, reserve := reserve, carry := if reserve = w then 0 else e.carry }

end Sys2Proof.Machine
end

