-- ==== Sys2Proof/Machine/Memory.lean ====
section
/-! DEFINITION. The serial flash: its memory in canonical form, what an erase and a program do to it, and
what one that fails or is cut off leaves (spec/08, 8.1; R137, R138, R140, R149, R151, R170). -/

namespace Sys2Proof.Machine

/-- What a byte reads as that no cell lists: an erased byte (R137, log 8). -/
def erasedByte : Byte := 0xFF

/-- The memory's canonical form: addresses strictly rising, no entry equal to what an unlisted address
reads as. -/
def Memory.wf (cells : List Host.Cell) : Bool :=
  decide (cells.Pairwise fun x y => x.1 < y.1) && cells.all fun c => c.2 != erasedByte

/-- The byte at an address. -/
def Memory.read (cells : List Host.Cell) (a : Nat) : Byte :=
  match cells.find? (·.1 = a) with
  | none => erasedByte
  | some c => c.2

/-- The byte at an address written, in canonical form. -/
def Memory.write (a : Nat) (v : Byte) : List Host.Cell → List Host.Cell
  | [] => if v = erasedByte then [] else [(a, v)]
  | c :: cs =>
    if c.1 < a then c :: Memory.write a v cs
    else
      let rest := if c.1 = a then cs else c :: cs
      if v = erasedByte then rest else (a, v) :: rest

/-- The bytes of some addresses changed, an unchanged one left out of the work. -/
def Memory.update (f : Byte → Byte → Byte) : List Byte → Nat → List Host.Cell → List Host.Cell
  | [], _, cells => cells
  | d :: ds, a, cells =>
    let old := Memory.read cells a
    let new := f old d
    Memory.update f ds (a + 1) (if new = old then cells else Memory.write a new cells)

/-- The bytes of a range given to a function of address and value; the bytes that become all ones are no
longer listed. -/
def Memory.mapRange (base size : Nat) (f : Nat → Byte → Byte) (cells : List Host.Cell) : List Host.Cell :=
  cells.filterMap fun c =>
    if base ≤ c.1 && c.1 < base + size then
      (let v := f c.1 c.2
       if v = erasedByte then none else some (c.1, v))
    else some c

/-- The first byte of a region block (R137). -/
def blockAddress (region block : Nat) : Nat := region * 1048576 + block * 256

/-- The bytes of one sector: 256 blocks of 256 bytes (R137). -/
def sectorSize : Nat := 65536

/-- The first byte of a sector of a region (R137). -/
def sectorAddress (region sector : Nat) : Nat := region * 1048576 + sector * sectorSize

/-- The number of a flash block in the whole device. -/
def blockNumber (region block : Nat) : Nat := region * 4096 + block

/-- The 256 bytes of a region block. -/
def Flash.block (f : Flash) (region block : Nat) : List Byte :=
  let base := blockAddress region block
  let near := f.cells.filter fun c => base ≤ c.1 && c.1 < base + 256
  (List.range 256).map fun i => Memory.read near (base + i)

/-- A program: it can only turn ones into zeros within its block (R137). -/
def Flash.program (f : Flash) (region block : Nat) (data : List Byte) : Flash :=
  { f with cells := Memory.update (fun old d => old &&& d) (data.take 256) (blockAddress region block) f.cells }

/-- An erase: every byte of the sector becomes all ones (R137), and its blocks hold no torn record. -/
def Flash.erase (f : Flash) (region sector : Nat) : Flash :=
  { f with
    cells := Memory.mapRange (sectorAddress region sector) sectorSize (fun _ _ => erasedByte) f.cells
    torn := f.torn.filter fun b => !(blockNumber region (256 * sector) ≤ b && b < blockNumber region (256 * sector) + 256) }

/-- The mark writer's operation, whose failure leaves the mark erased (R142). -/
def Requester.isMarkWriter : Requester → Bool
  | .markWriter _ => true
  | _ => false

/-- What an operation that ran to its end has done to the flash (R137, R138). -/
def Flash.complete (f : Flash) (op : FlashOp) : Flash :=
  match op.command with
  | .program region block data => f.program region block data
  | .erase region sector => f.erase region sector
  | .read _ _ => f
  | .status => f

/-- What an operation that failed or was cut off has done when it ends in the device: of the bits it was
to change, some may be left unchanged, which the manual leaves open (log 9). A failed SUSPECT mark is left
erased, since the next cold start reads its slot VALID (R142); of one that was cut off the manual says nothing,
and its byte is open like any other. -/
def Flash.interrupted (f : Flash) (draw : Nat) (u : Unfinished) : Flash :=
  match u.op.command with
  | .program region block data =>
    if u.failed && u.op.who.isMarkWriter then f
    else
      let base := blockAddress region block
      let kept := (data.take 256).mapIdx fun i d => d ||| Config.interruptedBits draw (base + i)
      { f with cells := Memory.update (fun old d => old &&& d) kept base f.cells }
  | .erase region sector =>
    { f with
      cells := Memory.mapRange (sectorAddress region sector) sectorSize
        (fun a v => v ||| ~~~(Config.interruptedBits draw a)) f.cells }
  | .read _ _ => f
  | .status => f

/-- The blocks whose records are not good once an operation has failed: a slot header (R149), a block of the
config record (R151) and a page of the park record (R170). -/
def tornByFailure (op : FlashOp) : List Nat :=
  match op.command, op.who with
  | .program region block _, .imageWrite => if block = 0 then [blockNumber region block] else []
  | .program region block _, .configSave => [blockNumber region block]
  | .erase _ _, .configSave => [blockNumber 0 0]
  | .program region block _, .parkWriter => [blockNumber region block]
  | _, _ => []

/-- The blocks whose records are not good once a cold start has cut an operation off: a page of the park
record (R170). -/
def tornByCut (op : FlashOp) : List Nat :=
  match op.command, op.who with
  | .program region block _, .parkWriter => [blockNumber region block]
  | _, _ => []

/-- An operation that keeps the device busy until it ends. -/
def FlashOp.slow (op : FlashOp) : Bool :=
  match op.command with
  | .program _ _ _ => true
  | .erase _ _ => true
  | _ => false

/-- The device goes on with an operation that the part no longer counts as running (R140, R171). -/
def Flash.leaveBusy (f : Flash) (torn : List Nat) (u : Unfinished) : Flash :=
  if u.op.slow then { f with busy := some u, torn := torn ++ f.torn } else f

/-- The device ends the operation it was left with, if any, and is ready. -/
def settleDevice (s : State) : State :=
  match s.flash.busy with
  | none => s
  | some u => { s with flash := { s.flash.interrupted s.free u with busy := none }, free := s.free + 1 }

/-- What a cold start or a loss of supply does to the device: a running operation is cut off, and the
device may still be busy with it (R171). -/
def cutFlash (s : State) : State :=
  match s.store.running with
  | none => s
  | some op => { s with flash := s.flash.leaveBusy (tornByCut op) { op := op, failed := false } }

end Sys2Proof.Machine
end

