-- ==== Sys2Proof/Machine/Store.lean ====
section
/-! DEFINITION. The Store Interface's shared operations: the flash operation queue, the buffer pool and its
wait list, and the lanes' buffer plans (spec/08, 8.2 and 8.4; spec/07, 7.6). -/

namespace Sys2Proof.Machine

/-! ### The flash operation queue (R138 to R140) -/

/-- An operation queued in order of arrival (R139). -/
def queueOp (op : FlashOp) (s : State) : State :=
  { s with store := { s.store with queue := s.store.queue ++ [op] } }

/-- An operation queued at the head (R139). -/
def queueOpFirst (op : FlashOp) (s : State) : State :=
  { s with store := { s.store with queue := op :: s.store.queue } }

/-- A requester's queued operations withdrawn (R139). -/
def withdrawOps (who : Requester) (s : State) : State :=
  { s with store := { s.store with queue := s.store.queue.filter (·.who ≠ who) } }

/-- The timeout of an operation: 50 ms for a PROGRAM, 3,000 ms for an ERASE (R140). -/
def FlashOp.timeout (op : FlashOp) : Option Nat :=
  match op.command with
  | .program _ _ _ => some 50
  | .erase _ _ => some 3000
  | _ => none

/-- The operation at the head of the queue is issued when none is running; in PARKED none is issued (R138,
R140, R152). The park writer's first PROGRAM clears park-area-prepared (R153). -/
def issueFlash (s : State) : State :=
  if s.store.running.isSome || s.supply.state = .parked then s
  else
    match s.store.queue with
    | [] => s
    | op :: rest =>
      let s' : State :=
        { s with
          store :=
            { s.store with
              queue := rest
              running := some op
              chipSelect := .inUse
              prepared := if op.who = .parkWriter then false else s.store.prepared } }
      match op.timeout with
      | none => s'
      | some t => setDeadlineIn .storeOperation t s'

/-! ### Buffers -/

/-- A buffer record by its index 0..3. -/
def State.buffer (s : State) (i : Nat) : Buffer := s.store.buffers.getD i Buffer.unowned

def State.setBuffer (s : State) (i : Nat) (b : Buffer) : State :=
  { s with store := { s.store with buffers := s.store.buffers.set i b } }

/-- The indices of the buffers. -/
def bufferIndices : List Nat := [0, 1, 2, 3]

/-- The buffers that an owner has, those given back but still filling or programming included. -/
def State.ownedBy (s : State) (o : BufferOwner) : List Nat :=
  bufferIndices.filter fun i => (s.buffer i).owner = some o

/-- The buffers of a lane that hold a block for its present holder. DESIGN CHOICE (log 44): a buffer given back and
still FILLING counts against the lane's two but holds no block, since what it reads is discarded (R136). -/
def State.heldBy (s : State) (l : Lane) : List Nat :=
  (s.ownedBy (.lane l)).filter fun i => !(s.buffer i).released

/-! ### What a holder needs (R134) -/

/-- The slot, next index and image length of a lane's holder: none where it needs no block. -/
def holderNext (l : Lane) (s : State) : Option (Nat × Nat × Nat) :=
  match (s.lane l).holder with
  | none => none
  | some (.single n) =>
    match s.job? n with
    | none => none
    | some j =>
      match j.state with
      | .opn => some (s.slotOf n, 0, s.lengthOf n)
      | .load => some (s.slotOf n, j.fill, s.lengthOf n)
      | _ => none
  | some (.group members count _) =>
    let loading := members.any fun n => match s.job? n with
      | none => false
      | some j => j.state = .opn || j.state = .load
    match members with
    | [] => none
    | n :: _ => if loading then some (s.slotOf n, count, s.lengthOf n) else none

/-- The needed blocks of a lane's holder, with their slot: the next index and the index after it, each
only below the image length. -/
def neededBlocks (l : Lane) (s : State) : List (Nat × Nat) :=
  match holderNext l s with
  | none => []
  | some (slot, next, length) =>
    ([next, next + 1].filter (· < length)).map fun b => (slot, b)

/-- The needed blocks that no buffer of the lane holds, lowest first. -/
def missingBlocks (l : Lane) (s : State) : List (Nat × Nat) :=
  (neededBlocks l s).filter fun x =>
    !((s.heldBy l).any fun i => (s.buffer i).slot = x.1 && (s.buffer i).block = x.2)

/-! ### Grants (R143) -/

/-- A FREE buffer given to the requester at the head of the wait list: a lane fills it with its lowest
missing block, or leaves it FREE where none is missing (R134); the image write takes it empty of data; the
park writer programs page 1 from it (R169). -/
def giveBuffer (i : Nat) (who : BufferOwner) (s : State) : State :=
  match who with
  | .lane l =>
    match missingBlocks l s with
    | [] => s
    | (slot, block) :: _ =>
      if Config.buffersPerLane ≤ (s.ownedBy (.lane l)).length then s
      else queueOp { command := .read slot (block + 1), who := .lane l i }
        (s.setBuffer i
          { owner := some (.lane l), slot := slot, block := block, state := .filling, crc := 0, data := []
            released := false })
  | .imageWrite =>
    match s.store.imageWrite with
    | none => s
    | some w =>
      s.setBuffer i
        { owner := some .imageWrite, slot := w.slot, block := 0, state := .full, crc := 0, data := []
          released := false }
  | .parkWriter =>
    let page := s.park.image.take 256
    queueOpFirst { command := .program 0 256 page, who := .parkWriter }
      ({ s with park := { s.park with phase := .page1 } }.setBuffer i
        { owner := some .parkWriter, slot := 0, block := 256, state := .programming, crc := crc16 page
          data := page, released := false })

/-- A FREE buffer, if there is one. DESIGN CHOICE (log 55): R143 does not say which of several is granted; the one of the
lowest number is. -/
def freeBuffer? (s : State) : Option Nat := bufferIndices.find? fun i => (s.buffer i).state = .free

/-- The wait list after one grant to the request at its head. -/
def takeTurn : List BufferRequest → List BufferRequest
  | [] => []
  | r :: rest => if r.count ≤ 1 then rest else { r with count := r.count - 1 } :: rest

/-- FREE buffers granted to the head of the wait list, one after another, at most so many times (R143). -/
def grantSome : Nat → State → State
  | 0, s => s
  | fuel + 1, s =>
    match s.store.waitList, freeBuffer? s with
    | r :: _, some i =>
      grantSome fuel
        (giveBuffer i r.who { s with store := { s.store with waitList := takeTurn s.store.waitList } })
    | _, _ => s

/-- FREE buffers granted until none is FREE or none is asked for. A wait list asks for at most two buffers
for each lane and one for each of the image write and the park writer. -/
def grantBuffers (s : State) : State := grantSome 6 s

/-- A buffer becomes FREE and is offered to the wait list (R144). -/
def freeBuffer (i : Nat) (s : State) : State := grantBuffers (s.setBuffer i Buffer.unowned)

/-- A buffer given back: FREE at once, or, while an operation fills or empties it, when that operation
ends (R136, R144). `pending` says whether such an operation will still end. -/
def giveBack (i : Nat) (pending : Bool) (s : State) : State :=
  if pending then s.setBuffer i { s.buffer i with released := true }
  else s.setBuffer i Buffer.unowned

/-- A request entered in the wait list, or its count changed where the requester has one (R143). DESIGN CHOICE (log 55):
R134 and R143 do not say what becomes of a waiting request whose count changes; its count changes in place, and the request
keeps its place in the order of arrival. -/
def requestBuffers (who : BufferOwner) (count : Nat) (s : State) : State :=
  let list := s.store.waitList
  let list' :=
    if list.any (·.who = who) then list.map fun r => if r.who = who then { r with count := count } else r
    else if who = .parkWriter then { who := who, count := count } :: list
    else list ++ [{ who := who, count := count }]
  { s with store := { s.store with waitList := list' } }

/-- A request withdrawn (R143). -/
def withdrawRequest (who : BufferOwner) (s : State) : State :=
  { s with store := { s.store with waitList := s.store.waitList.filter (·.who ≠ who) } }

/-! ### A lane's plan (R134, R136) -/

/-- The buffers of a lane whose block its holder does not need are given back: FREE at once, or when the
read that fills them completes. -/
def releaseUnneeded (l : Lane) (s : State) : State :=
  let needed := neededBlocks l s
  (s.heldBy l).foldl
    (fun s i =>
      let b := s.buffer i
      if needed.contains (b.slot, b.block) then s else giveBack i (b.state = .filling) s) s

/-- How many buffers the lane asks for: what brings it to two or covers its missing blocks, whichever is
fewer (R134). -/
def wantedBuffers (l : Lane) (s : State) : Nat :=
  min (Config.buffersPerLane - (s.ownedBy (.lane l)).length) (missingBlocks l s).length

/-- A lane plans its buffers (R134): it gives back those it does not need, which are offered to the wait
list, and asks for what it misses, or withdraws its request where it misses nothing. -/
def planBuffers (l : Lane) (s : State) : State :=
  let s1 := grantBuffers (releaseUnneeded l s)
  let want := wantedBuffers l s1
  if want = 0 then withdrawRequest (.lane l) s1
  else grantBuffers (requestBuffers (.lane l) want s1)

/-! ### The end of an image write (R142, R144, R147 to R149, R152) -/

/-- The buffer of the image write, if it owns one. -/
def writeBuffer? (s : State) : Option Nat := (s.ownedBy .imageWrite).head?

/-- The running operation is the image write's. -/
def writeRuns (s : State) : Bool :=
  match s.store.running with
  | none => false
  | some op => op.who = .imageWrite

/-- The image write's buffer given back as it ends. -/
def giveBackWriteBuffer (pending : Bool) (s : State) : State :=
  match writeBuffer? s with
  | none => s
  | some i => giveBack i pending s

/-- The image write ends: its queued operation and its buffer request are withdrawn, and its buffer is
given back, at once or when the operation that uses it ends (R144, R148, R149). -/
def endWrite (pending : Bool) (s : State) : State :=
  let s1 := withdrawRequest .imageWrite (withdrawOps .imageWrite s)
  let s2 := giveBackWriteBuffer pending { s1 with store := { s1.store with imageWrite := none } }
  grantBuffers s2

/-- A buffer of the image write is in use by its running operation. -/
def writeBufferBusy (s : State) : Bool :=
  writeRuns s && (match writeBuffer? s with
    | none => false
    | some i => (s.buffer i).state = .programming || (s.buffer i).state = .filling)

/-- A buffer that the image write gave back while an operation still used it becomes FREE. -/
def freeReleasedWriteBuffer (s : State) : State :=
  match writeBuffer? s with
  | none => s
  | some i => if (s.buffer i).released then freeBuffer i s else s

/-- The image write is abandoned: its slot becomes EMPTY and no notice is posted (R148, R152). DESIGN CHOICE (log 53): a header
PROGRAM that runs at entry to PARKING completes, so that the header is written and the next cold start reads the slot VALID.
DESIGN CHOICE (log 54): a buffer that is neither PROGRAMMING nor FILLING becomes FREE at once, as R144 says, though the write's
ERASE or header PROGRAM still runs, and so does one whose operation is withdrawn from the queue. -/
def abandonWrite (s : State) : State :=
  match s.store.imageWrite with
  | none => s
  | some w => endWrite (writeBufferBusy s) (s.setSlot w.slot .empty)

/-! ### The mark writer (R142) -/

/-- The data that programs byte 20 of a slot header to 0x00 and no other byte (R178). -/
def markData : List Byte := ones 20 ++ [0] ++ ones 235

/-- The mark writer has an operation queued or running. -/
def markBusy (s : State) : Bool :=
  s.store.queue.any (·.who.isMarkWriter) ||
    (match s.store.running with
     | none => false
     | some op => op.who.isMarkWriter)

/-- The mark writer queues the PROGRAM of the first slot on the mark list, at most one at a time (R139,
R142). -/
def kickMarkWriter (s : State) : State :=
  match s.store.markList with
  | [] => s
  | n :: _ => if markBusy s then s else queueOp { command := .program n 0 markData, who := .markWriter n } s

end Sys2Proof.Machine
end

