-- ==== Sys2Proof/Machine/Engine.lean ====
section
/-! DEFINITION. The Restore Engine: the restore queue, creation and departure of jobs, passes, and what a
gap begin and a restart do to it; and how a job leaves its lane's load holder (spec/05; spec/07, 7.1 and
7.4). -/

namespace Sys2Proof.Machine

/-! ### Leaving the load holder (R121, R132) -/

/-- A group frame in flight whose group has ended goes on to its end without one (log 27). -/
def LaneState.orphanFrame (x : LaneState) : LaneState :=
  match x.txn with
  | none => x
  | some t => if t.owner = .group then { x with txn := some { t with owner := .orphan } } else x

/-- The holder of a lane ends: its buffers are released and its buffer request withdrawn (R121). -/
def endHolder (l : Lane) (s : State) : State :=
  planBuffers l (s.updLane l fun x => LaneState.orphanFrame { x with holder := none })

/-- A group gives way to its last member as individual holder (R132). -/
def toSingle (l : Lane) (n : Nat) (s : State) : State :=
  planBuffers l (s.updLane l fun x => LaneState.orphanFrame { x with holder := some (.single n) })

/-- What becomes of a group after a departure or a step of its fill round: an empty round closes; with no
member left the holder ends, and with one left the group gives way to it, but for a round that still
holds it (R131, R132). -/
def settleGroup (l : Lane) (members : List Nat) (count : Nat) (round : Option (List Nat)) (s : State) : State :=
  let round' := if round = some [] then none else round
  match members, round' with
  | [], _ => endHolder l s
  | [n], none => toSingle l n s
  | _, _ => s.updLane l fun x => { x with holder := some (.group members count round') }

/-- A job leaves its lane's holder, if it belongs to it (R121). -/
def leaveHolder (l : Lane) (n : Nat) (s : State) : State :=
  match (s.lane l).holder with
  | none => s
  | some (.single m) => if m = n then endHolder l s else s
  | some (.group members count round) =>
    if members.contains n then
      settleGroup l (members.filter (· ≠ n)) count (round.map fun r => r.filter (· ≠ n)) s
    else s

/-- A job leaves the holder of its station's lane (R121). -/
def leaveLoad (n : Nat) (s : State) : State :=
  match s.station? n with
  | none => s
  | some st => leaveHolder st.entry.lane n s

/-! ### Departures (R76, R88, R89) -/

/-- A run begins: the counters at 0 and the run start at the present time (R76). -/
def startRun (s : State) : State :=
  { s with engine := { s.engine with restored := 0, failed := 0, runStart := s.timebase.count } }

def setPhase (p : EnginePhase) (s : State) : State := { s with engine := { s.engine with phase := p } }

/-- PASS COMPLETE where the departure of a job has left the queue empty in ACTIVE (R76). -/
def passCompleteIfEmpty (s : State) : State :=
  if s.engine.queue.isEmpty && s.engine.phase = .active then
    setPhase .idle
      (postNotice
        (.passComplete s.engine.pass s.engine.restored s.engine.failed
          (min 65535 (elapsed s.timebase.count s.engine.runStart))) s)
  else s

/-- A job leaves the queue: its restore limit removed, its part in a holder ended, its record gone (R88,
R89). -/
def departJob (n : Nat) (s : State) : State :=
  let s1 := leaveLoad n (removeDeadline (.restoreLimit n) s)
  { s1 with engine := { s1.engine with queue := s1.engine.queue.filter (·.station ≠ n) } }

/-- A job completes (R88). -/
def completeJob (n : Nat) (outcome : RestoreOutcome) (s : State) : State :=
  match s.job? n with
  | none => s
  | some j =>
    let s1 := setPresence n .ready (departJob n s)
    let s2 := postNotice (.nodeRestored n (j.pass.getD 0) outcome j.result j.blocksSent) s1
    passCompleteIfEmpty { s2 with engine := { s2.engine with restored := s2.engine.restored + 1 } }

/-- A job fails, in the state it held (R89). -/
def failJob (n : Nat) (reason : Reason) (s : State) : State :=
  match s.job? n with
  | none => s
  | some j =>
    let s1 := setPresence n .absent (departJob n s)
    let s2 := postNotice (.nodeFailed n (j.pass.getD 0) reason j.state) s1
    passCompleteIfEmpty { s2 with engine := { s2.engine with failed := s2.engine.failed + 1 } }

/-- The jobs of a slot in LOADWAIT, OPEN, LOAD and CLOSE, in queue order (R81). -/
def doomedJobs (slot : Nat) (s : State) : List Job :=
  s.engine.queue.filter fun j =>
    s.slotOf j.station = slot &&
      (j.state = .loadwait || j.state = .opn || j.state = .load || j.state = .close)

/-- The jobs of a slot that has left VALID fail with NO_IMAGE, in queue order, in LOADWAIT, OPEN, LOAD and
CLOSE (R81). -/
def slotLeftValid (slot : Nat) (s : State) : State :=
  (doomedJobs slot s).foldl (fun x j => failJob j.station .noImage x) s

/-! ### Creation (R70 to R72) -/

/-- The restore class of a station. -/
def State.classOf (s : State) (n : Nat) : Nat :=
  match s.station? n with
  | none => 0
  | some st => st.entry.restoreClass

/-- A job joins at the tail of its class (R71). -/
def insertJob (classOf : Nat → Nat) (j : Job) : List Job → List Job
  | [] => [j]
  | x :: xs => if classOf j.station < classOf x.station then j :: x :: xs else x :: insertJob classOf j xs

/-- A job record as it is created (Figure 5-2). -/
def Job.create (n id : Nat) (origin : Origin) (p : Prediction) (pass : Option Nat) : Job where
  station := n
  id := id
  origin := origin
  prediction := p
  result := .none
  state := .probe
  inFlight := false
  pass := pass
  fill := 0
  needsOpen := false
  loaded := false
  blocksSent := 0
  retriesUsed := 0
  restarts := 0
  mismatches := 0
  finding := none

/-- A job joins the queue: its station's push entry leaves its list, and a poll pending for it is withdrawn
(R72, R64, R113). -/
def addJob (n : Nat) (origin : Origin) (p : Prediction) (s : State) : State :=
  let pass := if s.supply.state = .line then some s.engine.pass else none
  let j := Job.create n s.engine.nextJob origin p pass
  let s1 := withdrawPoll n (removePush n s)
  { s1 with
    engine := { s1.engine with queue := insertJob s.classOf j s1.engine.queue, nextJob := s1.engine.nextJob + 1 } }

/-- A job joins the queue unless its station has one already (R71). -/
def joinJob (n : Nat) (origin : Origin) (p : Prediction) (s : State) : State :=
  if s.hasJob n then s else addJob n origin p s

/-- The restore limit of a job armed (R87). -/
def armLimit (n : Nat) (s : State) : State := setDeadlineIn (.restoreLimit n) s.settings.restoreLimit s

/-- A job created between passes: discarded where the station has one or is not defined (R71); in LINE its
restore limit is armed, and in IDLE a new run begins (R72, R76, R90, R91). -/
def createJob (n : Nat) (origin : Origin) (s : State) : State :=
  if s.hasJob n || (s.station? n).isNone then s
  else
    let s1 := addJob n origin .none s
    if s.supply.state = .line then
      let s2 := armLimit n s1
      if s.engine.phase = .idle then startRun (setPhase .active s2) else s2
    else s1

/-! ### Passes (R69, R73 to R75) -/

/-- The pass number advanced: after 65535 it becomes 1 (R69). -/
def nextPass (p : Nat) : Nat := if 65535 ≤ p then 1 else p + 1

/-- The stations without a job that join at a pass, in the order in which they join: by class, those
predicted LOST before those predicted KEPT, each group in station order (R71). -/
def joiningOrder (s : State) : List Station :=
  let free := s.stations.filter fun st => !(s.hasJob st.entry.number)
  [0, 1, 2, 3].flatMap fun c =>
    (free.filter fun st => st.entry.restoreClass = c && st.estimate.lost) ++
      (free.filter fun st => st.entry.restoreClass = c && !st.estimate.lost)

/-- A job carried into a pass: it takes the new number, and, where its origin is GAP or COLD, its
station's new prediction (R73, 3). -/
def carryJob (pass : Nat) (predict : Nat → Prediction) (j : Job) : Job :=
  { j with
    pass := some pass
    result := .none
    loaded := false
    blocksSent := 0
    prediction :=
      match j.origin with
      | .gap => predict j.station
      | .cold => predict j.station
      | _ => .none }

/-- The prediction for a station as the Estimator holds it (R37). -/
def State.predictionOf (s : State) (n : Nat) : Prediction :=
  match s.station? n with
  | none => .none
  | some st => st.estimate.prediction

/-- Every job of the queue carried into a pass (R73, 1 and 3). -/
def carryAll (pass : Nat) (predict : Nat → Prediction) (s : State) : State :=
  { s with engine := { s.engine with pass := pass, queue := s.engine.queue.map (carryJob pass predict) } }

/-- New jobs with their stations' predictions, in the order given (R73, 4). -/
def joinAll (origin : Origin) (joining : List Station) (s : State) : State :=
  joining.foldl (fun x st => joinJob st.entry.number origin st.estimate.prediction x) s

/-- Every job's restore limit armed, in queue order (R73, 6). -/
def armAll (s : State) : State := s.engine.queue.foldl (fun x j => armLimit j.station x) s

/-- The phase of a pass just built: ACTIVE, or IDLE after PASS COMPLETE where it has no jobs (R73, 8; R75). -/
def openPass (pass : Nat) (s : State) : State :=
  if s.engine.queue.isEmpty then setPhase .idle (postNotice (.passComplete pass 0 0 0) s) else setPhase .active s

/-- A pass is built (R73, R74, R75). The first pass since cold start makes COLD jobs, every other GAP
jobs. -/
def buildPass (s : State) : State :=
  let origin : Origin := if s.engine.pass = 0 then .cold else .gap
  let pass := nextPass s.engine.pass
  let joining := joiningOrder s
  let s1 := carryAll pass s.predictionOf (clearLost s)
  let s2 := postNotice (.passStarted pass joining.length s1.engine.queue.length) (joinAll origin joining s1)
  openPass pass (startRun (armAll s2))

/-! ### Gap begin and restart (R92, R94) -/

/-- Every restore limit removed (R29). -/
def removeLimits (s : State) : State :=
  { s with
    timebase :=
      { s.timebase with
        deadlines := s.timebase.deadlines.filter fun d => match d.purpose with
          | .restoreLimit _ => false
          | _ => true } }

/-- A job at a gap begin: set to PROBE, with its in-flight mark, retries used and probe finding cleared
(R92). -/
def Job.atGap (j : Job) : Job := { j with state := .probe, inFlight := false, retriesUsed := 0, finding := none }

/-- The Engine at a confirmed fall that opens a gap (R68, R92). -/
def engineGapBegin (s : State) : State :=
  let s1 := removeLimits s
  { s1 with engine := { s1.engine with phase := .held, queue := s1.engine.queue.map Job.atGap } }

/-- The frames that the attempts of a transaction have sent, the present one first: a step's attempts take one sequence
number after another (R96, R101). A frame to address 31 has no reply. -/
def Txn.frames (t : Txn) : List FrameId :=
  if t.station.isNone then []
  else (List.range t.attempt).map fun k => { address := t.address, sequence := (t.sequence + 16 - k % 16) % 16 }

/-- The abandoned frames of a lane once it has abandoned its transaction too. DESIGN CHOICE (log 47): the part tells a
reply of an abandoned transaction by the address and the sequence number of a frame that it sent. -/
def LaneState.abandonedFrames (x : LaneState) : List FrameId :=
  match x.txn with
  | none => x.abandoned
  | some t => t.frames ++ x.abandoned.filter fun i => !t.frames.contains i

/-- A lane without its transaction, whose frame is cut off with the driver released and whose late replies it ignores, and
without its load holder (R97, R99, R116). -/
def LaneState.abandonWork (x : LaneState) : LaneState :=
  { x with txn := none, driver := .released, holder := none, abandoned := x.abandonedFrames }

/-- Both lanes abandon their transactions and their loads: the response windows removed, the buffer
requests withdrawn and the buffers released (R116, R117). -/
def abandonLanes (s : State) : State :=
  let s1 := removeDeadline (.responseWindow .b) (removeDeadline (.responseWindow .a) s)
  let s2 := s1.bothLanes LaneState.abandonWork
  planBuffers .b (planBuffers .a (withdrawRequest (.lane .b) (withdrawRequest (.lane .a) s2)))

/-- The lanes at a gap begin: the work abandoned, the pending polls withdrawn, and the pending NODE QUERY
answered UNREACHABLE (R116, R114). -/
def lanesGapBegin (s : State) : State :=
  let s2 := (abandonLanes s).bothLanes fun x => { x with pendingPoll := none }
  match s2.query with
  | none => s2
  | some n => postNotice (.queryUnreachable n) { s2 with query := none }

/-- The Engine at ENGINE RESTART: the queue emptied without notices (R94). -/
def engineRestart (s : State) : State :=
  let s1 := removeLimits s
  { s1 with
    engine := { s1.engine with queue := [], phase := if s.supply.state = .line then .idle else .held } }

/-- The lanes at ENGINE RESTART: the work abandoned, the query and the injections cleared (R117). -/
def lanesRestart (s : State) : State :=
  let s1 := (abandonLanes s).bothLanes fun x => { x with injection := none }
  { s1 with query := none }

end Sys2Proof.Machine
end

