-- ==== Sys2Proof/Machine/Lanes.lean ====
section
/-! DEFINITION. The Lane Controllers: holder selection, the arbiter, the beginning of attempts and fault
injection (spec/06; spec/07, 7.1, 7.3 and 7.4). -/

namespace Sys2Proof.Machine

/-- The lanes may begin frames: the supply is LINE and cold start loading has ended (R97). -/
def State.lanesOpen (s : State) : Bool := s.supply.state = .line && s.loadingEnded

/-- A lane is free: it has no transaction in flight (R97). -/
def State.laneFree (s : State) (l : Lane) : Bool := (s.lane l).txn.isNone

/-! ### Holder selection (R119, R120) -/

/-- A job that leaves LOADWAIT as a resume: to LOAD, or to CLOSE where its fill mark is the length (R79). -/
def Job.resumed (length : Nat) (j : Job) : Job :=
  { j with state := if j.fill = length then .close else .load }

/-- The jobs that a chosen job's group has: itself first, then those of the same slot with needs-open set,
in queue order, eight in all at most (R120). -/
def groupOf (l : Lane) (first : Job) (s : State) : List Nat :=
  let others := s.laneJobs l fun j =>
    j.state = .loadwait && j.needsOpen && j.station ≠ first.station &&
      s.slotOf j.station = s.slotOf first.station
  ((first :: others).take Config.groupMax).map (·.station)

/-- A lane without a holder makes its first job in LOADWAIT the holder, alone or as the first member of a
group (R119, R120). -/
def selectHolder (l : Lane) (s : State) : State :=
  if (s.lane l).holder.isSome || !s.lanesOpen then s
  else
    match s.laneJobs l (fun j => j.state = .loadwait) with
    | [] => s
    | j :: _ =>
      if !j.needsOpen then
        planBuffers l
          ((s.updJob j.station (Job.resumed (s.lengthOf j.station))).updLane l fun x =>
            { x with holder := some (.single j.station) })
      else
        let members := if s.settings.groupLoading then groupOf l j s else [j.station]
        let holder : Holder := if members.length ≤ 1 then .single j.station else .group members 0 none
        let s1 := members.foldl (fun x n => x.updJob n fun j => { j with state := .opn }) s
        planBuffers l (s1.updLane l fun x => { x with holder := some holder })

/-! ### The arbiter (R104 to R106) -/

/-- What a turn sends: the step, its owner, its station (none for address 31), its block index and the
buffer it is sent from. -/
structure Turn where
  step : StepKind
  owner : Owner
  station : Option Nat
  index : Nat
  buffer : Nat
  deriving DecidableEq, Repr

/-- A turn that sends no block. -/
def Turn.plain (step : StepKind) (owner : Owner) (n : Nat) : Turn where
  step := step
  owner := owner
  station := some n
  index := 0
  buffer := 0

/-- The step that works a job's state (R77). -/
def stepOfState : JobState → Option StepKind
  | .probe => some .probe
  | .loadwait => none
  | .opn => some .opn
  | .load => some .block
  | .close => some .close
  | .start => some .start
  | .replay => some .context

/-- A step of a job. -/
def Turn.ofJob (step : StepKind) (j : Job) : Turn := Turn.plain step (.job j.station j.id) j.station

/-- The buffer of a lane that is FULL with a block of a slot (R106). -/
def fullBuffer? (l : Lane) (slot block : Nat) (s : State) : Option Nat :=
  (s.heldBy l).find? fun i =>
    (s.buffer i).state = .full && (s.buffer i).slot = slot && (s.buffer i).block = block

/-- The first of some stations whose job is in a state with its in-flight mark clear. -/
def firstIn (state : JobState) (members : List Nat) (s : State) : Option Job :=
  (members.filterMap s.job?).find? fun j => j.state = state && !j.inFlight

/-- The next step of a lane's holder, if it is ready (R106, Figure 7-2). -/
def holderTurn (l : Lane) (s : State) : Option Turn :=
  match (s.lane l).holder with
  | none => none
  | some (.single n) =>
    match s.job? n with
    | none => none
    | some j =>
      match j.state with
      | .opn => some (Turn.ofJob .opn j)
      | .load =>
        match fullBuffer? l (s.slotOf n) j.fill s with
        | none => none
        | some i => some { Turn.ofJob .block j with index := j.fill, buffer := i }
      | .close => some (Turn.ofJob .close j)
      | _ => none
  | some (.group members count round) =>
    if members.any (fun n => match s.job? n with
        | none => false
        | some j => j.state = .opn) then
      (firstIn .opn members s).map (Turn.ofJob .opn)
    else
      match round with
      | some r => (((r.filterMap s.job?).find? fun j => !j.inFlight)).map (Turn.ofJob .fill)
      | none =>
        match members with
        | [] => none
        | n :: _ =>
          if count < s.lengthOf n then
            (fullBuffer? l (s.slotOf n) count s).map fun i =>
              { step := .block, owner := .group, station := none, index := count, buffer := i }
          else (firstIn .close members s).map (Turn.ofJob .close)

/-- The first eligible other step of a lane: a job in PROBE, START or REPLAY with its in-flight mark clear
(R106). -/
def otherTurn (l : Lane) (s : State) : Option Turn :=
  match s.laneJobs l (fun j => !j.inFlight && (j.state = .probe || j.state = .start || j.state = .replay)) with
  | [] => none
  | j :: _ => (stepOfState j.state).map fun k => Turn.ofJob k j

/-- The restore step of a turn and the turn kind it makes (R106). -/
def restoreTurn (l : Lane) (s : State) : Option (Turn × TurnKind) :=
  match (s.lane l).lastTurn, otherTurn l s, holderTurn l s with
  | .load, some t, _ => some (t, .other)
  | _, _, some t => some (t, .load)
  | _, some t, none => some (t, .other)
  | _, none, none => none

/-- The push of a turn: the first entry of the lane's list that is urgent, or the first of all (R105). -/
def pushTurn (l : Lane) (urgentOnly : Bool) (s : State) : Option Turn :=
  ((s.pushes l).find? fun p => p.urgent || !urgentOnly).map fun p =>
    Turn.plain .context (.push p.station) p.station

/-- The NODE QUERY of a turn, if its station is on this lane (R105). A query whose poll has begun keeps its
lane busy until it is answered. -/
def queryTurn (l : Lane) (s : State) : Option Turn :=
  match s.query with
  | none => none
  | some n =>
    match s.station? n with
    | none => none
    | some st => if st.entry.lane = l then some (Turn.plain .poll (.query n) n) else none

/-- The pending poll of a turn (R105). -/
def pollTurn (l : Lane) (s : State) : Option Turn :=
  (s.lane l).pendingPoll.map fun n => Turn.plain .poll (.poll n) n

/-- What the arbiter takes: urgent pushes, restore steps, ordinary pushes, the NODE QUERY, the pending
poll, in this order (R105), with the last turn kind after it (R106). -/
def arbiterChoice (l : Lane) (s : State) : Option (Turn × TurnKind) :=
  let last := (s.lane l).lastTurn
  let keep (t : Turn) : Turn × TurnKind := (t, last)
  ((pushTurn l true s).map keep).or
    ((restoreTurn l s).or
      (((pushTurn l false s).map keep).or (((queryTurn l s).map keep).or ((pollTurn l s).map keep))))

/-! ### Attempts (R96, R98, R101, R110, R115, R125, R130) -/

/-- The group-listen flag of an OPEN step: set for a member of a group (R125, R129). DESIGN CHOICE (log 52): it is read from the
holder at the frame start of every attempt, so that a further attempt of a step that a group began has it clear once the
group has given way to that member (R132). -/
def listenFlag (l : Lane) (s : State) : Bool :=
  match (s.lane l).holder with
  | some (.group _ _ _) => true
  | _ => false

/-- The payload of a frame, built from the directory, the record and the buffers as they stand at the
frame start (Figure 11-9, R98, R110). -/
def framePayload (l : Lane) (t : Txn) (s : State) : List Byte :=
  let n := t.station.getD 0
  let image? := s.validImage? (s.slotOf n)
  match t.step with
  | .opn =>
    match image? with
    | none => []
    | some im => le32 im.tag ++ le16 im.generation ++ le16 im.length ++ [flagByte (listenFlag l s)]
  | .block =>
    let b := s.buffer t.buffer
    (match s.validImage? b.slot with
      | none => le32 0
      | some im => le32 im.tag) ++ le16 t.index ++ b.data
  | .close =>
    match image? with
    | none => []
    | some im => le32 im.crc
  | .context =>
    match s.station? n with
    | none => []
    | some st =>
      le16 st.context.epoch ++ [byte (effectiveRelease s.car st.entry st.context.fields).code] ++
        st.context.fields.bytes
  | _ => []

/-- One bit of a BLOCK frame's 256 payload bytes inverted; the tag and index before them stay (R115). -/
def flipBlock (draw : Nat) (payload : List Byte) : List Byte :=
  let bit := Config.flippedBit draw % 2048
  payload.mapIdx fun i b => if i = 6 + bit / 8 then b ^^^ byte (2 ^ (bit % 8)) else b

/-- A CRC-16 that is not the right one (R115, log 19). -/
def wrongCrc (draw : Nat) (right : Half) : Half :=
  let m := Config.corruptMask draw
  right ^^^ (if m = 0 then 1 else m)

/-- A frame sent with a wrong CRC-16. -/
def corrupted (draw : Nat) (frame : List Byte) : List Byte :=
  let body := frame.take (frame.length - 2)
  body ++ le16 (wrongCrc draw (crc16 body)).toNat

/-- The bytes that a frame puts on the lane, altered by an injection used on it (R115). A FLIP on a frame
that is no BLOCK frame acts as CORRUPT. -/
def sentFrame (injected : Option InjectionKind) (draw : Nat) (step : StepKind) (address sequence : Nat)
    (payload : List Byte) : Option (List Byte) :=
  let frame := laneFrame address sequence step.code payload
  match injected with
  | none => some frame
  | some .corrupt => some (corrupted draw frame)
  | some .drop => none
  | some .flip =>
    if step = .block then some (laneFrame address sequence step.code (flipBlock draw payload))
    else some (corrupted draw frame)

/-- The injection after one more frame: the kind used on this frame, if any, and what stays pending
(R115). -/
def countInjection (i : Option Injection) : Option InjectionKind × Option Injection :=
  match i with
  | none => (none, none)
  | some x => if x.count ≤ 1 then (some x.kind, none) else (none, some { x with count := x.count - 1 })

/-- The bus address of a frame, read from the station entry at the frame start; 31 for the group (R95). -/
def frameAddress (t : Txn) (s : State) : Nat :=
  match t.station with
  | none => 31
  | some n =>
    match s.station? n with
    | none => t.address
    | some st => st.entry.address

/-- One more BLOCK frame of a job; the count saturates (R125). -/
def Job.countBlock (j : Job) : Job := { j with blocksSent := min 65535 (j.blocksSent + 1) }

/-- The blocks sent of the jobs that a BLOCK frame counts for: the step's job, or every member of the
group in LOAD (R125, R130). -/
def countBlocks (l : Lane) (t : Txn) (s : State) : State :=
  if t.step ≠ .block then s
  else
    match t.owner, (s.lane l).holder with
    | .job n _, _ => s.updJob n Job.countBlock
    | .group, some (.group members _ _) =>
      members.foldl (fun x n => x.updJob n fun j => if j.state = .load then j.countBlock else j) s
    | _, _ => s

/-- A BLOCK frame's buffer becomes SENDING (R135). -/
def markSending (t : Txn) (s : State) : State :=
  if t.step = .block then s.setBuffer t.buffer { s.buffer t.buffer with state := .sending } else s

/-- A lane begins a frame for the transaction it holds (R96, R98, R115): the payload built anew, the
sequence count advanced, the injection counted, and the response window set unless the frame goes to
address 31. The driver is enabled for a frame that is put on the lane, and not for one that a DROP withholds. A reply with its
address and sequence number is from now on this frame's, and no abandoned one's (log 47). -/
def beginAttempt (l : Lane) (t : Txn) (s : State) : State :=
  let x := s.lane l
  let (injected, left) := countInjection x.injection
  let address := frameAddress t s
  let frame := sentFrame injected s.free t.step address x.seq (framePayload l t s)
  let t' : Txn :=
    { t with
      address := address
      sequence := x.seq
      rate := s.settings.rate l
      frame := frame
      stale := false }
  let s1 := s.updLane l fun x =>
    { x with
      seq := (x.seq + 1) % 16
      injection := left
      txn := some t'
      driver := if frame.isSome then .inUse else .released
      abandoned := x.abandoned.filter (· ≠ { address := address, sequence := x.seq }) }
  let s2 := markSending t (countBlocks l t { s1 with free := if injected.isSome then s.free + 1 else s.free })
  if t.station.isNone then s2 else setDeadlineIn (.responseWindow l) (s.settings.responseWindow l) s2

/-- A job's record as the first attempt of a step begins for it (R77). -/
def Job.begin (j : Job) : Job := { j with inFlight := true, retriesUsed := 0 }

/-- The first attempt of a step begins (R77, R97, R101): the job's in-flight mark set, the retry limit
kept, and a poll no longer pending (R105). -/
def beginStep (l : Lane) (turn : Turn) (kind : TurnKind) (s : State) : State :=
  let s1 := match turn.owner with
    | .job n _ => s.updJob n Job.begin
    | .poll _ => s.updLane l fun x => { x with pendingPoll := none }
    | _ => s
  let t : Txn :=
    { step := turn.step, owner := turn.owner, station := turn.station, address := 0, sequence := 0, rate := .r1000
      frame := none, attempt := 1, endings := [], limit := s.settings.retryLimit, stale := false
      index := turn.index, buffer := turn.buffer }
  beginAttempt l t (s1.updLane l fun x => { x with lastTurn := kind })

/-- A free lane's arbiter chooses, and the step it chooses begins at once (R104). -/
def arbitrate (l : Lane) (s : State) : State :=
  if s.laneFree l && s.lanesOpen then
    match arbiterChoice l s with
    | none => s
    | some (turn, kind) => beginStep l turn kind s
  else s

/-- What follows an event at the lanes: each lane without a holder selects one, the flash operation at the
head of the queue is issued, and each free lane's arbiter chooses (R104, R106, R119, R138; log 14). -/
def lanesAct (s : State) : State :=
  let s1 := issueFlash (selectHolder .b (selectHolder .a s))
  arbitrate .b (arbitrate .a s1)

end Sys2Proof.Machine
end

