-- ==== Sys2Proof/Machine/Replies.lean ====
section
/-! DEFINITION. How an attempt ends and what its outcome does: replies, error endings, refusals and the
outcomes of each step for its owner (spec/05, 5.4; spec/06, 6.2, 6.3, 6.5 to 6.7; spec/07, 7.3 to 7.5). -/

namespace Sys2Proof.Machine

/-! ### Ends of steps -/

/-- The owner of a step is gone: its job has left the queue, its push entry its list, or the query has been
cleared (R70, R101). DESIGN CHOICE (log 48): an entry is known by its station, as R63 has it, so that one which left its list
and joined anew while the old push is in flight owns that push. -/
def ownerGone (t : Txn) (s : State) : Bool :=
  match t.owner with
  | .job n id =>
    match s.job? n with
    | none => true
    | some j => j.id ≠ id
  | .push n => (s.push? n).isNone
  | .query n => s.query ≠ some n
  | _ => false

/-- A lane whose transaction has ended, its driver released (6.1, R98). -/
def LaneState.freed (x : LaneState) : LaneState := { x with txn := none, driver := .released }

/-- A step ends: its lane becomes free, and its job's in-flight mark is cleared (R77, R103). -/
def endStep (l : Lane) (t : Txn) (s : State) : State :=
  let s1 := s.updLane l LaneState.freed
  match t.owner with
  | .job n id => s1.updJob n fun j => if j.id = id then { j with inFlight := false } else j
  | _ => s1

/-- A step of the load protocol (R86, R101). -/
def StepKind.loading : StepKind → Bool
  | .opn => true
  | .block => true
  | .fill => true
  | .close => true
  | _ => false

/-- A job sent back to LOADWAIT for a new OPEN (R80, R86, R127, R131). -/
def Job.reopened (j : Job) : Job := { j with state := .loadwait, needsOpen := true, fill := 0 }

/-- A job returned to LOADWAIT with one step restart, or failed where that would be its fifth (R84, R86,
R127, R128). -/
def restartOpen (n : Nat) (reason : Reason) (s : State) : State :=
  match s.job? n with
  | none => s
  | some j =>
    if 4 ≤ j.restarts then failJob n reason s
    else leaveLoad n (s.updJob n fun j => { j.reopened with restarts := j.restarts + 1 })

/-- The members of a holder, in queue order. -/
def Holder.stations : Holder → List Nat
  | .single n => [n]
  | .group members _ _ => members

/-- A strict error: the holder ends, and each of its jobs returns to LOADWAIT with needs-open set and one
step restart, or fails with LINK where that would be its fifth, in queue order (R86, R128). -/
def strictError (l : Lane) (s : State) : State :=
  match (s.lane l).holder with
  | none => s
  | some h => h.stations.foldl (fun x n => restartOpen n .link x) (endHolder l s)

/-- The reason of a job whose step has exhausted its retries (R85). -/
def exhaustionReason (endings : List Ending) : Reason :=
  if endings.any (fun e => e = .crc || e = .echo || e = .sequenceFault) then .link
  else if endings.all (· = .noReply) then .noReply
  else .refused

/-- A push that is refused or whose retries are exhausted: its entry leaves the list and a LINK job is
created (R64). -/
def pushLost (n : Nat) (s : State) : State := createJob n .link (removePush n s)

/-- A step's retries are exhausted, and its owner is told (R64, R85, R90, R114). -/
def exhausted (t : Txn) (endings : List Ending) (s : State) : State :=
  match t.owner with
  | .job n _ => failJob n (exhaustionReason endings) s
  | .push n => createJob n .link (setPresence n .absent (removePush n s))
  | .poll n => createJob n .link (setPresence n .absent s)
  | .query n =>
    let s1 := createJob n .link (setPresence n .absent s)
    postNotice (.queryNoReply n) { s1 with query := none }
  | _ => s

/-- One more attempt counted for the job of a step (R77, R101). -/
def countRetry (t : Txn) (s : State) : State :=
  match t.owner with
  | .job n _ => s.updJob n fun j => { j with retriesUsed := j.retriesUsed + 1 }
  | _ => s

/-- An attempt ends with an error (R101): the owner gone, nothing more; a strict error; a further attempt;
or the retries exhausted. -/
def errorEnding (l : Lane) (t : Txn) (e : Ending) (s : State) : State :=
  let s1 := removeDeadline (.responseWindow l) s
  if ownerGone t s1 then endStep l t s1
  else if s1.settings.strict l && (e = .crc || e = .echo) && t.step.loading then strictError l (endStep l t s1)
  else if t.attempt ≤ t.limit then
    beginAttempt l { t with attempt := t.attempt + 1, endings := t.endings ++ [e] } (countRetry t s1)
  else exhausted t (t.endings ++ [e]) (endStep l t s1)

/-! ### Outcomes of a job's steps (R78 to R84, R126, R127, R131, R133) -/

/-- Where a PROBE outcome sends a job (Figure 5-4). -/
inductive ProbeVerdict where
  | complete
  | to (state : JobState) (fill : Option Nat) (needsOpen : Option Bool)
  deriving DecidableEq, Repr

/-- A PROBE outcome judged against the slot's image and the record's epoch (Figure 5-4). -/
def probeVerdict (r : Report) (image : Image) (epoch : Nat) : ProbeVerdict :=
  match r.state with
  | .running =>
    if r.tag = image.tag && r.generation = image.generation then
      (if r.epoch = epoch then .complete else .to .replay none none)
    else .to .loadwait (some 0) (some true)
  | .held =>
    if r.tag = image.tag && r.generation = image.generation then .to .start none none
    else .to .loadwait (some 0) (some true)
  | .partly =>
    if r.tag = image.tag && 0 < r.fill && r.fill ≤ image.length then .to .loadwait (some r.fill) (some false)
    else .to .loadwait (some 0) (some true)
  | .blank => .to .loadwait (some 0) (some true)

/-- The check of a job's prediction at its first accepted PROBE outcome after taking it, and the adaptation
it may make (R39, R40). -/
def checkPrediction (n : Nat) (r : Report) (tag : Word) (s : State) : State :=
  match s.job? n with
  | some j =>
    if j.result = .none then
      let result := predictionResult j.prediction (findingIntact r tag)
      let s1 := s.updJob n fun j => { j with result := result }
      if result = .miss && j.origin = .gap && s.settings.adaptation then
        s1.updStation n fun x => { x with estimate := x.estimate.adapt x.entry.capacity j.prediction }
      else s1
    else s
  | none => s

/-- A PROBE reply taken for a job (R78). -/
def probeOutcome (n : Nat) (r : Report) (s : State) : State :=
  let s1 := s.updJob n fun j => { j with finding := some r }
  match s1.station? n, s1.validImage? (s1.slotOf n) with
  | some st, some image =>
    if image.kind ≠ st.entry.kind then failJob n .noImage s1
    else if r.kind ≠ st.entry.kind then failJob n .wrongKind s1
    else
      let s2 := checkPrediction n r image.tag s1
      match probeVerdict r image st.context.epoch with
      | .complete => completeJob n .kept s2
      | .to state fill needsOpen =>
        s2.updJob n fun j =>
          { j with state := state, fill := fill.getD j.fill, needsOpen := needsOpen.getD j.needsOpen }
  | _, _ => failJob n .noImage s1

/-- An OPEN acknowledgement (R79, R125). -/
def openAcknowledged (l : Lane) (n : Nat) (s : State) : State :=
  planBuffers l (s.updJob n fun j => { j with needsOpen := false, fill := 0, state := .load })

/-- A fill mark taken by a job in LOAD, which moves to CLOSE where it is the image length (R79). -/
def Job.fillTo (length fill : Nat) (j : Job) : Job :=
  { j with fill := fill, state := if fill = length then .close else .load }

/-- A block delivered: the fill mark rises, the buffer becomes FREE and the lane plans again (R126). -/
def blockDelivered (l : Lane) (n buffer : Nat) (s : State) : State :=
  let s1 := s.updJob n fun j => j.fillTo (s.lengthOf n) (j.fill + 1)
  planBuffers l (freeBuffer buffer s1)

/-- A member's fill judged against the group count (R131). -/
def fillJudged (l : Lane) (n f : Nat) (s : State) : State :=
  match (s.lane l).holder with
  | some (.group members count round) =>
    if f = count then
      settleGroup l members count (round.map fun r => r.filter (· ≠ n))
        (s.updJob n (Job.fillTo (s.lengthOf n) count))
    else if f < count then
      leaveHolder l n (s.updJob n fun j => { j with state := .loadwait, fill := f, needsOpen := false })
    else leaveHolder l n (s.updJob n Job.reopened)
  | _ => s

/-- A CLOSE reply counted for its slot, if it is VALID: MATCH clears the count, MISMATCH raises it, and a
third consecutive mismatch makes the slot SUSPECT and fails its jobs (R133, R142, R81). -/
def slotChecked (slot : Nat) (equal : Bool) (s : State) : State :=
  match s.slot slot with
  | .valid image count =>
    if equal then s.setSlot slot (.valid image 0)
    else if count + 1 < 3 then s.setSlot slot (.valid image (count + 1))
    else
      let s1 := s.setSlot slot (.suspect image 3)
      slotLeftValid slot
        (kickMarkWriter { s1 with store := { s1.store with markList := s1.store.markList ++ [slot] } })
  | _ => s

/-- A CLOSE reply of MATCH or MISMATCH: first the job is settled, then the slot (R80, R133). -/
def closeResult (n : Nat) (equal : Bool) (s : State) : State :=
  match s.job? n with
  | none => s
  | some j =>
    let slot := s.slotOf n
    let s1 :=
      if equal then leaveLoad n (s.updJob n fun j => { j with loaded := true, state := .start })
      else
        let s0 := s.updJob n fun j => { j with mismatches := j.mismatches + 1 }
        if 1 ≤ j.mismatches then failJob n .check s0 else leaveLoad n (s0.updJob n Job.reopened)
    slotChecked slot equal s1

/-- A START acknowledgement (R82). -/
def startAcknowledged (n : Nat) (s : State) : State := s.updJob n fun j => { j with state := .replay }

/-- A CONTEXT acknowledgement for a job: with the record's epoch the job completes, with another it stays
in REPLAY (R83). -/
def replayAcknowledged (n epoch : Nat) (s : State) : State :=
  match s.job? n, s.station? n with
  | some j, some st =>
    if epoch = st.context.epoch then completeJob n (if j.loaded then .reloaded else .replayed) s else s
  | _, _ => s

/-- A NAK WRONG_STATE outside PROBE: the job returns to PROBE with one step restart, or fails with REFUSED
where that would be its fifth (R84). -/
def wrongState (n : Nat) (s : State) : State :=
  match s.job? n with
  | none => s
  | some j =>
    if 4 ≤ j.restarts then failJob n .refused s
    else leaveLoad n (s.updJob n fun j => { j with state := .probe, restarts := j.restarts + 1 })

/-- A NAK BAD_INDEX in answer to a BLOCK step (R127). A buffer that is kept carries no step any more, and
is FULL again (log 25). -/
def badIndexOnBlock (l : Lane) (t : Txn) (n f : Nat) (s : State) : State :=
  if f = t.index then restartOpen n .refused s
  else if f ≤ s.lengthOf n then
    let s1 := s.updJob n (Job.fillTo (s.lengthOf n) f)
    let b := s1.buffer t.buffer
    planBuffers l (if b.state = .sending then s1.setBuffer t.buffer { b with state := .full } else s1)
  else wrongState n s

/-- A refusal of a job's step (Figure 5-5). BUSY is no refusal (R102). -/
def jobRefused (l : Lane) (t : Txn) (n : Nat) (reason : NakReason) (f : Nat) (s : State) : State :=
  match reason with
  | .busy => s
  | .noSpace => failJob n .refused s
  | .wrongState => if t.step = .probe then failJob n .refused s else wrongState n s
  | .badIndex =>
    match t.step with
    | .probe => failJob n .refused s
    | .block => badIndexOnBlock l t n f s
    | .close => restartOpen n .refused s
    | _ => wrongState n s

/-- A reply taken for a job's step (R77, Figure 6-2). -/
def jobReply (l : Lane) (t : Txn) (n : Nat) (r : LaneReply) (s : State) : State :=
  match t.step, r with
  | _, .nak reason f => jobRefused l t n reason f s
  | .probe, .report p => probeOutcome n p s
  | .opn, .ack => openAcknowledged l n s
  | .block, .blockAck _ _ => blockDelivered l n t.buffer s
  | .fill, .fillReport f => fillJudged l n f s
  | .close, .closeResult equal => closeResult n equal s
  | .start, .ack => startAcknowledged n s
  | .context, .contextAck epoch => replayAcknowledged n epoch s
  | _, _ => s

/-! ### Outcomes of pushes, polls and the query (R63, R64, R90, R102, R111, R114) -/

/-- A reply taken for a push: an acknowledgement with the record's epoch delivers it, a stale one leaves
the entry, a refusal makes a LINK job (R63, R64, R102). -/
def pushReply (n : Nat) (r : LaneReply) (s : State) : State :=
  match r with
  | .contextAck epoch =>
    match s.station? n with
    | none => s
    | some st => if epoch = st.context.epoch then removePush n s else s
  | .nak _ _ => pushLost n s
  | _ => s

/-- A poll reply is current: RUNNING with the epoch of the record (R51, R111). -/
def pollCurrent (r : Report) (epoch : Nat) : Bool := r.state = .running && r.epoch = epoch

/-- The presence of a station after a poll reply: as for any reply where it has a job, else READY where the
reply is current and SEEN where it is not (Figure 4-2). -/
def presencePoll (n : Nat) (r : Report) (s : State) : State :=
  match s.station? n with
  | none => s
  | some st =>
    if s.hasJob n then presenceReply n s
    else setPresence n (if pollCurrent r st.context.epoch then .ready else .seen) s

/-- The leaf state that a live status reports. OK, which a display reports, is no leaf state: what it leaves is open
among the six states and none (R58, log 43). -/
def LiveStatus.leafState (draw : Nat) : LiveStatus → Option LiveStatus
  | .ok =>
    match LiveStatus.ofCode (Config.leafForOk draw % 7) with
    | some .ok => none
    | x => x
  | live => some live

/-- An entrance station with the leaf state that a poll reply reports; a display has none (R58, R111). -/
def Station.observing (leaf : Option LiveStatus) (st : Station) : Station :=
  if st.entry.kind = .entrance then { st with context := { st.context with leaf := leaf } } else st

/-- The observed leaf state of an entrance station (R58, R111). -/
def observeLeaf (n : Nat) (live : LiveStatus) (s : State) : State :=
  let s1 := s.updStation n (Station.observing (live.leafState s.free))
  if live = .ok then s1.drawn else s1

/-- A poll reply handed on: to the presence, the leaf state, and, where it is not current, to the Engine for
a POLL job (R90, R111). -/
def pollHandedOn (n : Nat) (r : Report) (live : LiveStatus) (s : State) : State :=
  match s.station? n with
  | none => s
  | some st =>
    let s1 := observeLeaf n live (presencePoll n r s)
    if pollCurrent r st.context.epoch then s1 else createJob n .poll s1

/-- A reply taken for a round-robin poll. -/
def pollReply (n : Nat) (r : LaneReply) (s : State) : State :=
  match r with
  | .pollReport p live => pollHandedOn n p live s
  | _ => s

/-- A reply taken for the poll of the NODE QUERY: handed on, then QUERY RESULT posted (R114). -/
def queryReply (n : Nat) (r : LaneReply) (s : State) : State :=
  match r with
  | .pollReport p live =>
    let s1 := pollHandedOn n p live s
    postNotice (.queryReport n p live) { s1 with query := none }
  | _ => s

/-! ### A reply on a lane (R99) -/

/-- A stale reply is marked in its attempt (R99). -/
def markStale (l : Lane) (t : Txn) (s : State) : State :=
  s.updLane l fun x => { x with txn := some { t with stale := true } }

/-- A reply with another sequence number or address than the frame in flight: discarded without effect where it answers a
frame of an abandoned transaction (R65, R99, log 47), and stale otherwise. -/
def unmatchedReply (l : Lane) (t : Txn) (raw : RawReply) (s : State) : State :=
  if (s.lane l).abandoned.contains { address := raw.address, sequence := raw.sequence } then s else markStale l t s

/-- The error ending that a reply taken makes, if it makes one: NAK BUSY, an ECHO error, or a NAK that a
POLL cannot have (R101, R102, R126). -/
def replyError (t : Txn) (r : LaneReply) (s : State) : Option Ending :=
  match r with
  | .nak .busy _ => some .busy
  | .nak _ _ => if t.step = .poll then some .crc else none
  | .blockAck index crc => if index = t.index && crc = (s.buffer t.buffer).crc then none else some .echo
  | _ => none

/-- Presence from a reply taken; a poll report has its own rule, applied as it is handed on (R51). A NAK in answer
to a POLL shows no image state; DESIGN CHOICE (log 41): it counts as a reply taken by a transaction not named in
Figure 4-2, so that READY stays READY. -/
def presenceOfReply (n : Nat) (r : LaneReply) (gone : Bool) (s : State) : State :=
  match r with
  | .pollReport p _ => if gone then presencePoll n p s else s
  | _ => presenceReply n s

/-- A reply taken: it counts for presence, and then ends the attempt with an error or the step with an
outcome for its owner (R99, R101, R103). -/
def takeReply (l : Lane) (t : Txn) (r : LaneReply) (s : State) : State :=
  let gone := ownerGone t s
  let s1 := presenceOfReply (t.station.getD 0) r gone (removeDeadline (.responseWindow l) s)
  match replyError t r s1 with
  | some e => errorEnding l t e s1
  | none =>
    let s2 := endStep l t s1
    if gone then s2
    else
      match t.owner with
      | .job n _ => jobReply l t n r s2
      | .push n => pushReply n r s2
      | .poll n => pollReply n r s2
      | .query n => queryReply n r s2
      | _ => s2

/-- A complete reply frame on a lane (R99, R177). A reply with no transaction in flight, or while a frame to
address 31 is being sent, is discarded without effect (log 23). -/
def laneReply (l : Lane) (frame : List Byte) (s : State) : State :=
  match (s.lane l).txn with
  | none => s
  | some t =>
    if t.station.isNone then s
    else
      match readReplyFrame frame with
      | none => lanesAct (errorEnding l t .crc s)
      | some raw =>
        if raw.sequence ≠ t.sequence || raw.address ≠ t.address then unmatchedReply l t raw s
        else
          match readAnswer t.step raw.kind raw.payload with
          | .unpaired => markStale l t s
          | .malformed => lanesAct (errorEnding l t .crc s)
          | .reply r => lanesAct (takeReply l t r s)

/-- The response window of a lane expires: NO_REPLY, or a sequence fault where a stale reply was seen
(R100). -/
def windowExpired (l : Lane) (s : State) : State :=
  match (s.lane l).txn with
  | none => s
  | some t => lanesAct (errorEnding l t (if t.stale then .sequenceFault else .noReply) s)

/-- A fill round opens where the group count reaches a multiple of 16 or the image length: it holds every
member in LOAD, in queue order (R131). -/
def roundAt (members : List Nat) (count : Nat) (s : State) : Option (List Nat) :=
  let length := match members with
    | [] => 0
    | n :: _ => s.lengthOf n
  if count % 16 = 0 || count = length then
    some (members.filter fun n => match s.job? n with
      | none => false
      | some j => j.state = .load)
  else none

/-- The end of a BLOCK frame to address 31 (R130, R131, R135). A frame whose group has ended frees its
buffer, if the lane still owns it, and counts for no group (log 27). -/
def groupFrameEnded (l : Lane) (s : State) : State :=
  match (s.lane l).txn with
  | none => s
  | some t =>
    let done := s.updLane l LaneState.freed
    match t.owner, (s.lane l).holder with
    | .group, some (.group members count _) =>
      let s1 := done.updLane l fun x =>
        { x with holder := some (.group members (count + 1) (roundAt members (count + 1) s)) }
      lanesAct (planBuffers l (freeBuffer t.buffer s1))
    | .orphan, _ =>
      let b := s.buffer t.buffer
      if b.owner = some (.lane l) && b.state = .sending then
        lanesAct (planBuffers l (freeBuffer t.buffer done))
      else lanesAct done
    | _, _ => s

end Sys2Proof.Machine
end

