-- ==== Sys2Proof/Machine/Records.lean ====
section
/-! DEFINITION. The flash records: slot headers, the config record and the park record, each written and
read (spec/11, 11.5; R141, R168, R172, R178). -/

namespace Sys2Proof.Machine

/-! ### Slot headers (Figure 11-10) -/

/-- The bytes of a slot header that its CRC-16 covers. -/
def headerBody (im : Image) : List Byte :=
  [0x53, 0x4C, 0x4F, 0x54, 1, byte im.kind.code] ++ le32 im.tag ++ le16 im.generation ++ le16 im.length ++ le32 im.crc

/-- A slot header with its SUSPECT mark erased, as the block that holds it. -/
def headerBlock (im : Image) : List Byte := toBlock (headerBody im ++ crcBytes (headerBody im))

/-- The image that a good header describes (R141, R178). -/
def readHeader (b : List Byte) : Option Image :=
  if b.take 5 = [0x53, 0x4C, 0x4F, 0x54, 1] && (b.drop 18).take 2 = crcBytes (b.take 18) then
    match Kind.ofCode (numAt b 5) with
    | none => none
    | some kind =>
      if 1 ≤ num16At b 12 && num16At b 12 ≤ 4095 then
        some { kind := kind, tag := wordAt b 6, generation := num16At b 10, length := num16At b 12, crc := wordAt b 14 }
      else none
  else none

/-- The slot record that a header gives (R141). -/
def slotOfHeader (b : List Byte) : Slot :=
  match readHeader b with
  | none => .empty
  | some im => if byteAt b 20 = 0xFF then .valid im 0 else .suspect im 3

/-! ### The config record (Figure 11-11) -/

def configMarker : List Byte := [0x43, 0x46, 0x47, 0x31]

/-- The bytes of the config record that its CRC-32 covers. -/
def configBody (settings : Settings) (entries : List Entry) : List Byte :=
  configMarker ++ le16 1 ++ le16 (36 + 11 * entries.length) ++ [byte entries.length] ++ settings.bytes ++
    entries.flatMap Entry.bytes

/-- The config record. -/
def configRecord (settings : Settings) (entries : List Entry) : List Byte :=
  configBody settings entries ++ le32 (crc32 (configBody settings entries))

/-- The length that a config record's header gives, none where the marker, the version, the count or the
length is not right (R172, R178). -/
def configLength (b : List Byte) : Option Nat :=
  if b.take 4 = configMarker && num16At b 4 = 1 && numAt b 8 ≤ 24 && num16At b 6 = 36 + 11 * numAt b 8 then
    some (num16At b 6)
  else none

/-- The entries of a config record: so many of 11 bytes each, each within NODE DEFINE's ranges and with a
side that agrees with its kind (R172). -/
def readEntries : Nat → List Byte → Option (List Entry)
  | 0, _ => some []
  | n + 1, b =>
    if !sideAgrees b then none
    else
      match readEntry (b.take 11), readEntries n (b.drop 11) with
      | some e, some es => some (e :: es)
      | _, _ => none

/-- The entries share no station number, alias or lane-and-address pair, and no lane has more than 16 (R172,
R47). -/
def entriesAgree (es : List Entry) : Bool :=
  decide (es.Pairwise fun x y =>
    x.number ≠ y.number ∧ x.aliasNo ≠ y.aliasNo ∧ ¬(x.lane = y.lane ∧ x.address = y.address)) &&
  [Lane.a, Lane.b].all fun l => (es.filter (·.lane = l)).length ≤ Config.stationsPerLane

/-- The settings and entries of a valid config record (R172, R178). -/
def readConfig (b : List Byte) : Option (Settings × List Entry) :=
  match configLength b with
  | none => none
  | some len =>
    if wordAt b (len - 4) = crc32 (b.take (len - 4)) then
      match readSettings settingCodes (b.drop 9) Settings.default, readEntries (numAt b 8) (b.drop 32) with
      | some settings, some entries => if entriesAgree entries then some (settings, entries) else none
      | _, _ => none
    else none

/-! ### The park record (Figure 11-12) -/

def parkMarker : List Byte := [0x54, 0x55, 0x50, 0x41, 0x52, 0x4B, 0x30, 0x31]

/-- A filled place of the park record (R168). -/
def parkPlace (st : Station) : List Byte :=
  [byte st.entry.number, byte st.entry.kind.code] ++ le16 st.context.fields.mask ++ le16 st.context.epoch ++
    le16 st.estimate.working ++ (st.context.fields.values ++ ones 12).take 12

/-- An empty place: station number 0, and bytes that the manual leaves open for each
record (log 18). -/
def emptyPlace (draw place : Nat) : List Byte :=
  0 :: (List.range 19).map fun i => Config.emptyPlaceByte (draw * 480 + place * 20 + i)

/-- The 24 places: the defined stations in station order, then empty ones. -/
def parkPlaces (draw : Nat) (stations : List Station) : List Byte :=
  (List.range 24).flatMap fun i => match stations[i]? with
    | some st => parkPlace st
    | none => emptyPlace draw i

/-- The bytes of the park record that its CRC-32 covers: 492 for at most 24 stations. -/
def parkBody (draw : Nat) (stations : List Station) : List Byte :=
  parkMarker ++ le16 1 ++ le16 stations.length ++ parkPlaces draw stations

/-- The park image (R168). -/
def parkImage (draw : Nat) (stations : List Station) : List Byte :=
  parkBody draw stations ++ le32 (crc32 (parkBody draw stations))

/-- Page 2 of the park record: its last 240 bytes and 16 bytes of all ones (R169). -/
def parkPage2 (image : List Byte) : List Byte := (image.drop 256).take 240 ++ ones 16

/-- A park record is valid: marker, version, count and CRC-32 (R172). -/
def parkValid (b : List Byte) : Bool :=
  b.take 8 = parkMarker && num16At b 8 = 1 && num16At b 10 ≤ 24 && wordAt b 492 = crc32 (b.take 492)

/-- The fields that a place gives: the present values read in code order at their widths, until one would
pass the end of the area; a field of another kind or out of range discarded, the clamped ones clamped
(R66, R178). -/
def readFields (kind : Kind) (mask : Nat) : List Nat → List Byte → Fields → Fields
  | [], _, f => f
  | k :: ks, area, f =>
    if mask / 2 ^ k % 2 = 0 then readFields kind mask ks area f
    else if area.length < fieldWidth k then f
    else
      let v := if fieldWidth k = 2 then num16At area 0 else numAt area 0
      let f' := if fieldBelongs kind k then
          (match judgeField k v with
           | none => f
           | some v' => f.put k (some v'))
        else f
      readFields kind mask ks (area.drop (fieldWidth k)) f'

/-- A station as a place of the park record of its number and kind leaves it, its derived release computed
again (R43, R60, R66, R178). -/
def Station.restored (car : CarState) (place : List Byte) (st : Station) : Station :=
  let epoch := num16At place 4
  let fields := readFields st.entry.kind (num16At place 2) fieldCodes ((place.drop 8).take 12) st.context.fields
  { st with
    context :=
      { st.context with
        fields := fields, epoch := if epoch = 0 then 1 else epoch, release := effectiveRelease car st.entry fields }
    estimate := st.estimate.restore st.entry.capacity (num16At place 6) }

/-- One place of the park record taken: skipped where its station is 0, above 24, not defined or of another
kind (R178). -/
def takePlace (place : List Byte) (s : State) : State :=
  let n := numAt place 0
  if n = 0 || 24 < n then s
  else
    match s.station? n with
    | none => s
    | some st => if Kind.ofCode (numAt place 1) = some st.entry.kind then s.updStation n (Station.restored s.car place) else s

/-- The first so many places of a park record taken, in order. -/
def takePlaces : Nat → List Byte → State → State
  | 0, _, s => s
  | n + 1, b, s => takePlaces n (b.drop 20) (takePlace (b.take 20) s)

end Sys2Proof.Machine
end

