-- ==== Sys2Proof/Machine/ColdStart.lean ====
section
/-! DEFINITION. Power, the reset line and the cold start (spec/10, 10.2; R17, R28, R43, R66, R68, R118, R153,
R167, R170, R171). -/

namespace Sys2Proof.Machine

/-- Every block at its cold start values, with no deadline set yet. The flash, which is a device of its own,
and the model's own fields stay. -/
def coldBlocks (cause : Cause) (line : LineLevel) (baudHigh : Bool) (s : State) : State :=
  { State.reset with
    pins := { powered := true, rstnLow := false, baudHigh := baudHigh, attn := false }
    supply :=
      { State.reset.supply with
        raw := line
        candidate := match line with
          | .absent => some { level := .absent, rawTime := 0 }
          | .present => none }
    timebase := { count := 0, deadlines := [] }
    store :=
      { State.reset.store with
        running := none, chipSelect := .released, queue := [{ command := .status, who := .loader }] }
    loader := { State.reset.loader with cause := cause }
    link := { State.reset.link with rateHigh := baudHigh }
    flash := s.flash
    free := s.free
    pending := s.pending }

/-- The Supply Watch's deadlines at cold start, in the order in which it sets them (R17, R28). -/
def coldDeadlines (line : LineLevel) (s : State) : State :=
  let s1 := match line with
    | .absent => setDeadline .filterConfirm 2 s
    | .present => s
  setDeadline .holdupSample 2 (setDeadline .spanHorizon 65535 (setDeadline .settle 150 s1))

/-- A cold start: a flash operation that was running is no longer known to the part, every block takes its
cold start values, and the loader's STATUS is issued (R171, R172). -/
def coldStart (cause : Cause) (line : LineLevel) (baudHigh : Bool) (s : State) : State :=
  issueFlash (coldDeadlines line (coldBlocks cause line baudHigh (cutFlash s)))

/-- A cold start of cause PARK_RETURN: LINEP as it stands, and BAUDSEL read anew at whatever level it has (R15,
R154, R171, log 6). -/
def parkReturn (s : State) : State :=
  coldStart .parkReturn s.supply.raw (Config.baudselLevel s.free) s.drawn

/-- The part without VDD or with RSTN low: it holds no state, ATTN is released, and neither lane driver enable nor the flash
chip select is driven (R171, log 5). What its fields then hold is read by nothing, since no command but power and the reset
line has effect. -/
def stateless (powered rstnLow baudHigh : Bool) (s : State) : State :=
  { State.reset with
    pins := { powered := powered, rstnLow := rstnLow, baudHigh := baudHigh, attn := false }
    timebase := { count := 0, deadlines := [] }
    store := { State.reset.store with running := none, chipSelect := .released }
    flash := s.flash
    free := s.free
    pending := s.pending }

/-- VDD rises: a cold start with cause POWER, unless RSTN is held low (R171, log 6). -/
def powerRises (line : LineLevel) (baudHigh : Bool) (s : State) : State :=
  if s.pins.rstnLow then stateless true true baudHigh s else coldStart .power line baudHigh s

/-- RSTN goes low: the part holds no state (R171). The device goes on with an operation it was running. -/
def resetLineFalls (s : State) : State :=
  if s.pins.rstnLow then s else stateless s.pins.powered true s.pins.baudHigh (cutFlash s)

/-- RSTN returns high: a cold start with cause RESET_LINE, where VDD is present (R171, log 6). -/
def resetLineRises (line : LineLevel) (baudHigh : Bool) (s : State) : State :=
  if !s.pins.rstnLow then s
  else if s.pins.powered then coldStart .resetLine line baudHigh s
  else stateless false false baudHigh s

/-- The supply is lost: the part holds no state, and a flash operation ends where it stands (R15, R170,
log 7). -/
def supplyLost (s : State) : State :=
  stateless false s.pins.rstnLow s.pins.baudHigh (settleDevice (cutFlash s))

end Sys2Proof.Machine
end

