-- ==== Sys2Proof/Machine/Park.lean ====
section
/-! DEFINITION. The park: entry to PARKING, the park write and its end (spec/10, 10.1; R13, R15, R152, R159,
R168 to R170). -/

namespace Sys2Proof.Machine

/-- The supply state becomes PARKING, and the settle deadline, if one is set, is removed (R11, R13). -/
def enterParking (s : State) : State :=
  removeDeadline .settle { s with supply := { s.supply with state := .parking } }

/-- The park image taken, and the outcome decided by park-area-prepared (R168). -/
def takeParkImage (s : State) : State :=
  State.drawn
    { s with
      park :=
        { phase := if s.store.prepared then .waiting else .none
          image := parkImage s.free s.stations
          outcome := some (if s.store.prepared then .writing else .skipped) } }

/-- The config save abandoned with no notice (R152). DESIGN CHOICE (log 51): its queued operation is withdrawn and its running
one completes, as R152 says, so that sector 0 is not always left erased, as R152's CAUTION has it. -/
def abandonSave (s : State) : State :=
  let s1 := withdrawOps .configSave s
  { s1 with store := { s1.store with configSave := none } }

/-- The mark list emptied and the mark writer's queued PROGRAM withdrawn (R152). -/
def abandonMarks (s : State) : State :=
  { s with
    store := { s.store with markList := [], queue := s.store.queue.filter fun op => !op.who.isMarkWriter } }

/-- Both holding places emptied without a reply (R159). -/
def discardHeld (s : State) : State := { s with link := { s.link with held := [] } }

/-- The park buffer given back (R144). -/
def freeParkBuffer (s : State) : State :=
  match (s.ownedBy .parkWriter).head? with
  | none => s
  | some i => freeBuffer i s

/-- The park write ends: PARKED, with the holdup sample removed, or a cold start where the held-rise mark is
set (R15, R170). A park write is only under way in PARKING. -/
def endPark (s : State) : State :=
  let s1 := freeParkBuffer { s with park := { s.park with phase := .ended } }
  if s1.supply.state ≠ .parking then s1
  else if s1.supply.heldRise then parkReturn s1
  else removeDeadline .holdupSample { s1 with supply := { s1.supply with state := .parked } }

/-- The park begins at a sample in GAP (R11, R168): every block acts on the entry, PARKING is posted, and
the park writer asks for its buffer, or the park write ends at once. A queued operation of the loader is
withdrawn (R174). -/
def beginPark (s : State) : State :=
  let s1 := discardHeld (withdrawOps .loader (abandonMarks (abandonSave (abandonWrite (takeParkImage (enterParking s))))))
  if s1.store.prepared then
    let s2 := postNotice (.parking s1.supply.holdup .writing) s1
    issueFlash (grantBuffers (requestBuffers .parkWriter 1 s2))
  else endPark (postNotice (.parking s1.supply.holdup .skipped) s1)

/-- Page 1 has been programmed: page 2 is copied into the same buffer and its PROGRAM queued at the head
(R169). -/
def programPage2 (s : State) : State :=
  let page := parkPage2 s.park.image
  let s1 : State := { s with park := { s.park with phase := .page2 } }
  let s2 := match (s1.ownedBy .parkWriter).head? with
    | none => s1
    | some i => s1.setBuffer i { s1.buffer i with block := 257, state := .programming, crc := crc16 page, data := page }
  queueOpFirst { command := .program 0 257 page, who := .parkWriter } s2

/-- The completion of a PROGRAM of the park writer (R169, R170). -/
def parkProgrammed (s : State) : State :=
  match s.park.phase with
  | .page1 => programPage2 s
  | .page2 => endPark s
  | _ => s

end Sys2Proof.Machine
end

