-- ==== Sys2Proof/Machine/Supply.lean ====
section
/-! DEFINITION. The Supply Watch: the confirm filter, confirmed edges, the settle expiry, the span horizon and
the holdup bank (spec/01). -/

namespace Sys2Proof.Machine

def State.updSupply (s : State) (f : SupplyWatch → SupplyWatch) : State := { s with supply := f s.supply }

/-! ### The confirm filter (R1 to R3) -/

/-- The filter length for a candidate level: the default until loading ends, then the setting (R1, R3). -/
def filterLength (level : LineLevel) (s : State) : Nat :=
  let settings := if s.loadingEnded then s.settings else Settings.default
  match level with
  | .absent => settings.fallFilter
  | .present => settings.riseFilter

/-- A change of the LINEP level: a candidate begun, or a glitch ended (R1). A level that LINEP already has
is no change. -/
def rawChange (level : LineLevel) (s : State) : State :=
  if level = s.supply.raw then s
  else if level = s.supply.confirmed then
    removeDeadline .filterConfirm (s.updSupply fun w => { w with raw := level, candidate := none })
  else
    setDeadlineIn .filterConfirm (filterLength level s)
      (s.updSupply fun w => { w with raw := level, candidate := some { level := level, rawTime := s.timebase.count } })

/-! ### Confirmed edges (R4 to R6, R8, R14) -/

/-- The span horizon re-armed and its mark cleared at an edge handed to the Estimator (R8). -/
def rearmHorizon (raw : Time) (s : State) : State :=
  setDeadline .spanHorizon (raw + ms Config.spanLimit) (s.updSupply fun w => { w with horizonMark := false })

/-- The gap record that a fall opens (R4). -/
def GapRecord.opened (raw : Time) (holdup : Option Nat) : GapRecord where
  start := raw
  endTime := none
  dark := 0
  rebounds := 0
  holdupAtStart := holdup
  minHoldup := holdup

/-- What a fall that opens a gap does in LINE and in the cold start SETTLE alike (R4, R5). -/
def openGapAt (raw : Time) (s : State) : State :=
  let s1 := lanesGapBegin (engineGapBegin (estimatorFall raw true s.supply.horizonMark s))
  let s2 := s1.updSupply fun w =>
    { w with state := .gap, openGap := some (GapRecord.opened raw w.holdup), lastFall := some raw }
  rearmHorizon raw (postNotice (.gapBegun raw s.supply.holdup) s2)

/-- A fall in LINE: a gap opens, and the holdup sample falls due 2 ms later (R4, R10). -/
def gapFromLine (raw : Time) (s : State) : State := setDeadlineIn .holdupSample 2 (openGapAt raw s)

/-- A fall in the cold start SETTLE: a gap opens; the settle deadline is removed, and the sample keeps its
schedule (R5, R10, log 12). -/
def gapFromColdSettle (raw : Time) (s : State) : State := openGapAt raw (removeDeadline .settle s)

/-- A rebound in the open gap's record (R5). -/
def GapRecord.rebound (g : GapRecord) : GapRecord :=
  { g with endTime := none, rebounds := min 255 (g.rebounds + 1) }

/-- A rebound (R5). -/
def rebound (raw : Time) (g : GapRecord) (s : State) : State :=
  let s1 := removeDeadline .settle (s.updSupply fun w =>
    { w with state := .gap, openGap := some g.rebound, lastFall := some raw })
  rearmHorizon raw (estimatorFall raw false s.supply.horizonMark s1)

/-- A confirmed fall in each supply state. In GAP none can be confirmed (log 34). -/
def confirmedFall (raw : Time) (s : State) : State :=
  match s.supply.state with
  | .line => gapFromLine raw s
  | .settle =>
    match s.supply.openGap with
    | none => gapFromColdSettle raw s
    | some g => rebound raw g s
  | .gap => s
  | .parking => s.updSupply fun w => { w with heldRise := false }
  | .parked => s

/-- A rise in the open gap's record: its end, and one more dark interval (R6). -/
def GapRecord.rise (raw : Time) (lastFall : Time) (g : GapRecord) : GapRecord :=
  { g with endTime := some raw, dark := min 4294967295 (g.dark + elapsed raw lastFall) }

/-- A rise in GAP: the settle window starts (R6). -/
def riseInGap (raw : Time) (s : State) : State :=
  let s1 := s.updSupply fun w =>
    { w with state := .settle, openGap := w.openGap.map (GapRecord.rise raw (w.lastFall.getD 0)) }
  let s2 := setDeadline .settle (raw + ms s.settings.settleWindow) (estimatorRise raw s.supply.horizonMark s1)
  rearmHorizon raw s2

/-- A confirmed rise in each supply state. In LINE and SETTLE none can be confirmed (log 34). -/
def confirmedRise (raw : Time) (s : State) : State :=
  match s.supply.state with
  | .line => s
  | .settle => s
  | .gap => riseInGap raw s
  | .parking => s.updSupply fun w => { w with heldRise := true }
  | .parked => parkReturn s

/-- The filter confirm deadline expires: the candidate becomes a confirmed edge with its raw time (R2). -/
def confirmFilter (s : State) : State :=
  match s.supply.candidate with
  | none => s
  | some c =>
    let s1 := s.updSupply fun w => { w with confirmed := c.level, candidate := none }
    match c.level with
    | .absent => confirmedFall c.rawTime s1
    | .present => confirmedRise c.rawTime s1

/-! ### The settle expiry (R7) -/

/-- GAP ENDED for a record that the settle expiry closes. -/
def gapEndedNotice (g : GapRecord) : NoticeBody := .gapEnded g.start g.endTime g.dark g.rebounds

/-- The gap closed: the open record, if there is one, becomes the last record, and GAP ENDED is posted
(R7, R16). -/
def closeGap (s : State) : State :=
  let s1 := s.updSupply fun w => { w with state := .line, openGap := none, lastGap := w.openGap.or w.lastGap }
  match s.supply.openGap with
  | none => s1
  | some g => postNotice (gapEndedNotice g) s1

/-- The Engine at a settle expiry: a pass once loading has ended, and ACTIVE or IDLE by the queue (R68,
R73, R74). -/
def engineSettled (s : State) : State :=
  if s.loadingEnded then buildPass s
  else setPhase (if s.engine.queue.isEmpty then .idle else .active) s

/-- The settle deadline expires in SETTLE (R7, R10). -/
def settleExpired (s : State) : State :=
  match s.supply.state with
  | .settle => lanesAct (setDeadlineIn .holdupSample 64 (engineSettled (closeGap s)))
  | _ => s

/-! ### The span horizon and the holdup bank (R8 to R12) -/

/-- The span horizon deadline expires (R8). -/
def horizonExpired (s : State) : State := s.updSupply fun w => { w with horizonMark := true }

/-- The holdup level of a bank voltage in millivolts: the greatest k in 1..15 with at least 2.50 V and
0.25 V for each k, and 0 below 2.75 V (R9, log 30). -/
def holdupLevel (millivolts : Nat) : Nat := min 15 ((millivolts - 2500) / 250)

/-- The minimum holdup after one more sample (R9). -/
def GapRecord.sampled (level : Nat) (g : GapRecord) : GapRecord :=
  { g with
    minHoldup := match g.minHoldup with
      | none => some level
      | some m => some (min m level) }

/-- A sample taken into the level and the open record (R9). -/
def takeSample (level : Nat) (s : State) : State :=
  s.updSupply fun w => { w with holdup := some level, openGap := w.openGap.map (GapRecord.sampled level) }

/-- The sample interval of a supply state (Figure 1-1, R10). -/
def sampleInterval : SupplyState → Option Nat
  | .line => some 64
  | .gap => some 2
  | .settle => some 2
  | .parking => some 2
  | .parked => none

/-- The sample set again for the interval of the present supply state, from the due time that expired (R9,
R10, R26). -/
def rescheduleSample (due : Time) (s : State) : State :=
  match sampleInterval s.supply.state with
  | none => s
  | some n => setDeadline .holdupSample (due + ms n) s

/-- The park decision on a level (R11). -/
def parkDecided (level : Nat) (s : State) : Bool := s.supply.state = .gap && level ≤ s.settings.parkLevel

/-- The holdup sample deadline expires, with a bank voltage (R9 to R11). Where the park begins, the sample
runs on only while the part is in PARKING. -/
def holdupSampled (millivolts : Nat) (due : Time) (s : State) : State :=
  let level := holdupLevel millivolts
  let s1 := takeSample level s
  if parkDecided level s then
    let s2 := beginPark s1
    if s2.supply.state = .parking then rescheduleSample due s2 else s2
  else if s.supply.state = .parked then s
  else rescheduleSample due s1

end Sys2Proof.Machine
end

