-- ==== Sys2Proof/Machine/FlashEvents.lean ====
section
/-! DEFINITION. What the end of a flash operation does for its requester: lanes' reads, the image write, the
config save, the mark writer, cold start loading and the park writer; and what its timeout does (spec/08;
spec/10, 10.2; R135, R138, R140, R142, R145 to R149, R151, R172 to R174). -/

namespace Sys2Proof.Machine

/-! ### A lane's read (R135, R136) -/

/-- A lane's READ has filled a buffer: FULL with the block and its payload CRC-16, or FREE where it was
released meanwhile, after which the lane plans again (log 26). -/
def laneReadDone (l : Lane) (i : Nat) (data : List Byte) (s : State) : State :=
  let b := s.buffer i
  if b.released then planBuffers l (freeBuffer i s)
  else s.setBuffer i { b with state := .full, crc := crc16 data, data := data }

/-! ### The image write (R145 to R147) -/

def setWrite (w : ImageWrite) (s : State) : State := { s with store := { s.store with imageWrite := some w } }

/-- The write's buffer record changed, if the write owns one. -/
def updWriteBuffer (f : Buffer → Buffer) (s : State) : State :=
  match writeBuffer? s with
  | none => s
  | some i => s.setBuffer i (f (s.buffer i))

/-- A sector has been erased: the next ERASE, or RECEIVING after sector 15 (R145). -/
def sectorErased (w : ImageWrite) (s : State) : State :=
  let n := w.sectorsErased + 1
  if n < 16 then
    queueOp { command := .erase w.slot n, who := .imageWrite } (setWrite { w with sectorsErased := n } s)
  else setWrite { w with sectorsErased := n, phase := .receiving } s

/-- The write's buffer holds its block again (R146). -/
def blockProgrammed (s : State) : State := updWriteBuffer (fun b => { b with state := .full }) s

/-- The READ of image block `i` of a write queued, filling its buffer (R147). -/
def queueReadback (w : ImageWrite) (i : Nat) (s : State) : State :=
  queueOp { command := .read w.slot (i + 1), who := .imageWrite }
    (updWriteBuffer (fun b => { b with state := .filling, block := i })
      (setWrite { w with phase := .checking, readIndex := i } s))

/-- STORE RESULT for an image write. -/
def imageResult (slot : Nat) (outcome : StoreOutcome) (s : State) : State :=
  postNotice (.storeResult .imageClose slot outcome) s

/-- The whole image has been read back with a CRC-32: CHECK where it differs, else the header's PROGRAM
(R147). -/
def readbackDone (w : ImageWrite) (crc : Word) (s : State) : State :=
  if crc = w.image.crc then
    queueOp { command := .program w.slot 0 (headerBlock w.image), who := .imageWrite }
      (setWrite { w with phase := .committing } s)
  else imageResult w.slot .check (endWrite false (s.setSlot w.slot .empty))

/-- One block has been read back (R147). -/
def blockReadBack (w : ImageWrite) (data : List Byte) (s : State) : State :=
  let w' := { w with crcSoFar := crc32Feed w.crcSoFar data }
  let s1 := updWriteBuffer (fun b => { b with state := .full, data := data, crc := crc16 data }) (setWrite w' s)
  if w.readIndex + 1 < w.image.length then queueReadback w' (w.readIndex + 1) s1
  else readbackDone w' (crc32Final w'.crcSoFar) s1

/-- The header has been programmed: the slot is VALID (R147). -/
def headerProgrammed (w : ImageWrite) (s : State) : State :=
  imageResult w.slot .ok (endWrite false (s.setSlot w.slot (.valid w.image 0)))

/-- An operation of the image write has completed. One of a write that has ended has no further effect, but
for the buffer that it kept (R144, R148). -/
def imageWriteDone (data : List Byte) (s : State) : State :=
  match s.store.imageWrite with
  | none => freeReleasedWriteBuffer s
  | some w =>
    match w.phase with
    | .erasing => sectorErased w s
    | .receiving => blockProgrammed s
    | .checking => blockReadBack w data s
    | .committing => headerProgrammed w s

/-! ### The config save (R151) -/

/-- The block of a record as it is programmed: padded with all ones (log 32). -/
def recordBlock (record : List Byte) (i : Nat) : List Byte := toBlock (record.drop (256 * i))

/-- How many blocks a record takes. -/
def recordBlocks (record : List Byte) : Nat := (record.length + 255) / 256

def setSave (c : ConfigSave) (s : State) : State := { s with store := { s.store with configSave := some c } }

/-- The save ends with its STORE RESULT. -/
def endSave (outcome : StoreOutcome) (s : State) : State :=
  postNotice (.storeResult .configSave 0 outcome) { s with store := { s.store with configSave := none } }

/-- The PROGRAM of a block of the record queued. -/
def saveProgram (c : ConfigSave) (i : Nat) (s : State) : State :=
  queueOp { command := .program 0 i (recordBlock c.record i), who := .configSave }
    (setSave { c with phase := .programming i } s)

/-- The READ of a block of the record queued. -/
def saveRead (c : ConfigSave) (i : Nat) (s : State) : State :=
  queueOp { command := .read 0 i, who := .configSave } (setSave { c with phase := .reading i } s)

/-- An operation of the config save has completed. One of a save that was abandoned has no further effect. DESIGN CHOICE
(log 49): a save that ends with CHECK leaves sector 0 as the flash holds it, and marks no block torn. -/
def configSaveDone (data : List Byte) (s : State) : State :=
  match s.store.configSave with
  | none => s
  | some c =>
    match c.phase with
    | .erasing => saveProgram c 0 s
    | .programming i => if i + 1 < recordBlocks c.record then saveProgram c (i + 1) s else saveRead c 0 s
    | .reading i =>
      if data ≠ recordBlock c.record i then endSave .check s
      else if i + 1 < recordBlocks c.record then saveRead c (i + 1) s
      else endSave .ok s

/-! ### The mark writer (R142) -/

/-- The PROGRAM of a slot's mark has completed or failed: the slot leaves the mark list, and the next is
taken. -/
def markDone (slot : Nat) (s : State) : State :=
  kickMarkWriter { s with store := { s.store with markList := s.store.markList.filter (· ≠ slot) } }

/-! ### Cold start loading (R172 to R174) -/

def State.updLoader (s : State) (f : Loader → Loader) : State := { s with loader := f s.loader }

/-- A READ of the loader queued. -/
def loaderRead (region block : Nat) (s : State) : State :=
  queueOp { command := .read region block, who := .loader } s

/-- The HEADERS step begins. -/
def beginHeaders (s : State) : State :=
  loaderRead 1 0 (s.updLoader fun x => { x with step := .headers, held := [], nextSlot := 1 })

/-- A config record taken (R66, R172): the table and the settings. -/
def takeConfig (settings : Settings) (entries : List Entry) (s : State) : State :=
  { s with
    settings := settings
    stations := entries.foldl (fun sts e => insertStation (Station.defined e) sts) [] }

/-- The config record has been read, or has been found blank. -/
def configRead (record : Option (Settings × List Entry)) (s : State) : State :=
  match record with
  | none => beginHeaders s
  | some (settings, entries) =>
    beginHeaders ((takeConfig settings entries s).updLoader fun x => { x with configFinding := .loaded })

/-- The region block holds a record that the manual says is not good (log 9). -/
def State.torn (s : State) (region block : Nat) : Bool := s.flash.torn.contains (blockNumber region block)

/-- A block of the config record has been read: block 1 only where the record is longer than 256 bytes
(R172, Figure 11-11). DESIGN CHOICE (log 46): where the first block's marker, version, count or length is already wrong,
as in an erased sector, no second block is read. -/
def loadConfig (data : List Byte) (s : State) : State :=
  if s.loader.held.isEmpty then
    match configLength data with
    | none => configRead none s
    | some len =>
      if s.torn 0 0 then configRead none s
      else if len ≤ 256 then configRead (readConfig data) s
      else loaderRead 0 1 (s.updLoader fun x => { x with held := data })
  else configRead (if s.torn 0 1 then none else readConfig (s.loader.held ++ data)) s

/-- A slot header has been read (R141, R172). -/
def loadHeader (data : List Byte) (s : State) : State :=
  let n := s.loader.nextSlot
  let s1 := s.setSlot n (if s.torn n 0 then .empty else slotOfHeader data)
  if n < 15 then loaderRead (n + 1) 0 (s1.updLoader fun x => { x with nextSlot := n + 1 })
  else loaderRead 0 256 (s1.updLoader fun x => { x with step := .park, nextSlot := n + 1 })

/-- The ERASE step: the ERASE of the park area queued. -/
def beginErase (s : State) : State :=
  queueOp { command := .erase 0 1, who := .loader } (s.updLoader fun x => { x with step := .erase, held := [] })

/-- A page of the park record has been read (R172, R178). -/
def loadPark (data : List Byte) (s : State) : State :=
  if s.loader.held.isEmpty then loaderRead 0 257 (s.updLoader fun x => { x with held := data })
  else
    let record := s.loader.held ++ data
    if parkValid record && !(s.torn 0 256 || s.torn 0 257) then
      beginErase
        ((takePlaces (num16At record 10) (record.drop 12) s).updLoader fun x => { x with parkFinding := .loaded })
    else beginErase s

/-- An operation of the loader has completed (R172). In a park that began during loading it has no effect,
and loading never ends (R174). The ERASE's completion sets park-area-prepared (R153). -/
def loaderDone (data : List Byte) (s : State) : State :=
  match s.loader.step with
  | .ended => { s with store := { s.store with prepared := true } }
  | step =>
    if s.silent then s
    else
      match step with
      | .status => loaderRead 0 0 (s.updLoader fun x => { x with step := .config })
      | .config => loadConfig data s
      | .headers => loadHeader data s
      | .park => loadPark data s
      | _ => s

/-- The park area's ERASE is running: the moment at which loading ends (R172). -/
def eraseIssued (s : State) : Bool :=
  s.loader.step = .erase && s.store.running = some { command := .erase 0 1, who := .loader }

/-- The end of loading (R174): STARTED, the poll intervals, and the first pass where the supply is LINE. -/
def endLoading (s : State) : State :=
  let s1 := s.updLoader fun x => { x with step := .ended }
  let s2 := postNotice (.started s.loader.cause s.loader.configFinding s.loader.parkFinding) s1
  let s3 := setDeadlineIn (.pollInterval .b) s.settings.pollInterval
    (setDeadlineIn (.pollInterval .a) s.settings.pollInterval s2)
  if s.supply.state = .line then buildPass s3 else s3

/-- The next operation issued, and loading ended where that was the park area's ERASE. -/
def issueNext (s : State) : State :=
  let s1 := issueFlash s
  if eraseIssued s1 then endLoading s1 else s1

/-! ### Completion (R138) -/

/-- What a READ transfers: the stored block, or the bytes that the command gives (log 8). -/
def transferredBlock (given : Option (List Byte)) (op : FlashOp) (s : State) : List Byte :=
  match given with
  | some bytes => toBlock bytes
  | none =>
    match op.command with
    | .read region block => s.flash.block region block
    | _ => []

/-- The device's side of a completion: a STATUS shows the device ready, whatever it was busy with; the
others have run to their end. -/
def deviceDone (op : FlashOp) (s : State) : State :=
  match op.command with
  | .status => settleDevice s
  | _ => { s with flash := s.flash.complete op }

/-- The result handed to the operation's requester. -/
def requesterDone (op : FlashOp) (data : List Byte) (s : State) : State :=
  match op.who with
  | .lane l i => laneReadDone l i data s
  | .imageWrite => imageWriteDone data s
  | .configSave => configSaveDone data s
  | .markWriter slot => markDone slot s
  | .loader => loaderDone data s
  | .parkWriter => parkProgrammed s
  | .recovery => freeReleasedWriteBuffer s

/-- A store with no operation running, and the flash not selected. -/
def Store.idle (x : Store) : Store := { x with running := none, chipSelect := .released }

/-- The running operation is over, and its timeout is removed. -/
def clearRunning (s : State) : State :=
  removeDeadline .storeOperation { s with store := s.store.idle }

/-- A flash operation completes (R138). With none running, the device ends what it was left with, which the
part does not see (log 10). -/
def flashCompleted (given : Option (List Byte)) (s : State) : State :=
  match s.store.running with
  | none => settleDevice s
  | some op =>
    let data := transferredBlock given op s
    lanesAct (issueNext (requesterDone op data (deviceDone op (clearRunning s))))

/-! ### Failure (R140, R149, R151) -/

/-- An operation of the image write has failed (R149): the write ends with FAULT, and its buffer is given
back when the device has ended the operation (log 11). Of a write that has ended, the buffer is freed
(R144). -/
def imageWriteFailed (s : State) : State :=
  match s.store.imageWrite with
  | none => freeReleasedWriteBuffer s
  | some w => imageResult w.slot .fault (endWrite true (s.setSlot w.slot .empty))

/-- The requester told of a failure (Figure 8-2). -/
def requesterFailed (op : FlashOp) (s : State) : State :=
  match op.who with
  | .imageWrite => imageWriteFailed s
  | .configSave => if s.store.configSave.isSome then endSave .fault s else s
  | .markWriter slot => markDone slot s
  | .parkWriter => endPark s
  | .lane _ _ => s
  | .loader => s
  | .recovery => s

/-- The running operation has failed: the device goes on with it (R140). -/
def failRunning (op : FlashOp) (s : State) : State :=
  { s with store := s.store.idle, flash := s.flash.leaveBusy (tornByFailure op) { op := op, failed := true } }

/-- A STATUS placed at the head of the queue, to wait until the device is ready (R140). -/
def queueRecovery (s : State) : State := queueOpFirst { command := .status, who := .recovery } s

/-- The requester told and the STATUS placed (R140). The STATUS stands ahead of whatever the failure lets another
requester queue, the park writer's first page among them, so that nothing is issued before the device is ready. The
park writer's own failure ends the park, and with it the queue (R170). -/
def settleFailure (op : FlashOp) (s : State) : State :=
  if op.who = .parkWriter then requesterFailed op (queueRecovery s) else queueRecovery (requesterFailed op s)

/-- The store operation timeout expires (R140): the operation has failed. -/
def storeTimedOut (s : State) : State :=
  match s.store.running with
  | none => s
  | some op => lanesAct (issueNext (settleFailure op (failRunning op s)))

end Sys2Proof.Machine
end

