-- ==== Sys2Proof/Machine/Requests.lean ====
section
/-! DEFINITION. The requests that read or set the whole part: STATUS, NOTICE FETCH, SETTINGS SET and READ,
GAP READ, RESTORE NOW, ENGINE RESTART and LANE INJECT (spec/09; R18, R91, R94, R115, R117, R175, R176). -/

namespace Sys2Proof.Machine

/-- A request served: the state after it, the status code of its reply, and the payload after that code. -/
structure Served where
  state : State
  status : Status
  payload : List Byte
  deriving DecidableEq, Repr

/-- A refusal: no state is changed and no payload is sent (R157, spec/11, 11.3). -/
def refused (status : Status) (s : State) : Served where
  state := s
  status := status
  payload := []

/-- A request taken. -/
def taken (payload : List Byte) (s : State) : Served where
  state := s
  status := .ok
  payload := payload

/-! ### STATUS (R160) -/

/-- The STATUS payload, each flag as it stands before the clearing. -/
def statusBytes (s : State) : List Byte :=
  le32 s.timebase.count ++
    [flagByte s.loadingEnded, byte s.supply.state.code, holdupByte s.supply.holdup, byte s.engine.phase.code] ++
    le16 s.engine.pass ++ [byte s.engine.queue.length, byte s.link.notices.length] ++ le16 s.link.nextNumber ++
    [flagByte s.link.overrun, flagByte s.link.linkFault, flagByte s.link.noticeOverflow]

def serveStatus (payload : List Byte) (s : State) : Served :=
  if payload ≠ [] then refused .format s else taken (statusBytes s) (clearFlags s)

/-! ### NOTICE FETCH (R163, R176) -/

/-- A run counter in its one byte (log 36). -/
def countByte (n : Nat) : Byte := if n < 256 then byte n else Config.wideCountByte n

/-- The payload of a notice (Figure 11-6). -/
def NoticeBody.bytes : NoticeBody → List Byte
  | .started cause config park => [byte cause.code, byte config.code, byte park.code]
  | .gapBegun start holdup => le32 start ++ [holdupByte holdup]
  | .gapEnded start endTime dark rebounds =>
    le32 start ++ le32 (endTime.getD 0) ++ le32 (BitVec.ofNat 32 dark) ++ [byte rebounds]
  | .passStarted pass new carried => le16 pass ++ [byte new, byte carried]
  | .nodeRestored station pass outcome result blocksSent =>
    [byte station] ++ le16 pass ++ [byte outcome.code, byte result.code] ++ le16 blocksSent
  | .nodeFailed station pass reason state => [byte station] ++ le16 pass ++ [byte reason.code, byte state.code]
  | .passComplete pass restored failed span =>
    le16 pass ++ [countByte restored, countByte failed] ++ le16 span
  | .presence station p => [byte station, byte p.code]
  | .queryReport station report live => [byte station, 0] ++ report.bytes ++ [byte live.code]
  | .queryNoReply station => [byte station, 1] ++ List.replicate 13 0
  | .queryUnreachable station => [byte station, 2] ++ List.replicate 13 0
  | .parking holdup outcome => [holdupByte holdup, byte outcome.code]
  | .storeResult operation slot outcome => [byte operation.code, byte slot, byte outcome.code]

/-- The NOTICE FETCH payload: the notices left, and the notice, or kind 0 and number 0 for none (R176). -/
def fetchBytes (left : Nat) (n : Option Notice) : List Byte :=
  match n with
  | none => [byte left, 0, 0, 0]
  | some n => [byte left, byte n.body.code] ++ le16 n.number ++ n.body.bytes

def serveNoticeFetch (payload : List Byte) (s : State) : Served :=
  match payload.map flagOf with
  | [some false] =>
    let (n, s1) := takeNotice s
    taken (fetchBytes s1.link.notices.length n) s1
  | [some true] => taken (fetchBytes s.link.notices.length s.link.lastFetched) s
  | _ => refused .format s

/-! ### Settings (R165, R166) -/

/-- Entries of a fixed size: the bytes cut into so many runs. -/
def runsOf (size : Nat) : Nat → List Byte → List (List Byte)
  | 0, _ => []
  | n + 1, bytes => bytes.take size :: runsOf size n (bytes.drop size)

/-- The setting and value of each pair of a SETTINGS SET payload. -/
def settingPairs (payload : List Byte) : List (Nat × Nat) :=
  (runsOf 3 (numAt payload 0) (payload.drop 1)).map fun p => (numAt p 0, num16At p 1)

/-- The layout of SETTINGS SET is right: 1 to 17 pairs, all known, none twice (R165, R175). -/
def settingsLayout (payload : List Byte) : Bool :=
  let n := numAt payload 0
  1 ≤ n && n ≤ 17 && payload.length = 1 + 3 * n &&
    (settingPairs payload).all (·.1 ≤ 16) && decide ((settingPairs payload).map (·.1)).Nodup

/-- Every pair taken at once; none where an enumerated value is not listed (R165). -/
def putSettings : List (Nat × Nat) → Settings → Option Settings
  | [], x => some x
  | (code, v) :: rest, x =>
    match x.put code v with
    | none => none
    | some x' => putSettings rest x'

/-- The pairs of the reply, each with the value taken. -/
def settingsTaken (pairs : List (Nat × Nat)) (x : Settings) : List Byte :=
  [byte pairs.length] ++ pairs.flatMap fun p => [byte p.1] ++ le16 (x.value p.1)

def serveSettingsSet (payload : List Byte) (s : State) : Served :=
  if !settingsLayout payload then refused .format s
  else
    let pairs := settingPairs payload
    match putSettings pairs s.settings with
    | none => refused .range s
    | some x => taken (settingsTaken pairs x) { s with settings := x }

/-- SETTINGS READ gives every setting at its width in the config record (R166, log 16). -/
def serveSettingsRead (payload : List Byte) (s : State) : Served :=
  if payload ≠ [] then refused .format s else taken s.settings.bytes s

/-! ### GAP READ (R18) -/

/-- The 17 bytes of a gap record (Figure 11-5). -/
def gapRecordBytes (g : Option GapRecord) : List Byte :=
  match g with
  | none => List.replicate 17 0
  | some g =>
    [1] ++ le32 g.start ++ [flagByte g.endTime.isSome] ++ le32 (g.endTime.getD 0) ++ le32 (BitVec.ofNat 32 g.dark) ++
      [byte g.rebounds, holdupByte g.holdupAtStart, holdupByte g.minHoldup]

def serveGapRead (payload : List Byte) (s : State) : Served :=
  if payload ≠ [] then refused .format s
  else
    taken ([byte s.supply.state.code, holdupByte s.supply.holdup] ++ gapRecordBytes s.supply.openGap ++
      gapRecordBytes s.supply.lastGap) s

/-! ### RESTORE NOW (R91) -/

/-- The layout of RESTORE NOW is right: at most 24 aliases, none twice (R91, R175). -/
def restoreLayout (payload : List Byte) : Bool :=
  let n := numAt payload 0
  n ≤ 24 && payload.length = 1 + n && decide (payload.drop 1).Nodup

/-- The stations that RESTORE NOW names: those of the aliases, or all, in station order. -/
def restoreNamed (payload : List Byte) (s : State) : List Station :=
  if numAt payload 0 = 0 then s.stations
  else s.stations.filter fun st => ((payload.drop 1).map (·.toNat)).contains st.entry.aliasNo

/-- The stations among some that have no job, by class and within a class in station order (R71, R91). -/
def restoreOrder (named : List Station) (s : State) : List Nat :=
  [0, 1, 2, 3].flatMap fun c =>
    (named.filter fun st => st.entry.restoreClass = c && !(s.hasJob st.entry.number)).map (·.entry.number)

def serveRestoreNow (payload : List Byte) (s : State) : Served :=
  if !restoreLayout payload then refused .format s
  else if (payload.drop 1).any fun a => (s.aliased? a.toNat).isNone then refused .unknown s
  else
    let order := restoreOrder (restoreNamed payload s) s
    taken [byte order.length] (lanesAct (order.foldl (fun x n => createJob n .host x) s))

/-! ### ENGINE RESTART (R94, R117, R167) -/

/-- STARTED with cause ENGINE and the findings of the last cold start (R94, R173). -/
def postRestarted (s : State) : State := postNotice (.started .engine s.loader.configFinding s.loader.parkFinding) s

/-- What ENGINE RESTART does before the lanes choose again: the queue emptied, the lanes' work abandoned and
STARTED posted (R94, R117). -/
def restartEngine (s : State) : State := postRestarted (lanesRestart (engineRestart s))

/-- ENGINE RESTART.
The reply gives the count of queued notices (R167, log 16). -/
def serveEngineRestart (payload : List Byte) (s : State) : Served :=
  if payload ≠ [] then refused .format s
  else
    taken [byte (restartEngine s).link.notices.length] (lanesAct (restartEngine s))

/-! ### LANE INJECT (R115) -/

def serveLaneInject (payload : List Byte) (s : State) : Served :=
  match payload with
  | [l, k, n] =>
    match laneOfCode l.toNat, InjectionKind.ofCode k.toNat with
    | some lane, some kind =>
      if 1 ≤ n.toNat && n.toNat ≤ 8 then
        taken [] (s.updLane lane fun x => { x with injection := some { kind := kind, count := n.toNat } })
      else refused .range s
    | _, _ => refused .range s
  | _ => refused .format s

end Sys2Proof.Machine
end

