-- ==== Sys2Proof/Machine/RequestsStations.lean ====
section
/-! DEFINITION. The requests that concern stations: NODE DEFINE, REMOVE, READ and QUERY, CONTEXT SET and READ,
and CAR STATE SET (spec/04; R45, R114, R175). -/

namespace Sys2Proof.Machine

/-! ### NODE DEFINE and NODE REMOVE (R47 to R49) -/

/-- The stations other than one of a number. -/
def State.others (s : State) (n : Nat) : List Station := s.stations.filter (·.entry.number ≠ n)

/-- Taking an entry would place a 17th station on its lane (R47). -/
def laneFull (e : Entry) (s : State) : Bool :=
  Config.stationsPerLane ≤ ((s.others e.number).filter (·.entry.lane = e.lane)).length

/-- A station is busy: a lane transaction to it is in flight or a NODE QUERY for it is pending (R47, R49). -/
def stationBusy (n : Nat) (s : State) : Bool := s.txnTo n || s.query = some n

/-- An entry conflicts with another station's alias or address, or with the kind of its slot's image (R47). -/
def entryConflicts (e : Entry) (s : State) : Bool :=
  ((s.others e.number).any fun st =>
    st.entry.aliasNo = e.aliasNo || (st.entry.lane = e.lane && st.entry.address = e.address)) ||
  (match s.validImage? e.slot with
   | none => false
   | some image => image.kind ≠ e.kind)

/-- An entry written (R48): the presence of an earlier station reported as it becomes ABSENT, its push entry
removed and a poll pending for it withdrawn, and everything kept for the station at its define values. -/
def defineStation (e : Entry) (s : State) : State :=
  let s1 := withdrawPoll e.number (removePush e.number (setPresence e.number .absent s))
  { s1 with stations := insertStation (Station.defined e) s1.stations }

def serveNodeDefine (payload : List Byte) (s : State) : Served :=
  if payload.length ≠ 11 || !sideAgrees payload then refused .format s
  else
    match readEntry payload with
    | none => refused .range s
    | some e =>
      if laneFull e s then refused .range s
      else if s.hasJob e.number then refused .state s
      else if stationBusy e.number s then refused .busy s
      else if entryConflicts e s then refused .conflict s
      else taken [] (defineStation e s)

/-- A station removed (R49). -/
def removeStation (n : Nat) (s : State) : State :=
  let s1 := withdrawPoll n (removePush n s)
  { s1 with stations := s1.others n }

def serveNodeRemove (payload : List Byte) (s : State) : Served :=
  match payload with
  | [b] =>
    let n := b.toNat
    if n = 0 || 24 < n then refused .range s
    else if (s.station? n).isNone then refused .unknown s
    else if s.hasJob n then refused .state s
    else if stationBusy n s then refused .busy s
    else taken [] (removeStation n s)
  | _ => refused .format s

/-! ### NODE READ (R45, R50) -/

/-- The release and leaf state that an entrance station's replies carry (R50, R57). -/
def releaseBytes (st : Station) : List Byte :=
  match st.entry.kind with
  | .entrance =>
    [byte st.context.release.code,
     match st.context.leaf with
     | none => absentByte
     | some live => byte live.code]
  | _ => []

/-- The job of a station in NODE READ: its state, 0xFF for none, and whether a step is in flight. -/
def jobBytes (j : Option Job) : List Byte :=
  match j with
  | none => [absentByte, 0]
  | some j => [byte j.state.code, flagByte j.inFlight]

/-- The push entry of a station: none, ordinary or urgent. -/
def pushByte (p : Option Push) : Byte :=
  match p with
  | none => 0
  | some p => if p.urgent then 2 else 1

/-- The NODE READ payload: the entry with its presence, the job, the push entry, the epoch, the release and
leaf state of an entrance station, and the Estimator's W, S, K, L and V (R45, R50, log 16). -/
def nodeBytes (st : Station) (s : State) : List Byte :=
  st.entry.bytes ++ [byte st.presence.code] ++ jobBytes (s.job? st.entry.number) ++
    [pushByte (s.push? st.entry.number)] ++ le16 st.context.epoch ++ releaseBytes st ++
    le16 st.estimate.working ++ le16 st.estimate.reserve ++ [byte st.estimate.carry, flagByte st.estimate.lost] ++
    le16 st.estimate.overdraw

/-- The station that NODE READ names, by alias or by station number. -/
def readNamed (byNumber : Bool) (v : Nat) (s : State) : Option Station :=
  if byNumber then s.station? v else s.aliased? v

def serveNodeRead (payload : List Byte) (s : State) : Served :=
  match payload with
  | [sel, v] =>
    match flagOf sel with
    | none => refused .format s
    | some byNumber =>
      match readNamed byNumber v.toNat s with
      | none => refused .unknown s
      | some st => taken (nodeBytes st s) s
  | _ => refused .format s

/-! ### NODE QUERY (R114) -/

def serveNodeQuery (payload : List Byte) (s : State) : Served :=
  match payload with
  | [a] =>
    match s.aliased? a.toNat with
    | none => refused .unknown s
    | some st =>
      if s.supply.state = .gap || s.supply.state = .settle then refused .unreachable s
      else if s.query.isSome then refused .busy s
      else taken [] (lanesAct { s with query := some st.entry.number })
  | _ => refused .format s

/-! ### CONTEXT SET (R55, R56, R175) -/

/-- One pair of a CONTEXT SET: its field, its absent mark and its value. -/
structure Pair where
  code : Nat
  mark : Byte
  value : Nat
  deriving DecidableEq, Repr

/-- The pairs of a CONTEXT SET payload. -/
def contextPairs (payload : List Byte) : List Pair :=
  (runsOf 4 (numAt payload 1) (payload.drop 2)).map fun p =>
    { code := numAt p 0, mark := byteAt p 1, value := num16At p 2 }

/-- The layout of CONTEXT SET is right: 1 to 8 pairs, every absent mark a flag, every field listed, none
twice (R55, R175, log 21). -/
def contextLayout (payload : List Byte) : Bool :=
  let n := numAt payload 1
  let pairs := contextPairs payload
  1 ≤ n && n ≤ 8 && payload.length = 2 + 4 * n &&
    (pairs.all fun p => (flagOf p.mark).isSome && p.code ≤ 8) && decide (pairs.map (·.code)).Nodup

/-- One pair written: its field absent, or at the value taken; none where the value is refused (R55). -/
def putPair (p : Pair) (f : Fields) : Option Fields :=
  if p.mark = 1 then some (f.put p.code none) else (judgeField p.code p.value).map fun v => f.put p.code (some v)

/-- Every pair written; none where one is refused with RANGE. -/
def putPairs : List Pair → Fields → Option Fields
  | [], f => some f
  | p :: ps, f =>
    match putPair p f with
    | none => none
    | some f' => putPairs ps f'

/-- The value bytes of a pair in the reply: the value taken, or for an absent field bytes that the manual
leaves open (log 17). -/
def pairBytes (draw : Nat) (i : Nat) (p : Pair) (f : Fields) : List Byte :=
  [byte p.code] ++
    (match f.get p.code with
     | some v => le16 v
     | none => [Config.absentPairByte (16 * draw + 2 * i), Config.absentPairByte (16 * draw + 2 * i + 1)])

/-- The CONTEXT SET payload: the new epoch and every pair as taken. -/
def contextTaken (draw epoch : Nat) (pairs : List Pair) (f : Fields) : List Byte :=
  le16 epoch ++ [byte pairs.length] ++ (pairs.mapIdx fun i p => pairBytes draw i p f).flatten

/-- A record given new fields: the epoch rises, and the derived release is computed again (R56). -/
def Station.withFields (car : CarState) (f : Fields) (st : Station) : Station :=
  { st with
    context :=
      { st.context with
        fields := f, epoch := nextEpoch st.context.epoch, release := effectiveRelease car st.entry f } }

/-- A CONTEXT SET applied whole: the record written, and its station pending, urgently where release was
withdrawn (R56). -/
def setContext (st : Station) (f : Fields) (s : State) : State :=
  let new := st.withFields s.car f
  let urgent := st.context.release = .granted && new.context.release = .withheld
  makePending st.entry.number urgent (s.updStation st.entry.number (Station.withFields s.car f))

def serveContextSet (payload : List Byte) (s : State) : Served :=
  if !contextLayout payload then refused .format s
  else
    match s.aliased? (numAt payload 0) with
    | none => refused .unknown s
    | some st =>
      let pairs := contextPairs payload
      if pairs.any fun p => !fieldBelongs st.entry.kind p.code then refused .format s
      else
        match putPairs pairs st.context.fields with
        | none => refused .range s
        | some f =>
          taken (contextTaken s.free (nextEpoch st.context.epoch) pairs f) (lanesAct (setContext st f s).drawn)

/-! ### CONTEXT READ (R57) -/

/-- The CONTEXT READ payload: the field mask and the present values, the epoch, and the release and leaf
state of an entrance station (R57, log 16). -/
def contextBytes (st : Station) : List Byte := st.context.fields.bytes ++ le16 st.context.epoch ++ releaseBytes st

def serveContextRead (payload : List Byte) (s : State) : Served :=
  match payload with
  | [a] =>
    match s.aliased? a.toNat with
    | none => refused .unknown s
    | some st => taken (contextBytes st) s
  | _ => refused .format s

/-! ### CAR STATE SET (R59, R61) -/

/-- The station's derived release differs from its effective release in a car state (R61). -/
def releaseChanges (car : CarState) (st : Station) : Bool :=
  st.entry.kind = .entrance && effectiveRelease car st.entry st.context.fields ≠ st.context.release

/-- A station whose release has changed: the derived release and the epoch (R61). -/
def Station.rereleased (car : CarState) (st : Station) : Station :=
  { st with
    context :=
      { st.context with
        release := effectiveRelease car st.entry st.context.fields, epoch := nextEpoch st.context.epoch } }

/-- A station under a new car state. -/
def Station.under (car : CarState) (st : Station) : Station := if releaseChanges car st then st.rereleased car else st

/-- A car state taken: every changed entrance station's record, and its push entry in station order, urgent
for a withdrawal (R59, R61). -/
def setCar (car : CarState) (s : State) : State :=
  (s.stations.filter (releaseChanges car)).foldl
    (fun x st =>
      makePending st.entry.number (effectiveRelease car st.entry st.context.fields = .withheld) x)
    { s with car := car, stations := s.stations.map (Station.under car) }

def serveCarStateSet (payload : List Byte) (s : State) : Served :=
  match payload with
  | [m, r] =>
    match Motion.ofCode m.toNat, ReleaseSide.ofCode r.toNat with
    | some motion, some side =>
      let car : CarState := { motion := motion, side := side }
      taken [m, r, byte (s.stations.filter (releaseChanges car)).length] (lanesAct (setCar car s))
    | _, _ => refused .range s
  | _ => refused .format s

end Sys2Proof.Machine
end

