-- ==== Sys2Proof/Machine/RequestsStore.lean ====
section
/-! DEFINITION. The requests that concern the store: IMAGE OPEN, BLOCK, CLOSE, ABORT and LIST, and CONFIG SAVE
(spec/08; R175). -/

namespace Sys2Proof.Machine

/-! ### IMAGE OPEN (R145) -/

/-- What an IMAGE OPEN gives: its slot and its image; none where one lies outside its range. -/
def readOpen (payload : List Byte) : Option (Nat × Image) :=
  match Kind.ofCode (numAt payload 1) with
  | none => none
  | some kind =>
    let slot := numAt payload 0
    let length := num16At payload 8
    if 1 ≤ slot && slot ≤ 15 && 1 ≤ length && length ≤ 4095 then
      some (slot,
        { kind := kind, tag := wordAt payload 2, generation := num16At payload 6, length := length
          crc := wordAt payload 10 })
    else none

/-- A job of a slot is in OPEN, LOAD or CLOSE. -/
def slotLoading (slot : Nat) (s : State) : Bool :=
  s.engine.queue.any fun j =>
    s.slotOf j.station = slot && (j.state = .opn || j.state = .load || j.state = .close)

/-- A buffer holds a block of a slot. -/
def slotBuffered (slot : Nat) (s : State) : Bool :=
  bufferIndices.any fun i => (s.buffer i).owner.isSome && (s.buffer i).slot = slot

/-- An operation of the image write still runs: it is the running one, or it has failed and the STATUS that waits for
its end has not completed (R140, R145, R148). -/
def writeStillRuns (s : State) : Bool :=
  writeRuns s || (match s.flash.busy with
    | none => false
    | some u => u.op.who = .imageWrite)

/-- The BUSY check of IMAGE OPEN (R145). -/
def openBusy (slot : Nat) (s : State) : Bool :=
  s.store.imageWrite.isSome || slotLoading slot s || slotBuffered slot s || s.store.configSave.isSome ||
    writeStillRuns s || (writeBuffer? s).isSome

/-- A defined station names a slot and has another kind than the one given (R145). -/
def openConflicts (slot : Nat) (kind : Kind) (s : State) : Bool :=
  s.stations.any fun st => st.entry.slot = slot && st.entry.kind ≠ kind

/-- A slot leaves the mark list with its queued PROGRAM, and the mark writer goes on with the next (R142). DESIGN CHOICE
(log 50): the next slot's PROGRAM is queued at once, before what IMAGE OPEN queues. -/
def leaveMarkList (slot : Nat) (s : State) : State := markDone slot (withdrawOps (.markWriter slot) s)

/-- An image write begins (R142, R145): the slot is WRITING, its jobs in LOADWAIT fail, a buffer is asked
for, and the header sector's ERASE is queued, behind the next slot's mark where one is queued now (DESIGN CHOICE, log 50). -/
def openImage (slot : Nat) (image : Image) (s : State) : State :=
  let s1 := slotLeftValid slot (leaveMarkList slot (s.setSlot slot .writing))
  let w : ImageWrite :=
    { slot := slot, image := image, phase := .erasing, nextIndex := 0, sectorsErased := 0, readIndex := 0
      crcSoFar := crc32Start }
  let s2 := grantBuffers (requestBuffers .imageWrite 1 (setWrite w s1))
  issueFlash (queueOp { command := .erase slot 0, who := .imageWrite } s2)

def serveImageOpen (payload : List Byte) (s : State) : Served :=
  if payload.length ≠ 14 then refused .format s
  else
    match readOpen payload with
    | none => refused .range s
    | some (slot, image) =>
      if s.slot slot = .writing then refused .state s
      else if openBusy slot s then refused .busy s
      else if openConflicts slot image.kind s then refused .conflict s
      else taken [] (openImage slot image s)

/-! ### IMAGE BLOCK, CLOSE and ABORT (R146 to R148) -/

/-- The image write of a slot that is WRITING. -/
def writeOf (slot : Nat) (s : State) : Option ImageWrite :=
  match s.store.imageWrite with
  | none => none
  | some w => if w.slot = slot && s.slot slot = .writing then some w else none

/-- The write still takes blocks: it is in ERASING or RECEIVING. -/
def ImageWrite.taking (w : ImageWrite) : Bool := w.phase = .erasing || w.phase = .receiving

/-- An ORDER refusal, which gives the next index (spec/11, 11.3). -/
def outOfOrder (w : ImageWrite) (s : State) : Served where
  state := s
  status := .order
  payload := le16 w.nextIndex

/-- A block taken into the write's buffer, and its PROGRAM queued (R146). -/
def takeBlock (w : ImageWrite) (i : Nat) (data : List Byte) (s : State) : State :=
  let s1 := setWrite { w with nextIndex := w.nextIndex + 1 } s
  let s2 := s1.setBuffer i
    { s1.buffer i with block := w.nextIndex, state := .programming, crc := crc16 data, data := data }
  issueFlash (queueOp { command := .program w.slot (w.nextIndex + 1) data, who := .imageWrite } s2)

def serveImageBlock (payload : List Byte) (s : State) : Served :=
  if payload.length ≠ 259 then refused .format s
  else
    match writeOf (numAt payload 0) s with
    | none => refused .state s
    | some w =>
      if !w.taking then refused .state s
      else if num16At payload 1 ≠ w.nextIndex || w.image.length ≤ w.nextIndex then outOfOrder w s
      else if w.phase = .erasing then refused .busy s
      else
        match writeBuffer? s with
        | none => refused .busy s
        | some i =>
          if (s.buffer i).state = .programming then refused .busy s
          else taken (le16 (w.nextIndex + 1)) (takeBlock w i (payload.drop 3) s)

/-- The write's buffer is being programmed from. -/
def writeProgramming (s : State) : Bool :=
  match writeBuffer? s with
  | none => false
  | some i => (s.buffer i).state = .programming

def serveImageClose (payload : List Byte) (s : State) : Served :=
  match payload with
  | [b] =>
    match writeOf b.toNat s with
    | none => refused .state s
    | some w =>
      if !w.taking then refused .state s
      else if w.nextIndex < w.image.length then outOfOrder w s
      else if writeProgramming s then refused .busy s
      else taken [] (issueFlash (queueReadback { w with crcSoFar := crc32Start } 0 s))
  | _ => refused .format s

def serveImageAbort (payload : List Byte) (s : State) : Served :=
  match payload with
  | [b] =>
    match writeOf b.toNat s with
    | none => refused .state s
    | some w => if w.phase = .committing then refused .busy s else taken [] (issueFlash (abandonWrite s))
  | _ => refused .format s

/-! ### IMAGE LIST (R150) -/

/-- The fields that a VALID or SUSPECT slot gives. -/
def imageBytes (image : Image) (mismatches : Nat) : List Byte :=
  [byte image.kind.code] ++ le32 image.tag ++ le16 image.generation ++ le16 image.length ++ le32 image.crc ++
    [byte mismatches]

/-- What a WRITING slot gives: the phase, the next index, and in ERASING the sectors erased. -/
def writingBytes (w : Option ImageWrite) : List Byte :=
  match w with
  | none => []
  | some w =>
    [byte w.phase.code] ++ le16 w.nextIndex ++ (if w.phase = .erasing then [byte w.sectorsErased] else [])

/-- One slot record of IMAGE LIST. -/
def slotBytes (w : Option ImageWrite) (x : Slot) : List Byte :=
  [byte x.code] ++
    (match x with
     | .empty => []
     | .writing => writingBytes w
     | .valid image n => imageBytes image n
     | .suspect image n => imageBytes image n)

/-- The IMAGE LIST payload (R150, log 16). -/
def listBytes (s : State) : List Byte :=
  s.store.slots.flatMap (slotBytes s.store.imageWrite) ++
    [flagByte s.store.configSave.isSome, byte s.store.markList.length, flagByte s.store.prepared]

def serveImageList (payload : List Byte) (s : State) : Served :=
  if payload ≠ [] then refused .format s else taken (listBytes s) s

/-! ### CONFIG SAVE (R151) -/

/-- The image write is in CHECKING or COMMITTING. -/
def writeFinishing (s : State) : Bool :=
  match s.store.imageWrite with
  | none => false
  | some w => !w.taking

/-- A config save begins: the table and the settings copied, and the ERASE of sector 0 queued (R151). -/
def beginSave (s : State) : State :=
  let record := configRecord s.settings (s.stations.map (·.entry))
  issueFlash (queueOp { command := .erase 0 0, who := .configSave } (setSave { record := record, phase := .erasing } s))

def serveConfigSave (payload : List Byte) (s : State) : Served :=
  if payload ≠ [] then refused .format s
  else if s.store.configSave.isSome || writeFinishing s then refused .busy s
  else taken [] (beginSave s)

end Sys2Proof.Machine
end

