-- ==== Sys2Proof/Machine/Link.lean ====
section
/-! DEFINITION. The Control Link: which request is served when, the reply in transmission, and the receiver
that assembles frames byte by byte (spec/09, 9.2 and 9.3; R154 to R159). -/

namespace Sys2Proof.Machine

/-! ### Serving (R157, R158) -/

/-- A request served by the rule of its kind (Figure 11-4); an unlisted kind is answered FORMAT (R157). -/
def serveKind (r : Request) (s : State) : Served :=
  match r.kind.toNat with
  | 0x01 => serveStatus r.payload s
  | 0x02 => serveNoticeFetch r.payload s
  | 0x03 => serveSettingsSet r.payload s
  | 0x04 => serveSettingsRead r.payload s
  | 0x05 => serveConfigSave r.payload s
  | 0x06 => serveNodeDefine r.payload s
  | 0x07 => serveNodeRemove r.payload s
  | 0x08 => serveNodeRead r.payload s
  | 0x09 => serveNodeQuery r.payload s
  | 0x0A => serveContextSet r.payload s
  | 0x0B => serveContextRead r.payload s
  | 0x0C => serveCarStateSet r.payload s
  | 0x0D => serveRestoreNow r.payload s
  | 0x0E => serveEngineRestart r.payload s
  | 0x0F => serveGapRead r.payload s
  | 0x10 => serveImageOpen r.payload s
  | 0x11 => serveImageBlock r.payload s
  | 0x12 => serveImageClose r.payload s
  | 0x13 => serveImageAbort r.payload s
  | 0x14 => serveImageList r.payload s
  | 0x15 => serveLaneInject r.payload s
  | _ => refused .format s

/-- The kinds that are served while cold start loading goes on: STATUS and NOTICE FETCH (R158). -/
def servedInLoading (kind : Byte) : Bool := kind = 0x01 || kind = 0x02

/-- A request served: during loading every kind but STATUS and NOTICE FETCH is answered BUSY, before any
check (R158, log 20). -/
def answerRequest (r : Request) (s : State) : Served :=
  if s.loadingEnded || servedInLoading r.kind then serveKind r s else refused .busy s

/-- A reply begins to be transmitted (R157). -/
def beginReply (r : Request) (x : Served) : State :=
  { x.state with link := { x.state.link with reply := some (replyFrame r x.status x.payload) } }

/-- The oldest held request is served if the transmitter is free: its place is freed and its reply begun
(R157). In PARKING and PARKED none is served (R159). -/
def serveOldest (s : State) : State :=
  if s.silent || s.link.reply.isSome then s
  else
    match s.link.held with
    | [] => s
    | r :: rest => beginReply r (answerRequest r { s with link := { s.link with held := rest } })

/-- A request with a good check arrives (R156): it takes a holding place, and is served if the transmitter is
free; with both places full it is discarded with overrun, and in PARKING and PARKED without any flag. -/
def arrive (r : Request) (s : State) : State :=
  if s.silent then s
  else if Config.holdingPlaces ≤ s.link.held.length then setOverrun s
  else serveOldest { s with link := { s.link with held := s.link.held ++ [r] } }

/-- The last byte of the reply in transmission has been sent: the transmitter is free, and the next held
request is served (R157). -/
def replyDone (s : State) : State :=
  match s.link.reply with
  | none => s
  | some _ => serveOldest { s with link := { s.link with reply := none } }

/-! ### Receiving (R155, R156) -/

def setReceiver (r : Receiver) (s : State) : State := { s with link := { s.link with receiver := r } }

/-- The inter-byte timeout set due 10 ms after the byte just received (R155). -/
def armInterByte (s : State) : State := setDeadlineIn .interByte 10 s

/-- A frame of possible length: 6 to 265 bytes (spec/11, 11.3). -/
def lengthPossible (n : Nat) : Bool := 6 ≤ n && n ≤ 265

/-- A completed frame checked (R156). -/
def checkFrame (frame : List Byte) (s : State) : State :=
  if crcGood frame then arrive (readRequest frame) s else setLinkFault s

/-- The bytes of a frame so far, the last of them just received (R155). The header is complete with the
length, the tag and the kind. -/
def extendFrame (frame : List Byte) (s : State) : State :=
  let declared := num16At frame 0
  if frame.length < 4 then armInterByte (setReceiver (.receiving frame) s)
  else if !lengthPossible declared then armInterByte (setReceiver .discarding (setLinkFault s))
  else if frame.length < declared then armInterByte (setReceiver (.receiving frame) s)
  else checkFrame frame (setReceiver .idle (removeDeadline .interByte s))

/-- A byte received on CRXD (R155). -/
def receiveByte (b : Byte) (s : State) : State :=
  match s.link.receiver with
  | .idle => extendFrame [b] s
  | .receiving bytes => extendFrame (bytes ++ [b]) s
  | .discarding => armInterByte s

/-- The inter-byte timeout expires: a partial frame is discarded with link fault, or the discarding ends
(R155). -/
def lineQuiet (s : State) : State :=
  match s.link.receiver with
  | .idle => s
  | .receiving _ => setReceiver .idle (setLinkFault s)
  | .discarding => setReceiver .idle s

end Sys2Proof.Machine
end

