-- ==== Sys2Proof/Machine/Polling.lean ====
section
/-! DEFINITION. What the lanes do at a poll interval expiry and the Engine at a restore limit expiry (spec/06,
6.6; R87, R112). -/

namespace Sys2Proof.Machine

/-- The stations of a lane in the order of a search: those numbered above the cursor, then the others, the
cursor station last (R112). -/
def pollOrder (l : Lane) (s : State) : List Nat :=
  let numbers := (s.stations.filter (·.entry.lane = l)).map (·.entry.number)
  let cursor := (s.lane l).cursor.getD 0
  numbers.filter (cursor < ·) ++ numbers.filter (· ≤ cursor)

/-- A poll made pending for the first station of the search that has no job, if the supply is LINE and none
is pending (R112). -/
def makePollPending (l : Lane) (s : State) : State :=
  if s.supply.state ≠ .line || (s.lane l).pendingPoll.isSome then s
  else
    match (pollOrder l s).find? fun n => !(s.hasJob n) with
    | none => s
    | some n => s.updLane l fun x => { x with pendingPoll := some n, cursor := some n }

/-- A lane's poll interval expires: it is set again from the due time that expired, in every supply state,
and a poll may become pending (R26, R112). -/
def pollExpired (l : Lane) (due : Time) (s : State) : State :=
  lanesAct (makePollPending l (setDeadline (.pollInterval l) (due + ms s.settings.pollInterval) s))

/-- The restore limit of a station's job expires: the job fails with TIME in the state it held (R87). -/
def limitExpired (n : Nat) (s : State) : State := lanesAct (failJob n .time s)

end Sys2Proof.Machine
end

