-- ==== Sys2Proof/Machine/CommandsSupply.lean ====
section
/-! DEFINITION. The meanings of the commands of power, the clock and the Supply Watch. A command takes effect
only while the part runs (R171, log 5), and an expiry only where it is due (R25, log 2). -/

namespace Sys2Proof.Machine

abbrev Result := Host.Outcome State Fault Refusal

/-- The effect of a command on a part that runs. While VDD is absent or RSTN is low nothing happens (R171,
log 5). -/
def whileRunning (f : State → State) (s : State) : Result := .next (if s.runs then f s else s)

/-- POWER_ON (R171). -/
def execPowerOn (line : LineLevel) (baudHigh : Bool) (s : State) : Result := .next (powerRises line baudHigh s)

/-- RESET_LINE_ASSERT (R171). -/
def execResetLineAssert (s : State) : Result := .next (resetLineFalls s)

/-- RESET_LINE_RELEASE (R171). -/
def execResetLineRelease (line : LineLevel) (baudHigh : Bool) (s : State) : Result :=
  .next (resetLineRises line baudHigh s)

/-- SUPPLY_LOSS (R15, R170). -/
def execSupplyLoss (s : State) : Result := .next (supplyLost s)

/-- MILLISECOND_TICK (R20). -/
def execMillisecondTick (s : State) : Result := whileRunning (fun s => { s with timebase := s.timebase.tick }) s

/-- RAW_LINE_CHANGE (R1). -/
def execRawLineChange (level : LineLevel) (s : State) : Result := whileRunning (rawChange level) s

/-- FILTER_CONFIRM_EXPIRY (R2). -/
def execFilterConfirmExpiry (s : State) : Result :=
  whileRunning (onExpiry .filterConfirm fun _ s => confirmFilter s) s

/-- SETTLE_EXPIRY (R7). -/
def execSettleExpiry (s : State) : Result := whileRunning (onExpiry .settle fun _ s => settleExpired s) s

/-- SPAN_HORIZON_EXPIRY (R8). -/
def execSpanHorizonExpiry (s : State) : Result :=
  whileRunning (onExpiry .spanHorizon fun _ s => horizonExpired s) s

/-- HOLDUP_SAMPLE_EXPIRY (R9). -/
def execHoldupSampleExpiry (millivolts : Nat) (s : State) : Result :=
  whileRunning (onExpiry .holdupSample (holdupSampled millivolts)) s

end Sys2Proof.Machine
end

