-- ==== Sys2Proof/Machine/CommandsLanes.lean ====
section
/-! DEFINITION. The meanings of the commands of the lanes, the Restore Engine and the Store Interface. -/

namespace Sys2Proof.Machine

/-- RESPONSE_WINDOW_EXPIRY (R100). -/
def execResponseWindowExpiry (l : Lane) (s : State) : Result :=
  whileRunning (onExpiry (.responseWindow l) fun _ s => windowExpired l s) s

/-- POLL_INTERVAL_EXPIRY (R112). -/
def execPollIntervalExpiry (l : Lane) (s : State) : Result :=
  whileRunning (onExpiry (.pollInterval l) (pollExpired l)) s

/-- RESTORE_LIMIT_EXPIRY (R87). -/
def execRestoreLimitExpiry (n : Nat) (s : State) : Result :=
  whileRunning (onExpiry (.restoreLimit n) fun _ s => limitExpired n s) s

/-- LANE_REPLY_RECEIVED (R99). -/
def execLaneReplyReceived (l : Lane) (frame : List Byte) (s : State) : Result := whileRunning (laneReply l frame) s

/-- GROUP_FRAME_END (R98, R130). -/
def execGroupFrameEnd (l : Lane) (s : State) : Result := whileRunning (groupFrameEnded l) s

/-- FLASH_OP_COMPLETE (R138). -/
def execFlashOpComplete (given : Option (List Byte)) (s : State) : Result := whileRunning (flashCompleted given) s

/-- STORE_OPERATION_TIMEOUT_EXPIRY (R140). -/
def execStoreOperationTimeoutExpiry (s : State) : Result :=
  whileRunning (onExpiry .storeOperation fun _ s => storeTimedOut s) s

end Sys2Proof.Machine
end

