-- ==== Sys2Proof/Machine/CommandsLink.lean ====
section
/-! DEFINITION. The meanings of the commands of the Control Link: bytes, the end of a reply, and the arrival
of each kind of request (log 3). -/

namespace Sys2Proof.Machine

/-- CONTROL_BYTE_RECEIVED (R155). -/
def execControlByteReceived (b : Byte) (s : State) : Result := whileRunning (receiveByte b) s

/-- INTER_BYTE_TIMEOUT_EXPIRY (R155). -/
def execInterByteTimeoutExpiry (s : State) : Result := whileRunning (onExpiry .interByte fun _ s => lineQuiet s) s

/-- REPLY_SENT (R157). -/
def execReplySent (s : State) : Result := whileRunning replyDone s

/-- A request of a kind code, a tag and a payload (Figure 11-3). -/
def requestOf (kind tag : Byte) (payload : List Byte) : Request where
  tag := tag
  kind := kind
  payload := payload

/-- UNKNOWN_REQUEST_KIND (R157). -/
def execUnknownRequestKind (kind tag : Byte) (payload : List Byte) (s : State) : Result :=
  whileRunning (arrive (requestOf kind tag payload)) s

/-- STATUS (R160). -/
def execStatus (tag : Byte) (payload : List Byte) (s : State) : Result :=
  whileRunning (arrive (requestOf 0x01 tag payload)) s

/-- NOTICE_FETCH (R163). -/
def execNoticeFetch (tag : Byte) (payload : List Byte) (s : State) : Result :=
  whileRunning (arrive (requestOf 0x02 tag payload)) s

/-- SETTINGS_SET (R165). -/
def execSettingsSet (tag : Byte) (payload : List Byte) (s : State) : Result :=
  whileRunning (arrive (requestOf 0x03 tag payload)) s

/-- SETTINGS_READ (R166). -/
def execSettingsRead (tag : Byte) (payload : List Byte) (s : State) : Result :=
  whileRunning (arrive (requestOf 0x04 tag payload)) s

/-- CONFIG_SAVE (R151). -/
def execConfigSave (tag : Byte) (payload : List Byte) (s : State) : Result :=
  whileRunning (arrive (requestOf 0x05 tag payload)) s

/-- NODE_DEFINE (R47, R48). -/
def execNodeDefine (tag : Byte) (payload : List Byte) (s : State) : Result :=
  whileRunning (arrive (requestOf 0x06 tag payload)) s

/-- NODE_REMOVE (R49). -/
def execNodeRemove (tag : Byte) (payload : List Byte) (s : State) : Result :=
  whileRunning (arrive (requestOf 0x07 tag payload)) s

/-- NODE_READ (R50). -/
def execNodeRead (tag : Byte) (payload : List Byte) (s : State) : Result :=
  whileRunning (arrive (requestOf 0x08 tag payload)) s

/-- NODE_QUERY (R114). -/
def execNodeQuery (tag : Byte) (payload : List Byte) (s : State) : Result :=
  whileRunning (arrive (requestOf 0x09 tag payload)) s

/-- CONTEXT_SET (R55, R56). -/
def execContextSet (tag : Byte) (payload : List Byte) (s : State) : Result :=
  whileRunning (arrive (requestOf 0x0A tag payload)) s

/-- CONTEXT_READ (R57). -/
def execContextRead (tag : Byte) (payload : List Byte) (s : State) : Result :=
  whileRunning (arrive (requestOf 0x0B tag payload)) s

/-- CAR_STATE_SET (R59, R61). -/
def execCarStateSet (tag : Byte) (payload : List Byte) (s : State) : Result :=
  whileRunning (arrive (requestOf 0x0C tag payload)) s

/-- RESTORE_NOW (R91). -/
def execRestoreNow (tag : Byte) (payload : List Byte) (s : State) : Result :=
  whileRunning (arrive (requestOf 0x0D tag payload)) s

/-- ENGINE_RESTART (R94). -/
def execEngineRestart (tag : Byte) (payload : List Byte) (s : State) : Result :=
  whileRunning (arrive (requestOf 0x0E tag payload)) s

/-- GAP_READ (R18). -/
def execGapRead (tag : Byte) (payload : List Byte) (s : State) : Result :=
  whileRunning (arrive (requestOf 0x0F tag payload)) s

/-- IMAGE_OPEN (R145). -/
def execImageOpen (tag : Byte) (payload : List Byte) (s : State) : Result :=
  whileRunning (arrive (requestOf 0x10 tag payload)) s

/-- IMAGE_BLOCK (R146). -/
def execImageBlock (tag : Byte) (payload : List Byte) (s : State) : Result :=
  whileRunning (arrive (requestOf 0x11 tag payload)) s

/-- IMAGE_CLOSE (R147). -/
def execImageClose (tag : Byte) (payload : List Byte) (s : State) : Result :=
  whileRunning (arrive (requestOf 0x12 tag payload)) s

/-- IMAGE_ABORT (R148). -/
def execImageAbort (tag : Byte) (payload : List Byte) (s : State) : Result :=
  whileRunning (arrive (requestOf 0x13 tag payload)) s

/-- IMAGE_LIST (R150). -/
def execImageList (tag : Byte) (payload : List Byte) (s : State) : Result :=
  whileRunning (arrive (requestOf 0x14 tag payload)) s

/-- LANE_INJECT (R115). -/
def execLaneInject (tag : Byte) (payload : List Byte) (s : State) : Result :=
  whileRunning (arrive (requestOf 0x15 tag payload)) s

end Sys2Proof.Machine
end

