-- ==== Sys2Proof/Machine/Dispatch.lean ====
section
/-! DEFINITION. The meaning of each command: one arm for each row of the table. -/

namespace Sys2Proof.Machine

def exec (i : Instr) (s : State) : Host.Outcome State Fault Refusal :=
  match i with
  | .powerOn line baudHigh => Sys2Proof.Machine.execPowerOn line baudHigh s
  | .resetLineAssert => Sys2Proof.Machine.execResetLineAssert s
  | .resetLineRelease line baudHigh => Sys2Proof.Machine.execResetLineRelease line baudHigh s
  | .millisecondTick => Sys2Proof.Machine.execMillisecondTick s
  | .rawLineChange level => Sys2Proof.Machine.execRawLineChange level s
  | .filterConfirmExpiry => Sys2Proof.Machine.execFilterConfirmExpiry s
  | .settleExpiry => Sys2Proof.Machine.execSettleExpiry s
  | .spanHorizonExpiry => Sys2Proof.Machine.execSpanHorizonExpiry s
  | .holdupSampleExpiry millivolts => Sys2Proof.Machine.execHoldupSampleExpiry millivolts s
  | .responseWindowExpiry lane => Sys2Proof.Machine.execResponseWindowExpiry lane s
  | .pollIntervalExpiry lane => Sys2Proof.Machine.execPollIntervalExpiry lane s
  | .restoreLimitExpiry station => Sys2Proof.Machine.execRestoreLimitExpiry station s
  | .interByteTimeoutExpiry => Sys2Proof.Machine.execInterByteTimeoutExpiry s
  | .storeOperationTimeoutExpiry => Sys2Proof.Machine.execStoreOperationTimeoutExpiry s
  | .laneReplyReceived lane frame => Sys2Proof.Machine.execLaneReplyReceived lane frame s
  | .groupFrameEnd lane => Sys2Proof.Machine.execGroupFrameEnd lane s
  | .flashOpComplete transferred => Sys2Proof.Machine.execFlashOpComplete transferred s
  | .controlByteReceived byte => Sys2Proof.Machine.execControlByteReceived byte s
  | .replySent => Sys2Proof.Machine.execReplySent s
  | .unknownRequestKind kind tag payload => Sys2Proof.Machine.execUnknownRequestKind kind tag payload s
  | .status tag payload => Sys2Proof.Machine.execStatus tag payload s
  | .noticeFetch tag payload => Sys2Proof.Machine.execNoticeFetch tag payload s
  | .settingsSet tag payload => Sys2Proof.Machine.execSettingsSet tag payload s
  | .settingsRead tag payload => Sys2Proof.Machine.execSettingsRead tag payload s
  | .configSave tag payload => Sys2Proof.Machine.execConfigSave tag payload s
  | .nodeDefine tag payload => Sys2Proof.Machine.execNodeDefine tag payload s
  | .nodeRemove tag payload => Sys2Proof.Machine.execNodeRemove tag payload s
  | .nodeRead tag payload => Sys2Proof.Machine.execNodeRead tag payload s
  | .nodeQuery tag payload => Sys2Proof.Machine.execNodeQuery tag payload s
  | .contextSet tag payload => Sys2Proof.Machine.execContextSet tag payload s
  | .contextRead tag payload => Sys2Proof.Machine.execContextRead tag payload s
  | .carStateSet tag payload => Sys2Proof.Machine.execCarStateSet tag payload s
  | .restoreNow tag payload => Sys2Proof.Machine.execRestoreNow tag payload s
  | .engineRestart tag payload => Sys2Proof.Machine.execEngineRestart tag payload s
  | .gapRead tag payload => Sys2Proof.Machine.execGapRead tag payload s
  | .imageOpen tag payload => Sys2Proof.Machine.execImageOpen tag payload s
  | .imageBlock tag payload => Sys2Proof.Machine.execImageBlock tag payload s
  | .imageClose tag payload => Sys2Proof.Machine.execImageClose tag payload s
  | .imageAbort tag payload => Sys2Proof.Machine.execImageAbort tag payload s
  | .imageList tag payload => Sys2Proof.Machine.execImageList tag payload s
  | .laneInject tag payload => Sys2Proof.Machine.execLaneInject tag payload s
  | .supplyLoss => Sys2Proof.Machine.execSupplyLoss s

end Sys2Proof.Machine
end

