-- ==== Sys2Proof/Machine/RemoteUnit.lean ====
section
/-! DEFINITION. The unit's side of the lane exchanges (spec/06, R95, R107 to R111; spec/07, 7.2, R122 to R124).
Units are outside the part, and no command runs these functions: what a unit answers comes to the part as the
operand of LANE_REPLY_RECEIVED (log 29). -/

namespace Sys2Proof.Machine

/-- A unit on a lane. `memory` is how many blocks its image memory holds, and `blocks` are the blocks it
holds contiguously from block 0, so that its fill is their number (7.2). -/
structure RemoteUnit where
  address : Nat
  kind : Kind
  memory : Nat
  state : ImageState
  tag : Word
  generation : Nat
  declared : Nat
  blocks : List (List Byte)
  listening : Bool
  epoch : Nat
  fields : Fields
  release : Release
  /-- What its leaves or its display show while its firmware runs (R111). -/
  live : LiveStatus
  /-- The unit refuses for now: it answers NAK BUSY (R102, R108). -/
  busy : Bool
  deriving DecidableEq, Repr

/-- A unit that has lost its RAM: BLANK, with no declared length, no group-listen mark and no context
(R107). -/
def RemoteUnit.lostRam (u : RemoteUnit) : RemoteUnit :=
  { u with
    state := .blank, tag := 0, generation := 0, declared := 0, blocks := [], listening := false, epoch := 0
    fields := Fields.blank, release := .withheld }

/-- A loss of power that the unit's reserve bridges, or does not (R107). -/
def RemoteUnit.powerLost (bridged : Bool) (u : RemoteUnit) : RemoteUnit := if bridged then u else u.lostRam

/-- The unit's STATE REPORT: the fields that Figure 6-3 gives for its image state, the others zero (R108). -/
def RemoteUnit.report (u : RemoteUnit) : Report :=
  match u.state with
  | .blank => { state := .blank, kind := u.kind, tag := 0, generation := 0, fill := 0, epoch := 0 }
  | .partly => { state := .partly, kind := u.kind, tag := u.tag, generation := 0, fill := u.blocks.length, epoch := 0 }
  | .held => { state := .held, kind := u.kind, tag := u.tag, generation := u.generation, fill := 0, epoch := 0 }
  | .running =>
    { state := .running, kind := u.kind, tag := u.tag, generation := u.generation, fill := 0, epoch := u.epoch }

/-- The live status of a unit: an entrance unit whose firmware does not run reports FAULT (R111). -/
def RemoteUnit.liveStatus (u : RemoteUnit) : LiveStatus :=
  if u.kind = .entrance && u.state ≠ .running then .fault else u.live

/-- An OPEN frame (R122). DESIGN CHOICE (log 42): a unit that answers NAK NO_SPACE keeps its group-listen mark even where the
flag is clear, as R122 says that it changes nothing, although R124 says that taking such an OPEN clears the mark. -/
def RemoteUnit.opened (tag : Word) (generation length : Nat) (listen : Bool) (u : RemoteUnit) :
    RemoteUnit × LaneReply :=
  if u.memory < length then (u, .nak .noSpace 0)
  else
    ({ u with
       state := .partly, tag := tag, generation := generation, declared := length, blocks := [], listening := listen
       epoch := 0, fields := Fields.blank, release := .withheld }, .ack)

/-- A BLOCK frame at the unit's own address, once its group-listen mark is clear (R123). -/
def RemoteUnit.block (tag : Word) (index : Nat) (data : List Byte) (u : RemoteUnit) : RemoteUnit × LaneReply :=
  let fill := u.blocks.length
  if u.state ≠ .partly || u.tag ≠ tag then (u, .nak .wrongState 0)
  else if fill < index || u.declared ≤ index then (u, .nak .badIndex fill)
  else if index = fill then ({ u with blocks := u.blocks ++ [data] }, .blockAck index (crc16 data))
  else if index + 1 = fill then ({ u with blocks := u.blocks.set index data }, .blockAck index (crc16 data))
  else (u, .blockAck index (crc16 (u.blocks.getD index [])))

/-- A BLOCK frame to address 31: stored only by a listening unit at its own fill, and never answered
(R123). -/
def RemoteUnit.groupBlock (tag : Word) (index : Nat) (data : List Byte) (u : RemoteUnit) : RemoteUnit :=
  if u.listening && u.state = .partly && u.tag = tag && u.blocks.length = index && index < u.declared then
    { u with blocks := u.blocks ++ [data] }
  else u

/-- A CLOSE frame, once the group-listen mark is clear (R124). -/
def RemoteUnit.closed (expected : Word) (u : RemoteUnit) : RemoteUnit × LaneReply :=
  if u.state ≠ .partly then (u, .nak .wrongState 0)
  else if u.blocks.length < u.declared then (u, .nak .badIndex u.blocks.length)
  else if crc32 u.blocks.flatten = expected then ({ u with state := .held }, .closeResult true)
  else ({ u with state := .blank, tag := 0, generation := 0, declared := 0, blocks := [] }, .closeResult false)

/-- A START frame, once the group-listen mark is clear (R109, R124). -/
def RemoteUnit.started (u : RemoteUnit) : RemoteUnit × LaneReply :=
  if u.state = .held then ({ u with state := .running, epoch := 0 }, .ack) else (u, .nak .wrongState 0)

/-- A CONTEXT frame (R110): its epoch, its release and its fields. -/
def RemoteUnit.context (p : List Byte) (u : RemoteUnit) : RemoteUnit × LaneReply :=
  if u.state ≠ .running then (u, .nak .wrongState 0)
  else
    let epoch := num16At p 0
    let fields := readFields u.kind (num16At p 3) fieldCodes (p.drop 5) Fields.blank
    let release := if u.kind = .entrance && numAt p 2 = 1 then Release.granted else .withheld
    ({ u with epoch := epoch, fields := fields, release := release }, .contextAck epoch)

/-- The unit with its group-listen mark cleared (R123, R124). -/
def RemoteUnit.deaf (u : RemoteUnit) : RemoteUnit := { u with listening := false }

/-- A request frame taken at the unit's own address, by its kind; none for a kind that is no request kind
(Figure 11-9). DESIGN CHOICE (log 42): a unit that answers NAK BUSY keeps its group-listen mark, and a START that it
refuses clears the mark, as R124 says of taking START, although R109 says that a refused one changes nothing. -/
def RemoteUnit.taken (kind : Nat) (p : List Byte) (u : RemoteUnit) : Option (RemoteUnit × LaneReply) :=
  if u.busy then some (u, .nak .busy 0)
  else
    match kind with
    | 0x10 => some (u, .report u.report)
    | 0x11 => some (u.opened (wordAt p 0) (num16At p 4) (num16At p 6) (byteAt p 8 = 1))
    | 0x12 => some (u.deaf.block (wordAt p 0) (num16At p 4) (p.drop 6))
    | 0x13 => some (if u.state = .partly then (u, .fillReport u.blocks.length) else (u, .nak .wrongState 0))
    | 0x14 => some (u.deaf.closed (wordAt p 0))
    | 0x15 => some (u.deaf.started)
    | 0x16 => some (u.context p)
    | 0x17 => some (u, .pollReport u.report u.liveStatus)
    | _ => none

/-- A frame on the lane as a unit meets it (R95): taken and answered at its own address, stored without an
answer at address 31, and otherwise discarded. -/
def RemoteUnit.receive (frame : List Byte) (u : RemoteUnit) : RemoteUnit × Option (List Byte) :=
  match readReplyFrame frame with
  | none => (u, none)
  | some raw =>
    if raw.address = u.address then
      match u.taken raw.kind raw.payload with
      | none => (u, none)
      | some (u', r) => (u', some (laneFrame u.address raw.sequence r.encode.1 r.encode.2))
    else if raw.address = 31 && raw.kind = 0x12 then
      (u.groupBlock (wordAt raw.payload 0) (num16At raw.payload 4) (raw.payload.drop 6), none)
    else (u, none)

end Sys2Proof.Machine
end

