-- ==== Sys2Proof/Safety.lean ====
section
/-! DEFINITION. What a sound state of the part is: the conditions that the manual states of the whole machine,
each of which reset has and every step keeps; and the words in which statements speak of a command's
circumstances. -/

namespace Sys2Proof.Machine

/-! ### Conditions that every step keeps -/

/-- The flash memory is in its canonical form. -/
def State.flashCanonical (s : State) : Prop := Memory.wf s.flash.cells = true

/-- ATTN is driven exactly while the notice queue holds a notice (R164), and the queue holds at most 16
(R161). -/
def State.attentionFollows (s : State) : Prop :=
  (s.pins.attn = true ↔ s.link.notices ≠ []) ∧ s.link.notices.length ≤ 16

/-- At most two requests are held (R156). -/
def State.holdingBounded (s : State) : Prop := s.link.held.length ≤ 2

/-- The deadline list holds at most one entry for each identity (R22). -/
def State.deadlinesDistinct (s : State) : Prop := (s.timebase.deadlines.map (·.purpose)).Nodup

/-- The deadline list stands in the order of remaining time, and among equals in the order in which the entries were set
(R23, R25; that an entry already due has no time remaining, or less, is log 40). -/
def State.deadlinesOrdered (s : State) : Prop :=
  s.timebase.deadlines.Pairwise fun d e =>
    remaining s.timebase.count d.due < remaining s.timebase.count e.due ∨
      (remaining s.timebase.count d.due = remaining s.timebase.count e.due ∧ d.position < e.position)

/-- The restore queue holds at most one job for any station (R71), and no station has a push entry while it has
a job (R64). -/
def State.queueDistinct (s : State) : Prop :=
  (s.engine.queue.map (·.station)).Nodup ∧ ∀ p ∈ s.pushA ++ s.pushB, s.hasJob p.station = false

/-- A lane's load holder, where it has one, names no station twice (R71, R119). -/
def LaneState.holderDistinct (x : LaneState) : Prop := ∀ h, x.holder = some h → h.stations.Nodup

/-- No load holder names a station twice. -/
def State.holdersDistinct (s : State) : Prop := ∀ l, (s.lane l).holderDistinct

/-- The restore queue stands in class order, each of its jobs is of a defined station (R71), and it is empty until
loading has ended (R74, R91, R97). -/
def State.queueOrdered (s : State) : Prop :=
  (s.engine.queue.map fun j => s.classOf j.station).Pairwise (· ≤ ·) ∧
    (∀ j ∈ s.engine.queue, (s.station? j.station).isSome = true) ∧ (s.loadingEnded = false → s.engine.queue = [])

/-- There are 15 slot records and 4 buffer records, no lane owns more than two buffers (R134), and a FREE buffer has no
owner (R143, R144). -/
def State.storeBounded (s : State) : Prop :=
  s.store.slots.length = 15 ∧ s.store.buffers.length = 4 ∧ (∀ l, (s.ownedBy (.lane l)).length ≤ 2) ∧
    ∀ b ∈ s.store.buffers, b.state = .free → b.owner = none

/-- How many buffers a requester can ask for: a lane two, the image write and the park writer one (R143). -/
def BufferOwner.mostAsked : BufferOwner → Nat
  | .lane _ => 2
  | .imageWrite => 1
  | .parkWriter => 1

/-- The wait list holds at most one request for each requester, the park writer's at its head; a request names at least one
buffer and no more than its requester can ask for; a lane asks only while it has a load holder, and the image write only
while there is one (R121, R134, R143, R148). -/
def State.waitListSound (s : State) : Prop :=
  (s.store.waitList.map (·.who)).Nodup ∧ (∀ r ∈ s.store.waitList.tail, r.who ≠ .parkWriter) ∧
    ∀ r ∈ s.store.waitList, 1 ≤ r.count ∧ r.count ≤ r.who.mostAsked ∧
      (∀ l, r.who = .lane l → (s.lane l).holder.isSome = true) ∧
      (r.who = .imageWrite → s.store.imageWrite.isSome = true)

/-- The stations stand in station order, each number once (R46). -/
def State.stationsOrdered (s : State) : Prop := (s.stations.map (·.entry.number)).Pairwise (· < ·)

/-- The values of a station entry lie in the ranges of Figure 4-1. -/
def Entry.inRange (e : Entry) : Prop :=
  1 ≤ e.number ∧ e.number ≤ 24 ∧ 1 ≤ e.aliasNo ∧ e.aliasNo ≤ 127 ∧ 1 ≤ e.address ∧ e.address ≤ 30 ∧ 1 ≤ e.slot ∧
    e.slot ≤ 15 ∧ e.restoreClass ≤ 3 ∧ e.capacity ≤ 2000 ∧ 1 ≤ e.ratio ∧ e.ratio ≤ 64

/-- A station entry as NODE DEFINE and the config record take it: in its ranges, with the capacity times the ratio at
most 65,535 and a side exactly where the kind is ENTRANCE (R46, R47). -/
def Entry.wellMade (e : Entry) : Prop :=
  e.inRange ∧ e.capacity * e.ratio ≤ 65535 ∧ (e.kind = .entrance ↔ e.side.isSome = true)

/-- The Estimator's values of a station lie within the bounds of R30. -/
def Estimate.inRange (e : Entry) (x : Estimate) : Prop :=
  x.reserve ≤ x.working ∧ x.working ≤ e.capacity ∧ x.carry < e.ratio ∧ x.overdraw ≤ 65535

/-- Every present field has a value of Figure 4-3 (R55). -/
def Fields.inRange (f : Fields) : Prop := ∀ k ∈ fieldCodes, ∀ v, f.get k = some v → judgeField k v = some v

/-- Only fields of a kind are present (R53). -/
def Fields.belongTo (k : Kind) (f : Fields) : Prop := ∀ c v, f.get c = some v → fieldBelongs k c = true

/-- An observed leaf state is absent, or one of the six that R58 lists, and only an entrance station has one. -/
def Station.leafSound (st : Station) : Prop :=
  st.context.leaf ≠ some .ok ∧ (st.entry.kind ≠ .entrance → st.context.leaf = none)

/-- What the manual says of a station at every moment: its entry within its ranges, the Estimator's values
within their bounds (R30), the epoch in 1..65535 (R54), every present field within its range, and the derived
release equal to the one that a frame begun now would carry (R60). -/
def Station.sound (car : CarState) (st : Station) : Prop :=
  st.entry.inRange ∧ st.estimate.inRange st.entry ∧ 1 ≤ st.context.epoch ∧ st.context.epoch ≤ 65535 ∧
    st.context.fields.inRange ∧ st.context.release = effectiveRelease car st.entry st.context.fields

/-- Every defined station is sound. -/
def State.stationsSound (s : State) : Prop := ∀ st ∈ s.stations, st.sound s.car

/-- A station whose record is that of its kind: its entry well made (R46, R47), only fields of its kind present (R53),
and a leaf state as R58 has it. -/
def Station.ofItsKind (st : Station) : Prop :=
  st.entry.wellMade ∧ st.context.fields.belongTo st.entry.kind ∧ st.leafSound

/-- The directory is sound: the stations in station order, each of its kind, no two with one alias or one
lane-and-address pair, and no lane with more than 16 of them (R46, R47, R53, R58). -/
def State.directorySound (s : State) : Prop :=
  s.stationsOrdered ∧ (∀ st ∈ s.stations, st.ofItsKind) ∧ (s.stations.map (·.entry.aliasNo)).Nodup ∧
    (s.stations.map fun st => (st.entry.lane, st.entry.address)).Nodup ∧
    ∀ l, (s.stations.filter (·.entry.lane = l)).length ≤ 16

/-- Every setting of Figure 9-3 lies within its range, and the enable for STARTED is on (R162, R165). -/
def Settings.inRange (x : Settings) : Prop :=
  1 ≤ x.fallFilter ∧ x.fallFilter ≤ 15 ∧ 1 ≤ x.riseFilter ∧ x.riseFilter ≤ 255 ∧ 20 ≤ x.settleWindow ∧
    x.settleWindow ≤ 2000 ∧ 1 ≤ x.parkLevel ∧ x.parkLevel ≤ 14 ∧ 1 ≤ x.responseWindowA ∧ x.responseWindowA ≤ 255 ∧
    1 ≤ x.responseWindowB ∧ x.responseWindowB ≤ 255 ∧ x.retryLimit ≤ 7 ∧ 1000 ≤ x.restoreLimit ∧
    x.restoreLimit ≤ 65535 ∧ 5 ≤ x.pollInterval ∧ x.pollInterval ≤ 1000 ∧ x.noticeMask.getLsbD 0 = true

/-- The settings lie within their ranges. -/
def State.settingsSound (s : State) : Prop := s.settings.inRange

/-- While the supply is not LINE, and until cold start loading has ended, no lane has a transaction in flight or a load
holder (R97, R116, R118, R138). -/
def State.lanesSilent (s : State) : Prop :=
  s.lanesOpen = true ∨ ∀ l, (s.lane l).txn = none ∧ (s.lane l).holder = none

/-- The driver enable of a lane is in use exactly while a transaction is in flight whose frame has been put on the lane (6.1,
R98, R115; that it is held so, and not by the characters, is log 33). -/
def LaneState.driverFollows (x : LaneState) : Prop :=
  x.driver = if (x.txn.bind (·.frame)).isSome then .inUse else .released

/-- The flash chip select is in use exactly while an operation runs (8.1, R138; that it is held so is log 33). -/
def Store.selectFollows (x : Store) : Prop := x.chipSelect = if x.running.isSome then .inUse else .released

/-- The driver enables and the flash chip select follow the frames and the operation in flight. -/
def State.outputsFollow (s : State) : Prop := (∀ l, (s.lane l).driverFollows) ∧ s.store.selectFollows

/-- Neither lane driver enable nor the flash chip select is driven (R171). -/
def State.drivesNothing (s : State) : Prop :=
  s.laneA.driver = .released ∧ s.laneB.driver = .released ∧ s.store.chipSelect = .released

/-! ### The circumstances of a command -/

/-- The due time of an identity's entry, if the list holds one (R22). -/
def Timebase.dueOf (t : Timebase) (p : Purpose) : Option Time := (t.deadlines.find? (·.purpose = p)).map (·.due)

/-- The state with another Timebase. -/
def State.withTimebase (s : State) (t : Timebase) : State := { s with timebase := t }

/-- The part runs, and an entry of the deadline list stands at its head and is due: what is left of the
Timebase once it is delivered, and the due time (R25). -/
def State.dueNow (s : State) (p : Purpose) (left : Timebase) (due : Time) : Prop :=
  s.runs = true ∧ s.timebase.expire p = some (left, due)

/-- The part runs and serves every request kind at once: it is not in PARKING or PARKED, loading has ended, no
request is held and no reply is in transmission (R157, R158). -/
def State.serves (s : State) : Prop :=
  s.runs = true ∧ s.silent = false ∧ s.loadingEnded = true ∧ s.link.held = [] ∧ s.link.reply = none

/-- The part runs and serves STATUS and NOTICE FETCH at once, whether loading has ended or not (R157, R158). -/
def State.servesStatus (s : State) : Prop :=
  s.runs = true ∧ s.silent = false ∧ s.link.held = [] ∧ s.link.reply = none

/-- A state whose reply in transmission answers a request of a kind and tag. -/
def State.replying (s : State) (kind tag : Byte) (status : Status) (payload : List Byte) : State :=
  { s with link := { s.link with reply := some (replyFrame (requestOf kind tag []) status payload) } }

/-- The kind code, tag and payload of a command that is a request (Figure 11-4). -/
def requestOfCommand : Instr → Option Request
  | .unknownRequestKind k t p => some (requestOf k t p)
  | .status t p => some (requestOf 0x01 t p)
  | .noticeFetch t p => some (requestOf 0x02 t p)
  | .settingsSet t p => some (requestOf 0x03 t p)
  | .settingsRead t p => some (requestOf 0x04 t p)
  | .configSave t p => some (requestOf 0x05 t p)
  | .nodeDefine t p => some (requestOf 0x06 t p)
  | .nodeRemove t p => some (requestOf 0x07 t p)
  | .nodeRead t p => some (requestOf 0x08 t p)
  | .nodeQuery t p => some (requestOf 0x09 t p)
  | .contextSet t p => some (requestOf 0x0A t p)
  | .contextRead t p => some (requestOf 0x0B t p)
  | .carStateSet t p => some (requestOf 0x0C t p)
  | .restoreNow t p => some (requestOf 0x0D t p)
  | .engineRestart t p => some (requestOf 0x0E t p)
  | .gapRead t p => some (requestOf 0x0F t p)
  | .imageOpen t p => some (requestOf 0x10 t p)
  | .imageBlock t p => some (requestOf 0x11 t p)
  | .imageClose t p => some (requestOf 0x12 t p)
  | .imageAbort t p => some (requestOf 0x13 t p)
  | .imageList t p => some (requestOf 0x14 t p)
  | .laneInject t p => some (requestOf 0x15 t p)
  | .powerOn _ _ | .resetLineAssert | .resetLineRelease _ _ | .millisecondTick | .rawLineChange _
  | .filterConfirmExpiry | .settleExpiry | .spanHorizonExpiry | .holdupSampleExpiry _ | .responseWindowExpiry _
  | .pollIntervalExpiry _ | .restoreLimitExpiry _ | .interByteTimeoutExpiry | .storeOperationTimeoutExpiry
  | .laneReplyReceived _ _ | .groupFrameEnd _ | .flashOpComplete _ | .controlByteReceived _ | .replySent
  | .supplyLoss => none

/-- Commands executed one after another, while each answers a next state. -/
def runAll : List Instr → State → Option State
  | [], s => some s
  | i :: is, s =>
    match exec i s with
    | .next t => runAll is t
    | .fault _ => none
    | .refused _ => none

/-- Nothing differs but what the work of the lanes reaches: the lanes themselves, the jobs' progress, the block buffers,
the flash operations, the deadlines and the free values drawn. -/
def State.alikeOutsideLanes (s t : State) : Prop :=
  t.pins = s.pins ∧ t.supply = s.supply ∧ t.timebase.count = s.timebase.count ∧ t.estimator = s.estimator ∧
    t.stations = s.stations ∧ t.car = s.car ∧ t.pushA = s.pushA ∧ t.pushB = s.pushB ∧ t.settings = s.settings ∧
    t.engine.phase = s.engine.phase ∧ t.engine.pass = s.engine.pass ∧ t.engine.nextJob = s.engine.nextJob ∧
    t.engine.restored = s.engine.restored ∧ t.engine.failed = s.engine.failed ∧
    t.engine.runStart = s.engine.runStart ∧
    t.engine.queue.map (·.station) = s.engine.queue.map (·.station) ∧ t.query = s.query ∧
    t.store.imageWrite = s.store.imageWrite ∧ t.store.configSave = s.store.configSave ∧
    t.store.markList = s.store.markList ∧ t.loader = s.loader ∧ t.link = s.link ∧ t.flash = s.flash ∧
    t.pending = s.pending

/-- How a frame received answers the attempt of a transaction in flight: `unpaired` for another sequence number or
address, or a kind that does not answer the step; `malformed` where its check fails or its layout is not that of its
kind (R99, R177, log 22); else the reply. -/
def Txn.answer (t : Txn) (frame : List Byte) : Answer :=
  match readReplyFrame frame with
  | none => .malformed
  | some raw =>
    if raw.sequence = t.sequence ∧ raw.address = t.address then readAnswer t.step raw.kind raw.payload else .unpaired

/-- A frame received ends an attempt with an error: a CRC error, which a NAK other than BUSY to a POLL is too; a refusal
with BUSY; or a BLOCK acknowledgement that echoes another index or another CRC-16 than the frame's (R99, R101, R102,
R126, R177). -/
def State.endsInError (s : State) (t : Txn) (frame : List Byte) : Ending → Prop
  | .crc => t.answer frame = .malformed ∨
      (t.step = .poll ∧ ∃ reason fill, reason ≠ .busy ∧ t.answer frame = .reply (.nak reason fill))
  | .busy => ∃ fill, t.answer frame = .reply (.nak .busy fill)
  | .echo => ∃ index crc, t.answer frame = .reply (.blockAck index crc) ∧
      ¬(index = t.index ∧ crc = (s.buffer t.buffer).crc)
  | .noReply => False
  | .sequenceFault => False

/-- A command ends the attempt of a transaction in flight with an error: the expiry of its response window, with a
sequence fault where a stale reply was seen and with NO_REPLY otherwise (R100), or a reply (R99). `told` is the state
once presence has been told: a reply taken counts for presence, also where it makes an ECHO error (log 24) or is a NAK
to a POLL (log 41), and one that failed its check does not (R51). -/
def State.attemptEnds (s : State) (l : Lane) (t : Txn) (c : Instr) (e : Ending) (told : State) : Prop :=
  s.runs = true ∧ (s.lane l).txn = some t ∧ t.station.isSome = true ∧
    ((∃ (left : Timebase) (due : Time), s.dueNow (.responseWindow l) left due ∧ c = .responseWindowExpiry l ∧
        e = (if t.stale then .sequenceFault else .noReply) ∧ told = s.withTimebase left) ∨
      ∃ frame : List Byte, c = .laneReplyReceived l frame ∧ s.endsInError t frame e ∧
        told = if t.answer frame = .malformed then s else presenceReply (t.station.getD 0) s)

/-- A part that runs has the step of a job in flight on a lane, the job's station is on that lane, and a frame received
gives the step a reply (R77, R99). -/
def State.jobAnswered (s : State) (l : Lane) (frame : List Byte) (t : Txn) (j : Job) (st : Station) (r : LaneReply) :
    Prop :=
  s.runs = true ∧ (s.lane l).txn = some t ∧ t.owner = .job j.station j.id ∧ t.station = some j.station ∧
    s.job? j.station = some j ∧ s.station? j.station = some st ∧ st.entry.lane = l ∧ t.answer frame = .reply r

/-- The job of a station, as the end of a step leaves it: without the in-flight mark, if the step was its own (R77). -/
def Txn.ended (t : Txn) (j : Job) : Job := if t.owner = .job j.station j.id then { j with inFlight := false } else j

/-- A lane has become free and its driver is released, and no other lane has changed. -/
def State.laneFreed (told : State) (l : Lane) (u : State) : Prop :=
  (u.lane l).txn = none ∧ (u.lane l).driver = .released ∧ (u.lane l).seq = (told.lane l).seq ∧
    (u.lane l).abandoned = (told.lane l).abandoned ∧ ∀ k, k ≠ l → u.lane k = told.lane k

/-- A step has ended, and nothing more: its lane is free, and its job's in-flight mark is cleared (R77, R101, R103). -/
def State.stepOver (told : State) (l : Lane) (t : Txn) (u : State) : Prop :=
  told.alikeOutsideLanes u ∧ (∀ m, u.job? m = (told.job? m).map t.ended) ∧
    u.lane l = { told.lane l with txn := none, driver := .released } ∧ told.laneFreed l u ∧
    u.timebase = told.timebase.remove (.responseWindow l) ∧ u.store = told.store

/-- The step of a job has ended, and the job goes on with another record: the lane is free, and the other lane, every
other job and all that the lanes do not reach are as they were (R51, R77, R99). -/
def State.jobGoesOn (told : State) (l : Lane) (j : Job) (u : State) : Prop :=
  told.alikeOutsideLanes u ∧ u.job? j.station = some { j with inFlight := false } ∧
    (∀ m, m ≠ j.station → u.job? m = told.job? m) ∧ told.laneFreed l u ∧
    u.timebase = told.timebase.remove (.responseWindow l)

/-- A station's job is no part of its lane's load holder. -/
def State.outOfHolder (l : Lane) (n : Nat) (u : State) : Prop := ∀ h, (u.lane l).holder = some h → n ∉ h.stations

/-- The records of the slots and the list of the slots to be marked stay (8.3, R142). -/
def State.recordsStay (s u : State) : Prop := u.store.slots = s.store.slots ∧ u.store.markList = s.store.markList

/-- The departure of the jobs of some stations leaves the queue of an ACTIVE Engine empty, and so ends its run (R76). -/
def State.endsRun (s : State) (gone : List Nat) : Bool :=
  s.engine.phase = .active && s.engine.queue.all fun j => gone.contains j.station

/-- The departure of some jobs, after which the counters stand at given values: where it ends the run, PASS COMPLETE is
posted after all other notices (R76, R88, R89). -/
def State.runEnded (s : State) (gone : List Nat) (restored failed : Nat) (x : State) : State :=
  if s.endsRun gone then
    postNotice
      (.passComplete s.engine.pass restored failed (min 65535 (s.timebase.count - s.engine.runStart).toNat)) x
  else x

/-- Jobs have left the queue, the others as they were and in their order: the pass, the run and the numbers of jobs
stay, and the Engine is IDLE where the run has ended; nothing else has changed that jobs do not share (R76, R88, R89). -/
def State.jobsLeft (told : State) (gone : List Nat) (u : State) : Prop :=
  (∀ n ∈ gone, u.hasJob n = false) ∧
    u.engine.queue.map (·.station) = (told.engine.queue.map (·.station)).filter (fun n => !gone.contains n) ∧
    u.engine.phase = (if told.endsRun gone then .idle else told.engine.phase) ∧
    u.engine.pass = told.engine.pass ∧ u.engine.nextJob = told.engine.nextJob ∧
    u.engine.runStart = told.engine.runStart ∧ (∀ m, m ∉ gone → u.station? m = told.station? m) ∧
    u.timebase.count = told.timebase.count ∧ (∀ n ∈ gone, u.timebase.dueOf (.restoreLimit n) = none) ∧
    u.car = told.car ∧ u.pushA = told.pushA ∧ u.pushB = told.pushB ∧ u.supply = told.supply ∧
    u.settings = told.settings ∧ u.estimator = told.estimator ∧ u.query = told.query ∧ u.loader = told.loader ∧
    u.store.imageWrite = told.store.imageWrite ∧ u.store.configSave = told.store.configSave ∧ u.flash = told.flash

/-- The job whose step has ended has left the queue, its restore limit removed, its part in its lane's holder ended, and
every other job as it was (R88, R89). -/
def State.jobLeft (told : State) (l : Lane) (n : Nat) (u : State) : Prop :=
  told.jobsLeft [n] u ∧ (∀ m, m ≠ n → u.job? m = told.job? m) ∧ u.outOfHolder l n ∧ told.laneFreed l u ∧
    u.timebase = (told.timebase.remove (.responseWindow l)).remove (.restoreLimit n)

/-- The job whose step has ended completes: its station is READY, and NODE RESTORED follows its presence (R88). -/
def State.jobCompletes (told : State) (l : Lane) (j : Job) (outcome : RestoreOutcome) (result : PredictionResult)
    (u : State) : Prop :=
  let posted :=
    told.runEnded [j.station] (told.engine.restored + 1) told.engine.failed
      (postNotice (.nodeRestored j.station (j.pass.getD 0) outcome result j.blocksSent)
        (setPresence j.station .ready told))
  told.jobLeft l j.station u ∧ u.stations = (setPresence j.station .ready told).stations ∧
    (u.station? j.station).map (·.presence) = some .ready ∧ u.engine.restored = told.engine.restored + 1 ∧
    u.engine.failed = told.engine.failed ∧ u.link = posted.link ∧ u.pins = posted.pins ∧ told.recordsStay u

/-- NODE FAILED follows the presence of each of some jobs that fail for a reason, in their order (R89). -/
def State.failuresPosted (told : State) (reason : Reason) (jobs : List Job) : State :=
  jobs.foldl
    (fun x j => postNotice (.nodeFailed j.station (j.pass.getD 0) reason j.state) (setPresence j.station .absent x)) told

/-- The job whose step has ended fails, in the state it held: its station is ABSENT, and NODE FAILED follows its presence
(R89). -/
def State.jobFails (told : State) (l : Lane) (j : Job) (reason : Reason) (u : State) : Prop :=
  let posted :=
    told.runEnded [j.station] told.engine.restored (told.engine.failed + 1) (told.failuresPosted reason [j])
  told.jobLeft l j.station u ∧ u.stations = (setPresence j.station .absent told).stations ∧
    (u.station? j.station).map (·.presence) = some .absent ∧ u.engine.failed = told.engine.failed + 1 ∧
    u.engine.restored = told.engine.restored ∧ u.link = posted.link ∧ u.pins = posted.pins

/-- A job of an origin has been created in LINE for a station that had none: with prediction NONE, in PROBE, with the
pass number and its restore limit armed; its station has no push entry and no pending poll; every other job, push entry
and deadline is as it was; and in IDLE a run has begun (R64, R72, R76, R87, R90, R113). -/
def State.jobCreated (told : State) (n : Nat) (origin : Origin) (u : State) : Prop :=
  (∃ j, u.job? n = some j ∧ j.origin = origin ∧ j.prediction = .none ∧ j.state = .probe ∧ j.inFlight = false ∧
      j.pass = some told.engine.pass) ∧
    (∀ m, m ≠ n → u.job? m = told.job? m) ∧
    u.timebase.dueOf (.restoreLimit n) = some (told.timebase.count + ms told.settings.restoreLimit) ∧
    (∀ p, p ≠ .restoreLimit n → (∀ l, p ≠ .responseWindow l) → u.timebase.dueOf p = told.timebase.dueOf p) ∧
    u.push? n = none ∧ (∀ m, m ≠ n → u.push? m = told.push? m) ∧ (∀ l, (u.lane l).pendingPoll ≠ some n) ∧
    u.engine.pass = told.engine.pass ∧
    (told.engine.phase = .idle →
      u.engine.phase = .active ∧ u.engine.restored = 0 ∧ u.engine.failed = 0 ∧
        u.engine.runStart = told.timebase.count) ∧
    (told.engine.phase ≠ .idle →
      u.engine.phase = told.engine.phase ∧ u.engine.restored = told.engine.restored ∧
        u.engine.failed = told.engine.failed ∧ u.engine.runStart = told.engine.runStart)

/-- The step of a poll, a push or the NODE QUERY has ended: its lane is free, and what neither the Engine nor the stations
nor the link shares is as it was. -/
def State.outcomeTold (told : State) (l : Lane) (u : State) : Prop :=
  (u.lane l).txn = none ∧ (u.lane l).driver = .released ∧ (u.lane l).seq = (told.lane l).seq ∧
    (u.lane l).abandoned = (told.lane l).abandoned ∧ u.timebase.dueOf (.responseWindow l) = none ∧
    u.timebase.count = told.timebase.count ∧ u.supply = told.supply ∧ u.car = told.car ∧
    u.settings = told.settings ∧ u.estimator = told.estimator ∧ u.store = told.store ∧ u.park = told.park ∧
    u.loader = told.loader ∧ u.flash = told.flash ∧ u.pending = told.pending

/-- A station is defined, and is on a lane. -/
def State.onLane (s : State) (l : Lane) (n : Nat) : Bool := (s.station? n).any fun st => st.entry.lane = l

/-- A job of a lane waits in LOADWAIT for its lane to select it (R119). -/
def State.waits (s : State) (l : Lane) (j : Job) : Prop := j.state = .loadwait ∧ s.onLane l j.station = true

/-- A job's step is an eligible other step of a lane: the job is in PROBE, START or REPLAY with its in-flight mark clear
(R106). -/
def State.eligible (s : State) (l : Lane) (j : Job) : Prop :=
  j.inFlight = false ∧ (j.state = .probe ∨ j.state = .start ∨ j.state = .replay) ∧ s.onLane l j.station = true

/-- The first job of the queue that has a property, in queue order. -/
def State.firstJob (s : State) (p : Job → Prop) (j : Job) : Prop :=
  p j ∧ ∃ before rest, s.engine.queue = before ++ j :: rest ∧ ∀ x ∈ before, ¬p x

/-- The job of the first of some stations whose job has a property and its in-flight mark clear (R131, R132). -/
def State.firstOf (s : State) (members : List Nat) (p : Job → Prop) (j : Job) : Prop :=
  p j ∧ j.inFlight = false ∧ ∃ before n rest, members = before ++ n :: rest ∧ s.job? n = some j ∧
    ∀ m ∈ before, ∀ k, s.job? m = some k → p k → k.inFlight = true

/-- The next index of a lane's load holder, with a station of it: the fill mark of a job alone in LOAD, 0 in OPEN, and
the group count of a group with a member in OPEN or LOAD (R134). -/
def State.nextIndex (s : State) (l : Lane) (n next : Nat) : Prop :=
  ((s.lane l).holder = some (.single n) ∧
      ∃ j, s.job? n = some j ∧ ((j.state = .opn ∧ next = 0) ∨ (j.state = .load ∧ next = j.fill))) ∨
    ∃ others round, (s.lane l).holder = some (.group (n :: others) next round) ∧
      ∃ m ∈ n :: others, ∃ j, s.job? m = some j ∧ (j.state = .opn ∨ j.state = .load)

/-- A block of a slot is a needed block of a lane's holder: that of the next index or of the index after it, below the
slot's image length (R134). -/
def State.needs (s : State) (l : Lane) (slot block : Nat) : Prop :=
  ∃ n next, s.nextIndex l n next ∧ slot = s.slotOf n ∧ (block = next ∨ block = next + 1) ∧ block < s.lengthOf n

/-- A needed block that no buffer of the lane holds (R134; that a buffer given back holds none is log 44). -/
def State.misses (s : State) (l : Lane) (slot block : Nat) : Prop :=
  s.needs l slot block ∧ ∀ i ∈ s.heldBy l, ¬((s.buffer i).slot = slot ∧ (s.buffer i).block = block)

/-- A buffer that a lane has been granted: it is FILLING with a block of a slot, and the READ of that block is queued
(R134, R143). -/
def Buffer.fillingFor (l : Lane) (slot block : Nat) : Buffer :=
  { owner := some (.lane l), slot := slot, block := block, state := .filling, crc := 0, data := [], released := false }

/-- The READ of a block that fills a lane's buffer; block 0 of a slot's region holds the header (R134, R141). -/
def FlashOp.fills (l : Lane) (i slot block : Nat) : FlashOp :=
  { command := .read slot (block + 1), who := .lane l i }

/-- The park writer's buffer and PROGRAM of page 1, the first 256 bytes of the park image (R169). -/
def State.parkPage1 (s : State) : Buffer × FlashOp :=
  let page := s.park.image.take 256
  ({ owner := some .parkWriter, slot := 0, block := 256, state := .programming, crc := crc16 page, data := page
     released := false },
    { command := .program 0 256 page, who := .parkWriter })

/-- A lane has ended its load and its requests: it owns only buffers that it has released and that are still FILLING, each
as it was but for that, and asks for none (R92, R116, R117, R136). -/
def State.lanesGaveBack (s t : State) : Prop :=
  ∀ l, (∀ i ∈ t.ownedBy (.lane l), (t.buffer i).released = true) ∧
    (∀ i ∈ s.heldBy l, i < s.store.buffers.length →
      ((s.buffer i).state = .filling → t.buffer i = { s.buffer i with released := true }) ∧
      ((s.buffer i).state ≠ .filling → (t.buffer i).owner ≠ some (.lane l))) ∧
    ∀ r ∈ t.store.waitList, r.who ≠ .lane l

/-! ### Refused requests -/

/-- A check of a request: when it fails, the status that refuses the request, and what the reply then gives beside it. -/
structure Check where
  fails : Prop
  status : Status
  more : List Byte

/-- A request is refused, at once and with no other effect than its reply. -/
def State.refuses (s : State) (i : Instr) (status : Status) (more : List Byte) : Prop :=
  ∃ r, requestOfCommand i = some r ∧ exec i s = .next (s.replying r.kind r.tag status more)

/-- The first of some checks that a request fails refuses it, in their order. -/
def State.checksInOrder (s : State) (i : Instr) : List Check → Prop
  | [] => True
  | c :: rest => (c.fails → s.refuses i c.status c.more) ∧ (¬c.fails → s.checksInOrder i rest)

/-- The setting or field codes of a list of pairs in a payload: one is above the greatest, or two are the same (R55, R165). -/
def codesWrong (n greatest : Nat) (code : Nat → Nat) : Prop :=
  (∃ k, k < n ∧ greatest < code k) ∨ ∃ j k, j < k ∧ k < n ∧ code j = code k

/-- A buffer that a lane holds is FULL with a block of a slot (R106). -/
def State.fullWith (s : State) (l : Lane) (slot block i : Nat) : Prop :=
  i ∈ s.heldBy l ∧ (s.buffer i).state = .full ∧ (s.buffer i).slot = slot ∧ (s.buffer i).block = block

/-- A lane's transaction in flight is a BLOCK that counts for the job of a station: the job's own, or a group's of which the
job, in LOAD, is a member (R125, R130). -/
def State.blockCounts (s : State) (l : Lane) (n : Nat) (state : JobState) : Bool :=
  (s.lane l).txn.any fun x => decide (x.step = .block) &&
    match x.owner, (s.lane l).holder with
    | .job m _, _ => decide (m = n)
    | .group, some (.group members _ _) => decide (state = .load) && members.contains n
    | _, _ => false

/-- A job has become another by the work of the lanes, which changes nothing of it but its state, its in-flight mark, its
retries used and its blocks sent (R77, R79, R125). -/
def Job.workedOn (j x : Job) : Prop :=
  x = { j with state := x.state, inFlight := x.inFlight, retriesUsed := x.retriesUsed, blocksSent := x.blocksSent }

/-- What a cold start of some cause leaves, with the levels of LINEP and BAUDSEL at its moment: every block at its
cold start values, the Supply Watch's deadlines in their order, the loader's STATUS running, and the flash memory
as it was (R17, R28, R43, R59, R66, R68, R118, R153, R154, R167, R171). -/
def ColdStarted (cause : Cause) (line : LineLevel) (baudHigh : Bool) (s t : State) : Prop :=
  t.pins = { powered := true, rstnLow := false, baudHigh := baudHigh, attn := false } ∧
  t.supply =
    { raw := line
      candidate := match line with
        | .absent => some { level := .absent, rawTime := 0 }
        | .present => none
      confirmed := .present, state := .settle, horizonMark := false, holdup := none, heldRise := false
      lastFall := none, openGap := none, lastGap := none } ∧
  t.timebase =
    { count := 0
      deadlines := match line with
        | .absent =>
          [⟨.filterConfirm, 2, 1⟩, ⟨.holdupSample, 2, 4⟩, ⟨.settle, 150, 2⟩, ⟨.spanHorizon, 65535, 3⟩]
        | .present => [⟨.holdupSample, 2, 3⟩, ⟨.settle, 150, 1⟩, ⟨.spanHorizon, 65535, 2⟩] } ∧
  t.estimator = { lastRise := 0, lastFall := none } ∧ t.stations = [] ∧
  t.car = { motion := .moving, side := .none } ∧ t.pushA = [] ∧ t.pushB = [] ∧ t.settings = Settings.default ∧
  t.engine.phase = .held ∧ t.engine.pass = 0 ∧ t.engine.queue = [] ∧
  t.laneA = LaneState.cold ∧ t.laneB = LaneState.cold ∧ t.query = none ∧
  t.store =
    { slots := List.replicate 15 .empty, buffers := List.replicate 4 Buffer.unowned, waitList := [], queue := []
      running := some { command := .status, who := .loader }, chipSelect := .inUse, imageWrite := none
      configSave := none, markList := [], prepared := false } ∧
  t.park.phase = .none ∧
  t.loader =
    { step := .status, configFinding := .blank, parkFinding := .blank, cause := cause, held := [], nextSlot := 1 } ∧
  t.link =
    { rateHigh := baudHigh, receiver := .idle, held := [], reply := none, notices := [], nextNumber := 0
      lastFetched := none, overrun := false, linkFault := false, noticeOverflow := false } ∧
  t.flash.cells = s.flash.cells

/-- The bytes that a flash operation can change: those of its block or of its sector (R137). -/
def FlashOp.reaches (op : FlashOp) (a : Nat) : Prop :=
  match op.command with
  | .program region block _ => blockAddress region block ≤ a ∧ a < blockAddress region block + 256
  | .erase region sector => sectorAddress region sector ≤ a ∧ a < sectorAddress region sector + sectorSize
  | .read _ _ => False
  | .status => False

/-- The device is ready: an operation that it was left with has ended, and has changed no byte but those that it could
reach; what it leaves of those is open (R137, R140, log 9). -/
def State.deviceReady (s u : State) : Prop :=
  u = { s with flash := u.flash, free := u.free } ∧ u.flash.busy = none ∧ u.flash.torn = s.flash.torn ∧
    (s.flash.busy = none → u = s) ∧
    (s.flashCanonical → ∀ a, (∀ x, s.flash.busy = some x → ¬x.op.reaches a) →
      Memory.read u.flash.cells a = Memory.read s.flash.cells a)

end Sys2Proof.Machine
end

