-- ==== Sys2Proof/Certificates/Slice0/Obligations.lean ====
section
/-! DEFINITION. The statements about the model: the queue of commands, the conditions that every step keeps, the
records and frames that are read back as they were written, and what each command does. Where a statement cites no
rule, it rests on a choice of the model, which its docstring names. -/

open Sys2Proof Sys2Proof.Machine

/-! ### Steps and conditions -/

/-- A step takes the command at the front of the queue; with none waiting the part idles, which is the model's
choice (log 1). -/
def Obligations.StepTakesFront : Prop :=
  (∀ (c : Instr) (rest : List Instr) (s : State), step (s.withPending (c :: rest)) = exec c (s.withPending rest)) ∧
    ∀ s : State, s.pending = [] → step s = .next s

/-- Every command completes in every state, and leaves the queue of waiting commands as it is: the manual gives
every command an effect, and no effect stops the part. That an expiry that is not due, or a command whose event cannot
take place, completes with no effect is the model's choice (log 2), and so is that a part that does not run lets every
command but power and the reset line pass (log 5). -/
def Obligations.EveryCommandCompletes : Prop :=
  ∀ (i : Instr) (s : State), ∃ t : State, exec i s = .next t ∧ t.pending = s.pending

/-- Every step keeps the flash memory in its canonical form. -/
def Obligations.FlashStaysCanonical : Prop :=
  ∀ s t : State, s.flashCanonical → step s = .next t → t.flashCanonical

/-- Every step keeps the attention line following the notice queue, the queue within 16 notices (R164, R161), and
the held requests within two (R156). -/
def Obligations.AttentionFollowsQueue : Prop :=
  ∀ s t : State, s.attentionFollows ∧ s.holdingBounded → step s = .next t → t.attentionFollows ∧ t.holdingBounded

/-- Every step keeps at most one deadline for each identity (R22), at most one job for any station and no push entry for a
station with a job (R71, R64), and the stations in station order; the deadline list in the order of remaining time and of
insertion (R23, R25; how long an entry already due has left is the model's choice, log 40); no load holder naming a station
twice (R119); the queue in class order, of jobs of defined stations, and empty until loading has ended (R71); and 15 slot
records, 4 buffers, no lane owning more than two of them (R134), and none that is FREE owned (R143, R144); and the wait list
with at most one request for each requester, the park writer's at its head, for no more buffers than it can ask for (R143).
-/
def Obligations.IdentitiesStayDistinct : Prop :=
  (∀ s t : State, s.deadlinesDistinct ∧ s.queueDistinct ∧ s.stationsOrdered → step s = .next t →
    t.deadlinesDistinct ∧ t.queueDistinct ∧ t.stationsOrdered) ∧
    (∀ s t : State, s.deadlinesOrdered → step s = .next t → t.deadlinesOrdered) ∧
    (∀ s t : State, s.queueDistinct → s.holdersDistinct → step s = .next t → t.holdersDistinct) ∧
    (∀ s t : State, s.lanesSilent → s.queueOrdered → step s = .next t → t.queueOrdered) ∧
    (∀ s t : State, s.storeBounded → step s = .next t → t.storeBounded) ∧
    ∀ s t : State, s.waitListSound → step s = .next t → t.waitListSound

/-- Every step keeps every station sound: its entry in range, the Estimator's bounds (R30), the epoch in 1..65535 (R54),
the fields in range and the derived release equal to what a frame begun now would carry (R60); every setting within its
range, with the enable for STARTED on (R162, R165); and the directory sound: the stations in station order, capacity times
ratio at most 65,535, a side exactly for an entrance unit, only fields of the station's kind, a leaf state of the six for
an entrance unit or none, distinct aliases and lane-and-address pairs, and at most 16 stations a lane (R46, R47, R53,
R58). -/
def Obligations.StationsAndSettingsStaySound : Prop :=
  (∀ s t : State, s.stationsSound → step s = .next t → t.stationsSound) ∧
    (∀ s t : State, s.settingsSound → step s = .next t → t.settingsSound) ∧
    ∀ s t : State, s.directorySound → step s = .next t → t.directorySound

/-- Every step keeps the lanes silent outside LINE and until loading has ended: no transaction is in flight, and no lane
has a load holder (R97, R116, R118, R138). And every step keeps each lane's driver enable in use exactly while a frame that
was put on the lane is in flight, and the flash chip select exactly while an operation runs (6.1, 8.1, R98, R115, R116, R138,
R171; that these pins are held by the work they serve, and not by its characters, is the model's choice, log 33). -/
def Obligations.LanesStaySilent : Prop :=
  (∀ s t : State, s.lanesSilent → step s = .next t → t.lanesSilent) ∧
    ∀ s t : State, s.outputsFollow → step s = .next t → t.outputsFollow

/-- The state right after reset, which is the model's choice of a cold start (log 4, log 38), meets every condition that steps
keep. -/
def Obligations.ResetIsSound : Prop :=
  State.reset.flashCanonical ∧ State.reset.attentionFollows ∧ State.reset.holdingBounded ∧
    State.reset.deadlinesDistinct ∧ State.reset.queueDistinct ∧ State.reset.stationsOrdered ∧
    State.reset.deadlinesOrdered ∧ State.reset.holdersDistinct ∧ State.reset.queueOrdered ∧
    State.reset.storeBounded ∧ State.reset.waitListSound ∧ State.reset.stationsSound ∧ State.reset.settingsSound ∧
    State.reset.directorySound ∧ State.reset.lanesSilent ∧ State.reset.outputsFollow

/-! ### Power and the reset line -/

/-- The rise of VDD with RSTN high and RSTN returning high while VDD is present are cold starts of causes POWER and
RESET_LINE, and a rise confirmed in PARKED, and the end of a park write by completion or failure with the held-rise mark
set, are cold starts of cause PARK_RETURN (R15, R170, R171). That POWER_ON on a powered part counts as a rise of VDD, that
LINEP is then as last seen, and that the level of BAUDSEL at a return from park is open, are the model's choices (log 6);
so are the loader's held bytes and next slot (log 38). -/
def Obligations.ColdStartsByCause : Prop :=
  (∀ (line : LineLevel) (baudHigh : Bool) (s : State),
    (s.pins.rstnLow = false →
      ∃ t : State, exec (.powerOn line baudHigh) s = .next t ∧ ColdStarted .power line baudHigh s t) ∧
    (s.pins.rstnLow = true → s.pins.powered = true →
      ∃ t : State, exec (.resetLineRelease line baudHigh) s = .next t ∧ ColdStarted .resetLine line baudHigh s t)) ∧
  (∀ (s : State) (left : Timebase) (due raw : Time), s.dueNow .filterConfirm left due → s.supply.state = .parked →
    s.supply.candidate = some { level := .present, rawTime := raw } →
    ∃ (baudHigh : Bool) (t : State), exec .filterConfirmExpiry s = .next t ∧
      ColdStarted .parkReturn s.supply.raw baudHigh s t) ∧
  ∀ (s : State) (block : Nat) (page : List Byte), s.runs = true → s.supply.state = .parking →
    s.supply.heldRise = true →
    s.store.running = some { command := .program 0 block page, who := .parkWriter } →
    (s.park.phase = .page2 →
      ∃ (baudHigh : Bool) (t : State), exec (.flashOpComplete none) s = .next t ∧
        ColdStarted .parkReturn s.supply.raw baudHigh { s with flash := s.flash.program 0 block page } t) ∧
    ∀ (left : Timebase) (due : Time), s.dueNow .storeOperation left due →
      ∃ (baudHigh : Bool) (t : State), exec .storeOperationTimeoutExpiry s = .next t ∧
        ColdStarted .parkReturn s.supply.raw baudHigh s t

/-- RSTN going low, and the loss of the supply, stop the part: ATTN is released, the lanes are silent, neither lane driver
enable nor the flash chip select is driven, also where VDD rises with RSTN low, and no byte of the flash changes but those
of the operation that a supply loss cuts off. Then only power and the reset line act (R171; that a loss in any supply state
stops the part at once is the model's choice, log 7, and so is that the other commands have no effect, log 5). -/
def Obligations.StoppedPart : Prop :=
  (∀ s : State, s.pins.rstnLow = false →
    ∃ t : State, exec .resetLineAssert s = .next t ∧ t.runs = false ∧
      t.pins = { powered := s.pins.powered, rstnLow := true, baudHigh := s.pins.baudHigh, attn := false } ∧
      t.laneA.txn = none ∧ t.laneB.txn = none ∧ t.store.running = none ∧ t.drivesNothing ∧ t.engine.queue = [] ∧
      t.flash.cells = s.flash.cells) ∧
  (∀ (s : State) (line : LineLevel) (baudHigh : Bool), s.pins.rstnLow = true →
    ∃ t : State, exec (.powerOn line baudHigh) s = .next t ∧ t.runs = false ∧
      t.pins = { powered := true, rstnLow := true, baudHigh := baudHigh, attn := false } ∧ t.drivesNothing ∧
      t.flash.cells = s.flash.cells) ∧
  (∀ s : State, s.flashCanonical →
    ∃ t : State, exec .supplyLoss s = .next t ∧ t.runs = false ∧ t.pins.powered = false ∧ t.pins.attn = false ∧
      t.pins.rstnLow = s.pins.rstnLow ∧ t.laneA.txn = none ∧ t.laneB.txn = none ∧ t.drivesNothing ∧
      ∀ a, (∀ op, s.store.running = some op ∨ s.flash.busy.map (·.op) = some op → ¬op.reaches a) →
        Memory.read t.flash.cells a = Memory.read s.flash.cells a) ∧
  ∀ (i : Instr) (s : State), s.runs = false →
    (∀ l b, i ≠ .powerOn l b) → i ≠ .resetLineAssert → (∀ l b, i ≠ .resetLineRelease l b) → i ≠ .supplyLoss →
    exec i s = .next s

/-! ### The Timebase -/

/-- A time is due when the count minus it is less than 2^31 modulo 2^32; otherwise it is ahead, by the difference
modulo 2^32. -/
def Obligations.DueWithinHalfTheCount : Prop :=
  ∀ count x : Time,
    (isDue count x = true ↔ (count.toNat + 4294967296 - x.toNat) % 4294967296 < 2147483648) ∧
    (isDue count x = false → remaining count x = (((x.toNat + 4294967296 - count.toNat) % 4294967296 : Nat) : Int))

/-- Setting an entry replaces the one of its identity and leaves every other; removing an entry leaves every other, and
removing one that is not there changes nothing (R23, R24). -/
def Obligations.DeadlinesByIdentity : Prop :=
  ∀ (t : Timebase) (p q : Purpose) (due : Time),
    (t.set p due).dueOf p = some due ∧ (t.remove p).dueOf p = none ∧
    (q ≠ p → (t.set p due).dueOf q = t.dueOf q ∧ (t.remove p).dueOf q = t.dueOf q) ∧
    (t.dueOf p = none → t.remove p = t) ∧ (t.set p due).count = t.count ∧
    ∀ e ∈ (t.set p due).deadlines, e.purpose ≠ p → e.position < nextPosition (withoutPurpose p t.deadlines)

/-- One millisecond advances the count, from 2^32 - 1 to 0, and changes nothing else (R20; that a millisecond does no more
than count is the model's choice, log 1). While the entry at the head of the list is due, its expiry is what comes next,
and no millisecond passes before it (R25; that the tick is then without effect is the model's choice, log 1). The expiry of
the span horizon sets the horizon mark, and changes nothing else (R8, R27). -/
def Obligations.TickAndHorizon : Prop :=
  (∀ s : State, s.runs = true →
    (s.timebase.expiryDue = false →
      ∃ n : Time, n.toNat = (s.timebase.count.toNat + 1) % 4294967296 ∧
        exec .millisecondTick s = .next (s.withTimebase { s.timebase with count := n })) ∧
    (s.timebase.expiryDue = true → exec .millisecondTick s = .next s)) ∧
  (∀ t : Timebase, t.expiryDue = true ↔ ∃ (p : Purpose) (left : Timebase) (due : Time), t.expire p = some (left, due)) ∧
  ∀ (s : State) (left : Timebase) (due : Time), s.dueNow .spanHorizon left due →
    exec .spanHorizonExpiry s = .next { s with timebase := left, supply := { s.supply with horizonMark := true } }

/-! ### The Supply Watch -/

/-- A raw change away from the confirmed level begins a candidate with the raw time of the change and the filter
deadline of its direction; a raw change back to the confirmed level discards the candidate and its deadline, and
nothing else happens; a filter length is 1..15 ms, default 2, for a fall and 1..255 ms, default 10, for a rise. -/
def Obligations.RawChangeFiltered : Prop :=
  (∀ (level : LineLevel) (s : State), s.runs = true → level ≠ s.supply.raw →
    (level ≠ s.supply.confirmed →
      exec (.rawLineChange level) s =
        .next
          { s with
            supply := { s.supply with raw := level, candidate := some { level := level, rawTime := s.timebase.count } }
            timebase := s.timebase.set .filterConfirm (s.timebase.count + ms (filterLength level s)) }) ∧
    (level = s.supply.confirmed →
      exec (.rawLineChange level) s =
        .next
          { s with
            supply := { s.supply with raw := level, candidate := none }
            timebase := s.timebase.remove .filterConfirm })) ∧
  (∀ s : State, s.loadingEnded = true →
    filterLength .absent s = s.settings.fallFilter ∧ filterLength .present s = s.settings.riseFilter) ∧
  (∀ s : State, s.loadingEnded = false → filterLength .absent s = 2 ∧ filterLength .present s = 10) ∧
  Settings.default.fallFilter = 2 ∧ Settings.default.riseFilter = 10 ∧
  ∀ (x y : Settings) (v : Nat),
    (x.put 0 v = some y → 1 ≤ y.fallFilter ∧ y.fallFilter ≤ 15) ∧
      (x.put 1 v = some y → 1 ≤ y.riseFilter ∧ y.riseFilter ≤ 255)

/-- A fall confirmed in LINE, and one confirmed in the SETTLE of a cold start, where no gap is open, open a gap: the record,
the Estimator's refill with the overdraw cleared, the Engine HELD with every job in PROBE, the lanes' work abandoned with
their drivers released, their buffers released and their requests for buffers withdrawn, the notices, and the deadlines (R4,
R5, R8, R10, R33, R92, R114, R116, R136; that QUERY RESULT comes before GAP BEGUN is the model's order, log 13). From LINE
the holdup sample falls due 2 ms later; from SETTLE it keeps its schedule, and the settle deadline is removed (R5, R10; the
latter is the model's reading, log 12). How a lane knows a late reply of the work that it abandoned is the model's choice
(log 47). -/
def Obligations.FallOpensGap : Prop :=
  ∀ (s : State) (left : Timebase) (due raw : Time), s.dueNow .filterConfirm left due →
    (s.supply.state = .line ∨ (s.supply.state = .settle ∧ s.supply.openGap = none)) →
    s.supply.candidate = some { level := .absent, rawTime := raw } →
    ∃ t : State, exec .filterConfirmExpiry s = .next t ∧
      t.supply =
        { s.supply with
          confirmed := .absent, candidate := none, state := .gap, horizonMark := false, lastFall := some raw
          openGap :=
            some
              { start := raw, endTime := none, dark := 0, rebounds := 0, holdupAtStart := s.supply.holdup
                minHoldup := s.supply.holdup } } ∧
      t.stations =
        s.stations.map (Station.atFall true (spanOf s.supply.horizonMark raw s.estimator.lastRise)) ∧
      t.estimator = { s.estimator with lastFall := some raw } ∧
      t.engine = { s.engine with phase := .held, queue := s.engine.queue.map Job.atGap } ∧
      t.laneA =
        { s.laneA with
          txn := none, driver := .released, holder := none, pendingPoll := none
          abandoned := s.laneA.abandonedFrames } ∧
      t.laneB =
        { s.laneB with
          txn := none, driver := .released, holder := none, pendingPoll := none
          abandoned := s.laneB.abandonedFrames } ∧
      t.query = none ∧ s.lanesGaveBack t ∧
      (let posted := postNotice (.gapBegun raw s.supply.holdup)
        (match s.query with
          | none => s
          | some n => postNotice (.queryUnreachable n) s)
      t.link = posted.link ∧ t.pins = posted.pins) ∧
      t.timebase.count = s.timebase.count ∧
      t.timebase.dueOf .holdupSample =
        (if s.supply.state = .line then some (s.timebase.count + 2) else left.dueOf .holdupSample) ∧
      t.timebase.dueOf .settle = (if s.supply.state = .line then left.dueOf .settle else none) ∧
      t.timebase.dueOf .spanHorizon = some (raw + 65535) ∧
      (∀ l, t.timebase.dueOf (.responseWindow l) = none) ∧ (∀ n, t.timebase.dueOf (.restoreLimit n) = none) ∧
      (∀ p, p ≠ .holdupSample → p ≠ .settle → p ≠ .spanHorizon → (∀ l, p ≠ .responseWindow l) → (∀ n, p ≠ .restoreLimit n) →
        t.timebase.dueOf p = left.dueOf p) ∧
      t.car = s.car ∧ t.pushA = s.pushA ∧ t.pushB = s.pushB ∧ t.settings = s.settings ∧ t.loader = s.loader ∧
      t.flash = s.flash ∧ t.store.slots = s.store.slots ∧ t.store.running = s.store.running ∧
      t.store.chipSelect = s.store.chipSelect ∧
      t.store.imageWrite = s.store.imageWrite ∧ t.store.configSave = s.store.configSave ∧
      t.store.markList = s.store.markList ∧ t.store.prepared = s.store.prepared

/-- A fall confirmed in SETTLE with a gap open is a rebound, and a rise confirmed in GAP starts the settle window; both
reach the Supply Watch, the Estimator and the deadlines, and nothing else changes (R5, R6, R8, R31). -/
def Obligations.EdgesWithinAGap : Prop :=
  ∀ (s : State) (left : Timebase) (due raw : Time) (g : GapRecord), s.dueNow .filterConfirm left due →
    s.supply.openGap = some g →
    (s.supply.state = .settle → s.supply.candidate = some { level := .absent, rawTime := raw } →
      ∃ tb : Timebase,
        exec .filterConfirmExpiry s =
          .next
            { s with
              timebase := tb
              supply :=
                { s.supply with
                  confirmed := .absent, candidate := none, state := .gap, horizonMark := false, lastFall := some raw
                  openGap := some { g with endTime := none, rebounds := min 255 (g.rebounds + 1) } }
              stations :=
                s.stations.map (Station.atFall false (spanOf s.supply.horizonMark raw s.estimator.lastRise))
              estimator := { s.estimator with lastFall := some raw } } ∧
        tb.count = s.timebase.count ∧ tb.dueOf .settle = none ∧ tb.dueOf .spanHorizon = some (raw + 65535) ∧
        ∀ p, p ≠ .settle → p ≠ .spanHorizon → tb.dueOf p = left.dueOf p) ∧
    (∀ f lf : Time, s.supply.state = .gap → s.supply.candidate = some { level := .present, rawTime := raw } →
      s.supply.lastFall = some f → s.estimator.lastFall = some lf →
      ∃ tb : Timebase,
        exec .filterConfirmExpiry s =
          .next
            { s with
              timebase := tb
              supply :=
                { s.supply with
                  confirmed := .present, candidate := none, state := .settle, horizonMark := false
                  openGap :=
                    some { g with endTime := some raw, dark := min 4294967295 (g.dark + (raw - f).toNat) } }
              stations := s.stations.map (Station.atRise (spanOf s.supply.horizonMark raw lf))
              estimator := { s.estimator with lastRise := raw } } ∧
        tb.count = s.timebase.count ∧ tb.dueOf .settle = some (raw + ms s.settings.settleWindow) ∧
        tb.dueOf .spanHorizon = some (raw + 65535) ∧
        ∀ p, p ≠ .settle → p ≠ .spanHorizon → tb.dueOf p = left.dueOf p)

/-- A rise confirmed in PARKING sets the held-rise mark and a fall clears it; the confirmed level follows, the park
write goes on, and nothing else changes. -/
def Obligations.EdgesInParking : Prop :=
  ∀ (s : State) (left : Timebase) (due raw : Time) (level : LineLevel), s.dueNow .filterConfirm left due →
    s.supply.state = .parking → s.supply.candidate = some { level := level, rawTime := raw } →
    exec .filterConfirmExpiry s =
      .next
        { s with
          timebase := left
          supply :=
            { s.supply with confirmed := level, candidate := none, heldRise := decide (level = .present) } }

/-- The settle expiry ends SETTLE. Once loading has ended: LINE; an open gap's record kept as the last one and GAP ENDED
posted; PASS STARTED posted and a pass built, the first since the cold start with COLD jobs and every other with GAP jobs,
each with its station's prediction; the holdup sample due 64 ms later; and, for a pass with no station and no job carried,
PASS COMPLETE at once. Before loading has ended: LINE, no notice, no pass, and the sample due 64 ms later (R7, R10, R16,
R73 to R75). -/
def Obligations.SettleExpiryEndsSettle : Prop :=
  (∀ (s : State) (left : Timebase) (due : Time), s.dueNow .settle left due → s.supply.state = .settle →
    s.loadingEnded = true → s.stationsSound →
    let closed := match s.supply.openGap with
      | none => s
      | some g => postNotice (.gapEnded g.start g.endTime g.dark g.rebounds) s
    let started :=
      postNotice (.passStarted (nextPass s.engine.pass) (joiningOrder s).length s.engine.queue.length) closed
    ∃ t : State, exec .settleExpiry s = .next t ∧
      t.supply = { s.supply with state := .line, openGap := none, lastGap := s.supply.openGap.or s.supply.lastGap } ∧
      (s.stations ≠ [] ∨ s.engine.queue ≠ [] →
        t.link = started.link ∧ t.pins = started.pins ∧ t.engine.phase = .active) ∧
      (s.stations = [] → s.engine.queue = [] →
        t.link = (postNotice (.passComplete (nextPass s.engine.pass) 0 0 0) started).link ∧ t.engine.phase = .idle ∧
        t.engine.queue = []) ∧
      (s.stationsOrdered → ∀ st ∈ s.stations, s.hasJob st.entry.number = false →
        ∃ j, t.job? st.entry.number = some j ∧ j.origin = (if s.engine.pass = 0 then .cold else .gap) ∧
          j.prediction = (if st.estimate.lost then .lost else .kept) ∧ j.pass = some (nextPass s.engine.pass) ∧
          t.timebase.dueOf (.restoreLimit st.entry.number) =
            some (s.timebase.count + ms s.settings.restoreLimit)) ∧
      t.engine.pass = nextPass s.engine.pass ∧ t.engine.restored = 0 ∧ t.engine.failed = 0 ∧
      t.engine.runStart = s.timebase.count ∧ t.timebase.dueOf .holdupSample = some (s.timebase.count + 64) ∧
      t.timebase.count = s.timebase.count ∧ (∀ st ∈ s.stations, t.hasJob st.entry.number = true) ∧
      (t.stations = s.stations.map fun st => { st with estimate := { st.estimate with lost := false } }) ∧
      t.car = s.car ∧ t.settings = s.settings ∧ t.flash = s.flash ∧ t.query = s.query ∧ t.estimator = s.estimator ∧
      t.loader = s.loader ∧ t.store.slots = s.store.slots ∧ t.store.imageWrite = s.store.imageWrite ∧
      t.store.configSave = s.store.configSave ∧ t.store.markList = s.store.markList) ∧
  ∀ (s : State) (left : Timebase) (due : Time), s.dueNow .settle left due → s.supply.state = .settle →
    s.loadingEnded = false →
    ∃ (phase : EnginePhase) (tb : Timebase) (x : Store),
      exec .settleExpiry s =
        .next
          { s with
            supply :=
              { s.supply with state := .line, openGap := none, lastGap := s.supply.openGap.or s.supply.lastGap }
            engine := { s.engine with phase := phase }
            timebase := tb
            store := x } ∧
      tb.count = s.timebase.count ∧ tb.dueOf .holdupSample = some (s.timebase.count + 64) ∧
      x = { s.store with queue := x.queue, running := x.running, chipSelect := x.chipSelect, prepared := x.prepared }

/-- A holdup sample outside PARKED that starts no park: the level is the greatest k of 1..15 that the voltage reaches, the
open record's minimum follows it, and the next sample falls due one interval after the expired due time (R9 to R11, R26). -/
def Obligations.HoldupSampleTaken : Prop :=
  (∀ mv : Nat, holdupLevel mv ≤ 15 ∧ (0 < holdupLevel mv → 2500 + 250 * holdupLevel mv ≤ mv) ∧
    ∀ k, 1 ≤ k → k ≤ 15 → 2500 + 250 * k ≤ mv → k ≤ holdupLevel mv) ∧
  ∀ (s : State) (left : Timebase) (due : Time) (mv : Nat), s.dueNow .holdupSample left due →
    s.supply.state ≠ .parked → (s.supply.state ≠ .gap ∨ s.settings.parkLevel < holdupLevel mv) →
    exec (.holdupSampleExpiry mv) s =
      .next
        { s with
          timebase := left.set .holdupSample (due + (if s.supply.state = .line then 64 else 2))
          supply :=
            { s.supply with
              holdup := some (holdupLevel mv)
              openGap := s.supply.openGap.map fun g =>
                { g with
                  minHoldup := some (match g.minHoldup with
                    | none => holdupLevel mv
                    | some m => min m (holdupLevel mv)) } } }

/-- A sample in GAP at or below the park level starts the park. With park-area-prepared set the part enters PARKING with
outcome WRITING; with it clear, and the held-rise mark clear, the park is SKIPPED and the part is PARKED at once. Either
way the open gap's record is kept, its minimum holdup following the sample, and the slot of an image write that was under
way is EMPTY. The park writer has a buffer at once where one is FREE, or the image write gives one back: page 1 of the park
image is in it, and its PROGRAM is running where no operation was, and else stands at the head of the queue. Where there is
none, its request stands at the head of the wait list (R9 to R11, R13, R15, R142 to R144, R152, R159, R168 to R170; that the
image write gives its buffer back at once, unless its running operation programs from it or fills it, is log 54). -/
def Obligations.ParkBegins : Prop :=
  ∀ (s : State) (left : Timebase) (due : Time) (mv : Nat), s.dueNow .holdupSample left due →
    s.supply.state = .gap → holdupLevel mv ≤ s.settings.parkLevel →
    let level := holdupLevel mv
    let entered := fun (x : SupplyState) =>
      { s.supply with
        state := x
        holdup := some level
        openGap := s.supply.openGap.map fun g =>
          { g with
            minHoldup := some (match g.minHoldup with
              | none => level
              | some m => min m level) } }
    let parks := fun (outcome : ParkOutcome) (t : State) =>
      t.park.outcome = some outcome ∧ t.store.imageWrite = none ∧ t.store.configSave = none ∧ t.store.markList = [] ∧
        (∀ w, s.store.imageWrite = some w → ∀ n, t.slot n = if n = w.slot then .empty else s.slot n) ∧
        (s.store.imageWrite = none → t.store.slots = s.store.slots) ∧
        t.link = { (postNotice (.parking (some level) outcome) s).link with held := [] } ∧
        t.pins = (postNotice (.parking (some level) outcome) s).pins ∧ t.timebase.dueOf .settle = none ∧
        t.timebase.count = s.timebase.count ∧ t.engine = s.engine ∧ t.stations = s.stations ∧ t.laneA = s.laneA ∧
        t.laneB = s.laneB ∧ t.query = s.query ∧ t.car = s.car ∧ t.pushA = s.pushA ∧ t.pushB = s.pushB ∧
        t.settings = s.settings ∧ t.estimator = s.estimator ∧ t.loader = s.loader ∧ t.flash = s.flash
    (s.store.prepared = true →
      ∃ t : State, exec (.holdupSampleExpiry mv) s = .next t ∧ parks .writing t ∧ t.supply = entered .parking ∧
        t.park.image = parkImage s.free s.stations ∧ t.timebase.dueOf .holdupSample = some (due + 2) ∧
        (s.storeBounded → s.lanesSilent → s.waitListSound → (∀ r ∈ s.store.waitList, r.who ≠ .parkWriter) →
          let used := fun (i : Nat) => (∃ op, s.store.running = some op ∧ op.who = .imageWrite) ∧
            ((s.buffer i).state = .programming ∨ (s.buffer i).state = .filling)
          let available := fun (i : Nat) => i < 4 ∧
            ((s.buffer i).state = .free ∨ (s.store.imageWrite.isSome = true ∧ writeBuffer? s = some i ∧ ¬used i))
          let page := t.parkPage1
          ((∃ i, available i) → t.park.phase = .page1 ∧ (∃ i, available i ∧ t.buffer i = page.1) ∧
            (s.store.running = none → t.store.running = some page.2 ∧ t.store.prepared = false ∧
              t.timebase.dueOf .storeOperation = some (s.timebase.count + 50)) ∧
            (s.store.running.isSome = true → t.store.running = s.store.running ∧ t.store.queue.head? = some page.2 ∧
              t.store.prepared = true)) ∧
          ((∀ i, ¬available i) → t.park.phase = .waiting ∧
            t.store.waitList.head? = some { who := .parkWriter, count := 1 }))) ∧
    (s.store.prepared = false → s.supply.heldRise = false →
      ∃ t : State, exec (.holdupSampleExpiry mv) s = .next t ∧ parks .skipped t ∧ t.supply = entered .parked ∧
        t.timebase.dueOf .holdupSample = none)

/-! ### The Retention Estimator -/

/-- A refill by a powered span P: T is the carry plus P, the gain G is T divided by Q, the carry is the remainder, the
reserve is limited to the working capacity, and a full reserve keeps no carry; the lost flag stays; T and G stay within
the bounds that the manual gives. A confirmed fall refills every station so. -/
def Obligations.RefillArithmetic : Prop :=
  (∀ (e : Estimate) (q p : Nat), 1 ≤ q → q ≤ 64 → e.carry < q → p ≤ 65535 →
    let t := e.carry + p
    let g := t / q
    (e.refill q p).reserve = min e.working (e.reserve + g) ∧
      (e.refill q p).carry = (if (e.refill q p).reserve = e.working then 0 else t % q) ∧
      (e.refill q p).lost = e.lost ∧ (e.refill q p).working = e.working ∧ (e.refill q p).overdraw = e.overdraw ∧
      t ≤ 63 + 65535 ∧ g ≤ 65598) ∧
  ∀ (raw : Time) (opens mark : Bool) (s : State),
    let p := spanOf mark raw s.estimator.lastRise
    p ≤ 65535 ∧
      (estimatorFall raw opens mark s).stations =
        s.stations.map fun st =>
          { st with
            estimate :=
              (if opens then { st.estimate with overdraw := 0 } else st.estimate).refill st.entry.ratio p }

/-- A drain by a dark span D: below the reserve it is taken from the reserve; otherwise the overdraw rises by the
shortfall, the reserve becomes 0 and the lost flag is set; the carry stays, and a lost flag stays set (R36). -/
def Obligations.DrainArithmetic : Prop :=
  ∀ (e : Estimate) (d : Nat),
    (d < e.reserve → e.drain d = { e with reserve := e.reserve - d }) ∧
    (e.reserve ≤ d →
      e.drain d =
        { e with reserve := 0, lost := true, overdraw := min 65535 (e.overdraw + (d - e.reserve)) }) ∧
    (e.lost = true → (e.drain d).lost = true)

/-- A miss of a GAP job with adaptation on: on KEPT, with an image that is not intact, the working capacity falls by the
reserve plus 1, to no less than 0; on LOST, with an intact image, it rises by the overdraw plus 1, to no more than the
configured capacity, and stays 0 where that is 0; either way the reserve and the carry become 0 and the overdraw stays. -/
def Obligations.AdaptationAtMiss : Prop :=
  ∀ (s : State) (n : Nat) (r : Report) (tag : Word) (j : Job) (st : Station), s.job? n = some j →
    s.station? n = some st → j.origin = .gap → s.settings.adaptation = true → j.result = .none →
    let after := ((checkPrediction n r tag s).station? n).map (·.estimate)
    (j.prediction = .kept → (r.state = .blank ∨ r.tag ≠ tag) →
      after =
        some { st.estimate with working := st.estimate.working - (st.estimate.reserve + 1), reserve := 0, carry := 0 }) ∧
    (j.prediction = .lost → r.state ≠ .blank → r.tag = tag →
      after =
        some
          { st.estimate with
            working := min st.entry.capacity (st.estimate.working + st.estimate.overdraw + 1)
            reserve := 0
            carry := 0 } ∧
      (st.entry.capacity = 0 → after.map (·.working) = some 0))

/-- The check of a prediction at an accepted PROBE outcome: the first outcome after the prediction was taken sets HIT or
MISS (NONE for a job without prediction); a miss of a GAP job with adaptation on adapts its station's working capacity,
and nothing else does; a later outcome changes nothing (R39, R40). -/
def Obligations.PredictionChecked : Prop :=
  ∀ (s : State) (n : Nat) (r : Report) (tag : Word) (j : Job), s.queueDistinct → s.job? n = some j →
    let intact := decide (r.state ≠ .blank ∧ r.tag = tag)
    let result : PredictionResult := match j.prediction, intact with
      | .none, _ => .none
      | .lost, true => .miss
      | .lost, false => .hit
      | .kept, true => .hit
      | .kept, false => .miss
    (j.result ≠ .none → checkPrediction n r tag s = s) ∧
    (j.result = .none →
      checkPrediction n r tag s =
        { s with
          engine := { s.engine with queue := (checkPrediction n r tag s).engine.queue }
          stations := (checkPrediction n r tag s).stations } ∧
      (checkPrediction n r tag s).job? n = some { j with result := result } ∧
      (∀ m, m ≠ n → (checkPrediction n r tag s).job? m = s.job? m) ∧
      (checkPrediction n r tag s).stations =
        if result = .miss ∧ j.origin = .gap ∧ s.settings.adaptation = true then
          s.stations.map fun st =>
            if st.entry.number = n then { st with estimate := st.estimate.adapt st.entry.capacity j.prediction } else st
        else s.stations)

/-! ### Stations and their contexts -/

/-- An accepted NODE DEFINE makes the entry and everything kept for its station anew, and leaves every other station; a
station that was SEEN or READY has its change to ABSENT reported by the presence mode (R44, R47, R48, R52). -/
def Obligations.NodeDefineTaken : Prop :=
  ∀ (s : State) (tag : Byte) (payload : List Byte) (e : Entry), s.serves → payload.length = 11 →
    sideAgrees payload = true → readEntry payload = some e → laneFull e s = false → s.hasJob e.number = false →
    stationBusy e.number s = false → entryConflicts e s = false →
    let reported : State := match s.station? e.number with
      | none => s
      | some st =>
        if st.presence ≠ .absent ∧ presenceReported s.settings.presenceMode st.presence .absent = true then
          postNotice (.presence e.number .absent) s
        else s
    ∃ t : State, exec (.nodeDefine tag payload) s = .next (t.replying 0x06 tag .ok []) ∧
      t =
        { s with
          stations := t.stations
          pushA := s.pushA.filter (·.station ≠ e.number)
          pushB := s.pushB.filter (·.station ≠ e.number)
          laneA :=
            { s.laneA with
              pendingPoll := if s.laneA.pendingPoll = some e.number then none else s.laneA.pendingPoll }
          laneB :=
            { s.laneB with
              pendingPoll := if s.laneB.pendingPoll = some e.number then none else s.laneB.pendingPoll }
          link := reported.link
          pins := reported.pins } ∧
      t.station? e.number =
        some
          { entry := e, presence := .absent
            context := { fields := Fields.blank, epoch := 1, release := .withheld, leaf := none }
            estimate := { working := e.capacity, reserve := 0, carry := 0, lost := true, overdraw := 0 } } ∧
      ∀ m, m ≠ e.number → t.station? m = s.station? m

/-- An accepted NODE REMOVE takes the station away with its push entry and a poll pending for it; no notice is posted and
nothing else changes (R49). An accepted NODE QUERY is answered at once and becomes the pending query, which a free lane
then polls (R114). -/
def Obligations.NodeRemoveAndQueryTaken : Prop :=
  (∀ (s : State) (tag b : Byte), s.serves → 1 ≤ b.toNat → b.toNat ≤ 24 → (s.station? b.toNat).isSome = true →
    s.hasJob b.toNat = false → stationBusy b.toNat s = false →
    ∃ x : LaneState × LaneState,
      exec (.nodeRemove tag [b]) s =
        .next
          ({ s with
              stations := s.stations.filter (·.entry.number ≠ b.toNat)
              pushA := s.pushA.filter (·.station ≠ b.toNat)
              pushB := s.pushB.filter (·.station ≠ b.toNat)
              laneA := x.1
              laneB := x.2 } |>.replying 0x07 tag .ok []) ∧
      x.1 = { s.laneA with pendingPoll := if s.laneA.pendingPoll = some b.toNat then none else s.laneA.pendingPoll } ∧
      x.2 = { s.laneB with pendingPoll := if s.laneB.pendingPoll = some b.toNat then none else s.laneB.pendingPoll }) ∧
  ∀ (s : State) (tag a : Byte) (st : Station), s.serves → s.aliased? a.toNat = some st → s.supply.state = .line →
    s.query = none →
    exec (.nodeQuery tag [a]) s =
      .next ((lanesAct { s with query := some st.entry.number }).replying 0x09 tag .ok [])

/-- The requests that read are answered OK with what they read, and change no state: SETTINGS READ, GAP READ, IMAGE LIST,
NODE READ by alias and by number, and CONTEXT READ (R18, R50, R57, R150, R166; layouts where Figure 11-5 is silent,
log 16). -/
def Obligations.ReadsChangeNothing : Prop :=
  ∀ (s : State) (tag v : Byte), s.serves →
    exec (.settingsRead tag []) s = .next (s.replying 0x04 tag .ok s.settings.bytes) ∧
    exec (.gapRead tag []) s =
      .next
        (s.replying 0x0F tag .ok
          ([byte s.supply.state.code, holdupByte s.supply.holdup] ++ gapRecordBytes s.supply.openGap ++
            gapRecordBytes s.supply.lastGap)) ∧
    exec (.imageList tag []) s = .next (s.replying 0x14 tag .ok (listBytes s)) ∧
    (∀ st, s.aliased? v.toNat = some st →
      exec (.nodeRead tag [0, v]) s = .next (s.replying 0x08 tag .ok (nodeBytes st s)) ∧
      exec (.contextRead tag [v]) s = .next (s.replying 0x0B tag .ok (contextBytes st))) ∧
    (∀ st, s.station? v.toNat = some st →
      exec (.nodeRead tag [1, v]) s = .next (s.replying 0x08 tag .ok (nodeBytes st s)))

/-- An accepted CONTEXT SET writes every pair, raises the epoch once and computes the derived release again; a station
without a job then has a push entry, urgent where the release was withdrawn, and one with a job gets none (R54, R56,
R60, R62). The bytes of the reply for an absent field are open (log 17). -/
def Obligations.ContextSetTaken : Prop :=
  ∀ (s : State) (tag : Byte) (payload : List Byte) (st : Station) (f : Fields), s.serves → s.stationsOrdered →
    contextLayout payload = true → s.aliased? (numAt payload 0) = some st →
    ((contextPairs payload).all fun p => fieldBelongs st.entry.kind p.code) = true →
    putPairs (contextPairs payload) st.context.fields = some f →
    let n := st.entry.number
    let release := effectiveRelease s.car st.entry f
    ∃ t : State, exec (.contextSet tag payload) s =
        .next
          ((lanesAct t).replying 0x0A tag .ok
            (contextTaken s.free (nextEpoch st.context.epoch) (contextPairs payload) f)) ∧
      t = { s with stations := t.stations, pushA := t.pushA, pushB := t.pushB, free := s.free + 1 } ∧
      t.station? n =
        some
          { st with
            context :=
              { st.context with fields := f, epoch := nextEpoch st.context.epoch, release := release } } ∧
      (∀ m, m ≠ n → t.station? m = s.station? m) ∧
      (s.hasJob n = true → t.pushA = s.pushA ∧ t.pushB = s.pushB) ∧
      (s.hasJob n = false → ∃ p ∈ t.pushes st.entry.lane, p.station = n ∧
        (st.context.release = .granted → release = .withheld → p.urgent = true)) ∧
      ∀ m, m ≠ n → t.push? m = s.push? m

/-- An accepted CAR STATE SET replaces both values, gives every entrance station whose release changes its new release and
epoch, counts them in its reply, and gives each of them without a job a push entry, urgent where release is withdrawn
(R59, R61, R62). -/
def Obligations.CarStateTaken : Prop :=
  ∀ (s : State) (tag m r : Byte) (motion : Motion) (side : ReleaseSide), s.serves → s.stationsOrdered →
    Motion.ofCode m.toNat = some motion → ReleaseSide.ofCode r.toNat = some side →
    let car : CarState := { motion := motion, side := side }
    let changed := s.stations.filter fun st =>
      decide (st.entry.kind = .entrance ∧ effectiveRelease car st.entry st.context.fields ≠ st.context.release)
    ∃ t : State, exec (.carStateSet tag [m, r]) s = .next ((lanesAct t).replying 0x0C tag .ok [m, r, byte changed.length]) ∧
      t = { s with car := car, stations := t.stations, pushA := t.pushA, pushB := t.pushB } ∧
      t.stations =
        (s.stations.map fun st =>
          if st ∈ changed then
            { st with
              context :=
                { st.context with
                  release := effectiveRelease car st.entry st.context.fields
                  epoch := nextEpoch st.context.epoch } }
          else st) ∧
      (∀ st ∈ changed, s.hasJob st.entry.number = false →
        ∃ p ∈ t.pushes st.entry.lane, p.station = st.entry.number ∧
          (effectiveRelease car st.entry st.context.fields = .withheld → p.urgent = true)) ∧
      ∀ n, (∀ st ∈ changed, st.entry.number ≠ n) → t.push? n = s.push? n

/-- A refused request of any kind changes no state (R157); and the first check of its kind that a request fails refuses it,
with its status: the requests without an argument, STATUS among them, FORMAT for a payload; NOTICE FETCH FORMAT (R163);
SETTINGS SET FORMAT, RANGE (R165, R175); NODE DEFINE FORMAT, RANGE, STATE, BUSY, CONFLICT (R47); NODE REMOVE FORMAT, RANGE,
UNKNOWN, STATE, BUSY (R49); NODE READ and CONTEXT READ FORMAT, UNKNOWN (R50, R57); NODE QUERY FORMAT, UNKNOWN, UNREACHABLE in
GAP and SETTLE, BUSY (R114); CONTEXT SET FORMAT for its layout, UNKNOWN, FORMAT for a field that is not its kind's, RANGE
(R55); CAR STATE SET and LANE INJECT FORMAT, RANGE (R59, R115); RESTORE NOW FORMAT, UNKNOWN (R91); IMAGE OPEN FORMAT, RANGE,
STATE, BUSY, CONFLICT (R145); IMAGE BLOCK FORMAT, STATE, ORDER with the next index, BUSY (R146); IMAGE CLOSE likewise (R147);
IMAGE ABORT FORMAT, STATE, BUSY (R148); CONFIG SAVE FORMAT, BUSY (R151). That a side byte which is not listed counts as a
side given is the model's choice (log 45), and so is what of a CONTEXT SET is its layout (log 21). -/
def Obligations.RefusalsInOrder : Prop :=
  (∀ (r : Request) (s : State), (answerRequest r s).status ≠ .ok → (answerRequest r s).state = s) ∧
  ∀ (s : State) (tag : Byte) (p : List Byte), s.serves →
    let b := numAt p
    let unnamed := fun (a : Nat) => ∀ st ∈ s.stations, st.entry.aliasNo ≠ a
    let inUse := fun (n : Nat) => (∃ l t, (s.lane l).txn = some t ∧ t.station = some n) ∨ s.query = some n
    let writes := fun (w : ImageWrite) => w.slot = b 0 ∧ s.slot (b 0) = .writing
    let takes := fun (w : ImageWrite) => w.phase = .erasing ∨ w.phase = .receiving
    let format := fun (bad : Prop) => Check.mk bad .format []
    let range := fun (bad : Prop) => Check.mk bad .range []
    let unknown := fun (bad : Prop) => Check.mk bad .unknown []
    let state := fun (bad : Prop) => Check.mk bad .state []
    let busy := fun (bad : Prop) => Check.mk bad .busy []
    let conflict := fun (bad : Prop) => Check.mk bad .conflict []
    (∀ i ∈ [Instr.status tag p, .settingsRead tag p, .engineRestart tag p, .gapRead tag p, .imageList tag p],
      s.checksInOrder i [format (p ≠ [])]) ∧
    s.checksInOrder (.noticeFetch tag p) [format (p ≠ [0] ∧ p ≠ [1])] ∧
    (let code := fun k => b (1 + 3 * k)
      let value := fun k => num16At p (2 + 3 * k)
      s.checksInOrder (.settingsSet tag p)
        [format (¬(1 ≤ b 0 ∧ b 0 ≤ 17 ∧ p.length = 1 + 3 * b 0) ∨ codesWrong (b 0) 16 code),
          range (∃ k, k < b 0 ∧
            ((code k ∈ [4, 5] ∧ value k ∉ [500, 1000, 2000]) ∨ (code k ∈ [9, 10, 13, 14, 15] ∧ 1 < value k)))]) ∧
    s.checksInOrder (.configSave tag p)
      [format (p ≠ []), busy (s.store.configSave.isSome = true ∨ ∃ w, s.store.imageWrite = some w ∧ ¬takes w)] ∧
    s.checksInOrder (.nodeDefine tag p)
      [format (p.length ≠ 11 ∨ (b 4 = 0 ∧ b 5 = 0xFF) ∨ ((b 4 = 1 ∨ b 4 = 2) ∧ b 5 ≠ 0xFF)),
        range (¬(1 ≤ b 0 ∧ b 0 ≤ 24 ∧ 1 ≤ b 1 ∧ b 1 ≤ 127 ∧ b 2 ≤ 1 ∧ 1 ≤ b 3 ∧ b 3 ≤ 30 ∧ b 4 ≤ 2 ∧
            (b 5 ≤ 1 ∨ b 5 = 0xFF) ∧ 1 ≤ b 6 ∧ b 6 ≤ 15 ∧ b 7 ≤ 3 ∧ num16At p 8 ≤ 2000 ∧ 1 ≤ b 10 ∧ b 10 ≤ 64 ∧
            num16At p 8 * b 10 ≤ 65535) ∨
          16 ≤ (s.stations.filter fun st =>
            decide (st.entry.number ≠ b 0 ∧ laneCode st.entry.lane = b 2)).length),
        state (s.hasJob (b 0) = true), busy (inUse (b 0)),
        conflict ((∃ st ∈ s.stations, st.entry.number ≠ b 0 ∧
            (st.entry.aliasNo = b 1 ∨ (laneCode st.entry.lane = b 2 ∧ st.entry.address = b 3))) ∨
          ∃ im c, s.slot (b 6) = .valid im c ∧ im.kind.code ≠ b 4)] ∧
    s.checksInOrder (.nodeRemove tag p)
      [format (p.length ≠ 1), range (¬(1 ≤ b 0 ∧ b 0 ≤ 24)), unknown (∀ st ∈ s.stations, st.entry.number ≠ b 0),
        state (s.hasJob (b 0) = true), busy (inUse (b 0))] ∧
    s.checksInOrder (.nodeRead tag p)
      [format (p.length ≠ 2 ∨ 1 < b 0),
        unknown ((b 0 = 0 ∧ unnamed (b 1)) ∨ (b 0 = 1 ∧ ∀ st ∈ s.stations, st.entry.number ≠ b 1))] ∧
    s.checksInOrder (.nodeQuery tag p)
      [format (p.length ≠ 1), unknown (unnamed (b 0)),
        Check.mk (s.supply.state = .gap ∨ s.supply.state = .settle) .unreachable [], busy (s.query.isSome = true)] ∧
    (let code := fun k => b (2 + 4 * k)
      let value := fun k => num16At p (4 + 4 * k)
      let absent := fun k => b (3 + 4 * k)
      let foreign := fun (kind : Kind) (c : Nat) => match kind with
        | .entrance => 2 < c
        | .saloon => c < 3 ∨ 8 < c
        | .destination => c ∉ [3, 4, 7, 8]
      s.checksInOrder (.contextSet tag p)
        [format (¬(1 ≤ b 1 ∧ b 1 ≤ 8 ∧ p.length = 2 + 4 * b 1) ∨ codesWrong (b 1) 8 code ∨
            ∃ k, k < b 1 ∧ 1 < absent k),
          unknown (unnamed (b 0)),
          format (∃ st, s.aliased? (b 0) = some st ∧ ∃ k, k < b 1 ∧ foreign st.entry.kind (code k)),
          range (∃ k, k < b 1 ∧ absent k = 0 ∧
            ((code k = 0 ∧ 2 < value k) ∨ (code k = 3 ∧ 999 < value k) ∨ (code k = 4 ∧ 4095 < value k) ∨
              (code k = 5 ∧ 127 < value k) ∨ (code k = 8 ∧ 1 < value k)))]) ∧
    s.checksInOrder (.contextRead tag p) [format (p.length ≠ 1), unknown (unnamed (b 0))] ∧
    s.checksInOrder (.carStateSet tag p) [format (p.length ≠ 2), range (1 < b 0 ∨ 3 < b 1)] ∧
    s.checksInOrder (.restoreNow tag p)
      [format (24 < b 0 ∨ p.length ≠ 1 + b 0 ∨ ∃ j k, j < k ∧ k < b 0 ∧ b (1 + j) = b (1 + k)),
        unknown (∃ k, k < b 0 ∧ unnamed (b (1 + k)))] ∧
    s.checksInOrder (.imageOpen tag p)
      [format (p.length ≠ 14),
        range (¬(1 ≤ b 0 ∧ b 0 ≤ 15 ∧ b 1 ≤ 2 ∧ 1 ≤ num16At p 8 ∧ num16At p 8 ≤ 4095)),
        state (s.slot (b 0) = .writing),
        busy (s.store.imageWrite.isSome = true ∨
          (∃ j ∈ s.engine.queue, s.slotOf j.station = b 0 ∧ (j.state = .opn ∨ j.state = .load ∨ j.state = .close)) ∨
          (∃ i, i < 4 ∧ (s.buffer i).owner.isSome = true ∧ (s.buffer i).slot = b 0) ∨
          s.store.configSave.isSome = true ∨ (∃ op, s.store.running = some op ∧ op.who = .imageWrite) ∨
          (∃ x, s.flash.busy = some x ∧ x.op.who = .imageWrite) ∨
          ∃ i, i < 4 ∧ (s.buffer i).owner = some .imageWrite),
        conflict (∃ st ∈ s.stations, st.entry.slot = b 0 ∧ st.entry.kind.code ≠ b 1)] ∧
    (s.store.imageWrite = none →
      s.checksInOrder (.imageBlock tag p) [format (p.length ≠ 259), state True] ∧
      s.checksInOrder (.imageClose tag p) [format (p.length ≠ 1), state True] ∧
      s.checksInOrder (.imageAbort tag p) [format (p.length ≠ 1), state True]) ∧
    (∀ w, s.store.imageWrite = some w →
      s.checksInOrder (.imageBlock tag p)
        [format (p.length ≠ 259), state (¬(writes w ∧ takes w)),
          Check.mk (num16At p 1 ≠ w.nextIndex ∨ w.image.length ≤ w.nextIndex) .order (le16 w.nextIndex),
          busy (w.phase = .erasing ∨ ∀ i, writeBuffer? s = some i → (s.buffer i).state = .programming)] ∧
      s.checksInOrder (.imageClose tag p)
        [format (p.length ≠ 1), state (¬(writes w ∧ takes w)),
          Check.mk (w.nextIndex < w.image.length) .order (le16 w.nextIndex),
          busy (∃ i, writeBuffer? s = some i ∧ (s.buffer i).state = .programming)] ∧
      s.checksInOrder (.imageAbort tag p)
        [format (p.length ≠ 1), state (¬writes w), busy (w.phase = .committing)]) ∧
    s.checksInOrder (.laneInject tag p)
      [format (p.length ≠ 3), range (¬(b 0 ≤ 1 ∧ b 1 ≤ 2 ∧ 1 ≤ b 2 ∧ b 2 ≤ 8))]

/-! ### The Restore Engine -/

/-- A pass built in LINE: the number advances; every job carried takes it and keeps its place; the stations without a job
join at the tail of their classes, those predicted LOST first, each group in station order; every lost flag is cleared;
every job's restore limit is armed. A job carried is otherwise as it was, but that its result is NONE, its reload mark is
clear, it has sent no block, and one of origin GAP or COLD has its station's new prediction (R37, R38, R69, R71, R73, R87).
-/
def Obligations.PassBuilt : Prop :=
  ∀ s : State, s.supply.state = .line → s.queueDistinct → s.stationsOrdered → s.stationsSound →
    (∀ j ∈ s.engine.queue, (s.station? j.station).isSome = true) →
    (s.engine.queue.map fun j => s.classOf j.station).Pairwise (· ≤ ·) →
    let t := buildPass s
    let joining := fun c lost =>
      (s.stations.filter fun st =>
        decide (s.hasJob st.entry.number = false ∧ st.entry.restoreClass = c ∧ st.estimate.lost = lost)).map
        (·.entry.number)
    t =
      { s with
        stations := t.stations, pushA := t.pushA, pushB := t.pushB, engine := t.engine, timebase := t.timebase
        laneA := { s.laneA with pendingPoll := t.laneA.pendingPoll }
        laneB := { s.laneB with pendingPoll := t.laneB.pendingPoll }
        link := t.link, pins := t.pins } ∧
    t.engine.pass = nextPass s.engine.pass ∧ (∀ j ∈ t.engine.queue, j.pass = some (nextPass s.engine.pass)) ∧
      (∀ (j : Job) (st : Station), s.job? j.station = some j → s.station? j.station = some st →
        t.job? j.station =
          some
            { j with
              pass := some (nextPass s.engine.pass), result := .none, loaded := false, blocksSent := 0
              prediction :=
                if j.origin = .gap ∨ j.origin = .cold then (if st.estimate.lost then .lost else .kept) else .none }) ∧
      (∀ c, c ≤ 3 →
        (t.engine.queue.filter fun j => s.classOf j.station = c).map (·.station) =
          (s.engine.queue.filter fun j => s.classOf j.station = c).map (·.station) ++ joining c true ++
            joining c false) ∧
      (t.engine.queue.map fun j => s.classOf j.station).Pairwise (· ≤ ·) ∧
      (∀ st ∈ t.stations, st.estimate.lost = false) ∧
      (∀ j ∈ t.engine.queue, t.timebase.dueOf (.restoreLimit j.station) =
        some (s.timebase.count + ms s.settings.restoreLimit)) ∧
      (t.engine.phase = .active ↔ s.stations ≠ [])

/-- The restore limit of a job expires: the job fails with TIME in the state it held, its station becomes ABSENT, and NODE
FAILED, and PASS COMPLETE where the queue is empty, are posted; the other jobs keep their places and a busy lane stays
busy (R76, R87, R89). -/
def Obligations.RestoreLimitFailsJob : Prop :=
  ∀ (s : State) (left : Timebase) (due : Time) (n : Nat) (j : Job), s.dueNow (.restoreLimit n) left due →
    s.job? n = some j →
    let failed := postNotice (.nodeFailed n (j.pass.getD 0) .time j.state) (setPresence n .absent s)
    ∃ t : State, exec (.restoreLimitExpiry n) s = .next t ∧ t.hasJob n = false ∧
      t.engine.queue.map (·.station) = (s.engine.queue.filter (·.station ≠ n)).map (·.station) ∧
      (∀ st, t.station? n = some st → st.presence = .absent) ∧ (∀ m, m ≠ n → t.station? m = s.station? m) ∧
      t.engine.failed = s.engine.failed + 1 ∧ t.engine.restored = s.engine.restored ∧
      t.engine.pass = s.engine.pass ∧ t.timebase.dueOf (.restoreLimit n) = none ∧
      t.link =
        (if s.engine.phase = .active ∧ ∀ x ∈ s.engine.queue, x.station = n then
          postNotice
            (.passComplete s.engine.pass s.engine.restored (s.engine.failed + 1)
              (min 65535 (s.timebase.count - s.engine.runStart).toNat)) failed
        else failed).link ∧
      (∀ l, (s.lane l).txn.isSome = true → (t.lane l).txn.isSome = true) ∧ t.supply = s.supply ∧ t.car = s.car ∧
      t.pushA = s.pushA ∧ t.pushB = s.pushB ∧ t.settings = s.settings ∧ t.estimator = s.estimator ∧
      t.query = s.query ∧ t.loader = s.loader ∧ t.store.slots = s.store.slots ∧
      t.store.imageWrite = s.store.imageWrite ∧ t.store.configSave = s.store.configSave ∧
      t.store.markList = s.store.markList ∧ t.timebase.count = s.timebase.count ∧ t.flash = s.flash

/-- An accepted RESTORE NOW creates a HOST job for each station it names that has none, and answers their number; in LINE
each takes the pass number and has its restore limit armed, and in IDLE a new run begins and the Engine is ACTIVE; elsewhere
no job has a pass or a restore limit, and no deadline changes (R68, R71, R72, R76, R91). -/
def Obligations.RestoreNowCreatesJobs : Prop :=
  ∀ (s : State) (tag : Byte) (payload : List Byte), s.serves → s.stationsOrdered → s.stationsSound →
    restoreLayout payload = true → ((payload.drop 1).all fun a => (s.aliased? a.toNat).isSome) = true →
    let named := if numAt payload 0 = 0 then s.stations
      else s.stations.filter fun st => decide (st.entry.aliasNo ∈ (payload.drop 1).map (·.toNat))
    let joining := named.filter fun st => !(s.hasJob st.entry.number)
    ∃ t : State, exec (.restoreNow tag payload) s =
        .next ((lanesAct t).replying 0x0D tag .ok [byte joining.length]) ∧
      t =
        { s with
          engine := t.engine, pushA := t.pushA, pushB := t.pushB, timebase := t.timebase
          laneA := { s.laneA with pendingPoll := t.laneA.pendingPoll }
          laneB := { s.laneB with pendingPoll := t.laneB.pendingPoll } } ∧
      (∀ n, t.hasJob n = true ↔ s.hasJob n = true ∨ n ∈ joining.map (·.entry.number)) ∧
      (∀ n, s.hasJob n = true → t.job? n = s.job? n) ∧
      (∀ st ∈ joining, ∃ j, t.job? st.entry.number = some j ∧ j.origin = .host ∧ j.prediction = .none ∧
        j.pass = (if s.supply.state = .line then some s.engine.pass else none) ∧
        (s.supply.state = .line → t.timebase.dueOf (.restoreLimit st.entry.number) =
          some (s.timebase.count + ms s.settings.restoreLimit))) ∧
      (s.supply.state ≠ .line → t.timebase = s.timebase) ∧ t.timebase.count = s.timebase.count ∧
      (∀ p, (∀ st ∈ joining, p ≠ .restoreLimit st.entry.number) → t.timebase.dueOf p = s.timebase.dueOf p) ∧
      (∀ n, n ∉ joining.map (·.entry.number) → t.push? n = s.push? n) ∧ t.engine.pass = s.engine.pass ∧
      (if s.supply.state = .line ∧ s.engine.phase = .idle ∧ joining ≠ [] then
        t.engine.phase = .active ∧ t.engine.restored = 0 ∧ t.engine.failed = 0 ∧
          t.engine.runStart = s.timebase.count
      else t.engine = { s.engine with queue := t.engine.queue, nextJob := t.engine.nextJob })

/-- ENGINE RESTART empties the queue and abandons the lanes' work with no notice but STARTED, which its reply counts. Before
the arbiters choose again no lane has a transaction, a driver in use, a response window, a load holder, a buffer request, an
injection or a buffer but one whose read still fills it, and no query is pending; the sequence counts, the cursors, the
pending polls, the last turn kinds, every deadline but the response windows and the restore limits, the pass number, the
stations, the car state, the push lists, the settings and the store's records stay (R29, R44, R67, R94, R117, R136, R144,
R153, R167; the place of the count in the reply is log 16, and how a lane knows a late reply of the work that it abandoned
is log 47). -/
def Obligations.EngineRestartEmptiesQueue : Prop :=
  ∀ (s : State) (tag : Byte), s.serves →
    let started := postNotice (.started .engine s.loader.configFinding s.loader.parkFinding) s
    ∃ t : State,
      exec (.engineRestart tag []) s =
        .next ((lanesAct t).replying 0x0E tag .ok [byte started.link.notices.length]) ∧
      t.engine =
        { s.engine with queue := [], phase := if s.supply.state = .line then .idle else .held } ∧
      t.laneA =
        { s.laneA with
          txn := none, driver := .released, holder := none, injection := none
          abandoned := s.laneA.abandonedFrames } ∧
      t.laneB =
        { s.laneB with
          txn := none, driver := .released, holder := none, injection := none
          abandoned := s.laneB.abandonedFrames } ∧
      t.query = none ∧
      (∀ l, t.timebase.dueOf (.responseWindow l) = none) ∧ (∀ n, t.timebase.dueOf (.restoreLimit n) = none) ∧
      (∀ p, (∀ l, p ≠ .responseWindow l) → (∀ n, p ≠ .restoreLimit n) → t.timebase.dueOf p = s.timebase.dueOf p) ∧
      t.timebase.count = s.timebase.count ∧
      s.lanesGaveBack t ∧ t.store.running = s.store.running ∧ t.store.chipSelect = s.store.chipSelect ∧
      t.link = started.link ∧ t.pins = started.pins ∧ t.supply = s.supply ∧ t.stations = s.stations ∧
      t.estimator = s.estimator ∧ t.car = s.car ∧ t.pushA = s.pushA ∧ t.pushB = s.pushB ∧ t.settings = s.settings ∧
      t.loader = s.loader ∧ t.store.slots = s.store.slots ∧ t.store.imageWrite = s.store.imageWrite ∧
      t.store.configSave = s.store.configSave ∧ t.store.markList = s.store.markList ∧
      t.store.prepared = s.store.prepared ∧ t.flash = s.flash ∧ t.pending = s.pending

/-- What each reply to a job's step does (R39, R40, R51, R76 to R84, R88, R89, R126, R127, R131, R133, R142). An accepted
PROBE reply sends the job on by Figure 5-4, its prediction checked and, where it is a miss, its station's working capacity
adapted; of a unit RUNNING the slot's image at the record's epoch it completes the job KEPT, as a CONTEXT acknowledged with
the record's epoch completes it REPLAYED or RELOADED. An OPEN acknowledged sends the job to LOAD; a BLOCK echoed raises its
fill mark and sends it to CLOSE at the image length; a FILL REPORT is judged against the group count; a CLOSE MATCH sends it
to START, a first MISMATCH to LOADWAIT, and the slot counts; a START acknowledged sends it to REPLAY; a CONTEXT of another
epoch leaves it there; and a refusal sends it back by Figure 5-5, while fewer than five step restarts are needed. Otherwise
the job fails with REFUSED, CHECK, NO_IMAGE or WRONG_KIND. The third MISMATCH in a row makes the slot SUSPECT, to be marked
so, and its jobs in LOADWAIT, OPEN, LOAD and CLOSE fail with NO_IMAGE. -/
def Obligations.JobRepliesTaken : Prop :=
  ∀ (s : State) (l : Lane) (frame : List Byte) (t : Txn) (j : Job) (st : Station) (r : LaneReply),
    s.jobAnswered l frame t j st r → s.queueDistinct →
    let n := j.station
    let slot := st.entry.slot
    let length := s.lengthOf n
    let told := presenceReply n s
    let answers := fun (p : State → Prop) =>
      ∃ u : State, exec (.laneReplyReceived l frame) s = .next (lanesAct u) ∧ p u
    let goesOn := fun (j' : Job) (more : State → Prop) =>
      answers fun u => told.jobGoesOn l j' u ∧ s.recordsStay u ∧ more u
    let fails := fun (reason : Reason) => answers fun u => told.jobFails l j reason u ∧ s.recordsStay u
    let stays := fun (_ : State) => True
    let filled := fun (fill : Nat) => { j with fill := fill, state := if fill = length then .close else .load }
    let anew : Job := { j with state := .loadwait, needsOpen := true, fill := 0 }
    let counted := fun (count : Nat → Nat) (u : State) =>
      u.store.markList = s.store.markList ∧ (∀ x, x ≠ slot → u.slot x = s.slot x) ∧
        u.slot slot = (match s.slot slot with
          | .valid im c => .valid im (count c)
          | x => x)
    let thirdMismatch := ∃ im c, s.slot slot = .valid im c ∧ 2 ≤ c
    (∀ (image : Image) (p : Report), t.step = .probe → r = .report p → s.validImage? slot = some image →
      image.kind = st.entry.kind → p.kind = st.entry.kind →
      let same := p.tag = image.tag ∧ p.generation = image.generation
      let checked :=
        if j.result = .none then predictionResult j.prediction (decide (p.state ≠ .blank ∧ p.tag = image.tag))
        else j.result
      let adapts := j.result = .none ∧ checked = .miss ∧ j.origin = .gap ∧ s.settings.adaptation = true
      let learnt : State :=
        { told with
          stations := told.stations.map fun x =>
            if x.entry.number = n ∧ adapts then
              { x with estimate := x.estimate.adapt x.entry.capacity j.prediction } else x }
      let found : Job := { j with finding := some p, result := checked }
      let probed := fun (j' : Job) => answers fun u => learnt.jobGoesOn l j' u ∧ s.recordsStay u
      (p.state = .running → same → p.epoch = st.context.epoch →
        answers fun u => learnt.jobCompletes l j .kept checked u) ∧
      (p.state = .running → same → p.epoch ≠ st.context.epoch → probed { found with state := .replay }) ∧
      (p.state = .held → same → probed { found with state := .start }) ∧
      (p.state = .partly → p.tag = image.tag → 0 < p.fill → p.fill ≤ image.length →
        probed { found with state := .loadwait, fill := p.fill, needsOpen := false }) ∧
      (p.state = .blank ∨ ((p.state = .running ∨ p.state = .held) ∧ ¬same) ∨
          (p.state = .partly ∧ ¬(p.tag = image.tag ∧ 0 < p.fill ∧ p.fill ≤ image.length)) →
        probed { found with state := .loadwait, fill := 0, needsOpen := true })) ∧
    (∀ p, t.step = .probe → r = .report p →
      ((∀ image, s.validImage? slot = some image → image.kind ≠ st.entry.kind) → fails .noImage) ∧
      ∀ image, s.validImage? slot = some image → image.kind = st.entry.kind → p.kind ≠ st.entry.kind →
        fails .wrongKind) ∧
    (t.step = .opn → r = .ack → goesOn { j with needsOpen := false, fill := 0, state := .load } stays) ∧
    (t.step = .block → r = .blockAck t.index (s.buffer t.buffer).crc →
      goesOn (filled (j.fill + 1)) fun u => (u.buffer t.buffer).state ≠ .sending) ∧
    (∀ (members : List Nat) (count : Nat) (round : Option (List Nat)) (f : Nat), t.step = .fill → r = .fillReport f →
      (s.lane l).holder = some (.group members count round) →
      (f = count →
        goesOn (filled count) fun u =>
          2 ≤ members.length → (u.lane l).holder =
            some (.group members count ((round.map fun x => x.filter (· ≠ n)).filter (· ≠ [])))) ∧
      (f < count →
        goesOn { j with state := .loadwait, fill := f, needsOpen := false } fun u => u.outOfHolder l n) ∧
      (count < f → goesOn anew fun u => u.outOfHolder l n)) ∧
    (t.step = .close →
      (r = .closeResult true →
        answers fun u => told.jobGoesOn l { j with loaded := true, state := .start } u ∧ u.outOfHolder l n ∧
          counted (fun _ => 0) u) ∧
      (r = .closeResult false → ¬thirdMismatch →
        (j.mismatches = 0 →
          answers fun u => told.jobGoesOn l { anew with mismatches := 1 } u ∧ u.outOfHolder l n ∧
            counted (· + 1) u) ∧
        (1 ≤ j.mismatches → answers fun u => told.jobFails l j .check u ∧ counted (· + 1) u)) ∧
      (∀ (im : Image) (c : Nat), r = .closeResult false → s.slot slot = .valid im c → 2 ≤ c →
        let settled : List Job := s.engine.queue.map fun x => if x.station = n then anew else x
        let doomed := (if j.mismatches = 0 then settled else s.engine.queue.filter (·.station ≠ n)).filter fun x =>
          decide (s.slotOf x.station = slot ∧
            (x.state = .loadwait ∨ x.state = .opn ∨ x.state = .load ∨ x.state = .close))
        let gone := (if j.mismatches = 0 then [] else [n]) ++ doomed.map (·.station)
        let posted :=
          told.runEnded gone s.engine.restored (s.engine.failed + gone.length)
            ((told.failuresPosted .check (if j.mismatches = 0 then [] else [j])).failuresPosted .noImage doomed)
        answers fun u => told.jobsLeft gone u ∧ n ∈ gone ∧ (∀ m, m ∉ gone → u.job? m = s.job? m) ∧
          u.outOfHolder l n ∧ (u.lane l).txn = none ∧ u.timebase.dueOf (.responseWindow l) = none ∧
          (∀ m ∈ gone, (u.station? m).map (·.presence) = (s.station? m).map fun _ => .absent) ∧
          u.engine.failed = s.engine.failed + gone.length ∧ u.engine.restored = s.engine.restored ∧
          u.link = posted.link ∧ u.pins = posted.pins ∧ u.slot slot = .suspect im 3 ∧
          (∀ x, x ≠ slot → u.slot x = s.slot x) ∧ u.store.markList = s.store.markList ++ [slot] ∧
          (s.store.markList = [] → markBusy s = false →
            ({ command := .program slot 0 markData, who := .markWriter slot } : FlashOp) ∈ u.store.queue))) ∧
    (t.step = .start → r = .ack → goesOn { j with state := .replay } stays) ∧
    (∀ epoch, t.step = .context → r = .contextAck epoch →
      (epoch ≠ st.context.epoch → goesOn j stays) ∧
      (epoch = st.context.epoch →
        answers fun u => told.jobCompletes l j (if j.loaded then .reloaded else .replayed) j.result u)) ∧
    ∀ f, t.step ≠ .poll →
      (r = .nak .noSpace f → fails .refused) ∧
      (t.step = .probe → r = .nak .wrongState f ∨ r = .nak .badIndex f → fails .refused) ∧
      (t.step = .block → r = .nak .badIndex f → f ≠ t.index → f ≤ length → goesOn (filled f) stays) ∧
      (t.step ≠ .probe →
        (r = .nak .wrongState f ∨
            (r = .nak .badIndex f ∧ t.step ≠ .close ∧ (t.step = .block → f ≠ t.index ∧ length < f)) →
          if j.restarts < 4 then
            goesOn { j with state := .probe, restarts := j.restarts + 1 } fun u => u.outOfHolder l n
          else fails .refused) ∧
        (r = .nak .badIndex f → t.step = .close ∨ (t.step = .block ∧ f = t.index) →
          if j.restarts < 4 then goesOn { anew with restarts := j.restarts + 1 } fun u => u.outOfHolder l n
          else fails .refused))

/-! ### The lanes -/

/-- What follows when an attempt ends in error: at the expiry of its window (a sequence fault where a stale reply was seen,
else NO_REPLY), or at a reply (a CRC error for one that fails its check or is malformed, one of inconsistent length among
them, which is the model's reading, log 22, and for a NAK other than BUSY to a POLL; BUSY; ECHO). A reply taken first counts
for presence by the first row of Figure 4-2 (R51), also where it makes an ECHO error, which is the model's inference (log
24), or is a NAK to a POLL, which is the model's choice (log 41). With the step's owner gone, the step ends. On a strict
lane a CRC or ECHO error of an OPEN, BLOCK, FILL or CLOSE step ends the holder: each of its jobs goes back to LOADWAIT, or
fails with LINK at its fifth restart, in queue order. Otherwise, while attempts are left, the next begins at once with the
next sequence number, the ending kept and the job's retries counted, and a BLOCK frame with its blocks sent (R125); and a
job whose retries are exhausted fails, with LINK, NO_REPLY or REFUSED by its attempts' endings (R51, R77, R85, R86, R96, R99
to R103, R121, R126, R128, R177). -/
def Obligations.AttemptsEndInError : Prop :=
  ∀ (s : State) (l : Lane) (t : Txn) (c : Instr) (e : Ending) (told : State), s.attemptEnds l t c e told →
    let answers := fun (p : State → Prop) => ∃ u : State, exec c s = .next (lanesAct u) ∧ p u
    let strict := s.settings.strict l = true ∧ (e = .crc ∨ e = .echo) ∧
      (t.step = .opn ∨ t.step = .block ∨ t.step = .fill ∨ t.step = .close)
    let endings := t.endings ++ [e]
    (ownerGone t s = true → answers (told.stepOver l t)) ∧
    (ownerGone t s = false → strict →
      ((s.lane l).holder = none → answers (told.stepOver l t)) ∧
      ∀ h : Holder, (s.lane l).holder = some h → h.stations.Nodup → s.queueDistinct →
        let failing := (h.stations.filterMap s.job?).filter fun j => decide (4 ≤ j.restarts)
        let gone := failing.map (·.station)
        let posted :=
          if gone = [] then told
          else told.runEnded gone s.engine.restored (s.engine.failed + gone.length) (told.failuresPosted .link failing)
        answers fun u => (u.lane l).txn = none ∧ (u.lane l).driver = .released ∧ (u.lane l).holder = none ∧
          (∀ i ∈ u.ownedBy (.lane l), (u.buffer i).released = true) ∧
          (gone ≠ [] → told.jobsLeft gone u) ∧
          (gone = [] → told.alikeOutsideLanes u) ∧
          (∀ n ∈ h.stations, ∀ j, s.job? n = some j → j.restarts < 4 →
            u.job? n =
              some
                { t.ended j with state := .loadwait, needsOpen := true, fill := 0, restarts := j.restarts + 1 }) ∧
          (∀ n, n ∉ h.stations → u.job? n = (s.job? n).map t.ended) ∧
          (∀ n ∈ gone, (u.station? n).map (·.presence) = (s.station? n).map fun _ => .absent) ∧
          (∀ n, n ∉ gone → u.station? n = told.station? n) ∧
          u.engine.failed = s.engine.failed + gone.length ∧ u.engine.restored = s.engine.restored ∧
          u.link = posted.link ∧ u.pins = posted.pins ∧ u.timebase.dueOf (.responseWindow l) = none ∧
          s.recordsStay u ∧ u.supply = s.supply ∧ u.settings = s.settings ∧ u.flash = s.flash) ∧
    (ownerGone t s = false → ¬strict → t.attempt ≤ t.limit →
      answers fun u => ∃ x : Txn, (u.lane l).txn = some x ∧ x.step = t.step ∧ x.owner = t.owner ∧
        x.station = t.station ∧ x.limit = t.limit ∧ x.index = t.index ∧ x.buffer = t.buffer ∧
        x.attempt = t.attempt + 1 ∧ x.endings = endings ∧ x.sequence = (s.lane l).seq ∧
        (u.lane l).seq = ((s.lane l).seq + 1) % 16 ∧ x.stale = false ∧ (u.lane l).holder = (s.lane l).holder ∧
        (∀ k, k ≠ l → u.lane k = s.lane k) ∧
        u.timebase =
          (told.timebase.remove (.responseWindow l)).set (.responseWindow l)
            (s.timebase.count + ms (s.settings.responseWindow l)) ∧
        told.alikeOutsideLanes u ∧ u.store.slots = s.store.slots ∧
        (u.lane l).driver = (if x.frame.isSome then .inUse else .released) ∧
        ∀ n id, t.owner = .job n id → (∀ m, m ≠ n → u.job? m = s.job? m) ∧
          ∀ j, s.job? n = some j →
            u.job? n =
              some
                { j with
                  retriesUsed := j.retriesUsed + 1
                  blocksSent := if t.step = .block then min 65535 (j.blocksSent + 1) else j.blocksSent }) ∧
    (ownerGone t s = false → ¬strict → t.limit < t.attempt → ∀ (j : Job) (st : Station),
      t.owner = .job j.station j.id → s.job? j.station = some j → s.station? j.station = some st →
      st.entry.lane = l →
      answers fun u => s.recordsStay u ∧
        told.jobFails l j
          (if ∃ x ∈ endings, x = .crc ∨ x = .echo ∨ x = .sequenceFault then .link
          else if ∀ x ∈ endings, x = .noReply then .noReply
          else .refused) u)

/-- The poll interval expires: it is set again from the due time that expired, in every supply state; in LINE with no poll
pending, the first station of the search without a job takes the cursor, and its poll is pending or has begun; outside LINE
no poll is made. A poll reply taken makes a station without a job READY where it is current and SEEN where it is not, and
counts as any reply for one with a job; it sets an entrance unit's leaf state (to what a live status OK leaves is open, log
43); and one that is not current creates a job of origin POLL for a station without one. A poll whose retries are exhausted,
whatever its endings (for a NAK among them logs 24 and 41), makes its station ABSENT and creates a job of origin LINK. The
poll of a NODE QUERY does the same, then QUERY RESULT is posted with the reply or NO_REPLY, and the query is no longer
pending (R26, R51, R52, R58, R71, R72, R87, R90, R101, R102, R111, R112, R114). -/
def Obligations.PollsMadeAndAnswered : Prop :=
  (∀ (s : State) (left : Timebase) (due : Time) (l : Lane), s.dueNow (.pollInterval l) left due →
    (∀ n, s.supply.state = .line → (s.lane l).pendingPoll = none →
      ((pollOrder l s).find? fun m => !(s.hasJob m)) = some n →
      ∃ u : State, exec (.pollIntervalExpiry l) s = .next u ∧
        u.timebase.dueOf (.pollInterval l) = some (due + ms s.settings.pollInterval) ∧
        (u.lane l).cursor = some n ∧
        ((u.lane l).pendingPoll = some n ∨ (u.lane l).txn.map (·.owner) = some (.poll n)) ∧
        u.supply = s.supply ∧ u.stations = s.stations ∧ u.link = s.link ∧ u.pins = s.pins ∧ u.car = s.car ∧
        u.pushA = s.pushA ∧ u.pushB = s.pushB ∧ u.settings = s.settings ∧ u.query = s.query ∧
        u.engine.queue.map (·.station) = s.engine.queue.map (·.station) ∧ u.store.slots = s.store.slots ∧
        u.flash = s.flash) ∧
    (s.supply.state ≠ .line →
      ∃ (tb : Timebase) (x : Store),
        exec (.pollIntervalExpiry l) s = .next { s with timebase := tb, store := x } ∧
        tb.dueOf (.pollInterval l) = some (due + ms s.settings.pollInterval) ∧ tb.count = s.timebase.count ∧
        x =
          { s.store with queue := x.queue, running := x.running, chipSelect := x.chipSelect, prepared := x.prepared })) ∧
  ∀ (s : State) (l : Lane) (t : Txn) (n : Nat) (st : Station), (s.lane l).txn = some t → t.step = .poll →
    t.station = some n → s.station? n = some st → s.supply.state = .line →
    (t.owner = .poll n ∨ (t.owner = .query n ∧ s.query = some n)) →
    let told := fun (c : Instr) (base : State) (origin : Option Origin) (presence : State) (result : NoticeBody)
        (more : State → Prop) =>
      let posted := if t.owner = .query n then postNotice result presence else presence
      ∃ u : State, exec c s = .next (lanesAct u) ∧ u.link = posted.link ∧ u.pins = posted.pins ∧
        u.query = (if t.owner = .query n then none else s.query) ∧ base.outcomeTold l u ∧
        (∀ m, m ≠ n → u.station? m = s.station? m) ∧
        (∀ o, origin = some o → s.hasJob n = false → base.jobCreated n o u) ∧
        (origin = none ∨ s.hasJob n = true →
          u.engine = s.engine ∧ u.pushA = s.pushA ∧ u.pushB = s.pushB ∧
            u.timebase = base.timebase.remove (.responseWindow l)) ∧ more u
    (∀ (frame : List Byte) (p : Report) (live : LiveStatus), s.runs = true →
      t.answer frame = .reply (.pollReport p live) →
      let current := p.state = .running ∧ p.epoch = st.context.epoch
      let presence := if s.hasJob n then (if st.presence = .absent then .seen else st.presence)
        else if current then .ready else .seen
      told (.laneReplyReceived l frame) s (if current then none else some .poll) (setPresence n presence s)
        (.queryReport n p live) fun u => ∃ leaf : Option LiveStatus,
          u.station? n = some { st with presence := presence, context := { st.context with leaf := leaf } } ∧
          (st.entry.kind ≠ .entrance → leaf = st.context.leaf) ∧
          (st.entry.kind = .entrance → live ≠ .ok → leaf = some live)) ∧
    ∀ (c : Instr) (e : Ending) (base : State), s.attemptEnds l t c e base → t.limit < t.attempt →
      told c base (some .link) (setPresence n .absent base) (.queryNoReply n) fun u =>
        u.station? n = some { st with presence := .absent }

/-- A reply with a good check and another sequence number or address, or of a kind that does not answer the step, is marked
as stale in its attempt and changes nothing else; with no transaction in flight it changes nothing at all (R99), and so does
one to a transaction that a gap begin or ENGINE RESTART abandoned, while another is in flight (R65, R99, R116, R117). That the
part knows such a reply by the address and sequence number of a frame of any attempt of that transaction, until a frame with
both begins, is the model's choice (log 47). -/
def Obligations.LateRepliesOnlyMark : Prop :=
  (∀ (s : State) (l : Lane) (frame : List Byte) (raw : RawReply), s.runs = true → readReplyFrame frame = some raw →
    ((s.lane l).txn = none → exec (.laneReplyReceived l frame) s = .next s) ∧
    ∀ t : Txn, (s.lane l).txn = some t → t.station.isSome = true →
      let other := raw.sequence ≠ t.sequence ∨ raw.address ≠ t.address
      let late := { address := raw.address, sequence := raw.sequence } ∈ (s.lane l).abandoned
      (other → late → exec (.laneReplyReceived l frame) s = .next s) ∧
      ((other ∧ ¬late) ∨ (¬other ∧ readAnswer t.step raw.kind raw.payload = .unpaired) →
        ∃ u : State, exec (.laneReplyReceived l frame) s = .next u ∧ (u.lane l).txn = some { t with stale := true } ∧
          u = s.setLane l { s.lane l with txn := some { t with stale := true } })) ∧
  (∀ (x : LaneState) (i : FrameId),
    i ∈ x.abandonedFrames ↔ i ∈ x.abandoned ∨ ∃ t : Txn, x.txn = some t ∧ t.station.isSome = true ∧
      i.address = t.address ∧ i.sequence < 16 ∧
      ∃ k, k < t.attempt ∧ (i.sequence + k) % 16 = t.sequence % 16) ∧
  ∀ (s : State) (l : Lane) (t : Txn) (i : FrameId),
    i ∈ ((beginAttempt l t s).lane l).abandoned ↔
      i ∈ (s.lane l).abandoned ∧ ¬(i.address = frameAddress t s ∧ i.sequence = (s.lane l).seq)

/-- A push acknowledged with the record's epoch leaves its push list; one acknowledged with another epoch keeps its place
and mark. A push that is refused, with any NAK but BUSY, leaves its list, and a job of origin LINK is created for its
station; so does one whose retries are exhausted, whose station is then ABSENT too (R51, R52, R54, R63, R64, R72, R87, R90,
R101, R102; that a reply counts for presence where it ends an attempt in error is log 24, and that the entry for the station
owns the push, though it has left its list and was joined anew meanwhile, is log 48). -/
def Obligations.PushesDeliveredAndLost : Prop :=
  ∀ (s : State) (l : Lane) (t : Txn) (n : Nat) (st : Station) (p : Push), (s.lane l).txn = some t →
    t.step = .context → t.owner = .push n → t.station = some n → s.push? n = some p → s.station? n = some st →
    s.queueDistinct →
    (∀ frame : List Byte, s.runs = true →
      let told := presenceReply n s
      (∀ epoch, t.answer frame = .reply (.contextAck epoch) →
        ∃ u : State, exec (.laneReplyReceived l frame) s = .next (lanesAct u) ∧
          u.pushA = (if epoch = st.context.epoch then s.pushA.filter (·.station ≠ n) else s.pushA) ∧
          u.pushB = (if epoch = st.context.epoch then s.pushB.filter (·.station ≠ n) else s.pushB) ∧
          u.link = told.link ∧ u.pins = told.pins ∧ u.stations = told.stations ∧ u.engine = s.engine ∧
          u.query = s.query ∧ told.outcomeTold l u) ∧
      (∀ reason f, reason ≠ .busy → t.answer frame = .reply (.nak reason f) → s.supply.state = .line →
        ∃ u : State, exec (.laneReplyReceived l frame) s = .next (lanesAct u) ∧ told.jobCreated n .link u ∧
          u.link = told.link ∧ u.pins = told.pins ∧ u.stations = told.stations ∧ u.query = s.query ∧
          told.outcomeTold l u)) ∧
    ∀ (c : Instr) (e : Ending) (told : State), s.attemptEnds l t c e told → t.limit < t.attempt →
      s.supply.state = .line →
      let lost := setPresence n .absent told
      ∃ u : State, exec c s = .next (lanesAct u) ∧ told.jobCreated n .link u ∧
        (u.station? n).map (·.presence) = some .absent ∧ u.link = lost.link ∧ u.pins = lost.pins ∧
        u.stations = lost.stations ∧ u.query = s.query ∧ told.outcomeTold l u

/-- A BLOCK frame to address 31 ends: the group count rises by one, a fill round of every member in LOAD opens at each
multiple of 16 and at the image length, the lane's driver is released, and the frame's buffer is given up, FREE and offered
to the wait list, before the lane plans again and acts (R130, R131, R134, R135, R144). When a lane plans, it keeps the
buffers of its holder's needed blocks, and releases every other, which is FREE at once, or, where it is FILLING, stays the
lane's until its read ends (R134, R136). A needed block that no buffer of the lane then holds is asked for, in a request for
as many buffers as bring the lane to two or cover the missing blocks, but where the lane owns two; a buffer granted is
FILLING, with the READ of its block queued; and a lane that misses none asks for none (R134, R143). The head request of the
wait list is granted the first FREE buffer, and its count falls by one: a lane fills it with its lowest missing block, or
leaves it FREE where it misses none; the image write takes it; the park writer puts page 1 of the park image in it, with its
PROGRAM at the head of the queue; and so on, until no buffer is FREE or none is asked for (R134, R143, R144, R169). Which of
several FREE buffers is granted, and the place of a request whose count changes, are the model's choices (log 55), and so is
that a buffer given back holds no block (log 44). -/
def Obligations.GroupFramesAndBuffers : Prop :=
  (∀ (s : State) (l : Lane) (t : Txn) (first : Nat) (others : List Nat) (count : Nat) (round : Option (List Nat)),
    s.runs = true → (s.lane l).txn = some t → t.owner = .group →
    (s.lane l).holder = some (.group (first :: others) count round) →
    let opened : Option (List Nat) :=
      if (count + 1) % 16 = 0 ∨ count + 1 = s.lengthOf first then
        some ((first :: others).filter fun n => (s.job? n).any (·.state = .load))
      else none
    let x : LaneState :=
      { s.lane l with
        txn := none, driver := .released, holder := some (.group (first :: others) (count + 1) opened) }
    exec (.groupFrameEnd l) s =
      .next (lanesAct (planBuffers l (grantBuffers ((s.setLane l x).setBuffer t.buffer Buffer.unowned))))) ∧
  (∀ (s : State) (l : Lane), s.storeBounded → s.waitListSound →
    let t := planBuffers l s
    t =
      { s with
        store := { s.store with buffers := t.store.buffers, waitList := t.store.waitList, queue := t.store.queue }
        park := { s.park with phase := t.park.phase } } ∧
    (∀ i ∈ t.heldBy l, t.needs l (t.buffer i).slot (t.buffer i).block ∧
      ((i ∈ s.heldBy l ∧ t.buffer i = s.buffer i) ∨
        (t.buffer i = Buffer.fillingFor l (t.buffer i).slot (t.buffer i).block ∧
          FlashOp.fills l i (t.buffer i).slot (t.buffer i).block ∈ t.store.queue))) ∧
    (∀ i ∈ s.heldBy l, (s.buffer i).state ≠ .free →
      (s.needs l (s.buffer i).slot (s.buffer i).block → t.buffer i = s.buffer i) ∧
      (¬s.needs l (s.buffer i).slot (s.buffer i).block → (s.buffer i).state = .filling →
        t.buffer i = { s.buffer i with released := true })) ∧
    (∀ i, (s.buffer i).state ≠ .free → (s.buffer i).owner ≠ some (.lane l) → t.buffer i = s.buffer i) ∧
    (∀ slot block, t.misses l slot block →
      (t.ownedBy (.lane l)).length = 2 ∨ ∃ r ∈ t.store.waitList, r.who = .lane l) ∧
    (∀ r ∈ t.store.waitList, r.who = .lane l →
      (∃ slot block, t.misses l slot block) ∧ r.count ≤ 2 - (t.ownedBy (.lane l)).length ∧
        (r.count = 2 ↔
          t.ownedBy (.lane l) = [] ∧ ∃ slot block, t.misses l slot block ∧ t.misses l slot (block + 1))) ∧
    (t.store.waitList = [] ∨ ∀ i, i < 4 → (t.buffer i).state ≠ .free)) ∧
  (∀ s : State, s.store.waitList = [] ∨ (∀ i, i < 4 → (s.buffer i).state ≠ .free) → grantBuffers s = s) ∧
  ∀ (s : State) (r : BufferRequest) (rest : List BufferRequest) (i : Nat), s.storeBounded → s.waitListSound →
    s.store.waitList = r :: rest → i < 4 → (s.buffer i).state = .free → (∀ k, k < i → (s.buffer k).state ≠ .free) →
    let taken : State :=
      { s with
        store := { s.store with waitList := if r.count = 1 then rest else { r with count := r.count - 1 } :: rest } }
    (∀ l, r.who = .lane l →
      ((∀ slot block, ¬s.misses l slot block) → grantBuffers s = grantBuffers taken) ∧
      ∀ slot block, s.misses l slot block → (∀ x y, s.misses l x y → block ≤ y) →
        (s.ownedBy (.lane l)).length < 2 →
        grantBuffers s =
          grantBuffers
            (queueOp (FlashOp.fills l i slot block) (taken.setBuffer i (Buffer.fillingFor l slot block)))) ∧
    (∀ w, r.who = .imageWrite → s.store.imageWrite = some w →
      grantBuffers s =
        grantBuffers
          (taken.setBuffer i
            { owner := some .imageWrite, slot := w.slot, block := 0, state := .full, crc := 0, data := []
              released := false })) ∧
    (r.who = .parkWriter →
      grantBuffers s =
        grantBuffers
          (queueOpFirst s.parkPage1.2
            (State.setBuffer { taken with park := { s.park with phase := .page1 } } i s.parkPage1.1)))

/-- After an event each lane without a holder selects one, the flash operation at the head is issued, and each free lane's
arbiter chooses, lane A before lane B (the order of these acts is the model's choice, log 14). A lane without a holder makes
its first job in LOADWAIT the holder: a resume alone, in LOAD, or in CLOSE where its fill mark is the image length; one that
needs OPEN in OPEN, and with group loading on as the first of a group with the other such jobs of its lane and slot, in
queue order, eight in all at most (R79, R119, R120). A free lane begins the step that its arbiter chooses, with attempt 1
and the retry limit and response window of that moment; the job's in-flight mark is set and its retries are none, a BLOCK's
buffer is SENDING and counts one more block sent for its job, or for each member of its group in LOAD, and a pending poll
that begins is pending no longer (R77, R96, R97, R101, R104, R105, R125, R130, R135). Its driver is enabled for a frame put
on the lane (R98). Nothing else changes that is not the lanes', the store's or a job's progress: of the deadlines only the
response windows and the store operation timeout; and a transaction in flight stays, with its sequence count and its
response window, as does a flash operation that runs, with its timeout. Outside LINE, and until loading has ended, no lane
selects or begins anything (R97, R138). A reply with the address and sequence number of a frame that begins is no abandoned
frame's any more (the model's choice, log 47). -/
def Obligations.LanesActAfterEvents : Prop :=
  ∀ s : State,
    let t := lanesAct s
    let ready := issueFlash (selectHolder .b (selectHolder .a s))
    let choosing := fun (l : Lane) => match l with
      | .a => ready
      | .b => arbitrate .a ready
    let begun := fun (n : Nat) => ∃ l id, (s.lane l).txn = none ∧ (t.lane l).txn.map (·.owner) = some (.job n id)
    (s.alikeOutsideLanes t ∧ t.store.slots = s.store.slots ∧
      (∀ p, (∀ l, p ≠ .responseWindow l) → p ≠ .storeOperation → t.timebase.dueOf p = s.timebase.dueOf p) ∧
      (∀ l, (s.lane l).txn.isSome = true →
        (t.lane l).txn = (s.lane l).txn ∧ (t.lane l).seq = (s.lane l).seq ∧ (t.lane l).driver = (s.lane l).driver ∧
          t.timebase.dueOf (.responseWindow l) = s.timebase.dueOf (.responseWindow l)) ∧
      (s.store.running.isSome = true →
        t.store.running = s.store.running ∧ t.store.chipSelect = s.store.chipSelect ∧
          t.timebase.dueOf .storeOperation = s.timebase.dueOf .storeOperation)) ∧
    (s.lanesOpen = false → t = issueFlash s) ∧
    (∀ l, ((s.lane l).holder.isSome = true ∨ ∀ j ∈ s.engine.queue, ¬s.waits l j) →
      (t.lane l).holder = (s.lane l).holder) ∧
    (s.queueDistinct → s.lanesOpen = true → ∀ (l : Lane) (j : Job), (s.lane l).holder = none →
      s.firstJob (s.waits l) j →
      (j.needsOpen = false →
        (t.lane l).holder = some (.single j.station) ∧
        (t.job? j.station).map (·.state) = some (if j.fill = s.lengthOf j.station then .close else .load)) ∧
      (j.needsOpen = true →
        let others := s.engine.queue.filter fun x =>
          decide (x.state = .loadwait ∧ s.onLane l x.station = true ∧ x.needsOpen = true ∧ x.station ≠ j.station ∧
            s.slotOf x.station = s.slotOf j.station)
        let members := if s.settings.groupLoading then ((j :: others).take 8).map (·.station) else [j.station]
        (t.lane l).holder = some (if members.length = 1 then .single j.station else .group members 0 none) ∧
          ∀ n ∈ members, (t.job? n).map (·.state) = some .opn)) ∧
    (s.queueDistinct → ∀ (n : Nat) (j : Job), s.job? n = some j →
      ∃ x : Job, t.job? n = some x ∧ j.workedOn x ∧
        (j.state ≠ .loadwait ∨ (∀ l h, (t.lane l).holder = some h → n ∉ h.stations) → x.state = j.state) ∧
        (begun n → x.inFlight = true ∧ x.retriesUsed = 0) ∧
        (¬begun n → x.inFlight = j.inFlight ∧ x.retriesUsed = j.retriesUsed) ∧
        (s.holdersDistinct →
          let blocks := ([Lane.a, .b].filter fun l => (s.lane l).txn.isNone && t.blockCounts l n x.state).length
          x.blocksSent = if blocks = 0 then j.blocksSent else min 65535 (j.blocksSent + blocks))) ∧
    ∀ l : Lane, s.laneFree l = true → s.lanesOpen = true →
      (arbiterChoice l (choosing l) = none →
        (t.lane l).txn = none ∧ (t.lane l).driver = (s.lane l).driver ∧ (t.lane l).lastTurn = (s.lane l).lastTurn ∧
          (t.lane l).pendingPoll = (s.lane l).pendingPoll ∧ (t.lane l).seq = (s.lane l).seq ∧
          (t.lane l).abandoned = (s.lane l).abandoned) ∧
      ∀ (turn : Turn) (kind : TurnKind), arbiterChoice l (choosing l) = some (turn, kind) →
        ∃ x : Txn, (t.lane l).txn = some x ∧ x.step = turn.step ∧ x.owner = turn.owner ∧ x.station = turn.station ∧
          x.index = turn.index ∧ x.buffer = turn.buffer ∧ x.attempt = 1 ∧ x.endings = [] ∧
          x.limit = s.settings.retryLimit ∧ x.rate = s.settings.rate l ∧ x.stale = false ∧
          x.sequence = (s.lane l).seq ∧ (t.lane l).seq = ((s.lane l).seq + 1) % 16 ∧ (t.lane l).lastTurn = kind ∧
          (t.lane l).driver = (if x.frame.isSome then .inUse else .released) ∧
          (t.lane l).abandoned =
            (s.lane l).abandoned.filter (· ≠ { address := x.address, sequence := x.sequence }) ∧
          ((∃ n, turn.owner = .poll n) → (t.lane l).pendingPoll = none) ∧
          ((∀ n, turn.owner ≠ .poll n) → (t.lane l).pendingPoll = (s.lane l).pendingPoll) ∧
          (turn.step = .block → (t.buffer turn.buffer).state = .sending) ∧
          (turn.station.isSome = true →
            t.timebase.dueOf (.responseWindow l) = some (s.timebase.count + ms (s.settings.responseWindow l)))

/-- The arbiter takes the first urgent push in list order, then a restore step, then the first push of all, then the NODE
QUERY where its station is on the lane, then the pending poll, and nothing only where none of these is there; pushes are
CONTEXT steps, the query and polls POLL steps, and all of these keep the last turn kind (R105). Of restore steps, after a
turn of kind LOAD the first job of the lane in PROBE, START or REPLAY with its in-flight mark clear goes before the holder's
ready step, and otherwise after it (R106; Figure 5-10 shows another order once, log 39); the holder's step makes the turn
kind LOAD, the other OTHER. The holder's next step is that of Figure 7-2: of a job alone OPEN, BLOCK at its fill mark or
CLOSE; of a group OPEN to its first member in OPEN, FILL to the first of an open round, BLOCK at the group count to address
31, or CLOSE to its first member in CLOSE; a BLOCK is ready only where a buffer of the lane is FULL with it (R106, R129 to
R132). -/
def Obligations.ArbiterOrder : Prop :=
  ∀ (l : Lane) (s : State),
    let last := (s.lane l).lastTurn
    (∀ (before rest : List Push) (p : Push), s.pushes l = before ++ p :: rest → (∀ q ∈ before, q.urgent = false) →
      p.urgent = true → arbiterChoice l s = some (Turn.plain .context (.push p.station) p.station, last)) ∧
    ((∀ p ∈ s.pushes l, p.urgent = false) →
      (∀ x, restoreTurn l s = some x → arbiterChoice l s = some x) ∧
      (restoreTurn l s = none →
        (∀ p rest, s.pushes l = p :: rest →
          arbiterChoice l s = some (Turn.plain .context (.push p.station) p.station, last)) ∧
        (s.pushes l = [] →
          (∀ n, s.query = some n → s.onLane l n = true →
            arbiterChoice l s = some (Turn.plain .poll (.query n) n, last)) ∧
          ((∀ n, s.query = some n → s.onLane l n = false) →
            (∀ n, (s.lane l).pendingPoll = some n →
              arbiterChoice l s = some (Turn.plain .poll (.poll n) n, last)) ∧
            ((s.lane l).pendingPoll = none → arbiterChoice l s = none))))) ∧
    (let barren := ∀ j ∈ s.engine.queue, ¬s.eligible l j;
      (∀ j, s.firstJob (s.eligible l) j →
        let other : Turn :=
          Turn.ofJob (if j.state = .probe then .probe else if j.state = .start then .start else .context) j
        (last = .load ∨ holderTurn l s = none → restoreTurn l s = some (other, .other))) ∧
      (∀ turn, holderTurn l s = some turn → last ≠ .load ∨ barren → restoreTurn l s = some (turn, .load)) ∧
      (holderTurn l s = none → barren → restoreTurn l s = none)) ∧
    ((s.lane l).holder = none → holderTurn l s = none) ∧
    (∀ (n : Nat) (j : Job), (s.lane l).holder = some (.single n) → s.job? n = some j →
      (j.state = .opn → holderTurn l s = some (Turn.ofJob .opn j)) ∧
      (j.state = .load →
        ((∀ i, ¬s.fullWith l (s.slotOf n) j.fill i) → holderTurn l s = none) ∧
        ((∃ i, s.fullWith l (s.slotOf n) j.fill i) →
          ∃ i, s.fullWith l (s.slotOf n) j.fill i ∧
            holderTurn l s = some { Turn.ofJob .block j with index := j.fill, buffer := i })) ∧
      (j.state = .close → holderTurn l s = some (Turn.ofJob .close j))) ∧
    ∀ (n : Nat) (others : List Nat) (count : Nat) (round : Option (List Nat)),
      (s.lane l).holder = some (.group (n :: others) count round) →
      let opening := ∃ m ∈ n :: others, ∃ j, s.job? m = some j ∧ j.state = .opn
      (∀ j, s.firstOf (n :: others) (·.state = .opn) j → holderTurn l s = some (Turn.ofJob .opn j)) ∧
      (¬opening →
        (∀ r j, round = some r → s.firstOf r (fun _ => True) j → holderTurn l s = some (Turn.ofJob .fill j)) ∧
        (round = none → count < s.lengthOf n →
          ((∀ i, ¬s.fullWith l (s.slotOf n) count i) → holderTurn l s = none) ∧
          ((∃ i, s.fullWith l (s.slotOf n) count i) →
            ∃ i, s.fullWith l (s.slotOf n) count i ∧
              holderTurn l s = some { step := .block, owner := .group, station := none, index := count, buffer := i })) ∧
        (round = none → s.lengthOf n ≤ count →
          ∀ j, s.firstOf (n :: others) (·.state = .close) j → holderTurn l s = some (Turn.ofJob .close j)))

/-- A CONTEXT frame without an injection carries the epoch, the release and the present fields as they stand at its frame
start, at the station's own address and with the lane's sequence number; the release is GRANTED only for an entrance unit at
STANDSTILL, with its side or BOTH released and its service mode present and IN_SERVICE (R60, R96, R98, R110). -/
def Obligations.ContextFrameCarriesRelease : Prop :=
  ∀ (l : Lane) (t : Txn) (s : State) (n : Nat) (st : Station), t.step = .context → t.station = some n →
    s.station? n = some st → (s.lane l).injection = none →
    let granted := st.entry.kind = .entrance ∧ s.car.motion = .standstill ∧
      ((∃ side, st.entry.side = some side ∧
        (s.car.side = .both ∨ (s.car.side = .left ∧ side = .left) ∨ (s.car.side = .right ∧ side = .right)))) ∧
      st.context.fields.serviceMode = some 0
    ∃ (x : Txn) (release : Byte), ((beginAttempt l t s).lane l).txn = some x ∧
      x.frame =
        some (laneFrame st.entry.address (s.lane l).seq 0x16
          (le16 st.context.epoch ++ [release] ++ st.context.fields.bytes)) ∧
      (granted → release = 1) ∧ (¬granted → release = 0) ∧ x.address = st.entry.address ∧
      x.sequence = (s.lane l).seq ∧ ((beginAttempt l t s).lane l).seq = ((s.lane l).seq + 1) % 16 ∧
      (beginAttempt l t s).timebase.dueOf (.responseWindow l) =
        some (s.timebase.count + ms (s.settings.responseWindow l))

/-- An accepted LANE INJECT becomes the lane's pending injection. Each frame begun lowers its count, and until it reaches 0
frames go out unaltered. The frame that brings it to 0 is altered, with the sequence count advanced as ever, and the
injection is cleared: a DROP puts no byte on the lane; a FLIP on a BLOCK frame inverts one bit of the 256 bytes after tag
and index, under a CRC-16 that is right for the altered frame; and a CORRUPT, like a FLIP on any other frame, sends the
frame's own bytes under a CRC-16 that is not theirs (R115; which bit, and which CRC-16, is open, log 19). -/
def Obligations.InjectionAltersAFrame : Prop :=
  (∀ (s : State) (tag a k n : Byte) (l : Lane) (kind : InjectionKind), s.serves → laneOfCode a.toNat = some l →
    InjectionKind.ofCode k.toNat = some kind → 1 ≤ n.toNat → n.toNat ≤ 8 →
    exec (.laneInject tag [a, k, n]) s =
      .next
        ((s.setLane l { s.lane l with injection := some { kind := kind, count := n.toNat } }).replying 0x15 tag .ok
          [])) ∧
  ∀ (l : Lane) (t : Txn) (s : State) (kind : InjectionKind) (n : Nat),
    (s.lane l).injection = some { kind := kind, count := n + 1 } →
    let payload := framePayload l t s
    let frame := laneFrame (frameAddress t s) (s.lane l).seq t.step.code
    ∃ x : Txn, ((beginAttempt l t s).lane l).txn = some x ∧
      ((beginAttempt l t s).lane l).seq = ((s.lane l).seq + 1) % 16 ∧
      (0 < n →
        ((beginAttempt l t s).lane l).injection = some { kind := kind, count := n } ∧ x.frame = some (frame payload)) ∧
      (n = 0 → ((beginAttempt l t s).lane l).injection = none ∧
        (kind = .drop → x.frame = none) ∧
        (kind = .flip → t.step = .block →
          ∃ i bit, i < 256 ∧ bit < 8 ∧
            x.frame = some (frame (payload.set (6 + i) (payload.getD (6 + i) 0 ^^^ byte (2 ^ bit))))) ∧
        (kind = .corrupt ∨ (kind = .flip ∧ t.step ≠ .block) →
          ∃ (body : List Byte) (crc : Half), frame payload = body ++ le16 (crc16 body).toNat ∧ crc ≠ crc16 body ∧
            x.frame = some (body ++ le16 crc.toNat)))

/-! ### The store -/

/-- What a program and an erase do to the flash: a program turns ones into zeros within its block and nowhere else, an
erase sets every byte of its sector to all ones and no other byte (R137). -/
def Obligations.FlashProgramAndErase : Prop :=
  ∀ (f : Flash) (region block sector : Nat) (data : List Byte) (a : Nat), Memory.wf f.cells = true →
    data.length = 256 →
    Memory.read (f.program region block data).cells a =
      (if region * 1048576 + block * 256 ≤ a ∧ a < region * 1048576 + block * 256 + 256 then
        Memory.read f.cells a &&& data.getD (a - (region * 1048576 + block * 256)) 0xFF
      else Memory.read f.cells a) ∧
    Memory.read (f.erase region sector).cells a =
      (if region * 1048576 + sector * 65536 ≤ a ∧ a < region * 1048576 + sector * 65536 + 65536 then 0xFF
      else Memory.read f.cells a)

/-- A flash operation completes: the flash is no longer selected, its timeout is removed, a PROGRAM or ERASE has changed the
flash, and its requester has the result, the block stored or the bytes that the command gives for it (log 8), before the
next operation is issued and the lanes act. With none running the device ends what it was left with (log 10). A lane's READ
makes its buffer FULL, or FREE where it was released meanwhile, after which the lane plans again (which is log 26). The
image write erases its 16 sectors and receives; its buffer is FULL again after a block; the readback goes block by block,
and ends with the header's PROGRAM, or CHECK; the header makes the slot VALID, with OK. The config save programs its blocks,
reads them back, and ends with OK or CHECK. A marked slot leaves the mark list, and the next is taken. The park writer goes
from page 1 to page 2, and then the part is PARKED. The loader reads the config record, the slot headers and the park
record; as the park area's ERASE is issued, loading ends: STARTED is posted, the poll intervals are set, and in LINE the
first pass is built; its completion sets park-area-prepared. In a park the loader's operations have no effect (R174), nor
have those of a save or a write that has ended, but that the write's buffer, given back, is FREE (R144, R152). A STATUS
completes when the device has ended what it was left with; the one that a failure placed frees the buffer that an image
write gave back as it failed, and offers it to the wait list (R66, R112, R135, R138, R140 to R147, R149, R151, R153, R169,
R170, R172 to R174; the padding of a config block is log 32, what a block that is not good holds, and what a failed
operation leaves, is log 9, when a failed write's buffer is freed is log 11, that block 1 is not read after a bad header is
log 46, and that a save that ends with CHECK leaves the flash as it is is log 49). -/
def Obligations.FlashCompletions : Prop :=
  (∀ (s : State) (given : Option (List Byte)), s.runs = true → s.store.running = none →
    ∃ u : State, exec (.flashOpComplete given) s = .next u ∧ s.deviceReady u) ∧
  ∀ (s : State) (op : FlashOp) (given : Option (List Byte)), s.runs = true → s.store.running = some op →
    (∀ bytes, given = some bytes → bytes.length = 256) →
    let base : State :=
      { s with
        timebase := s.timebase.remove .storeOperation
        store := { s.store with running := none, chipSelect := .released }
        flash := match op.command with
          | .program region block data => s.flash.program region block data
          | .erase region sector => s.flash.erase region sector
          | _ => s.flash }
    let next := fun (u : State) => exec (.flashOpComplete given) s = .next (lanesAct (issueNext u))
    let data := match given, op.command with
      | some bytes, _ => bytes
      | none, .read region block => s.flash.block region block
      | none, _ => []
    let writing := fun (w : ImageWrite) (x : State) => { x with store := { x.store with imageWrite := some w } }
    let saving := fun (c : ConfigSave) (x : State) => { x with store := { x.store with configSave := some c } }
    let loading := fun (x : Loader) => { base with loader := x }
    (∀ (l : Lane) (i region block : Nat), op = { command := .read region block, who := .lane l i } →
      i < 4 → s.store.buffers.length = 4 → (s.buffer i).released = false →
      next (base.setBuffer i { s.buffer i with state := .full, crc := crc16 data, data := data })) ∧
    (∀ (l : Lane) (i region block : Nat), op = { command := .read region block, who := .lane l i } →
      (s.buffer i).released = true → next (planBuffers l (grantBuffers (base.setBuffer i Buffer.unowned)))) ∧
    (∀ w : ImageWrite, op.who = .imageWrite → s.store.imageWrite = some w →
      (∀ region sector, w.phase = .erasing → op.command = .erase region sector →
        next
          (if w.sectorsErased + 1 < 16 then
            queueOp { command := .erase w.slot (w.sectorsErased + 1), who := .imageWrite }
              (writing { w with sectorsErased := w.sectorsErased + 1 } base)
          else writing { w with sectorsErased := w.sectorsErased + 1, phase := .receiving } base)) ∧
      (∀ region block bytes i, w.phase = .receiving → op.command = .program region block bytes →
        writeBuffer? s = some i → next (base.setBuffer i { s.buffer i with state := .full })) ∧
      (∀ region block i, w.phase = .checking → op.command = .read region block → writeBuffer? s = some i →
        let crc := crc32Feed w.crcSoFar data;
        (w.readIndex + 1 < w.image.length →
          next
            (queueOp { command := .read w.slot (w.readIndex + 2), who := .imageWrite }
              ((writing { w with crcSoFar := crc, readIndex := w.readIndex + 1 } base).setBuffer i
                { s.buffer i with
                  state := .filling, block := w.readIndex + 1, crc := crc16 data, data := data }))) ∧
        (w.image.length ≤ w.readIndex + 1 → crc32Final crc = w.image.crc →
          next
            (queueOp { command := .program w.slot 0 (headerBlock w.image), who := .imageWrite }
              ((writing { w with crcSoFar := crc, phase := .committing } base).setBuffer i
                { s.buffer i with state := .full, crc := crc16 data, data := data })))) ∧
      (∀ (x : Slot) (outcome : StoreOutcome),
        (w.phase = .checking ∧ (∃ region block, op.command = .read region block) ∧
            w.image.length ≤ w.readIndex + 1 ∧ crc32Final (crc32Feed w.crcSoFar data) ≠ w.image.crc ∧ x = .empty ∧
            outcome = .check) ∨
          (w.phase = .committing ∧ (∃ region block bytes, op.command = .program region block bytes) ∧
            x = .valid w.image 0 ∧ outcome = .ok) →
        s.store.slots.length = 15 → 1 ≤ w.slot → w.slot ≤ 15 →
        ∃ u : State, next u ∧ u.slot w.slot = x ∧ (∀ n, n ≠ w.slot → u.slot n = s.slot n) ∧
          u.store.imageWrite = none ∧ (∀ i, writeBuffer? s = some i → (u.buffer i).owner ≠ some .imageWrite) ∧
          u.link = (postNotice (.storeResult .imageClose w.slot outcome) s).link ∧
          u.pins = (postNotice (.storeResult .imageClose w.slot outcome) s).pins ∧ u.engine = s.engine ∧
          u.stations = s.stations ∧ u.store.configSave = s.store.configSave ∧
          u.store.markList = s.store.markList ∧ u.timebase = base.timebase ∧ u.flash = base.flash)) ∧
    (∀ c : ConfigSave, op.who = .configSave → s.store.configSave = some c →
      (∀ region sector, c.phase = .erasing → op.command = .erase region sector →
        next
          (queueOp { command := .program 0 0 (recordBlock c.record 0), who := .configSave }
            (saving { c with phase := .programming 0 } base))) ∧
      (∀ i region block bytes, c.phase = .programming i → op.command = .program region block bytes →
        next
          (if i + 1 < recordBlocks c.record then
            queueOp { command := .program 0 (i + 1) (recordBlock c.record (i + 1)), who := .configSave }
              (saving { c with phase := .programming (i + 1) } base)
          else
            queueOp { command := .read 0 0, who := .configSave } (saving { c with phase := .reading 0 } base))) ∧
      (∀ i region block, c.phase = .reading i → op.command = .read region block →
        (data = recordBlock c.record i → i + 1 < recordBlocks c.record →
          next
            (queueOp { command := .read 0 (i + 1), who := .configSave }
              (saving { c with phase := .reading (i + 1) } base))) ∧
        (data ≠ recordBlock c.record i ∨ recordBlocks c.record ≤ i + 1 →
          next
            (postNotice
              (.storeResult .configSave 0 (if data = recordBlock c.record i then .ok else .check))
              { base with store := { base.store with configSave := none } })))) ∧
    (∀ slot region block bytes, op = { command := .program region block bytes, who := .markWriter slot } →
      (∀ x ∈ s.store.queue, x.who.isMarkWriter = false) →
      let rest := s.store.markList.filter (· ≠ slot)
      let u : State := { base with store := { base.store with markList := rest } }
      next
        (match rest with
          | [] => u
          | n :: _ => queueOp { command := .program n 0 markData, who := .markWriter n } u)) ∧
    (∀ region block bytes, op = { command := .program region block bytes, who := .parkWriter } →
      (∀ i, s.park.phase = .page1 → (s.ownedBy .parkWriter).head? = some i →
        let page := (s.park.image.drop 256).take 240 ++ List.replicate 16 0xFF
        next
          (queueOpFirst { command := .program 0 257 page, who := .parkWriter }
            (State.setBuffer { base with park := { s.park with phase := .page2 } } i
              { s.buffer i with
                block := 257, state := .programming, crc := crc16 page, data := page }))) ∧
      (s.park.phase = .page2 → s.supply.state = .parking → s.supply.heldRise = false →
        (∀ x ∈ s.store.waitList, x.who ≠ .parkWriter) →
        ∃ t : State, exec (.flashOpComplete given) s = .next t ∧ t.supply = { s.supply with state := .parked } ∧
          t.timebase.dueOf .holdupSample = none ∧ t.store.running = none ∧ t.park.phase = .ended ∧
          t.engine = s.engine ∧ t.stations = s.stations ∧ t.link = s.link ∧ t.pins = s.pins ∧
          t.timebase.count = s.timebase.count ∧ t.store.slots = s.store.slots ∧ t.flash = base.flash)) ∧
    (op.who = .loader → s.loadingEnded = false → s.silent = false →
      let headers : Loader := { s.loader with step := .headers, held := [], nextSlot := 1 }
      let readHeaders := queueOp { command := .read 1 0, who := .loader };
      (s.loader.step = .status → op.command = .status →
        ∃ u : State, base.deviceReady u ∧
          next
            (queueOp { command := .read 0 0, who := .loader }
              { u with loader := { s.loader with step := .config } })) ∧
      (∀ region block, s.loader.step = .config → op.command = .read region block →
        (s.loader.held = [] → (configLength data = none ∨ s.torn 0 0 = true) →
          next (readHeaders (loading headers))) ∧
        (∀ len, s.loader.held = [] → configLength data = some len → s.torn 0 0 = false → 256 < len →
          next (queueOp { command := .read 0 1, who := .loader } (loading { s.loader with held := data }))) ∧
        (let record : Option (List Byte) :=
            if s.loader.held = [] then
              if (configLength data).any (· ≤ 256) = true ∧ s.torn 0 0 = false then some data else none
            else if s.torn 0 1 then none else some (s.loader.held ++ data);
          (s.loader.held ≠ [] → record.bind readConfig = none → next (readHeaders (loading headers))) ∧
          (s.loader.held = [] → ∀ bytes, record = some bytes → readConfig bytes = none →
            next (readHeaders (loading headers))) ∧
          ∀ x es, record.bind readConfig = some (x, es) →
            ∃ sts : List Station,
              next
                (readHeaders
                  { loading { headers with configFinding := .loaded } with settings := x, stations := sts }) ∧
              (sts.map (·.entry)).Perm es ∧ (sts.map (·.entry.number)).Pairwise (· < ·) ∧
              ∀ st ∈ sts, st = Station.defined st.entry)) ∧
      (∀ region block, s.loader.step = .headers → op.command = .read region block →
        let n := s.loader.nextSlot
        let found := State.setSlot
          (loading { s.loader with step := if n < 15 then .headers else .park, nextSlot := n + 1 }) n
          (if s.torn n 0 then .empty else slotOfHeader data)
        next
          (if n < 15 then queueOp { command := .read (n + 1) 0, who := .loader } found
          else queueOp { command := .read 0 256, who := .loader } found)) ∧
      (∀ region block, s.loader.step = .park → op.command = .read region block →
        (s.loader.held = [] →
          next (queueOp { command := .read 0 257, who := .loader } (loading { s.loader with held := data }))) ∧
        (s.loader.held ≠ [] → s.store.queue = [] →
          let good := parkValid (s.loader.held ++ data) && !(s.torn 0 256 || s.torn 0 257)
          let restored := if good then
            takePlaces (num16At (s.loader.held ++ data) 10) ((s.loader.held ++ data).drop 12) s else s
          let loaded : Loader :=
            { s.loader with
              step := .ended, held := [], parkFinding := if good then .loaded else s.loader.parkFinding }
          let posted := postNotice (.started s.loader.cause s.loader.configFinding loaded.parkFinding)
            { s with loader := loaded }
          ∃ t : State, exec (.flashOpComplete given) s = .next t ∧ t.loader = loaded ∧
            t.store.running = some { command := .erase 0 1, who := .loader } ∧
            t.timebase.dueOf .storeOperation = some (s.timebase.count + 3000) ∧
            (∀ l, t.timebase.dueOf (.pollInterval l) = some (s.timebase.count + ms s.settings.pollInterval)) ∧
            (s.supply.state ≠ .line →
              t.link = posted.link ∧ t.pins = posted.pins ∧ t.engine = s.engine ∧ t.stations = restored.stations) ∧
            (s.supply.state = .line →
              t.engine.pass = nextPass s.engine.pass ∧
              t.stations =
                (restored.stations.map fun st => { st with estimate := { st.estimate with lost := false } }) ∧
              t.link.notices.take posted.link.notices.length = posted.link.notices) ∧
            t.supply = s.supply ∧ t.settings = s.settings ∧ t.timebase.count = s.timebase.count ∧
            t.store.slots = s.store.slots ∧ t.store.prepared = s.store.prepared ∧ t.flash = s.flash))) ∧
    (op.who = .loader → s.loadingEnded = false → (s.silent = true ∨ s.loader.step = .erase) →
      (op.command ≠ .status → next base) ∧
      (op.command = .status → ∃ u : State, base.deviceReady u ∧ next u)) ∧
    (op.who = .configSave → s.store.configSave = none → op.command ≠ .status → next base) ∧
    (op.who = .imageWrite → s.store.imageWrite = none → op.command ≠ .status →
      ((∀ i ∈ s.ownedBy .imageWrite, (s.buffer i).released = false) → next base) ∧
      ∀ i, writeBuffer? s = some i → (s.buffer i).released = true →
        next (grantBuffers (base.setBuffer i Buffer.unowned))) ∧
    (op = { command := .erase 0 1, who := .loader } → s.loadingEnded = true →
      next { base with store := { base.store with prepared := true } }) ∧
    (op = { command := .status, who := .recovery } →
      ∃ u : State, base.deviceReady u ∧
        ((∀ i ∈ s.ownedBy .imageWrite, (s.buffer i).released = false) → next u) ∧
        ∀ i, writeBuffer? s = some i → (s.buffer i).released = true →
          next (grantBuffers (u.setBuffer i Buffer.unowned)) ∧
          (s.store.waitList = [] → next (u.setBuffer i Buffer.unowned)))

/-- The store operation timeout expires, and the running operation has failed (R140, Figure 8-2). An image write ends: its
slot is EMPTY, and STORE RESULT is posted with FAULT (R149); its buffer stays its own, given back, until the STATUS
completes (the model's reading, log 11), and the buffer of one that had ended is FREE at once (R144). A config save ends,
and STORE RESULT is posted with FAULT (R151). A marked slot leaves the mark list and stays SUSPECT, and the next is taken
(R142). The park area's ERASE leaves park-area-prepared as it is (R172), and the operation of a save that was abandoned does
nothing more (R152). A park write ends, and the part is PARKED (R170). Whatever operation has failed, but for the park
writer's, the STATUS stands at the head of the queue and is issued next, so that none other is before the device is ready
(R140). -/
def Obligations.StoreTimeoutsTaken : Prop :=
  (∀ (s : State) (left : Timebase) (due : Time) (op : FlashOp) (w : ImageWrite), s.dueNow .storeOperation left due →
    s.store.running = some op → op.who = .imageWrite → s.store.imageWrite = some w → s.storeBounded →
    1 ≤ w.slot → w.slot ≤ 15 →
    ∃ u : State, exec .storeOperationTimeoutExpiry s = .next (lanesAct (issueNext u)) ∧ u.slot w.slot = .empty ∧
      (∀ n, n ≠ w.slot → u.slot n = s.slot n) ∧ u.store.imageWrite = none ∧ u.store.running = none ∧
      u.store.queue.head? = some { command := .status, who := .recovery } ∧
      (∀ i, writeBuffer? s = some i → u.buffer i = { s.buffer i with released := true }) ∧
      u.link = (postNotice (.storeResult .imageClose w.slot .fault) s).link ∧
      u.pins = (postNotice (.storeResult .imageClose w.slot .fault) s).pins ∧
      u.store.configSave = s.store.configSave ∧ u.store.markList = s.store.markList ∧ u.engine = s.engine ∧
      u.stations = s.stations ∧ u.supply = s.supply ∧ u.timebase = left ∧ u.estimator = s.estimator ∧
      u.car = s.car ∧ u.pushA = s.pushA ∧ u.pushB = s.pushB ∧ u.settings = s.settings ∧ u.laneA = s.laneA ∧
      u.laneB = s.laneB ∧ u.query = s.query ∧ u.loader = s.loader ∧ u.flash.cells = s.flash.cells) ∧
  (∀ (s : State) (left : Timebase) (due : Time) (op : FlashOp), s.dueNow .storeOperation left due →
    s.store.running = some op →
    let told := fun (x : State) (more : List FlashOp) (save : Option ConfigSave) (marks : List Nat) =>
      ∃ f : Flash, f.cells = s.flash.cells ∧
        exec .storeOperationTimeoutExpiry s =
          .next
            (lanesAct
              (issueNext
                { s with
                  timebase := left, flash := f, link := x.link, pins := x.pins
                  store :=
                    { s.store with
                      running := none, chipSelect := .released, buffers := x.store.buffers, configSave := save, markList := marks
                      queue := { command := .status, who := .recovery } :: (s.store.queue ++ more) } }))
    (∀ c : ConfigSave, op.who = .configSave → s.store.configSave = some c →
      told (postNotice (.storeResult .configSave 0 .fault) s) [] none s.store.markList) ∧
    (∀ slot, op.who = .markWriter slot → (∀ x ∈ s.store.queue, x.who.isMarkWriter = false) →
      let rest := s.store.markList.filter (· ≠ slot)
      told s (rest.head?.toList.map fun n => { command := .program n 0 markData, who := .markWriter n })
        s.store.configSave rest) ∧
    ((op.who = .configSave ∧ s.store.configSave = none) ∨ op.who = .loader →
      told s [] s.store.configSave s.store.markList) ∧
    (op.who = .imageWrite → s.store.imageWrite = none →
      ((∀ i ∈ s.ownedBy .imageWrite, (s.buffer i).released = false) →
        told s [] s.store.configSave s.store.markList) ∧
      ∀ i, writeBuffer? s = some i → (s.buffer i).released = true → s.store.waitList = [] →
        told (s.setBuffer i Buffer.unowned) [] s.store.configSave s.store.markList) ∧
    (op.who = .parkWriter → s.supply.state = .parking → s.supply.heldRise = false →
      (∀ x ∈ s.store.waitList, x.who ≠ .parkWriter) →
      ∃ t : State, exec .storeOperationTimeoutExpiry s = .next t ∧ t.supply = { s.supply with state := .parked } ∧
        t.timebase.dueOf .holdupSample = none ∧ t.store.running = none ∧ t.park.phase = .ended ∧
        t.engine = s.engine ∧ t.stations = s.stations ∧ t.link = s.link ∧ t.pins = s.pins ∧
        t.timebase.count = s.timebase.count ∧ t.store.slots = s.store.slots ∧ t.flash.cells = s.flash.cells)) ∧
  ∀ (s : State) (left : Timebase) (due : Time) (op : FlashOp), s.dueNow .storeOperation left due →
    s.store.running = some op → op.who ≠ .parkWriter → s.supply.state ≠ .parked →
    ∃ t : State, exec .storeOperationTimeoutExpiry s = .next t ∧
      t.store.running = some { command := .status, who := .recovery } ∧ t.flash.cells = s.flash.cells

/-- An accepted IMAGE OPEN makes its slot WRITING and the image write ERASING, takes the slot off the mark list, with its
queued mark, and queues the ERASE of the sector 0 of the slot's region behind every other operation, or issues it where
there is none (R138, R139, R142, R145). The write asks for one buffer: where one is FREE and nobody waits it has it at once,
and where none is FREE its request joins the tail of the wait list (R143). The jobs of the slot that were in LOADWAIT leave
the queue as failed with NO_IMAGE, in queue order: the station of each is ABSENT, NODE FAILED follows its presence, and PASS
COMPLETE where the queue of an ACTIVE Engine is then empty (R76, R81, R89). That the next slot's mark, where it is queued
now, goes ahead of the ERASE is the model's choice (log 50). -/
def Obligations.ImageOpenTaken : Prop :=
  ∀ (s : State) (tag : Byte) (payload : List Byte) (slot : Nat) (image : Image), s.serves → payload.length = 14 →
    readOpen payload = some (slot, image) → s.slot slot ≠ .writing → openBusy slot s = false →
    openConflicts slot image.kind s = false → s.store.slots.length = 15 → s.queueDistinct →
    let erase : FlashOp := { command := .erase slot 0, who := .imageWrite }
    let operations := fun (x : State) => x.store.running.toList ++ x.store.queue
    let doomed := s.engine.queue.filter fun j => decide (s.slotOf j.station = slot ∧ j.state = .loadwait)
    let gone := doomed.map (·.station)
    let posted :=
      if doomed = [] then s
      else s.runEnded gone s.engine.restored (s.engine.failed + gone.length) (s.failuresPosted .noImage doomed)
    ∃ u : State, exec (.imageOpen tag payload) s = .next (u.replying 0x10 tag .ok []) ∧ u.slot slot = .writing ∧
      (∀ n, n ≠ slot → u.slot n = s.slot n) ∧ u.link = posted.link ∧ u.pins = posted.pins ∧
      u.stations = posted.stations ∧ (∀ n ∈ gone, ∀ st, u.station? n = some st → st.presence = .absent) ∧
      (∀ n ∈ gone, u.timebase.dueOf (.restoreLimit n) = none) ∧
      u.engine.phase = (if doomed ≠ [] ∧ s.endsRun gone = true then .idle else s.engine.phase) ∧
      u.engine.pass = s.engine.pass ∧ u.engine.restored = s.engine.restored ∧
      (operations u).getLast? = some erase ∧
      (∀ op ∈ operations s, op.who ≠ .markWriter slot → op ∈ operations u) ∧
      (s.store.running = none → s.store.queue = [] → s.store.markList = [] → s.store.waitList = [] → doomed = [] →
        u.store.running = some erase ∧ u.timebase.dueOf .storeOperation = some (s.timebase.count + 3000)) ∧
      (s.storeBounded → s.waitListSound → (∀ l h, (s.lane l).holder = some h → ∀ n ∈ gone, n ∉ h.stations) →
        (s.store.waitList = [] → (∃ i, i < 4 ∧ (s.buffer i).state = .free) →
          u.store.waitList = [] ∧ ∃ i, i < 4 ∧ (u.buffer i).owner = some .imageWrite ∧ (u.buffer i).slot = slot ∧
            (u.buffer i).state = .full) ∧
        ((∀ i, i < 4 → (s.buffer i).state ≠ .free) →
          u.store.waitList = s.store.waitList ++ [{ who := .imageWrite, count := 1 }])) ∧
      (∃ w, u.store.imageWrite = some w ∧ w.slot = slot ∧ w.image = image ∧ w.phase = .erasing ∧ w.nextIndex = 0 ∧
        w.sectorsErased = 0) ∧
      slot ∉ u.store.markList ∧
      u.engine.queue =
        s.engine.queue.filter (fun j => !(decide (s.slotOf j.station = slot) && decide (j.state = .loadwait))) ∧
      u.engine.failed =
        s.engine.failed +
          (s.engine.queue.filter fun j => decide (s.slotOf j.station = slot) && decide (j.state = .loadwait)).length ∧
      u.stations.map (fun st => (st.entry, st.context, st.estimate)) =
        s.stations.map (fun st => (st.entry, st.context, st.estimate)) ∧
      u.supply = s.supply ∧ u.car = s.car ∧ u.settings = s.settings ∧ u.estimator = s.estimator ∧
      u.pushA = s.pushA ∧ u.pushB = s.pushB ∧ u.query = s.query ∧ u.loader = s.loader ∧
      u.store.configSave = s.store.configSave ∧ u.timebase.count = s.timebase.count ∧ u.flash = s.flash

/-- An accepted IMAGE BLOCK is copied into the write's buffer and its PROGRAM queued; an accepted IMAGE CLOSE begins the
readback; an accepted IMAGE ABORT empties the slot and ends the write with no notice, its request for a buffer withdrawn and
its buffer given back: FREE, or, where its running operation programs from it or fills it, when that ends (R144, R146 to R148;
that it is FREE at once otherwise is log 54). -/
def Obligations.ImageWriteRequests : Prop :=
  ∀ (s : State) (tag slot : Byte) (w : ImageWrite), s.serves → writeOf slot.toNat s = some w →
    (∀ (i : Nat) (data : List Byte), w.phase = .receiving → w.nextIndex < w.image.length → w.nextIndex < 65536 →
      data.length = 256 → writeBuffer? s = some i → (s.buffer i).state ≠ .programming →
      exec (.imageBlock tag (slot :: le16 w.nextIndex ++ data)) s =
        .next
          ((issueFlash
            (queueOp { command := .program w.slot (w.nextIndex + 1) data, who := .imageWrite }
              ({ s with
                  store :=
                    { s.store with imageWrite := some { w with nextIndex := w.nextIndex + 1 } } }.setBuffer i
                { s.buffer i with
                  block := w.nextIndex, state := .programming, crc := crc16 data, data := data }))).replying 0x11 tag
            .ok (le16 (w.nextIndex + 1)))) ∧
    ((w.phase = .erasing ∨ w.phase = .receiving) → w.image.length ≤ w.nextIndex → writeProgramming s = false →
      ∃ (x : Store) (tb : Timebase),
        exec (.imageClose tag [slot]) s = .next ({ s with store := x, timebase := tb }.replying 0x12 tag .ok []) ∧
        x.imageWrite = some { w with phase := .checking, readIndex := 0, crcSoFar := 0xFFFFFFFF#32 } ∧
        (({ command := .read slot.toNat 1, who := .imageWrite } : FlashOp) ∈ x.queue ∨
          x.running = some { command := .read slot.toNat 1, who := .imageWrite }) ∧
        x.slots = s.store.slots ∧ x.configSave = s.store.configSave ∧ x.markList = s.store.markList ∧
        x.waitList = s.store.waitList ∧ tb.count = s.timebase.count) ∧
    (w.phase ≠ .committing → s.store.slots.length = 15 → 1 ≤ slot.toNat → slot.toNat ≤ 15 →
      ∃ (x : Store) (tb : Timebase) (pk : Park),
        exec (.imageAbort tag [slot]) s =
          .next ({ s with store := x, timebase := tb, park := pk }.replying 0x13 tag .ok []) ∧
        x.slots = s.store.slots.set (slot.toNat - 1) .empty ∧ x.imageWrite = none ∧
        (∀ op ∈ x.queue, op.who ≠ .imageWrite) ∧ x.configSave = s.store.configSave ∧
        x.markList = s.store.markList ∧ tb.count = s.timebase.count ∧ (∀ r ∈ x.waitList, r.who ≠ .imageWrite) ∧
        ∀ i, writeBuffer? s = some i → s.store.buffers.length = 4 →
          let used := (∃ op, s.store.running = some op ∧ op.who = .imageWrite) ∧
            ((s.buffer i).state = .programming ∨ (s.buffer i).state = .filling)
          (used → x.buffers[i]? = some { s.buffer i with released := true }) ∧
          (¬used → s.store.waitList = [] → x.buffers[i]? = some Buffer.unowned))

/-- An operation is queued behind the others, or by the park writer and after a timeout ahead of them; where none is
running, and the part is not PARKED, the operation at the head is issued and the others keep their order, a PROGRAM with its
timeout 50 ms ahead, an ERASE 3,000 ms ahead, and a READ or STATUS with none; and where one is running, or none is queued,
none is issued (R138 to R140; in PARKED none is, R170; the park writer's clears park-area-prepared, R169). An accepted
CONFIG SAVE copies the table and the settings as they stand and queues, or issues, the ERASE of sector 0 of region 0;
nothing else changes but the store's work and the clock's list (R151). -/
def Obligations.OperationsIssuedAndConfigSaved : Prop :=
  (∀ (s : State) (op : FlashOp),
    queueOp op s = { s with store := { s.store with queue := s.store.queue ++ [op] } } ∧
      queueOpFirst op s = { s with store := { s.store with queue := op :: s.store.queue } }) ∧
  (∀ s : State,
    (s.store.running.isSome = true ∨ s.supply.state = .parked ∨ s.store.queue = [] → issueFlash s = s) ∧
    (∀ (op : FlashOp) (rest : List FlashOp), s.store.running = none → s.supply.state ≠ .parked →
      s.store.queue = op :: rest →
      issueFlash s =
        { s with
          store :=
            { s.store with
              queue := rest
              running := some op
              chipSelect := .inUse
              prepared := if op.who = .parkWriter then false else s.store.prepared }
          timebase := match op.command with
            | .program _ _ _ => s.timebase.set .storeOperation (s.timebase.count + 50)
            | .erase _ _ => s.timebase.set .storeOperation (s.timebase.count + 3000)
            | .read _ _ => s.timebase
            | .status => s.timebase }) ∧
    (s.loader.step ≠ .erase ∨ (issueFlash s).store.running ≠ some { command := .erase 0 1, who := .loader } →
      issueNext s = issueFlash s)) ∧
  ∀ (s : State) (tag : Byte), s.serves → s.store.configSave = none → writeFinishing s = false →
    ∃ (x : Store) (tb : Timebase),
      exec (.configSave tag []) s = .next ({ s with store := x, timebase := tb }.replying 0x05 tag .ok []) ∧
      x.configSave =
        some { record := configRecord s.settings (s.stations.map (·.entry)), phase := .erasing } ∧
      (({ command := .erase 0 0, who := .configSave } : FlashOp) ∈ x.queue ∨
        x.running = some { command := .erase 0 0, who := .configSave }) ∧
      x =
        { s.store with
          configSave := x.configSave, queue := x.queue, running := x.running, chipSelect := x.chipSelect
          prepared := x.prepared } ∧
      tb.count = s.timebase.count

/-! ### The control link -/

/-- The bytes of a request's frame, received one after another by an idle receiver, do what the request's command does: the
byte that completes the frame makes the request arrive, and the others leave no trace but the receiver's (R155, R156; a
request's command stands for the arrival of its whole frame, log 3). -/
def Obligations.BytesMakeTheRequest : Prop :=
  ∀ (i : Instr) (r : Request) (s : State), requestOfCommand i = some r → r.payload.length ≤ 259 → s.runs = true →
    s.link.receiver = .idle → s.timebase.dueOf .interByte = none →
    ∃ t : State, exec i s = .next t ∧ runAll (r.frame.map Instr.controlByteReceived) s = some t

/-- How a request with a good check is met, by its command: in PARKING and PARKED it is discarded; with two requests held it
is discarded with overrun; while a reply is in transmission it is held; before loading has ended every kind but STATUS and
NOTICE FETCH is answered BUSY; after it an unlisted kind is answered FORMAT. When the last byte of a reply has been sent,
the transmitter is free, and the oldest held request, if any, is served, its place freed and its reply begun; in PARKING and
PARKED none is served (R156 to R159; BUSY for an unlisted kind while loading is the model's reading, log 20). -/
def Obligations.RequestsMet : Prop :=
  (∀ (i : Instr) (r : Request) (s : State), requestOfCommand i = some r → s.runs = true →
    (s.silent = true → exec i s = .next s) ∧
    (s.silent = false → 2 ≤ s.link.held.length →
      exec i s = .next { s with link := { s.link with overrun := true } }) ∧
    (s.silent = false → s.link.held.length < 2 → s.link.reply.isSome = true →
      exec i s = .next { s with link := { s.link with held := s.link.held ++ [r] } }) ∧
    (s.silent = false → s.link.held = [] → s.link.reply = none → s.loadingEnded = false → r.kind ≠ 0x01 →
      r.kind ≠ 0x02 → exec i s = .next (s.replying r.kind r.tag .busy []))) ∧
  (∀ (s : State) (kind tag : Byte) (payload : List Byte), s.serves →
    WellFormed (.unknownRequestKind kind tag payload) = true →
    exec (.unknownRequestKind kind tag payload) s = .next (s.replying kind tag .format [])) ∧
  ∀ (s : State) (reply : List Byte), s.runs = true → s.link.reply = some reply →
    (s.link.held = [] ∨ s.silent = true →
      exec .replySent s = .next { s with link := { s.link with reply := none } }) ∧
    ∀ (r : Request) (rest : List Request), s.silent = false → s.link.held = r :: rest →
      let x := answerRequest r { s with link := { s.link with held := rest, reply := none } }
      exec .replySent s =
        .next
          { x.state with link := { x.state.link with reply := some (replyFrame r x.status x.payload) } }

/-- A byte begins, extends or spoils a frame, or is dropped, and sets the inter-byte timeout 10 ms ahead; at the timeout a
partial frame is discarded with link fault, and the discarding of a bad frame ends without one (R155). The byte that completes
a frame removes the timeout and leaves the receiver idle: a frame whose CRC-16 is not that of its bytes is discarded with
link fault, in every supply state, and one whose CRC-16 is right sets no flag in PARKING and PARKED, in which it is discarded
too, and is answered FORMAT where its kind is not listed and the part serves (R155 to R157, R159). That the header, and
with it the check of the length, is complete at the fourth byte is the model's reading (log 37). -/
def Obligations.ReceiverByBytes : Prop :=
  (∀ (s : State) (b : Byte), s.runs = true →
    let armed := fun (l : Link) =>
      Host.Outcome.next (φ := Fault) (ρ := Refusal)
        { s with link := l, timebase := s.timebase.set .interByte (s.timebase.count + 10) }
    (s.link.receiver = .idle → exec (.controlByteReceived b) s = armed { s.link with receiver := .receiving [b] }) ∧
    (s.link.receiver = .discarding → exec (.controlByteReceived b) s = armed s.link) ∧
    ∀ bytes, s.link.receiver = .receiving bytes →
      (bytes.length < 3 →
        exec (.controlByteReceived b) s = armed { s.link with receiver := .receiving (bytes ++ [b]) }) ∧
      (3 ≤ bytes.length → (num16At (bytes ++ [b]) 0 < 6 ∨ 265 < num16At (bytes ++ [b]) 0) →
        exec (.controlByteReceived b) s = armed { s.link with receiver := .discarding, linkFault := true }) ∧
      (3 ≤ bytes.length → 6 ≤ num16At (bytes ++ [b]) 0 → num16At (bytes ++ [b]) 0 ≤ 265 →
        bytes.length + 1 < num16At (bytes ++ [b]) 0 →
        exec (.controlByteReceived b) s = armed { s.link with receiver := .receiving (bytes ++ [b]) }) ∧
      ∀ (body : List Byte) (crc : Half), bytes ++ [b] = body ++ le16 crc.toNat → 6 ≤ num16At (bytes ++ [b]) 0 →
        num16At (bytes ++ [b]) 0 ≤ 265 → bytes.length + 1 = num16At (bytes ++ [b]) 0 →
        let ended : State :=
          { s with link := { s.link with receiver := .idle }, timebase := s.timebase.remove .interByte }
        (crc ≠ crc16 body →
          exec (.controlByteReceived b) s = .next { ended with link := { ended.link with linkFault := true } }) ∧
        (crc = crc16 body → s.silent = true → exec (.controlByteReceived b) s = .next ended) ∧
        (crc = crc16 body → s.serves → (byteAt body 3 = 0 ∨ 0x15 < (byteAt body 3).toNat) →
          exec (.controlByteReceived b) s = .next (ended.replying (byteAt body 3) (byteAt body 2) .format []))) ∧
  ∀ (s : State) (left : Timebase) (due : Time), s.dueNow .interByte left due →
    (∀ bytes, s.link.receiver = .receiving bytes →
      exec .interByteTimeoutExpiry s =
        .next { s with timebase := left, link := { s.link with receiver := .idle, linkFault := true } }) ∧
    (s.link.receiver = .discarding →
      exec .interByteTimeoutExpiry s =
        .next { s with timebase := left, link := { s.link with receiver := .idle } })

/-- While loading goes on as after it, STATUS answers with the count, whether loading has ended, the states, the queue
lengths and the flags as they stand, and clears the three flags. NOTICE FETCH gives the oldest notice, which leaves the
queue and becomes the last fetched, with the number of notices left, and ATTN is released with the last one; with the repeat
mark it gives the last fetched notice again, none where there is none, and with an empty queue none, and changes nothing
(R158, R160, R163, R164, R176). -/
def Obligations.StatusAndNoticeFetch : Prop :=
  (∀ (s : State) (tag : Byte), s.servesStatus →
    exec (.status tag []) s =
      .next
        ({ s with link := { s.link with overrun := false, linkFault := false, noticeOverflow := false } }.replying 0x01
          tag .ok
          (le32 s.timebase.count ++ [if s.loadingEnded then 1 else 0, byte s.supply.state.code,
              holdupByte s.supply.holdup, byte s.engine.phase.code] ++ le16 s.engine.pass ++
            [byte s.engine.queue.length, byte s.link.notices.length] ++ le16 s.link.nextNumber ++
            [flagByte s.link.overrun, flagByte s.link.linkFault, flagByte s.link.noticeOverflow]))) ∧
  ∀ (s : State) (tag : Byte), s.servesStatus →
    (∀ (n : Notice) (rest : List Notice), s.link.notices = n :: rest →
      exec (.noticeFetch tag [0]) s =
        .next
          ({ s with
              link := { s.link with notices := rest, lastFetched := some n }
              pins := { s.pins with attn := !rest.isEmpty } }.replying 0x02 tag .ok
            ([byte rest.length, byte n.body.code] ++ le16 n.number ++ n.body.bytes))) ∧
    (s.link.notices = [] → exec (.noticeFetch tag [0]) s = .next (s.replying 0x02 tag .ok [0, 0, 0, 0])) ∧
    (s.link.lastFetched = none →
      exec (.noticeFetch tag [1]) s = .next (s.replying 0x02 tag .ok [byte s.link.notices.length, 0, 0, 0])) ∧
    (∀ n : Notice, s.link.lastFetched = some n →
      exec (.noticeFetch tag [1]) s =
        .next
          (s.replying 0x02 tag .ok
            ([byte s.link.notices.length, byte n.body.code] ++ le16 n.number ++ n.body.bytes)))

/-- An accepted SETTINGS SET takes every pair at once and answers with the values taken, numbers outside a range brought to
its nearest limit and the STARTED enable kept on; nothing but the settings changes (R162, R165). -/
def Obligations.SettingsSetTaken : Prop :=
  (∀ (s : State) (tag : Byte) (payload : List Byte) (x : Settings), s.serves → settingsLayout payload = true →
    putSettings (settingPairs payload) s.settings = some x →
    exec (.settingsSet tag payload) s =
      .next
        ({ s with settings := x }.replying 0x03 tag .ok
          ([byte (settingPairs payload).length] ++
            (settingPairs payload).flatMap (fun (p : Nat × Nat) => [byte p.1] ++ le16 (x.value p.1))))) ∧
  ∀ (x y : Settings) (code v : Nat), x.put code v = some y →
    (∀ c, c ≤ 16 → c ≠ code → y.value c = x.value c) ∧
    (code = 0 → y.fallFilter = max 1 (min 15 v)) ∧ (code = 1 → y.riseFilter = max 1 (min 255 v)) ∧
    (code = 2 → y.settleWindow = max 20 (min 2000 v)) ∧ (code = 3 → y.parkLevel = max 1 (min 14 v)) ∧
    (code = 4 → (v = 500 ∨ v = 1000 ∨ v = 2000) ∧ y.laneRateA.kbit = v) ∧
    (code = 5 → (v = 500 ∨ v = 1000 ∨ v = 2000) ∧ y.laneRateB.kbit = v) ∧
    (code = 6 → y.responseWindowA = max 1 (min 255 v)) ∧ (code = 7 → y.responseWindowB = max 1 (min 255 v)) ∧
    (code = 8 → y.retryLimit = min 7 v) ∧ (code = 11 → y.restoreLimit = max 1000 (min 65535 v)) ∧
    (code = 12 → y.pollInterval = max 5 (min 1000 v)) ∧
    (code = 9 ∨ code = 10 ∨ code = 13 ∨ code = 14 ∨ code = 15 → v ≤ 1 ∧ y.value code = v) ∧
    (code = 16 → v < 2048 → y.noticeMask.toNat = v ||| 1)

/-- A notice is created only if STARTED has been posted and the mask enables its kind; it takes the next number, joins the
queue unless 16 stand there, and is otherwise discarded with notice-overflow (R161, R162, R173). -/
def Obligations.NoticePosted : Prop :=
  ∀ (s : State) (b : NoticeBody),
    (s.loadingEnded = false → postNotice b s = s) ∧
    (noticeEnabled s.settings.noticeMask b.code = false → postNotice b s = s) ∧
    (s.loadingEnded = true → (b.code = 1 ∨ s.settings.noticeMask.getLsbD (b.code - 1) = true) →
      (postNotice b s).link.nextNumber = (s.link.nextNumber + 1) % 65536 ∧
      (s.link.notices.length < 16 →
        (postNotice b s).link.notices = s.link.notices ++ [{ number := s.link.nextNumber, body := b }] ∧
        (postNotice b s).link.noticeOverflow = s.link.noticeOverflow ∧ (postNotice b s).pins.attn = true) ∧
      (16 ≤ s.link.notices.length →
        (postNotice b s).link.notices = s.link.notices ∧ (postNotice b s).link.noticeOverflow = true ∧
        (postNotice b s).pins.attn = s.pins.attn))

/-! ### Records and frames read back as they were written -/

/-- A slot header is read back as the image it was written for; with its SUSPECT mark programmed and nothing else, its slot
is SUSPECT (R141, R178). -/
def Obligations.HeaderReadsBack : Prop :=
  ∀ im : Image, 1 ≤ im.length → im.length ≤ 4095 → im.generation < 65536 →
    readHeader (headerBlock im) = some im ∧ slotOfHeader (headerBlock im) = .valid im 0 ∧
      (headerBlock im).length = 256 ∧
      slotOfHeader (List.zipWith (fun old new => old &&& new) (headerBlock im) markData) = .suspect im 3

/-- A config record is read back as the settings and entries it was written for, whatever bytes follow it, and so it is from
the one or two blocks, padded with all ones, in which it is stored (R66, R151, R172, R178; the padding is log 32). -/
def Obligations.ConfigReadsBack : Prop :=
  ∀ (x : Settings) (es : List Entry), x.inRange → es.length ≤ 24 → entriesAgree es = true →
    (∀ e ∈ es, e.inRange ∧ e.capacity * e.ratio ≤ 65535 ∧ (e.kind = .entrance ↔ e.side.isSome = true)) →
    let record := configRecord x es;
    (∀ rest : List Byte, readConfig (record ++ rest) = some (x, es)) ∧
      (record.length ≤ 256 → recordBlocks record = 1 ∧ readConfig (recordBlock record 0) = some (x, es)) ∧
      (256 < record.length →
        recordBlocks record = 2 ∧ readConfig (recordBlock record 0 ++ recordBlock record 1) = some (x, es))

/-- A park record of at most 24 stations passes its check as its two pages store it; and a filled place gives its station
back the fields, the epoch and the working capacity it was written with (R43, R66, R168, R169, R172, R178). -/
def Obligations.ParkReadsBack : Prop :=
  (∀ (draw : Nat) (stations : List Station), stations.length ≤ 24 →
    parkValid ((parkImage draw stations).take 256 ++ parkPage2 (parkImage draw stations)) = true) ∧
  ∀ (car : CarState) (st : Station), st.sound car →
    (∀ k v, st.context.fields.get k = some v → fieldBelongs st.entry.kind k = true) →
    let fresh := (Station.defined st.entry).restored car (parkPlace st)
    (parkPlace st).length = 20 ∧ fresh.context.fields = st.context.fields ∧
      fresh.context.epoch = st.context.epoch ∧ fresh.estimate.working = st.estimate.working ∧
      fresh.context.release = st.context.release

/-- A lane frame is read back with its address, sequence, kind and payload; and every reply of a unit is read back as that
reply by the step that it answers (R99, R177). -/
def Obligations.LaneFramesReadBack : Prop :=
  (∀ (address sequence kind : Nat) (payload : List Byte), address < 256 → sequence < 256 → kind < 256 →
    payload.length < 65536 →
    readReplyFrame (laneFrame address sequence kind payload) =
      some { address := address, sequence := sequence, kind := kind, payload := payload }) ∧
  ∀ (r : Report) (live : LiveStatus) (index fill epoch : Nat) (crc : Half) (equal : Bool) (reason : NakReason)
    (step : StepKind), r.generation < 65536 → r.fill ≤ 4095 → r.epoch < 65536 → index < 65536 → fill < 65536 →
    epoch < 65536 →
    let answers := fun (k : StepKind) (x : LaneReply) => readAnswer k x.encode.1 x.encode.2 = .reply x
    answers .probe (.report r) ∧ answers .opn .ack ∧ answers .start .ack ∧ answers .block (.blockAck index crc) ∧
      answers .fill (.fillReport fill) ∧ answers .close (.closeResult equal) ∧ answers .context (.contextAck epoch) ∧
      answers .poll (.pollReport r live) ∧ answers step (.nak reason fill)
end

