-- ==== Sys2Proof/Laws/Memory.lean ====
section
/-! SUPPORT. The flash memory: every operation keeps its canonical form, and what a byte reads after each of
them. -/

namespace Sys2Proof.Machine

/-! ### The canonical form -/

theorem Memory.wf_iff (cells : List Host.Cell) :
    Memory.wf cells = true ↔ (cells.Pairwise fun x y => x.1 < y.1) ∧ ∀ c ∈ cells, c.2 ≠ erasedByte := by
  simp [Memory.wf]

theorem Memory.wf_nil : Memory.wf [] = true := by decide

theorem Memory.wf_cons (c : Host.Cell) (cs : List Host.Cell) :
    Memory.wf (c :: cs) = true ↔ (∀ x ∈ cs, c.1 < x.1) ∧ c.2 ≠ erasedByte ∧ Memory.wf cs = true := by
  simp only [Memory.wf_iff, List.pairwise_cons, List.forall_mem_cons]
  grind

/-- Every cell of a written memory is the one written, or was there. -/
theorem Memory.mem_write {a : Nat} {v : Byte} {cells : List Host.Cell} {c : Host.Cell}
    (h : c ∈ Memory.write a v cells) : c = (a, v) ∨ c ∈ cells := by
  induction cells with
  | nil =>
    unfold Memory.write at h
    split at h <;> simp_all
  | cons d ds ih =>
    unfold Memory.write at h
    grind

theorem Memory.wf_write (a : Nat) (v : Byte) {cells : List Host.Cell} (h : Memory.wf cells = true) :
    Memory.wf (Memory.write a v cells) = true := by
  induction cells with
  | nil =>
    unfold Memory.write
    split
    · rfl
    · rename_i hv
      exact (Memory.wf_cons _ _).2 ⟨(by intro _ hx; cases hx), hv, rfl⟩
  | cons d ds ih =>
    obtain ⟨h1, h2, h3⟩ := (Memory.wf_cons _ _).1 h
    unfold Memory.write
    split
    · rename_i hd
      refine (Memory.wf_cons _ _).2 ⟨fun x hx => ?_, h2, ih h3⟩
      rcases Memory.mem_write hx with rfl | hx
      · exact hd
      · exact h1 x hx
    · rename_i hd
      dsimp only
      split
      · split
        · exact h3
        · exact h
      · rename_i hv
        refine (Memory.wf_cons _ _).2 ⟨fun x hx => ?_, hv, ?_⟩
        · show a < x.1
          split at hx
          · have := h1 x hx
            omega
          · rcases List.mem_cons.1 hx with rfl | hx
            · omega
            · have := h1 x hx
              omega
        · split
          · exact h3
          · exact h

theorem Memory.wf_update (f : Byte → Byte → Byte) (ds : List Byte) (a : Nat) {cells : List Host.Cell}
    (h : Memory.wf cells = true) : Memory.wf (Memory.update f ds a cells) = true := by
  induction ds generalizing a cells with
  | nil => exact h
  | cons d ds ih =>
    unfold Memory.update
    dsimp only
    refine ih _ ?_
    split
    · exact h
    · exact Memory.wf_write _ _ h

theorem Memory.mem_mapRange {base size : Nat} {f : Nat → Byte → Byte} {cells : List Host.Cell} {c : Host.Cell}
    (h : c ∈ Memory.mapRange base size f cells) : ∃ d ∈ cells, d.1 = c.1 := by
  unfold Memory.mapRange at h
  rw [List.mem_filterMap] at h
  obtain ⟨d, hd, hc⟩ := h
  refine ⟨d, hd, ?_⟩
  split at hc
  · dsimp only at hc
    split at hc
    · cases hc
    · cases hc
      rfl
  · cases hc
    rfl

theorem Memory.wf_mapRange (base size : Nat) (f : Nat → Byte → Byte) {cells : List Host.Cell}
    (h : Memory.wf cells = true) : Memory.wf (Memory.mapRange base size f cells) = true := by
  induction cells with
  | nil => exact h
  | cons d ds ih =>
    obtain ⟨h1, h2, h3⟩ := (Memory.wf_cons _ _).1 h
    have h4 : Memory.wf (Memory.mapRange base size f ds) = true := ih h3
    have h5 : ∀ x ∈ Memory.mapRange base size f ds, d.1 < x.1 := by
      intro x hx
      obtain ⟨y, hy, hxy⟩ := Memory.mem_mapRange hx
      rw [← hxy]
      exact h1 y hy
    unfold Memory.mapRange at h4 h5 ⊢
    rw [List.filterMap_cons]
    dsimp only
    split
    · exact h4
    · rename_i c hc
      split at hc
      · split at hc
        · cases hc
        · rename_i hv
          cases hc
          exact (Memory.wf_cons _ _).2 ⟨h5, hv, h4⟩
      · cases hc
        exact (Memory.wf_cons _ _).2 ⟨h5, h2, h4⟩

theorem Flash.wf_complete (f : Flash) (op : FlashOp) (h : Memory.wf f.cells = true) :
    Memory.wf (f.complete op).cells = true := by
  unfold Flash.complete
  split
  · exact Memory.wf_update _ _ _ h
  · exact Memory.wf_mapRange _ _ (fun _ _ => _) h
  · exact h
  · exact h

theorem Flash.wf_interrupted (f : Flash) (draw : Nat) (u : Unfinished) (h : Memory.wf f.cells = true) :
    Memory.wf (f.interrupted draw u).cells = true := by
  unfold Flash.interrupted
  split
  · split
    · exact h
    · exact Memory.wf_update _ _ _ h
  · exact Memory.wf_mapRange _ _ (fun a v => v ||| ~~~(Config.interruptedBits draw a)) h
  · exact h
  · exact h

theorem Flash.leaveBusy_cells (f : Flash) (torn : List Nat) (u : Unfinished) :
    (f.leaveBusy torn u).cells = f.cells := by
  unfold Flash.leaveBusy
  split <;> rfl

theorem settleDevice_wf (s : State) (h : Memory.wf s.flash.cells = true) :
    Memory.wf (settleDevice s).flash.cells = true := by
  unfold settleDevice
  split
  · exact h
  · exact Flash.wf_interrupted _ _ _ h

theorem reset_memory_wf : Memory.wf State.reset.flash.cells = true := by decide

/-! ### What a byte reads -/

theorem Memory.read_cons (c : Host.Cell) (cs : List Host.Cell) (a : Nat) :
    Memory.read (c :: cs) a = if c.1 = a then c.2 else Memory.read cs a := by
  unfold Memory.read
  rw [List.find?_cons]
  by_cases h : c.1 = a <;> simp [h]

/-- An address below every listed one reads as erased. -/
theorem Memory.read_below {cells : List Host.Cell} {a : Nat} (h : ∀ c ∈ cells, a < c.1) :
    Memory.read cells a = erasedByte := by
  unfold Memory.read
  have : cells.find? (·.1 = a) = none := by
    rw [List.find?_eq_none]
    intro c hc
    have := h c hc
    simp
    omega
  rw [this]

/-- The byte written reads as written, and every other byte as before. -/
theorem Memory.read_write (a b : Nat) (v : Byte) {cells : List Host.Cell} (h : Memory.wf cells = true) :
    Memory.read (Memory.write a v cells) b = if b = a then v else Memory.read cells b := by
  induction cells with
  | nil =>
    unfold Memory.write
    split
    · rename_i hv
      rw [hv]
      split <;> rfl
    · rw [Memory.read_cons]
      grind
  | cons d ds ih =>
    obtain ⟨h1, h2, h3⟩ := (Memory.wf_cons _ _).1 h
    have ih := ih h3
    unfold Memory.write
    split
    · rw [Memory.read_cons, ih, Memory.read_cons]
      grind
    · dsimp only
      by_cases he : d.1 = a
      · have hb : Memory.read ds a = erasedByte := Memory.read_below (by rw [← he]; exact h1)
        rw [if_pos he]
        split
        · rw [Memory.read_cons]
          grind
        · rw [Memory.read_cons, Memory.read_cons]
          grind
      · have hb : Memory.read (d :: ds) a = erasedByte := Memory.read_below (by
          intro c hc
          rcases List.mem_cons.1 hc with rfl | hc
          · omega
          · have := h1 c hc
            omega)
        rw [if_neg he]
        split
        · grind
        · rw [Memory.read_cons]
          grind

/-- A list's byte, erased past its end. -/
def Memory.dataAt (ds : List Byte) (i : Nat) : Byte := ds.getD i erasedByte

/-- An update changes the bytes of its range by its function, and no other. -/
theorem Memory.read_update (f : Byte → Byte → Byte) (ds : List Byte) (a b : Nat) {cells : List Host.Cell}
    (h : Memory.wf cells = true) :
    Memory.read (Memory.update f ds a cells) b =
      if a ≤ b ∧ b < a + ds.length then f (Memory.read cells b) (Memory.dataAt ds (b - a)) else Memory.read cells b := by
  induction ds generalizing a cells with
  | nil =>
    unfold Memory.update
    rw [if_neg (by simp)]
  | cons d ds ih =>
    unfold Memory.update
    dsimp only
    have hw : Memory.wf (if f (Memory.read cells a) d = Memory.read cells a then cells
        else Memory.write a (f (Memory.read cells a) d) cells) = true := by
      split
      · exact h
      · exact Memory.wf_write _ _ h
    have hr : ∀ b, Memory.read (if f (Memory.read cells a) d = Memory.read cells a then cells
        else Memory.write a (f (Memory.read cells a) d) cells) b =
        if b = a then f (Memory.read cells a) d else Memory.read cells b := by
      intro b
      split
      · rename_i he
        split
        · rename_i hb
          rw [hb, he]
        · rfl
      · exact Memory.read_write _ _ _ h
    rw [ih (a + 1) hw, hr b]
    by_cases hb : b = a
    · subst hb
      have h0 : ¬(b + 1 ≤ b ∧ b < b + 1 + ds.length) := by omega
      have h1 : b ≤ b ∧ b < b + (d :: ds).length := by simp
      rw [if_neg h0, if_pos rfl, if_pos h1]
      simp [Memory.dataAt]
    · rw [if_neg hb]
      by_cases hc : a + 1 ≤ b ∧ b < a + 1 + ds.length
      · have h1 : a ≤ b ∧ b < a + (d :: ds).length := by simp only [List.length_cons]; omega
        rw [if_pos hc, if_pos h1]
        have : b - a = (b - (a + 1)) + 1 := by omega
        rw [this]
        simp [Memory.dataAt]
      · have h1 : ¬(a ≤ b ∧ b < a + (d :: ds).length) := by simp only [List.length_cons]; omega
        rw [if_neg hc, if_neg h1]

theorem Memory.mapRange_cons (base size : Nat) (f : Nat → Byte → Byte) (d : Host.Cell) (ds : List Host.Cell) :
    Memory.mapRange base size f (d :: ds) =
      if base ≤ d.1 ∧ d.1 < base + size then
        (if f d.1 d.2 = erasedByte then Memory.mapRange base size f ds
         else (d.1, f d.1 d.2) :: Memory.mapRange base size f ds)
      else d :: Memory.mapRange base size f ds := by
  unfold Memory.mapRange
  rw [List.filterMap_cons]
  by_cases h : base ≤ d.1 ∧ d.1 < base + size
  · by_cases hv : f d.1 d.2 = erasedByte <;> simp [h, hv]
  · simp [h]

/-- A range changed by a function that leaves erased bytes erased: the bytes inside it change by the function, and
no other. -/
theorem Memory.read_mapRange (base size : Nat) (f : Nat → Byte → Byte) (b : Nat) {cells : List Host.Cell}
    (h : Memory.wf cells = true) :
    Memory.read (Memory.mapRange base size f cells) b =
      if base ≤ b ∧ b < base + size then
        (if Memory.read cells b = erasedByte then erasedByte else f b (Memory.read cells b))
      else Memory.read cells b := by
  induction cells with
  | nil =>
    have h0 : Memory.read [] b = erasedByte := rfl
    have h1 : Memory.mapRange base size f [] = [] := rfl
    rw [h1, h0]
    simp
  | cons d ds ih =>
    obtain ⟨h1, h2, h3⟩ := (Memory.wf_cons _ _).1 h
    have ih := ih h3
    have hb : Memory.read (Memory.mapRange base size f ds) d.1 = erasedByte := Memory.read_below (by
      intro c hc
      obtain ⟨y, hy, hxy⟩ := Memory.mem_mapRange hc
      rw [← hxy]
      exact h1 y hy)
    rw [Memory.mapRange_cons, Memory.read_cons]
    split
    · split
      · grind
      · rw [Memory.read_cons]
        grind
    · rw [Memory.read_cons]
      grind

end Sys2Proof.Machine
end

