-- ==== Sys2Proof/Laws/State.lean ====
section
/-! SUPPORT. For each named update of State, what each field holds after it. -/

namespace Sys2Proof.Machine

@[simp] theorem State.updSupply_pins (s : State) (f : SupplyWatch → SupplyWatch) : (s.updSupply f).pins = s.pins := rfl
@[simp] theorem State.updSupply_supply (s : State) (f : SupplyWatch → SupplyWatch) : (s.updSupply f).supply = f s.supply := rfl
@[simp] theorem State.updSupply_timebase (s : State) (f : SupplyWatch → SupplyWatch) : (s.updSupply f).timebase = s.timebase := rfl
@[simp] theorem State.updSupply_estimator (s : State) (f : SupplyWatch → SupplyWatch) : (s.updSupply f).estimator = s.estimator := rfl
@[simp] theorem State.updSupply_stations (s : State) (f : SupplyWatch → SupplyWatch) : (s.updSupply f).stations = s.stations := rfl
@[simp] theorem State.updSupply_car (s : State) (f : SupplyWatch → SupplyWatch) : (s.updSupply f).car = s.car := rfl
@[simp] theorem State.updSupply_pushA (s : State) (f : SupplyWatch → SupplyWatch) : (s.updSupply f).pushA = s.pushA := rfl
@[simp] theorem State.updSupply_pushB (s : State) (f : SupplyWatch → SupplyWatch) : (s.updSupply f).pushB = s.pushB := rfl
@[simp] theorem State.updSupply_settings (s : State) (f : SupplyWatch → SupplyWatch) : (s.updSupply f).settings = s.settings := rfl
@[simp] theorem State.updSupply_engine (s : State) (f : SupplyWatch → SupplyWatch) : (s.updSupply f).engine = s.engine := rfl
@[simp] theorem State.updSupply_laneA (s : State) (f : SupplyWatch → SupplyWatch) : (s.updSupply f).laneA = s.laneA := rfl
@[simp] theorem State.updSupply_laneB (s : State) (f : SupplyWatch → SupplyWatch) : (s.updSupply f).laneB = s.laneB := rfl
@[simp] theorem State.updSupply_query (s : State) (f : SupplyWatch → SupplyWatch) : (s.updSupply f).query = s.query := rfl
@[simp] theorem State.updSupply_store (s : State) (f : SupplyWatch → SupplyWatch) : (s.updSupply f).store = s.store := rfl
@[simp] theorem State.updSupply_park (s : State) (f : SupplyWatch → SupplyWatch) : (s.updSupply f).park = s.park := rfl
@[simp] theorem State.updSupply_loader (s : State) (f : SupplyWatch → SupplyWatch) : (s.updSupply f).loader = s.loader := rfl
@[simp] theorem State.updSupply_link (s : State) (f : SupplyWatch → SupplyWatch) : (s.updSupply f).link = s.link := rfl
@[simp] theorem State.updSupply_flash (s : State) (f : SupplyWatch → SupplyWatch) : (s.updSupply f).flash = s.flash := rfl
@[simp] theorem State.updSupply_free (s : State) (f : SupplyWatch → SupplyWatch) : (s.updSupply f).free = s.free := rfl
@[simp] theorem State.updSupply_pending (s : State) (f : SupplyWatch → SupplyWatch) : (s.updSupply f).pending = s.pending := rfl

@[simp] theorem setDeadline_pins (p : Purpose) (due : Time) (s : State) : (setDeadline p due s).pins = s.pins := rfl
@[simp] theorem setDeadline_supply (p : Purpose) (due : Time) (s : State) : (setDeadline p due s).supply = s.supply := rfl
@[simp] theorem setDeadline_timebase (p : Purpose) (due : Time) (s : State) : (setDeadline p due s).timebase = s.timebase.set p due := rfl
@[simp] theorem setDeadline_estimator (p : Purpose) (due : Time) (s : State) : (setDeadline p due s).estimator = s.estimator := rfl
@[simp] theorem setDeadline_stations (p : Purpose) (due : Time) (s : State) : (setDeadline p due s).stations = s.stations := rfl
@[simp] theorem setDeadline_car (p : Purpose) (due : Time) (s : State) : (setDeadline p due s).car = s.car := rfl
@[simp] theorem setDeadline_pushA (p : Purpose) (due : Time) (s : State) : (setDeadline p due s).pushA = s.pushA := rfl
@[simp] theorem setDeadline_pushB (p : Purpose) (due : Time) (s : State) : (setDeadline p due s).pushB = s.pushB := rfl
@[simp] theorem setDeadline_settings (p : Purpose) (due : Time) (s : State) : (setDeadline p due s).settings = s.settings := rfl
@[simp] theorem setDeadline_engine (p : Purpose) (due : Time) (s : State) : (setDeadline p due s).engine = s.engine := rfl
@[simp] theorem setDeadline_laneA (p : Purpose) (due : Time) (s : State) : (setDeadline p due s).laneA = s.laneA := rfl
@[simp] theorem setDeadline_laneB (p : Purpose) (due : Time) (s : State) : (setDeadline p due s).laneB = s.laneB := rfl
@[simp] theorem setDeadline_query (p : Purpose) (due : Time) (s : State) : (setDeadline p due s).query = s.query := rfl
@[simp] theorem setDeadline_store (p : Purpose) (due : Time) (s : State) : (setDeadline p due s).store = s.store := rfl
@[simp] theorem setDeadline_park (p : Purpose) (due : Time) (s : State) : (setDeadline p due s).park = s.park := rfl
@[simp] theorem setDeadline_loader (p : Purpose) (due : Time) (s : State) : (setDeadline p due s).loader = s.loader := rfl
@[simp] theorem setDeadline_link (p : Purpose) (due : Time) (s : State) : (setDeadline p due s).link = s.link := rfl
@[simp] theorem setDeadline_flash (p : Purpose) (due : Time) (s : State) : (setDeadline p due s).flash = s.flash := rfl
@[simp] theorem setDeadline_free (p : Purpose) (due : Time) (s : State) : (setDeadline p due s).free = s.free := rfl
@[simp] theorem setDeadline_pending (p : Purpose) (due : Time) (s : State) : (setDeadline p due s).pending = s.pending := rfl

@[simp] theorem setDeadlineIn_pins (p : Purpose) (n : Nat) (s : State) : (setDeadlineIn p n s).pins = s.pins := rfl
@[simp] theorem setDeadlineIn_supply (p : Purpose) (n : Nat) (s : State) : (setDeadlineIn p n s).supply = s.supply := rfl
@[simp] theorem setDeadlineIn_timebase (p : Purpose) (n : Nat) (s : State) : (setDeadlineIn p n s).timebase = s.timebase.set p (s.timebase.count + ms n) := rfl
@[simp] theorem setDeadlineIn_estimator (p : Purpose) (n : Nat) (s : State) : (setDeadlineIn p n s).estimator = s.estimator := rfl
@[simp] theorem setDeadlineIn_stations (p : Purpose) (n : Nat) (s : State) : (setDeadlineIn p n s).stations = s.stations := rfl
@[simp] theorem setDeadlineIn_car (p : Purpose) (n : Nat) (s : State) : (setDeadlineIn p n s).car = s.car := rfl
@[simp] theorem setDeadlineIn_pushA (p : Purpose) (n : Nat) (s : State) : (setDeadlineIn p n s).pushA = s.pushA := rfl
@[simp] theorem setDeadlineIn_pushB (p : Purpose) (n : Nat) (s : State) : (setDeadlineIn p n s).pushB = s.pushB := rfl
@[simp] theorem setDeadlineIn_settings (p : Purpose) (n : Nat) (s : State) : (setDeadlineIn p n s).settings = s.settings := rfl
@[simp] theorem setDeadlineIn_engine (p : Purpose) (n : Nat) (s : State) : (setDeadlineIn p n s).engine = s.engine := rfl
@[simp] theorem setDeadlineIn_laneA (p : Purpose) (n : Nat) (s : State) : (setDeadlineIn p n s).laneA = s.laneA := rfl
@[simp] theorem setDeadlineIn_laneB (p : Purpose) (n : Nat) (s : State) : (setDeadlineIn p n s).laneB = s.laneB := rfl
@[simp] theorem setDeadlineIn_query (p : Purpose) (n : Nat) (s : State) : (setDeadlineIn p n s).query = s.query := rfl
@[simp] theorem setDeadlineIn_store (p : Purpose) (n : Nat) (s : State) : (setDeadlineIn p n s).store = s.store := rfl
@[simp] theorem setDeadlineIn_park (p : Purpose) (n : Nat) (s : State) : (setDeadlineIn p n s).park = s.park := rfl
@[simp] theorem setDeadlineIn_loader (p : Purpose) (n : Nat) (s : State) : (setDeadlineIn p n s).loader = s.loader := rfl
@[simp] theorem setDeadlineIn_link (p : Purpose) (n : Nat) (s : State) : (setDeadlineIn p n s).link = s.link := rfl
@[simp] theorem setDeadlineIn_flash (p : Purpose) (n : Nat) (s : State) : (setDeadlineIn p n s).flash = s.flash := rfl
@[simp] theorem setDeadlineIn_free (p : Purpose) (n : Nat) (s : State) : (setDeadlineIn p n s).free = s.free := rfl
@[simp] theorem setDeadlineIn_pending (p : Purpose) (n : Nat) (s : State) : (setDeadlineIn p n s).pending = s.pending := rfl

@[simp] theorem removeDeadline_pins (p : Purpose) (s : State) : (removeDeadline p s).pins = s.pins := rfl
@[simp] theorem removeDeadline_supply (p : Purpose) (s : State) : (removeDeadline p s).supply = s.supply := rfl
@[simp] theorem removeDeadline_timebase (p : Purpose) (s : State) : (removeDeadline p s).timebase = s.timebase.remove p := rfl
@[simp] theorem removeDeadline_estimator (p : Purpose) (s : State) : (removeDeadline p s).estimator = s.estimator := rfl
@[simp] theorem removeDeadline_stations (p : Purpose) (s : State) : (removeDeadline p s).stations = s.stations := rfl
@[simp] theorem removeDeadline_car (p : Purpose) (s : State) : (removeDeadline p s).car = s.car := rfl
@[simp] theorem removeDeadline_pushA (p : Purpose) (s : State) : (removeDeadline p s).pushA = s.pushA := rfl
@[simp] theorem removeDeadline_pushB (p : Purpose) (s : State) : (removeDeadline p s).pushB = s.pushB := rfl
@[simp] theorem removeDeadline_settings (p : Purpose) (s : State) : (removeDeadline p s).settings = s.settings := rfl
@[simp] theorem removeDeadline_engine (p : Purpose) (s : State) : (removeDeadline p s).engine = s.engine := rfl
@[simp] theorem removeDeadline_laneA (p : Purpose) (s : State) : (removeDeadline p s).laneA = s.laneA := rfl
@[simp] theorem removeDeadline_laneB (p : Purpose) (s : State) : (removeDeadline p s).laneB = s.laneB := rfl
@[simp] theorem removeDeadline_query (p : Purpose) (s : State) : (removeDeadline p s).query = s.query := rfl
@[simp] theorem removeDeadline_store (p : Purpose) (s : State) : (removeDeadline p s).store = s.store := rfl
@[simp] theorem removeDeadline_park (p : Purpose) (s : State) : (removeDeadline p s).park = s.park := rfl
@[simp] theorem removeDeadline_loader (p : Purpose) (s : State) : (removeDeadline p s).loader = s.loader := rfl
@[simp] theorem removeDeadline_link (p : Purpose) (s : State) : (removeDeadline p s).link = s.link := rfl
@[simp] theorem removeDeadline_flash (p : Purpose) (s : State) : (removeDeadline p s).flash = s.flash := rfl
@[simp] theorem removeDeadline_free (p : Purpose) (s : State) : (removeDeadline p s).free = s.free := rfl
@[simp] theorem removeDeadline_pending (p : Purpose) (s : State) : (removeDeadline p s).pending = s.pending := rfl

@[simp] theorem setLinkFault_pins (s : State) : (setLinkFault s).pins = s.pins := rfl
@[simp] theorem setLinkFault_supply (s : State) : (setLinkFault s).supply = s.supply := rfl
@[simp] theorem setLinkFault_timebase (s : State) : (setLinkFault s).timebase = s.timebase := rfl
@[simp] theorem setLinkFault_estimator (s : State) : (setLinkFault s).estimator = s.estimator := rfl
@[simp] theorem setLinkFault_stations (s : State) : (setLinkFault s).stations = s.stations := rfl
@[simp] theorem setLinkFault_car (s : State) : (setLinkFault s).car = s.car := rfl
@[simp] theorem setLinkFault_pushA (s : State) : (setLinkFault s).pushA = s.pushA := rfl
@[simp] theorem setLinkFault_pushB (s : State) : (setLinkFault s).pushB = s.pushB := rfl
@[simp] theorem setLinkFault_settings (s : State) : (setLinkFault s).settings = s.settings := rfl
@[simp] theorem setLinkFault_engine (s : State) : (setLinkFault s).engine = s.engine := rfl
@[simp] theorem setLinkFault_laneA (s : State) : (setLinkFault s).laneA = s.laneA := rfl
@[simp] theorem setLinkFault_laneB (s : State) : (setLinkFault s).laneB = s.laneB := rfl
@[simp] theorem setLinkFault_query (s : State) : (setLinkFault s).query = s.query := rfl
@[simp] theorem setLinkFault_store (s : State) : (setLinkFault s).store = s.store := rfl
@[simp] theorem setLinkFault_park (s : State) : (setLinkFault s).park = s.park := rfl
@[simp] theorem setLinkFault_loader (s : State) : (setLinkFault s).loader = s.loader := rfl
@[simp] theorem setLinkFault_link (s : State) : (setLinkFault s).link = { s.link with linkFault := true } := rfl
@[simp] theorem setLinkFault_flash (s : State) : (setLinkFault s).flash = s.flash := rfl
@[simp] theorem setLinkFault_free (s : State) : (setLinkFault s).free = s.free := rfl
@[simp] theorem setLinkFault_pending (s : State) : (setLinkFault s).pending = s.pending := rfl

@[simp] theorem setOverrun_pins (s : State) : (setOverrun s).pins = s.pins := rfl
@[simp] theorem setOverrun_supply (s : State) : (setOverrun s).supply = s.supply := rfl
@[simp] theorem setOverrun_timebase (s : State) : (setOverrun s).timebase = s.timebase := rfl
@[simp] theorem setOverrun_estimator (s : State) : (setOverrun s).estimator = s.estimator := rfl
@[simp] theorem setOverrun_stations (s : State) : (setOverrun s).stations = s.stations := rfl
@[simp] theorem setOverrun_car (s : State) : (setOverrun s).car = s.car := rfl
@[simp] theorem setOverrun_pushA (s : State) : (setOverrun s).pushA = s.pushA := rfl
@[simp] theorem setOverrun_pushB (s : State) : (setOverrun s).pushB = s.pushB := rfl
@[simp] theorem setOverrun_settings (s : State) : (setOverrun s).settings = s.settings := rfl
@[simp] theorem setOverrun_engine (s : State) : (setOverrun s).engine = s.engine := rfl
@[simp] theorem setOverrun_laneA (s : State) : (setOverrun s).laneA = s.laneA := rfl
@[simp] theorem setOverrun_laneB (s : State) : (setOverrun s).laneB = s.laneB := rfl
@[simp] theorem setOverrun_query (s : State) : (setOverrun s).query = s.query := rfl
@[simp] theorem setOverrun_store (s : State) : (setOverrun s).store = s.store := rfl
@[simp] theorem setOverrun_park (s : State) : (setOverrun s).park = s.park := rfl
@[simp] theorem setOverrun_loader (s : State) : (setOverrun s).loader = s.loader := rfl
@[simp] theorem setOverrun_link (s : State) : (setOverrun s).link = { s.link with overrun := true } := rfl
@[simp] theorem setOverrun_flash (s : State) : (setOverrun s).flash = s.flash := rfl
@[simp] theorem setOverrun_free (s : State) : (setOverrun s).free = s.free := rfl
@[simp] theorem setOverrun_pending (s : State) : (setOverrun s).pending = s.pending := rfl

@[simp] theorem clearFlags_pins (s : State) : (clearFlags s).pins = s.pins := rfl
@[simp] theorem clearFlags_supply (s : State) : (clearFlags s).supply = s.supply := rfl
@[simp] theorem clearFlags_timebase (s : State) : (clearFlags s).timebase = s.timebase := rfl
@[simp] theorem clearFlags_estimator (s : State) : (clearFlags s).estimator = s.estimator := rfl
@[simp] theorem clearFlags_stations (s : State) : (clearFlags s).stations = s.stations := rfl
@[simp] theorem clearFlags_car (s : State) : (clearFlags s).car = s.car := rfl
@[simp] theorem clearFlags_pushA (s : State) : (clearFlags s).pushA = s.pushA := rfl
@[simp] theorem clearFlags_pushB (s : State) : (clearFlags s).pushB = s.pushB := rfl
@[simp] theorem clearFlags_settings (s : State) : (clearFlags s).settings = s.settings := rfl
@[simp] theorem clearFlags_engine (s : State) : (clearFlags s).engine = s.engine := rfl
@[simp] theorem clearFlags_laneA (s : State) : (clearFlags s).laneA = s.laneA := rfl
@[simp] theorem clearFlags_laneB (s : State) : (clearFlags s).laneB = s.laneB := rfl
@[simp] theorem clearFlags_query (s : State) : (clearFlags s).query = s.query := rfl
@[simp] theorem clearFlags_store (s : State) : (clearFlags s).store = s.store := rfl
@[simp] theorem clearFlags_park (s : State) : (clearFlags s).park = s.park := rfl
@[simp] theorem clearFlags_loader (s : State) : (clearFlags s).loader = s.loader := rfl
@[simp] theorem clearFlags_link (s : State) : (clearFlags s).link = { s.link with overrun := false, linkFault := false, noticeOverflow := false } := rfl
@[simp] theorem clearFlags_flash (s : State) : (clearFlags s).flash = s.flash := rfl
@[simp] theorem clearFlags_free (s : State) : (clearFlags s).free = s.free := rfl
@[simp] theorem clearFlags_pending (s : State) : (clearFlags s).pending = s.pending := rfl

@[simp] theorem setReceiver_pins (r : Receiver) (s : State) : (setReceiver r s).pins = s.pins := rfl
@[simp] theorem setReceiver_supply (r : Receiver) (s : State) : (setReceiver r s).supply = s.supply := rfl
@[simp] theorem setReceiver_timebase (r : Receiver) (s : State) : (setReceiver r s).timebase = s.timebase := rfl
@[simp] theorem setReceiver_estimator (r : Receiver) (s : State) : (setReceiver r s).estimator = s.estimator := rfl
@[simp] theorem setReceiver_stations (r : Receiver) (s : State) : (setReceiver r s).stations = s.stations := rfl
@[simp] theorem setReceiver_car (r : Receiver) (s : State) : (setReceiver r s).car = s.car := rfl
@[simp] theorem setReceiver_pushA (r : Receiver) (s : State) : (setReceiver r s).pushA = s.pushA := rfl
@[simp] theorem setReceiver_pushB (r : Receiver) (s : State) : (setReceiver r s).pushB = s.pushB := rfl
@[simp] theorem setReceiver_settings (r : Receiver) (s : State) : (setReceiver r s).settings = s.settings := rfl
@[simp] theorem setReceiver_engine (r : Receiver) (s : State) : (setReceiver r s).engine = s.engine := rfl
@[simp] theorem setReceiver_laneA (r : Receiver) (s : State) : (setReceiver r s).laneA = s.laneA := rfl
@[simp] theorem setReceiver_laneB (r : Receiver) (s : State) : (setReceiver r s).laneB = s.laneB := rfl
@[simp] theorem setReceiver_query (r : Receiver) (s : State) : (setReceiver r s).query = s.query := rfl
@[simp] theorem setReceiver_store (r : Receiver) (s : State) : (setReceiver r s).store = s.store := rfl
@[simp] theorem setReceiver_park (r : Receiver) (s : State) : (setReceiver r s).park = s.park := rfl
@[simp] theorem setReceiver_loader (r : Receiver) (s : State) : (setReceiver r s).loader = s.loader := rfl
@[simp] theorem setReceiver_link (r : Receiver) (s : State) : (setReceiver r s).link = { s.link with receiver := r } := rfl
@[simp] theorem setReceiver_flash (r : Receiver) (s : State) : (setReceiver r s).flash = s.flash := rfl
@[simp] theorem setReceiver_free (r : Receiver) (s : State) : (setReceiver r s).free = s.free := rfl
@[simp] theorem setReceiver_pending (r : Receiver) (s : State) : (setReceiver r s).pending = s.pending := rfl

@[simp] theorem discardHeld_pins (s : State) : (discardHeld s).pins = s.pins := rfl
@[simp] theorem discardHeld_supply (s : State) : (discardHeld s).supply = s.supply := rfl
@[simp] theorem discardHeld_timebase (s : State) : (discardHeld s).timebase = s.timebase := rfl
@[simp] theorem discardHeld_estimator (s : State) : (discardHeld s).estimator = s.estimator := rfl
@[simp] theorem discardHeld_stations (s : State) : (discardHeld s).stations = s.stations := rfl
@[simp] theorem discardHeld_car (s : State) : (discardHeld s).car = s.car := rfl
@[simp] theorem discardHeld_pushA (s : State) : (discardHeld s).pushA = s.pushA := rfl
@[simp] theorem discardHeld_pushB (s : State) : (discardHeld s).pushB = s.pushB := rfl
@[simp] theorem discardHeld_settings (s : State) : (discardHeld s).settings = s.settings := rfl
@[simp] theorem discardHeld_engine (s : State) : (discardHeld s).engine = s.engine := rfl
@[simp] theorem discardHeld_laneA (s : State) : (discardHeld s).laneA = s.laneA := rfl
@[simp] theorem discardHeld_laneB (s : State) : (discardHeld s).laneB = s.laneB := rfl
@[simp] theorem discardHeld_query (s : State) : (discardHeld s).query = s.query := rfl
@[simp] theorem discardHeld_store (s : State) : (discardHeld s).store = s.store := rfl
@[simp] theorem discardHeld_park (s : State) : (discardHeld s).park = s.park := rfl
@[simp] theorem discardHeld_loader (s : State) : (discardHeld s).loader = s.loader := rfl
@[simp] theorem discardHeld_link (s : State) : (discardHeld s).link = { s.link with held := [] } := rfl
@[simp] theorem discardHeld_flash (s : State) : (discardHeld s).flash = s.flash := rfl
@[simp] theorem discardHeld_free (s : State) : (discardHeld s).free = s.free := rfl
@[simp] theorem discardHeld_pending (s : State) : (discardHeld s).pending = s.pending := rfl

@[simp] theorem State.updStation_pins (s : State) (n : Nat) (f : Station → Station) : (s.updStation n f).pins = s.pins := rfl
@[simp] theorem State.updStation_supply (s : State) (n : Nat) (f : Station → Station) : (s.updStation n f).supply = s.supply := rfl
@[simp] theorem State.updStation_timebase (s : State) (n : Nat) (f : Station → Station) : (s.updStation n f).timebase = s.timebase := rfl
@[simp] theorem State.updStation_estimator (s : State) (n : Nat) (f : Station → Station) : (s.updStation n f).estimator = s.estimator := rfl
@[simp] theorem State.updStation_stations (s : State) (n : Nat) (f : Station → Station) : (s.updStation n f).stations = s.stations.map fun st => if st.entry.number = n then f st else st := rfl
@[simp] theorem State.updStation_car (s : State) (n : Nat) (f : Station → Station) : (s.updStation n f).car = s.car := rfl
@[simp] theorem State.updStation_pushA (s : State) (n : Nat) (f : Station → Station) : (s.updStation n f).pushA = s.pushA := rfl
@[simp] theorem State.updStation_pushB (s : State) (n : Nat) (f : Station → Station) : (s.updStation n f).pushB = s.pushB := rfl
@[simp] theorem State.updStation_settings (s : State) (n : Nat) (f : Station → Station) : (s.updStation n f).settings = s.settings := rfl
@[simp] theorem State.updStation_engine (s : State) (n : Nat) (f : Station → Station) : (s.updStation n f).engine = s.engine := rfl
@[simp] theorem State.updStation_laneA (s : State) (n : Nat) (f : Station → Station) : (s.updStation n f).laneA = s.laneA := rfl
@[simp] theorem State.updStation_laneB (s : State) (n : Nat) (f : Station → Station) : (s.updStation n f).laneB = s.laneB := rfl
@[simp] theorem State.updStation_query (s : State) (n : Nat) (f : Station → Station) : (s.updStation n f).query = s.query := rfl
@[simp] theorem State.updStation_store (s : State) (n : Nat) (f : Station → Station) : (s.updStation n f).store = s.store := rfl
@[simp] theorem State.updStation_park (s : State) (n : Nat) (f : Station → Station) : (s.updStation n f).park = s.park := rfl
@[simp] theorem State.updStation_loader (s : State) (n : Nat) (f : Station → Station) : (s.updStation n f).loader = s.loader := rfl
@[simp] theorem State.updStation_link (s : State) (n : Nat) (f : Station → Station) : (s.updStation n f).link = s.link := rfl
@[simp] theorem State.updStation_flash (s : State) (n : Nat) (f : Station → Station) : (s.updStation n f).flash = s.flash := rfl
@[simp] theorem State.updStation_free (s : State) (n : Nat) (f : Station → Station) : (s.updStation n f).free = s.free := rfl
@[simp] theorem State.updStation_pending (s : State) (n : Nat) (f : Station → Station) : (s.updStation n f).pending = s.pending := rfl

@[simp] theorem State.updJob_pins (s : State) (n : Nat) (f : Job → Job) : (s.updJob n f).pins = s.pins := rfl
@[simp] theorem State.updJob_supply (s : State) (n : Nat) (f : Job → Job) : (s.updJob n f).supply = s.supply := rfl
@[simp] theorem State.updJob_timebase (s : State) (n : Nat) (f : Job → Job) : (s.updJob n f).timebase = s.timebase := rfl
@[simp] theorem State.updJob_estimator (s : State) (n : Nat) (f : Job → Job) : (s.updJob n f).estimator = s.estimator := rfl
@[simp] theorem State.updJob_stations (s : State) (n : Nat) (f : Job → Job) : (s.updJob n f).stations = s.stations := rfl
@[simp] theorem State.updJob_car (s : State) (n : Nat) (f : Job → Job) : (s.updJob n f).car = s.car := rfl
@[simp] theorem State.updJob_pushA (s : State) (n : Nat) (f : Job → Job) : (s.updJob n f).pushA = s.pushA := rfl
@[simp] theorem State.updJob_pushB (s : State) (n : Nat) (f : Job → Job) : (s.updJob n f).pushB = s.pushB := rfl
@[simp] theorem State.updJob_settings (s : State) (n : Nat) (f : Job → Job) : (s.updJob n f).settings = s.settings := rfl
@[simp] theorem State.updJob_engine (s : State) (n : Nat) (f : Job → Job) : (s.updJob n f).engine = { s.engine with queue := s.engine.queue.map fun j => if j.station = n then f j else j } := rfl
@[simp] theorem State.updJob_laneA (s : State) (n : Nat) (f : Job → Job) : (s.updJob n f).laneA = s.laneA := rfl
@[simp] theorem State.updJob_laneB (s : State) (n : Nat) (f : Job → Job) : (s.updJob n f).laneB = s.laneB := rfl
@[simp] theorem State.updJob_query (s : State) (n : Nat) (f : Job → Job) : (s.updJob n f).query = s.query := rfl
@[simp] theorem State.updJob_store (s : State) (n : Nat) (f : Job → Job) : (s.updJob n f).store = s.store := rfl
@[simp] theorem State.updJob_park (s : State) (n : Nat) (f : Job → Job) : (s.updJob n f).park = s.park := rfl
@[simp] theorem State.updJob_loader (s : State) (n : Nat) (f : Job → Job) : (s.updJob n f).loader = s.loader := rfl
@[simp] theorem State.updJob_link (s : State) (n : Nat) (f : Job → Job) : (s.updJob n f).link = s.link := rfl
@[simp] theorem State.updJob_flash (s : State) (n : Nat) (f : Job → Job) : (s.updJob n f).flash = s.flash := rfl
@[simp] theorem State.updJob_free (s : State) (n : Nat) (f : Job → Job) : (s.updJob n f).free = s.free := rfl
@[simp] theorem State.updJob_pending (s : State) (n : Nat) (f : Job → Job) : (s.updJob n f).pending = s.pending := rfl

@[simp] theorem setPhase_pins (p : EnginePhase) (s : State) : (setPhase p s).pins = s.pins := rfl
@[simp] theorem setPhase_supply (p : EnginePhase) (s : State) : (setPhase p s).supply = s.supply := rfl
@[simp] theorem setPhase_timebase (p : EnginePhase) (s : State) : (setPhase p s).timebase = s.timebase := rfl
@[simp] theorem setPhase_estimator (p : EnginePhase) (s : State) : (setPhase p s).estimator = s.estimator := rfl
@[simp] theorem setPhase_stations (p : EnginePhase) (s : State) : (setPhase p s).stations = s.stations := rfl
@[simp] theorem setPhase_car (p : EnginePhase) (s : State) : (setPhase p s).car = s.car := rfl
@[simp] theorem setPhase_pushA (p : EnginePhase) (s : State) : (setPhase p s).pushA = s.pushA := rfl
@[simp] theorem setPhase_pushB (p : EnginePhase) (s : State) : (setPhase p s).pushB = s.pushB := rfl
@[simp] theorem setPhase_settings (p : EnginePhase) (s : State) : (setPhase p s).settings = s.settings := rfl
@[simp] theorem setPhase_engine (p : EnginePhase) (s : State) : (setPhase p s).engine = { s.engine with phase := p } := rfl
@[simp] theorem setPhase_laneA (p : EnginePhase) (s : State) : (setPhase p s).laneA = s.laneA := rfl
@[simp] theorem setPhase_laneB (p : EnginePhase) (s : State) : (setPhase p s).laneB = s.laneB := rfl
@[simp] theorem setPhase_query (p : EnginePhase) (s : State) : (setPhase p s).query = s.query := rfl
@[simp] theorem setPhase_store (p : EnginePhase) (s : State) : (setPhase p s).store = s.store := rfl
@[simp] theorem setPhase_park (p : EnginePhase) (s : State) : (setPhase p s).park = s.park := rfl
@[simp] theorem setPhase_loader (p : EnginePhase) (s : State) : (setPhase p s).loader = s.loader := rfl
@[simp] theorem setPhase_link (p : EnginePhase) (s : State) : (setPhase p s).link = s.link := rfl
@[simp] theorem setPhase_flash (p : EnginePhase) (s : State) : (setPhase p s).flash = s.flash := rfl
@[simp] theorem setPhase_free (p : EnginePhase) (s : State) : (setPhase p s).free = s.free := rfl
@[simp] theorem setPhase_pending (p : EnginePhase) (s : State) : (setPhase p s).pending = s.pending := rfl

@[simp] theorem startRun_pins (s : State) : (startRun s).pins = s.pins := rfl
@[simp] theorem startRun_supply (s : State) : (startRun s).supply = s.supply := rfl
@[simp] theorem startRun_timebase (s : State) : (startRun s).timebase = s.timebase := rfl
@[simp] theorem startRun_estimator (s : State) : (startRun s).estimator = s.estimator := rfl
@[simp] theorem startRun_stations (s : State) : (startRun s).stations = s.stations := rfl
@[simp] theorem startRun_car (s : State) : (startRun s).car = s.car := rfl
@[simp] theorem startRun_pushA (s : State) : (startRun s).pushA = s.pushA := rfl
@[simp] theorem startRun_pushB (s : State) : (startRun s).pushB = s.pushB := rfl
@[simp] theorem startRun_settings (s : State) : (startRun s).settings = s.settings := rfl
@[simp] theorem startRun_engine (s : State) : (startRun s).engine = { s.engine with restored := 0, failed := 0, runStart := s.timebase.count } := rfl
@[simp] theorem startRun_laneA (s : State) : (startRun s).laneA = s.laneA := rfl
@[simp] theorem startRun_laneB (s : State) : (startRun s).laneB = s.laneB := rfl
@[simp] theorem startRun_query (s : State) : (startRun s).query = s.query := rfl
@[simp] theorem startRun_store (s : State) : (startRun s).store = s.store := rfl
@[simp] theorem startRun_park (s : State) : (startRun s).park = s.park := rfl
@[simp] theorem startRun_loader (s : State) : (startRun s).loader = s.loader := rfl
@[simp] theorem startRun_link (s : State) : (startRun s).link = s.link := rfl
@[simp] theorem startRun_flash (s : State) : (startRun s).flash = s.flash := rfl
@[simp] theorem startRun_free (s : State) : (startRun s).free = s.free := rfl
@[simp] theorem startRun_pending (s : State) : (startRun s).pending = s.pending := rfl

@[simp] theorem removePush_pins (n : Nat) (s : State) : (removePush n s).pins = s.pins := rfl
@[simp] theorem removePush_supply (n : Nat) (s : State) : (removePush n s).supply = s.supply := rfl
@[simp] theorem removePush_timebase (n : Nat) (s : State) : (removePush n s).timebase = s.timebase := rfl
@[simp] theorem removePush_estimator (n : Nat) (s : State) : (removePush n s).estimator = s.estimator := rfl
@[simp] theorem removePush_stations (n : Nat) (s : State) : (removePush n s).stations = s.stations := rfl
@[simp] theorem removePush_car (n : Nat) (s : State) : (removePush n s).car = s.car := rfl
@[simp] theorem removePush_pushA (n : Nat) (s : State) : (removePush n s).pushA = s.pushA.filter (·.station ≠ n) := rfl
@[simp] theorem removePush_pushB (n : Nat) (s : State) : (removePush n s).pushB = s.pushB.filter (·.station ≠ n) := rfl
@[simp] theorem removePush_settings (n : Nat) (s : State) : (removePush n s).settings = s.settings := rfl
@[simp] theorem removePush_engine (n : Nat) (s : State) : (removePush n s).engine = s.engine := rfl
@[simp] theorem removePush_laneA (n : Nat) (s : State) : (removePush n s).laneA = s.laneA := rfl
@[simp] theorem removePush_laneB (n : Nat) (s : State) : (removePush n s).laneB = s.laneB := rfl
@[simp] theorem removePush_query (n : Nat) (s : State) : (removePush n s).query = s.query := rfl
@[simp] theorem removePush_store (n : Nat) (s : State) : (removePush n s).store = s.store := rfl
@[simp] theorem removePush_park (n : Nat) (s : State) : (removePush n s).park = s.park := rfl
@[simp] theorem removePush_loader (n : Nat) (s : State) : (removePush n s).loader = s.loader := rfl
@[simp] theorem removePush_link (n : Nat) (s : State) : (removePush n s).link = s.link := rfl
@[simp] theorem removePush_flash (n : Nat) (s : State) : (removePush n s).flash = s.flash := rfl
@[simp] theorem removePush_free (n : Nat) (s : State) : (removePush n s).free = s.free := rfl
@[simp] theorem removePush_pending (n : Nat) (s : State) : (removePush n s).pending = s.pending := rfl

@[simp] theorem State.setBuffer_pins (s : State) (i : Nat) (b : Buffer) : (s.setBuffer i b).pins = s.pins := rfl
@[simp] theorem State.setBuffer_supply (s : State) (i : Nat) (b : Buffer) : (s.setBuffer i b).supply = s.supply := rfl
@[simp] theorem State.setBuffer_timebase (s : State) (i : Nat) (b : Buffer) : (s.setBuffer i b).timebase = s.timebase := rfl
@[simp] theorem State.setBuffer_estimator (s : State) (i : Nat) (b : Buffer) : (s.setBuffer i b).estimator = s.estimator := rfl
@[simp] theorem State.setBuffer_stations (s : State) (i : Nat) (b : Buffer) : (s.setBuffer i b).stations = s.stations := rfl
@[simp] theorem State.setBuffer_car (s : State) (i : Nat) (b : Buffer) : (s.setBuffer i b).car = s.car := rfl
@[simp] theorem State.setBuffer_pushA (s : State) (i : Nat) (b : Buffer) : (s.setBuffer i b).pushA = s.pushA := rfl
@[simp] theorem State.setBuffer_pushB (s : State) (i : Nat) (b : Buffer) : (s.setBuffer i b).pushB = s.pushB := rfl
@[simp] theorem State.setBuffer_settings (s : State) (i : Nat) (b : Buffer) : (s.setBuffer i b).settings = s.settings := rfl
@[simp] theorem State.setBuffer_engine (s : State) (i : Nat) (b : Buffer) : (s.setBuffer i b).engine = s.engine := rfl
@[simp] theorem State.setBuffer_laneA (s : State) (i : Nat) (b : Buffer) : (s.setBuffer i b).laneA = s.laneA := rfl
@[simp] theorem State.setBuffer_laneB (s : State) (i : Nat) (b : Buffer) : (s.setBuffer i b).laneB = s.laneB := rfl
@[simp] theorem State.setBuffer_query (s : State) (i : Nat) (b : Buffer) : (s.setBuffer i b).query = s.query := rfl
@[simp] theorem State.setBuffer_store (s : State) (i : Nat) (b : Buffer) : (s.setBuffer i b).store = { s.store with buffers := s.store.buffers.set i b } := rfl
@[simp] theorem State.setBuffer_park (s : State) (i : Nat) (b : Buffer) : (s.setBuffer i b).park = s.park := rfl
@[simp] theorem State.setBuffer_loader (s : State) (i : Nat) (b : Buffer) : (s.setBuffer i b).loader = s.loader := rfl
@[simp] theorem State.setBuffer_link (s : State) (i : Nat) (b : Buffer) : (s.setBuffer i b).link = s.link := rfl
@[simp] theorem State.setBuffer_flash (s : State) (i : Nat) (b : Buffer) : (s.setBuffer i b).flash = s.flash := rfl
@[simp] theorem State.setBuffer_free (s : State) (i : Nat) (b : Buffer) : (s.setBuffer i b).free = s.free := rfl
@[simp] theorem State.setBuffer_pending (s : State) (i : Nat) (b : Buffer) : (s.setBuffer i b).pending = s.pending := rfl

@[simp] theorem queueOp_pins (op : FlashOp) (s : State) : (queueOp op s).pins = s.pins := rfl
@[simp] theorem queueOp_supply (op : FlashOp) (s : State) : (queueOp op s).supply = s.supply := rfl
@[simp] theorem queueOp_timebase (op : FlashOp) (s : State) : (queueOp op s).timebase = s.timebase := rfl
@[simp] theorem queueOp_estimator (op : FlashOp) (s : State) : (queueOp op s).estimator = s.estimator := rfl
@[simp] theorem queueOp_stations (op : FlashOp) (s : State) : (queueOp op s).stations = s.stations := rfl
@[simp] theorem queueOp_car (op : FlashOp) (s : State) : (queueOp op s).car = s.car := rfl
@[simp] theorem queueOp_pushA (op : FlashOp) (s : State) : (queueOp op s).pushA = s.pushA := rfl
@[simp] theorem queueOp_pushB (op : FlashOp) (s : State) : (queueOp op s).pushB = s.pushB := rfl
@[simp] theorem queueOp_settings (op : FlashOp) (s : State) : (queueOp op s).settings = s.settings := rfl
@[simp] theorem queueOp_engine (op : FlashOp) (s : State) : (queueOp op s).engine = s.engine := rfl
@[simp] theorem queueOp_laneA (op : FlashOp) (s : State) : (queueOp op s).laneA = s.laneA := rfl
@[simp] theorem queueOp_laneB (op : FlashOp) (s : State) : (queueOp op s).laneB = s.laneB := rfl
@[simp] theorem queueOp_query (op : FlashOp) (s : State) : (queueOp op s).query = s.query := rfl
@[simp] theorem queueOp_store (op : FlashOp) (s : State) : (queueOp op s).store = { s.store with queue := s.store.queue ++ [op] } := rfl
@[simp] theorem queueOp_park (op : FlashOp) (s : State) : (queueOp op s).park = s.park := rfl
@[simp] theorem queueOp_loader (op : FlashOp) (s : State) : (queueOp op s).loader = s.loader := rfl
@[simp] theorem queueOp_link (op : FlashOp) (s : State) : (queueOp op s).link = s.link := rfl
@[simp] theorem queueOp_flash (op : FlashOp) (s : State) : (queueOp op s).flash = s.flash := rfl
@[simp] theorem queueOp_free (op : FlashOp) (s : State) : (queueOp op s).free = s.free := rfl
@[simp] theorem queueOp_pending (op : FlashOp) (s : State) : (queueOp op s).pending = s.pending := rfl

@[simp] theorem queueOpFirst_pins (op : FlashOp) (s : State) : (queueOpFirst op s).pins = s.pins := rfl
@[simp] theorem queueOpFirst_supply (op : FlashOp) (s : State) : (queueOpFirst op s).supply = s.supply := rfl
@[simp] theorem queueOpFirst_timebase (op : FlashOp) (s : State) : (queueOpFirst op s).timebase = s.timebase := rfl
@[simp] theorem queueOpFirst_estimator (op : FlashOp) (s : State) : (queueOpFirst op s).estimator = s.estimator := rfl
@[simp] theorem queueOpFirst_stations (op : FlashOp) (s : State) : (queueOpFirst op s).stations = s.stations := rfl
@[simp] theorem queueOpFirst_car (op : FlashOp) (s : State) : (queueOpFirst op s).car = s.car := rfl
@[simp] theorem queueOpFirst_pushA (op : FlashOp) (s : State) : (queueOpFirst op s).pushA = s.pushA := rfl
@[simp] theorem queueOpFirst_pushB (op : FlashOp) (s : State) : (queueOpFirst op s).pushB = s.pushB := rfl
@[simp] theorem queueOpFirst_settings (op : FlashOp) (s : State) : (queueOpFirst op s).settings = s.settings := rfl
@[simp] theorem queueOpFirst_engine (op : FlashOp) (s : State) : (queueOpFirst op s).engine = s.engine := rfl
@[simp] theorem queueOpFirst_laneA (op : FlashOp) (s : State) : (queueOpFirst op s).laneA = s.laneA := rfl
@[simp] theorem queueOpFirst_laneB (op : FlashOp) (s : State) : (queueOpFirst op s).laneB = s.laneB := rfl
@[simp] theorem queueOpFirst_query (op : FlashOp) (s : State) : (queueOpFirst op s).query = s.query := rfl
@[simp] theorem queueOpFirst_store (op : FlashOp) (s : State) : (queueOpFirst op s).store = { s.store with queue := op :: s.store.queue } := rfl
@[simp] theorem queueOpFirst_park (op : FlashOp) (s : State) : (queueOpFirst op s).park = s.park := rfl
@[simp] theorem queueOpFirst_loader (op : FlashOp) (s : State) : (queueOpFirst op s).loader = s.loader := rfl
@[simp] theorem queueOpFirst_link (op : FlashOp) (s : State) : (queueOpFirst op s).link = s.link := rfl
@[simp] theorem queueOpFirst_flash (op : FlashOp) (s : State) : (queueOpFirst op s).flash = s.flash := rfl
@[simp] theorem queueOpFirst_free (op : FlashOp) (s : State) : (queueOpFirst op s).free = s.free := rfl
@[simp] theorem queueOpFirst_pending (op : FlashOp) (s : State) : (queueOpFirst op s).pending = s.pending := rfl

@[simp] theorem withdrawOps_pins (who : Requester) (s : State) : (withdrawOps who s).pins = s.pins := rfl
@[simp] theorem withdrawOps_supply (who : Requester) (s : State) : (withdrawOps who s).supply = s.supply := rfl
@[simp] theorem withdrawOps_timebase (who : Requester) (s : State) : (withdrawOps who s).timebase = s.timebase := rfl
@[simp] theorem withdrawOps_estimator (who : Requester) (s : State) : (withdrawOps who s).estimator = s.estimator := rfl
@[simp] theorem withdrawOps_stations (who : Requester) (s : State) : (withdrawOps who s).stations = s.stations := rfl
@[simp] theorem withdrawOps_car (who : Requester) (s : State) : (withdrawOps who s).car = s.car := rfl
@[simp] theorem withdrawOps_pushA (who : Requester) (s : State) : (withdrawOps who s).pushA = s.pushA := rfl
@[simp] theorem withdrawOps_pushB (who : Requester) (s : State) : (withdrawOps who s).pushB = s.pushB := rfl
@[simp] theorem withdrawOps_settings (who : Requester) (s : State) : (withdrawOps who s).settings = s.settings := rfl
@[simp] theorem withdrawOps_engine (who : Requester) (s : State) : (withdrawOps who s).engine = s.engine := rfl
@[simp] theorem withdrawOps_laneA (who : Requester) (s : State) : (withdrawOps who s).laneA = s.laneA := rfl
@[simp] theorem withdrawOps_laneB (who : Requester) (s : State) : (withdrawOps who s).laneB = s.laneB := rfl
@[simp] theorem withdrawOps_query (who : Requester) (s : State) : (withdrawOps who s).query = s.query := rfl
@[simp] theorem withdrawOps_store (who : Requester) (s : State) : (withdrawOps who s).store = { s.store with queue := s.store.queue.filter (·.who ≠ who) } := rfl
@[simp] theorem withdrawOps_park (who : Requester) (s : State) : (withdrawOps who s).park = s.park := rfl
@[simp] theorem withdrawOps_loader (who : Requester) (s : State) : (withdrawOps who s).loader = s.loader := rfl
@[simp] theorem withdrawOps_link (who : Requester) (s : State) : (withdrawOps who s).link = s.link := rfl
@[simp] theorem withdrawOps_flash (who : Requester) (s : State) : (withdrawOps who s).flash = s.flash := rfl
@[simp] theorem withdrawOps_free (who : Requester) (s : State) : (withdrawOps who s).free = s.free := rfl
@[simp] theorem withdrawOps_pending (who : Requester) (s : State) : (withdrawOps who s).pending = s.pending := rfl

@[simp] theorem withdrawRequest_pins (who : BufferOwner) (s : State) : (withdrawRequest who s).pins = s.pins := rfl
@[simp] theorem withdrawRequest_supply (who : BufferOwner) (s : State) : (withdrawRequest who s).supply = s.supply := rfl
@[simp] theorem withdrawRequest_timebase (who : BufferOwner) (s : State) : (withdrawRequest who s).timebase = s.timebase := rfl
@[simp] theorem withdrawRequest_estimator (who : BufferOwner) (s : State) : (withdrawRequest who s).estimator = s.estimator := rfl
@[simp] theorem withdrawRequest_stations (who : BufferOwner) (s : State) : (withdrawRequest who s).stations = s.stations := rfl
@[simp] theorem withdrawRequest_car (who : BufferOwner) (s : State) : (withdrawRequest who s).car = s.car := rfl
@[simp] theorem withdrawRequest_pushA (who : BufferOwner) (s : State) : (withdrawRequest who s).pushA = s.pushA := rfl
@[simp] theorem withdrawRequest_pushB (who : BufferOwner) (s : State) : (withdrawRequest who s).pushB = s.pushB := rfl
@[simp] theorem withdrawRequest_settings (who : BufferOwner) (s : State) : (withdrawRequest who s).settings = s.settings := rfl
@[simp] theorem withdrawRequest_engine (who : BufferOwner) (s : State) : (withdrawRequest who s).engine = s.engine := rfl
@[simp] theorem withdrawRequest_laneA (who : BufferOwner) (s : State) : (withdrawRequest who s).laneA = s.laneA := rfl
@[simp] theorem withdrawRequest_laneB (who : BufferOwner) (s : State) : (withdrawRequest who s).laneB = s.laneB := rfl
@[simp] theorem withdrawRequest_query (who : BufferOwner) (s : State) : (withdrawRequest who s).query = s.query := rfl
@[simp] theorem withdrawRequest_store (who : BufferOwner) (s : State) : (withdrawRequest who s).store = { s.store with waitList := s.store.waitList.filter (·.who ≠ who) } := rfl
@[simp] theorem withdrawRequest_park (who : BufferOwner) (s : State) : (withdrawRequest who s).park = s.park := rfl
@[simp] theorem withdrawRequest_loader (who : BufferOwner) (s : State) : (withdrawRequest who s).loader = s.loader := rfl
@[simp] theorem withdrawRequest_link (who : BufferOwner) (s : State) : (withdrawRequest who s).link = s.link := rfl
@[simp] theorem withdrawRequest_flash (who : BufferOwner) (s : State) : (withdrawRequest who s).flash = s.flash := rfl
@[simp] theorem withdrawRequest_free (who : BufferOwner) (s : State) : (withdrawRequest who s).free = s.free := rfl
@[simp] theorem withdrawRequest_pending (who : BufferOwner) (s : State) : (withdrawRequest who s).pending = s.pending := rfl

@[simp] theorem setWrite_pins (w : ImageWrite) (s : State) : (setWrite w s).pins = s.pins := rfl
@[simp] theorem setWrite_supply (w : ImageWrite) (s : State) : (setWrite w s).supply = s.supply := rfl
@[simp] theorem setWrite_timebase (w : ImageWrite) (s : State) : (setWrite w s).timebase = s.timebase := rfl
@[simp] theorem setWrite_estimator (w : ImageWrite) (s : State) : (setWrite w s).estimator = s.estimator := rfl
@[simp] theorem setWrite_stations (w : ImageWrite) (s : State) : (setWrite w s).stations = s.stations := rfl
@[simp] theorem setWrite_car (w : ImageWrite) (s : State) : (setWrite w s).car = s.car := rfl
@[simp] theorem setWrite_pushA (w : ImageWrite) (s : State) : (setWrite w s).pushA = s.pushA := rfl
@[simp] theorem setWrite_pushB (w : ImageWrite) (s : State) : (setWrite w s).pushB = s.pushB := rfl
@[simp] theorem setWrite_settings (w : ImageWrite) (s : State) : (setWrite w s).settings = s.settings := rfl
@[simp] theorem setWrite_engine (w : ImageWrite) (s : State) : (setWrite w s).engine = s.engine := rfl
@[simp] theorem setWrite_laneA (w : ImageWrite) (s : State) : (setWrite w s).laneA = s.laneA := rfl
@[simp] theorem setWrite_laneB (w : ImageWrite) (s : State) : (setWrite w s).laneB = s.laneB := rfl
@[simp] theorem setWrite_query (w : ImageWrite) (s : State) : (setWrite w s).query = s.query := rfl
@[simp] theorem setWrite_store (w : ImageWrite) (s : State) : (setWrite w s).store = { s.store with imageWrite := some w } := rfl
@[simp] theorem setWrite_park (w : ImageWrite) (s : State) : (setWrite w s).park = s.park := rfl
@[simp] theorem setWrite_loader (w : ImageWrite) (s : State) : (setWrite w s).loader = s.loader := rfl
@[simp] theorem setWrite_link (w : ImageWrite) (s : State) : (setWrite w s).link = s.link := rfl
@[simp] theorem setWrite_flash (w : ImageWrite) (s : State) : (setWrite w s).flash = s.flash := rfl
@[simp] theorem setWrite_free (w : ImageWrite) (s : State) : (setWrite w s).free = s.free := rfl
@[simp] theorem setWrite_pending (w : ImageWrite) (s : State) : (setWrite w s).pending = s.pending := rfl

@[simp] theorem setSave_pins (c : ConfigSave) (s : State) : (setSave c s).pins = s.pins := rfl
@[simp] theorem setSave_supply (c : ConfigSave) (s : State) : (setSave c s).supply = s.supply := rfl
@[simp] theorem setSave_timebase (c : ConfigSave) (s : State) : (setSave c s).timebase = s.timebase := rfl
@[simp] theorem setSave_estimator (c : ConfigSave) (s : State) : (setSave c s).estimator = s.estimator := rfl
@[simp] theorem setSave_stations (c : ConfigSave) (s : State) : (setSave c s).stations = s.stations := rfl
@[simp] theorem setSave_car (c : ConfigSave) (s : State) : (setSave c s).car = s.car := rfl
@[simp] theorem setSave_pushA (c : ConfigSave) (s : State) : (setSave c s).pushA = s.pushA := rfl
@[simp] theorem setSave_pushB (c : ConfigSave) (s : State) : (setSave c s).pushB = s.pushB := rfl
@[simp] theorem setSave_settings (c : ConfigSave) (s : State) : (setSave c s).settings = s.settings := rfl
@[simp] theorem setSave_engine (c : ConfigSave) (s : State) : (setSave c s).engine = s.engine := rfl
@[simp] theorem setSave_laneA (c : ConfigSave) (s : State) : (setSave c s).laneA = s.laneA := rfl
@[simp] theorem setSave_laneB (c : ConfigSave) (s : State) : (setSave c s).laneB = s.laneB := rfl
@[simp] theorem setSave_query (c : ConfigSave) (s : State) : (setSave c s).query = s.query := rfl
@[simp] theorem setSave_store (c : ConfigSave) (s : State) : (setSave c s).store = { s.store with configSave := some c } := rfl
@[simp] theorem setSave_park (c : ConfigSave) (s : State) : (setSave c s).park = s.park := rfl
@[simp] theorem setSave_loader (c : ConfigSave) (s : State) : (setSave c s).loader = s.loader := rfl
@[simp] theorem setSave_link (c : ConfigSave) (s : State) : (setSave c s).link = s.link := rfl
@[simp] theorem setSave_flash (c : ConfigSave) (s : State) : (setSave c s).flash = s.flash := rfl
@[simp] theorem setSave_free (c : ConfigSave) (s : State) : (setSave c s).free = s.free := rfl
@[simp] theorem setSave_pending (c : ConfigSave) (s : State) : (setSave c s).pending = s.pending := rfl

@[simp] theorem State.updLoader_pins (s : State) (f : Loader → Loader) : (s.updLoader f).pins = s.pins := rfl
@[simp] theorem State.updLoader_supply (s : State) (f : Loader → Loader) : (s.updLoader f).supply = s.supply := rfl
@[simp] theorem State.updLoader_timebase (s : State) (f : Loader → Loader) : (s.updLoader f).timebase = s.timebase := rfl
@[simp] theorem State.updLoader_estimator (s : State) (f : Loader → Loader) : (s.updLoader f).estimator = s.estimator := rfl
@[simp] theorem State.updLoader_stations (s : State) (f : Loader → Loader) : (s.updLoader f).stations = s.stations := rfl
@[simp] theorem State.updLoader_car (s : State) (f : Loader → Loader) : (s.updLoader f).car = s.car := rfl
@[simp] theorem State.updLoader_pushA (s : State) (f : Loader → Loader) : (s.updLoader f).pushA = s.pushA := rfl
@[simp] theorem State.updLoader_pushB (s : State) (f : Loader → Loader) : (s.updLoader f).pushB = s.pushB := rfl
@[simp] theorem State.updLoader_settings (s : State) (f : Loader → Loader) : (s.updLoader f).settings = s.settings := rfl
@[simp] theorem State.updLoader_engine (s : State) (f : Loader → Loader) : (s.updLoader f).engine = s.engine := rfl
@[simp] theorem State.updLoader_laneA (s : State) (f : Loader → Loader) : (s.updLoader f).laneA = s.laneA := rfl
@[simp] theorem State.updLoader_laneB (s : State) (f : Loader → Loader) : (s.updLoader f).laneB = s.laneB := rfl
@[simp] theorem State.updLoader_query (s : State) (f : Loader → Loader) : (s.updLoader f).query = s.query := rfl
@[simp] theorem State.updLoader_store (s : State) (f : Loader → Loader) : (s.updLoader f).store = s.store := rfl
@[simp] theorem State.updLoader_park (s : State) (f : Loader → Loader) : (s.updLoader f).park = s.park := rfl
@[simp] theorem State.updLoader_loader (s : State) (f : Loader → Loader) : (s.updLoader f).loader = f s.loader := rfl
@[simp] theorem State.updLoader_link (s : State) (f : Loader → Loader) : (s.updLoader f).link = s.link := rfl
@[simp] theorem State.updLoader_flash (s : State) (f : Loader → Loader) : (s.updLoader f).flash = s.flash := rfl
@[simp] theorem State.updLoader_free (s : State) (f : Loader → Loader) : (s.updLoader f).free = s.free := rfl
@[simp] theorem State.updLoader_pending (s : State) (f : Loader → Loader) : (s.updLoader f).pending = s.pending := rfl

@[simp] theorem State.withPending_pins (s : State) (q : List Instr) : (s.withPending q).pins = s.pins := rfl
@[simp] theorem State.withPending_supply (s : State) (q : List Instr) : (s.withPending q).supply = s.supply := rfl
@[simp] theorem State.withPending_timebase (s : State) (q : List Instr) : (s.withPending q).timebase = s.timebase := rfl
@[simp] theorem State.withPending_estimator (s : State) (q : List Instr) : (s.withPending q).estimator = s.estimator := rfl
@[simp] theorem State.withPending_stations (s : State) (q : List Instr) : (s.withPending q).stations = s.stations := rfl
@[simp] theorem State.withPending_car (s : State) (q : List Instr) : (s.withPending q).car = s.car := rfl
@[simp] theorem State.withPending_pushA (s : State) (q : List Instr) : (s.withPending q).pushA = s.pushA := rfl
@[simp] theorem State.withPending_pushB (s : State) (q : List Instr) : (s.withPending q).pushB = s.pushB := rfl
@[simp] theorem State.withPending_settings (s : State) (q : List Instr) : (s.withPending q).settings = s.settings := rfl
@[simp] theorem State.withPending_engine (s : State) (q : List Instr) : (s.withPending q).engine = s.engine := rfl
@[simp] theorem State.withPending_laneA (s : State) (q : List Instr) : (s.withPending q).laneA = s.laneA := rfl
@[simp] theorem State.withPending_laneB (s : State) (q : List Instr) : (s.withPending q).laneB = s.laneB := rfl
@[simp] theorem State.withPending_query (s : State) (q : List Instr) : (s.withPending q).query = s.query := rfl
@[simp] theorem State.withPending_store (s : State) (q : List Instr) : (s.withPending q).store = s.store := rfl
@[simp] theorem State.withPending_park (s : State) (q : List Instr) : (s.withPending q).park = s.park := rfl
@[simp] theorem State.withPending_loader (s : State) (q : List Instr) : (s.withPending q).loader = s.loader := rfl
@[simp] theorem State.withPending_link (s : State) (q : List Instr) : (s.withPending q).link = s.link := rfl
@[simp] theorem State.withPending_flash (s : State) (q : List Instr) : (s.withPending q).flash = s.flash := rfl
@[simp] theorem State.withPending_free (s : State) (q : List Instr) : (s.withPending q).free = s.free := rfl
@[simp] theorem State.withPending_pending (s : State) (q : List Instr) : (s.withPending q).pending = q := rfl

@[simp] theorem State.setLane_pins (s : State) (l : Lane) (x : LaneState) : (s.setLane l x).pins = s.pins := by cases l <;> rfl
@[simp] theorem State.setLane_supply (s : State) (l : Lane) (x : LaneState) : (s.setLane l x).supply = s.supply := by cases l <;> rfl
@[simp] theorem State.setLane_timebase (s : State) (l : Lane) (x : LaneState) : (s.setLane l x).timebase = s.timebase := by cases l <;> rfl
@[simp] theorem State.setLane_estimator (s : State) (l : Lane) (x : LaneState) : (s.setLane l x).estimator = s.estimator := by cases l <;> rfl
@[simp] theorem State.setLane_stations (s : State) (l : Lane) (x : LaneState) : (s.setLane l x).stations = s.stations := by cases l <;> rfl
@[simp] theorem State.setLane_car (s : State) (l : Lane) (x : LaneState) : (s.setLane l x).car = s.car := by cases l <;> rfl
@[simp] theorem State.setLane_pushA (s : State) (l : Lane) (x : LaneState) : (s.setLane l x).pushA = s.pushA := by cases l <;> rfl
@[simp] theorem State.setLane_pushB (s : State) (l : Lane) (x : LaneState) : (s.setLane l x).pushB = s.pushB := by cases l <;> rfl
@[simp] theorem State.setLane_settings (s : State) (l : Lane) (x : LaneState) : (s.setLane l x).settings = s.settings := by cases l <;> rfl
@[simp] theorem State.setLane_engine (s : State) (l : Lane) (x : LaneState) : (s.setLane l x).engine = s.engine := by cases l <;> rfl
@[simp] theorem State.setLane_laneA (s : State) (l : Lane) (x : LaneState) : (s.setLane l x).laneA = (match l with | .a => x | .b => s.laneA) := by cases l <;> rfl
@[simp] theorem State.setLane_laneB (s : State) (l : Lane) (x : LaneState) : (s.setLane l x).laneB = (match l with | .a => s.laneB | .b => x) := by cases l <;> rfl
@[simp] theorem State.setLane_query (s : State) (l : Lane) (x : LaneState) : (s.setLane l x).query = s.query := by cases l <;> rfl
@[simp] theorem State.setLane_store (s : State) (l : Lane) (x : LaneState) : (s.setLane l x).store = s.store := by cases l <;> rfl
@[simp] theorem State.setLane_park (s : State) (l : Lane) (x : LaneState) : (s.setLane l x).park = s.park := by cases l <;> rfl
@[simp] theorem State.setLane_loader (s : State) (l : Lane) (x : LaneState) : (s.setLane l x).loader = s.loader := by cases l <;> rfl
@[simp] theorem State.setLane_link (s : State) (l : Lane) (x : LaneState) : (s.setLane l x).link = s.link := by cases l <;> rfl
@[simp] theorem State.setLane_flash (s : State) (l : Lane) (x : LaneState) : (s.setLane l x).flash = s.flash := by cases l <;> rfl
@[simp] theorem State.setLane_free (s : State) (l : Lane) (x : LaneState) : (s.setLane l x).free = s.free := by cases l <;> rfl
@[simp] theorem State.setLane_pending (s : State) (l : Lane) (x : LaneState) : (s.setLane l x).pending = s.pending := by cases l <;> rfl

@[simp] theorem State.setPushes_pins (s : State) (l : Lane) (x : List Push) : (s.setPushes l x).pins = s.pins := by cases l <;> rfl
@[simp] theorem State.setPushes_supply (s : State) (l : Lane) (x : List Push) : (s.setPushes l x).supply = s.supply := by cases l <;> rfl
@[simp] theorem State.setPushes_timebase (s : State) (l : Lane) (x : List Push) : (s.setPushes l x).timebase = s.timebase := by cases l <;> rfl
@[simp] theorem State.setPushes_estimator (s : State) (l : Lane) (x : List Push) : (s.setPushes l x).estimator = s.estimator := by cases l <;> rfl
@[simp] theorem State.setPushes_stations (s : State) (l : Lane) (x : List Push) : (s.setPushes l x).stations = s.stations := by cases l <;> rfl
@[simp] theorem State.setPushes_car (s : State) (l : Lane) (x : List Push) : (s.setPushes l x).car = s.car := by cases l <;> rfl
@[simp] theorem State.setPushes_pushA (s : State) (l : Lane) (x : List Push) : (s.setPushes l x).pushA = (match l with | .a => x | .b => s.pushA) := by cases l <;> rfl
@[simp] theorem State.setPushes_pushB (s : State) (l : Lane) (x : List Push) : (s.setPushes l x).pushB = (match l with | .a => s.pushB | .b => x) := by cases l <;> rfl
@[simp] theorem State.setPushes_settings (s : State) (l : Lane) (x : List Push) : (s.setPushes l x).settings = s.settings := by cases l <;> rfl
@[simp] theorem State.setPushes_engine (s : State) (l : Lane) (x : List Push) : (s.setPushes l x).engine = s.engine := by cases l <;> rfl
@[simp] theorem State.setPushes_laneA (s : State) (l : Lane) (x : List Push) : (s.setPushes l x).laneA = s.laneA := by cases l <;> rfl
@[simp] theorem State.setPushes_laneB (s : State) (l : Lane) (x : List Push) : (s.setPushes l x).laneB = s.laneB := by cases l <;> rfl
@[simp] theorem State.setPushes_query (s : State) (l : Lane) (x : List Push) : (s.setPushes l x).query = s.query := by cases l <;> rfl
@[simp] theorem State.setPushes_store (s : State) (l : Lane) (x : List Push) : (s.setPushes l x).store = s.store := by cases l <;> rfl
@[simp] theorem State.setPushes_park (s : State) (l : Lane) (x : List Push) : (s.setPushes l x).park = s.park := by cases l <;> rfl
@[simp] theorem State.setPushes_loader (s : State) (l : Lane) (x : List Push) : (s.setPushes l x).loader = s.loader := by cases l <;> rfl
@[simp] theorem State.setPushes_link (s : State) (l : Lane) (x : List Push) : (s.setPushes l x).link = s.link := by cases l <;> rfl
@[simp] theorem State.setPushes_flash (s : State) (l : Lane) (x : List Push) : (s.setPushes l x).flash = s.flash := by cases l <;> rfl
@[simp] theorem State.setPushes_free (s : State) (l : Lane) (x : List Push) : (s.setPushes l x).free = s.free := by cases l <;> rfl
@[simp] theorem State.setPushes_pending (s : State) (l : Lane) (x : List Push) : (s.setPushes l x).pending = s.pending := by cases l <;> rfl

@[simp] theorem State.setSlot_pins (s : State) (n : Nat) (x : Slot) : (s.setSlot n x).pins = s.pins := by unfold State.setSlot; split <;> rfl
@[simp] theorem State.setSlot_supply (s : State) (n : Nat) (x : Slot) : (s.setSlot n x).supply = s.supply := by unfold State.setSlot; split <;> rfl
@[simp] theorem State.setSlot_timebase (s : State) (n : Nat) (x : Slot) : (s.setSlot n x).timebase = s.timebase := by unfold State.setSlot; split <;> rfl
@[simp] theorem State.setSlot_estimator (s : State) (n : Nat) (x : Slot) : (s.setSlot n x).estimator = s.estimator := by unfold State.setSlot; split <;> rfl
@[simp] theorem State.setSlot_stations (s : State) (n : Nat) (x : Slot) : (s.setSlot n x).stations = s.stations := by unfold State.setSlot; split <;> rfl
@[simp] theorem State.setSlot_car (s : State) (n : Nat) (x : Slot) : (s.setSlot n x).car = s.car := by unfold State.setSlot; split <;> rfl
@[simp] theorem State.setSlot_pushA (s : State) (n : Nat) (x : Slot) : (s.setSlot n x).pushA = s.pushA := by unfold State.setSlot; split <;> rfl
@[simp] theorem State.setSlot_pushB (s : State) (n : Nat) (x : Slot) : (s.setSlot n x).pushB = s.pushB := by unfold State.setSlot; split <;> rfl
@[simp] theorem State.setSlot_settings (s : State) (n : Nat) (x : Slot) : (s.setSlot n x).settings = s.settings := by unfold State.setSlot; split <;> rfl
@[simp] theorem State.setSlot_engine (s : State) (n : Nat) (x : Slot) : (s.setSlot n x).engine = s.engine := by unfold State.setSlot; split <;> rfl
@[simp] theorem State.setSlot_laneA (s : State) (n : Nat) (x : Slot) : (s.setSlot n x).laneA = s.laneA := by unfold State.setSlot; split <;> rfl
@[simp] theorem State.setSlot_laneB (s : State) (n : Nat) (x : Slot) : (s.setSlot n x).laneB = s.laneB := by unfold State.setSlot; split <;> rfl
@[simp] theorem State.setSlot_query (s : State) (n : Nat) (x : Slot) : (s.setSlot n x).query = s.query := by unfold State.setSlot; split <;> rfl
@[simp] theorem State.setSlot_park (s : State) (n : Nat) (x : Slot) : (s.setSlot n x).park = s.park := by unfold State.setSlot; split <;> rfl
@[simp] theorem State.setSlot_loader (s : State) (n : Nat) (x : Slot) : (s.setSlot n x).loader = s.loader := by unfold State.setSlot; split <;> rfl
@[simp] theorem State.setSlot_link (s : State) (n : Nat) (x : Slot) : (s.setSlot n x).link = s.link := by unfold State.setSlot; split <;> rfl
@[simp] theorem State.setSlot_flash (s : State) (n : Nat) (x : Slot) : (s.setSlot n x).flash = s.flash := by unfold State.setSlot; split <;> rfl
@[simp] theorem State.setSlot_free (s : State) (n : Nat) (x : Slot) : (s.setSlot n x).free = s.free := by unfold State.setSlot; split <;> rfl
@[simp] theorem State.setSlot_pending (s : State) (n : Nat) (x : Slot) : (s.setSlot n x).pending = s.pending := by unfold State.setSlot; split <;> rfl

@[simp] theorem clearRunning_pins (s : State) : (clearRunning s).pins = s.pins := rfl
@[simp] theorem clearRunning_supply (s : State) : (clearRunning s).supply = s.supply := rfl
@[simp] theorem clearRunning_timebase (s : State) : (clearRunning s).timebase = s.timebase.remove .storeOperation := rfl
@[simp] theorem clearRunning_estimator (s : State) : (clearRunning s).estimator = s.estimator := rfl
@[simp] theorem clearRunning_stations (s : State) : (clearRunning s).stations = s.stations := rfl
@[simp] theorem clearRunning_car (s : State) : (clearRunning s).car = s.car := rfl
@[simp] theorem clearRunning_pushA (s : State) : (clearRunning s).pushA = s.pushA := rfl
@[simp] theorem clearRunning_pushB (s : State) : (clearRunning s).pushB = s.pushB := rfl
@[simp] theorem clearRunning_settings (s : State) : (clearRunning s).settings = s.settings := rfl
@[simp] theorem clearRunning_engine (s : State) : (clearRunning s).engine = s.engine := rfl
@[simp] theorem clearRunning_laneA (s : State) : (clearRunning s).laneA = s.laneA := rfl
@[simp] theorem clearRunning_laneB (s : State) : (clearRunning s).laneB = s.laneB := rfl
@[simp] theorem clearRunning_query (s : State) : (clearRunning s).query = s.query := rfl
@[simp] theorem clearRunning_store (s : State) : (clearRunning s).store = s.store.idle := rfl
@[simp] theorem clearRunning_park (s : State) : (clearRunning s).park = s.park := rfl
@[simp] theorem clearRunning_loader (s : State) : (clearRunning s).loader = s.loader := rfl
@[simp] theorem clearRunning_link (s : State) : (clearRunning s).link = s.link := rfl
@[simp] theorem clearRunning_flash (s : State) : (clearRunning s).flash = s.flash := rfl
@[simp] theorem clearRunning_free (s : State) : (clearRunning s).free = s.free := rfl
@[simp] theorem clearRunning_pending (s : State) : (clearRunning s).pending = s.pending := rfl

@[simp] theorem LaneState.freed_seq (x : LaneState) : x.freed.seq = x.seq := rfl
@[simp] theorem LaneState.freed_txn (x : LaneState) : x.freed.txn = none := rfl
@[simp] theorem LaneState.freed_driver (x : LaneState) : x.freed.driver = .released := rfl
@[simp] theorem LaneState.freed_lastTurn (x : LaneState) : x.freed.lastTurn = x.lastTurn := rfl
@[simp] theorem LaneState.freed_holder (x : LaneState) : x.freed.holder = x.holder := rfl
@[simp] theorem LaneState.freed_cursor (x : LaneState) : x.freed.cursor = x.cursor := rfl
@[simp] theorem LaneState.freed_pendingPoll (x : LaneState) : x.freed.pendingPoll = x.pendingPoll := rfl
@[simp] theorem LaneState.freed_injection (x : LaneState) : x.freed.injection = x.injection := rfl
@[simp] theorem LaneState.freed_abandoned (x : LaneState) : x.freed.abandoned = x.abandoned := rfl

@[simp] theorem Store.idle_slots (x : Store) : x.idle.slots = x.slots := rfl
@[simp] theorem Store.idle_buffers (x : Store) : x.idle.buffers = x.buffers := rfl
@[simp] theorem Store.idle_waitList (x : Store) : x.idle.waitList = x.waitList := rfl
@[simp] theorem Store.idle_queue (x : Store) : x.idle.queue = x.queue := rfl
@[simp] theorem Store.idle_running (x : Store) : x.idle.running = none := rfl
@[simp] theorem Store.idle_chipSelect (x : Store) : x.idle.chipSelect = .released := rfl
@[simp] theorem Store.idle_imageWrite (x : Store) : x.idle.imageWrite = x.imageWrite := rfl
@[simp] theorem Store.idle_configSave (x : Store) : x.idle.configSave = x.configSave := rfl
@[simp] theorem Store.idle_markList (x : Store) : x.idle.markList = x.markList := rfl
@[simp] theorem Store.idle_prepared (x : Store) : x.idle.prepared = x.prepared := rfl

@[simp] theorem State.lane_setLane (s : State) (l : Lane) (x : LaneState) : (s.setLane l x).lane l = x := by
  cases l <;> rfl

theorem State.lane_setLane_ne (s : State) (l m : Lane) (x : LaneState) (h : m ≠ l) :
    (s.setLane l x).lane m = s.lane m := by
  cases l <;> cases m <;> first | rfl | exact absurd rfl h

@[simp] theorem State.lane_updLane (s : State) (l : Lane) (f : LaneState → LaneState) :
    (s.updLane l f).lane l = f (s.lane l) := State.lane_setLane s l _

theorem State.lane_updLane_ne (s : State) (l m : Lane) (f : LaneState → LaneState) (h : m ≠ l) :
    (s.updLane l f).lane m = s.lane m := State.lane_setLane_ne s l m _ h

@[simp] theorem State.pushes_setPushes (s : State) (l : Lane) (x : List Push) : (s.setPushes l x).pushes l = x := by
  cases l <;> rfl

@[simp] theorem State.loadingEnded_setDeadline (p : Purpose) (due : Time) (s : State) :
    (setDeadline p due s).loadingEnded = s.loadingEnded := rfl

@[simp] theorem State.loadingEnded_setReceiver (r : Receiver) (s : State) :
    (setReceiver r s).loadingEnded = s.loadingEnded := rfl

@[simp] theorem State.silent_setReceiver (r : Receiver) (s : State) : (setReceiver r s).silent = s.silent := rfl

@[simp] theorem State.silent_removeDeadline (p : Purpose) (s : State) : (removeDeadline p s).silent = s.silent := rfl

@[simp] theorem State.runs_setReceiver (r : Receiver) (s : State) : (setReceiver r s).runs = s.runs := rfl

@[simp] theorem State.runs_removeDeadline (p : Purpose) (s : State) : (removeDeadline p s).runs = s.runs := rfl

@[simp] theorem State.runs_setDeadlineIn (p : Purpose) (n : Nat) (s : State) :
    (setDeadlineIn p n s).runs = s.runs := rfl

@[simp] theorem State.silent_setDeadlineIn (p : Purpose) (n : Nat) (s : State) :
    (setDeadlineIn p n s).silent = s.silent := rfl

@[simp] theorem State.runs_setLinkFault (s : State) : (setLinkFault s).runs = s.runs := rfl

@[simp] theorem State.runs_withPending (s : State) (q : List Instr) : (s.withPending q).runs = s.runs := rfl

end Sys2Proof.Machine
end

