-- ==== Sys2Proof/Laws/Ops.lean ====
section
/-! SUPPORT. What the shared operations of serving and of delivering an expiry answer, so that a proof about one
command need not unfold them. -/

namespace Sys2Proof.Machine

/-- A command on a part that runs. -/
theorem whileRunning_runs {s : State} (h : s.runs = true) (f : State → State) : whileRunning f s = .next (f s) := by
  simp [whileRunning, h]

/-- A command on a part that does not run. -/
theorem whileRunning_stopped {s : State} (h : s.runs = false) (f : State → State) : whileRunning f s = .next s := by
  simp [whileRunning, h]

/-- An expiry that is at the head of the list and due is delivered with its due time. -/
theorem onExpiry_due {s : State} {p : Purpose} {left : Timebase} {due : Time} (h : s.dueNow p left due)
    (act : Time → State → State) : onExpiry p act s = act due (s.withTimebase left) := by
  simp [onExpiry, h.2, State.withTimebase]

/-- An expiry that is not due changes nothing. -/
theorem onExpiry_early {s : State} {p : Purpose} (h : s.timebase.expire p = none) (act : Time → State → State) :
    onExpiry p act s = s := by
  simp [onExpiry, h]

/-- The head of the list is the identity asked for, and due; what is left is the list after it. -/
theorem Timebase.expire_eq {t left : Timebase} {p : Purpose} {due : Time} (h : t.expire p = some (left, due)) :
    ∃ d ds, t.deadlines = d :: ds ∧ d.purpose = p ∧ isDue t.count d.due = true ∧ d.due = due ∧
      left = { t with deadlines := ds } := by
  unfold Timebase.expire at h
  split at h
  · cases h
  · rename_i d ds hd
    split at h
    · rename_i hc
      simp only [Bool.and_eq_true, decide_eq_true_eq] at hc
      simp only [Option.some.injEq, Prod.mk.injEq] at h
      exact ⟨d, ds, hd, hc.1, hc.2, h.2, h.1.symm⟩
    · cases h

/-- A millisecond that passes: nothing at the head of the list is due. -/
theorem Timebase.tick_early {t : Timebase} (h : t.expiryDue = false) : t.tick = { t with count := t.count + 1 } := by
  simp [Timebase.tick, h]

/-- While an expiry is to be delivered, no millisecond passes. -/
theorem Timebase.tick_due {t : Timebase} (h : t.expiryDue = true) : t.tick = t := by
  simp [Timebase.tick, h]

/-- A completion without transferred bytes on a part whose operation runs. -/
theorem exec_flashOpComplete {s : State} {op : FlashOp} (hr : s.runs = true) (h : s.store.running = some op) :
    exec (.flashOpComplete none) s =
      .next
        (lanesAct
          (issueNext (requesterDone op (transferredBlock none op s) (deviceDone op (clearRunning s))))) := by
  simp [exec, execFlashOpComplete, whileRunning_runs hr, flashCompleted, h]

/-- A command that is a request is the arrival of that request. -/
theorem exec_request {i : Instr} {r : Request} (h : requestOfCommand i = some r) (s : State) :
    exec i s = whileRunning (arrive r) s := by
  cases i <;> simp only [requestOfCommand, Option.some.injEq, reduceCtorEq] at h <;> subst h <;> rfl

/-- A request that arrives at a part that serves every kind is served at once, and its reply begins. -/
theorem arrive_serves {s : State} (h : s.serves) (r : Request) :
    arrive r s = (serveKind r s).state.replying r.kind r.tag (serveKind r s).status (serveKind r s).payload := by
  obtain ⟨hr, hs, hl, hh, ht⟩ := h
  have e : { s with link := { s.link with held := [], reply := none } } = s := by
    obtain ⟨⟩ := s
    rename_i link _ _ _
    obtain ⟨⟩ := link
    cases hh
    cases ht
    rfl
  have hs' : ∀ l : Link, State.silent { s with link := l } = false := fun _ => hs
  have hl' : ∀ l : Link, State.loadingEnded { s with link := l } = true := fun _ => hl
  unfold arrive
  rw [if_neg (by simp [hs]), if_neg (by simp [hh, Config.holdingPlaces]), hh]
  simp only [serveOldest, hs', ht, Option.isSome_none, Bool.or_false, Bool.false_eq_true, if_false, List.nil_append,
    answerRequest, hl', Bool.true_or, if_true]
  rw [e]
  rfl

/-- The last byte of a reply frees the transmitter. -/
theorem replyDone_sent {s : State} {reply : List Byte} (h : s.link.reply = some reply) :
    replyDone s = serveOldest { s with link := { s.link with reply := none } } := by
  simp [replyDone, h]

/-- The presence of a station that is not defined cannot be set. -/
theorem setPresence_undefined {n : Nat} {s : State} (h : s.station? n = none) (p : Presence) : setPresence n p s = s := by
  simp [setPresence, h]

/-- A notice is not created before STARTED has been posted. -/
theorem postNotice_loading {s : State} (h : s.loadingEnded = false) (b : NoticeBody) : postNotice b s = s := by
  simp [postNotice, h]

end Sys2Proof.Machine
end

