-- ==== Sys2Proof/Laws/PerInstr.lean ====
section
/-! SUPPORT. For each command: if it is a request that can be sent at all, its frame has a possible length, its
length field gives that length, its check is good, and it is read back as the same request (spec/11, Figure 11-3);
its kind is listed in Figure 11-4 exactly when the command is not an unknown request. -/

namespace Sys2Proof.Machine

theorem crcBytes_length (b : List Byte) : (crcBytes b).length = 2 := rfl

/-- The length field, the tag, the kind and the payload of a request frame. -/
def Request.body (r : Request) : List Byte := le16 (r.payload.length + 6) ++ [r.tag, r.kind] ++ r.payload

theorem Request.frame_eq (r : Request) : r.frame = r.body ++ crcBytes r.body := rfl

theorem Request.body_length (r : Request) : r.body.length = r.payload.length + 4 := by
  simp [Request.body, le16]

theorem Request.frame_length (r : Request) : r.frame.length = r.payload.length + 6 := by
  rw [Request.frame_eq, List.length_append, Request.body_length, crcBytes_length]

theorem Request.frame_take (r : Request) : r.frame.take (r.frame.length - 2) = r.body := by
  rw [Request.frame_length, Request.frame_eq]
  exact List.take_left' (by rw [Request.body_length]; omega)

theorem Request.frame_drop (r : Request) : r.frame.drop (r.frame.length - 2) = crcBytes r.body := by
  rw [Request.frame_length, Request.frame_eq]
  exact List.drop_left' (by rw [Request.body_length]; omega)

theorem nat16_le16 (n : Nat) (h : n < 65536) : nat16 (byte n) (byte (n / 256)) = n := by
  simp [nat16, byte]
  omega

/-- What a request frame with a payload of at most 259 bytes says. -/
theorem Request.frame_reads (r : Request) (h : r.payload.length ≤ 259) :
    lengthPossible r.frame.length = true ∧ num16At r.frame 0 = r.frame.length ∧ crcGood r.frame = true ∧
      readRequest r.frame = r := by
  refine ⟨?_, ?_, ?_, ?_⟩
  · rw [Request.frame_length]
    simp [lengthPossible]
    omega
  · rw [Request.frame_length, ← nat16_le16 (r.payload.length + 6) (by omega)]
    rfl
  · simp [crcGood, Request.frame_take, Request.frame_drop]
  · simp only [readRequest, Request.frame_take]
    rfl

end Sys2Proof.Machine

namespace Sys2Proof.Laws.RequestFrame

open Sys2Proof Sys2Proof.Machine

/-- The kind code is one that Figure 11-4 lists. -/
def listed (kind : Byte) : Prop := 1 ≤ kind.toNat ∧ kind.toNat ≤ 0x15

/-- The command is a request of a kind that is not listed. -/
def unknown : Instr → Prop
  | .unknownRequestKind _ _ _ => True
  | _ => False

def Statement (i : Instr) : Prop :=
  WellFormed i = true → ∀ r, requestOfCommand i = some r →
    lengthPossible r.frame.length = true ∧ num16At r.frame 0 = r.frame.length ∧ crcGood r.frame = true ∧
      readRequest r.frame = r ∧ (listed r.kind ↔ ¬unknown i)

theorem of_none {i : Instr} (h : requestOfCommand i = none) : Statement i := fun _ r hr => by
  rw [h] at hr
  cases hr

theorem of_request {i : Instr} {r : Request} (h : requestOfCommand i = some r)
    (hp : WellFormed i = true → r.payload.length ≤ 259) (hk : WellFormed i = true → (listed r.kind ↔ ¬unknown i)) :
    Statement i := fun hw x hx => by
  rw [h] at hx
  cases hx
  obtain ⟨h1, h2, h3, h4⟩ := r.frame_reads (hp hw)
  exact ⟨h1, h2, h3, h4, hk hw⟩

theorem payload {p : List Byte} (h : payloadFits p = true) : p.length ≤ 259 := by
  simpa [payloadFits] using h

theorem powerOn (line : LineLevel) (baudHigh : Bool) : Statement (.powerOn line baudHigh) := of_none rfl

theorem resetLineAssert : Statement .resetLineAssert := of_none rfl

theorem resetLineRelease (line : LineLevel) (baudHigh : Bool) : Statement (.resetLineRelease line baudHigh) := of_none rfl

theorem millisecondTick : Statement .millisecondTick := of_none rfl

theorem rawLineChange (level : LineLevel) : Statement (.rawLineChange level) := of_none rfl

theorem filterConfirmExpiry : Statement .filterConfirmExpiry := of_none rfl

theorem settleExpiry : Statement .settleExpiry := of_none rfl

theorem spanHorizonExpiry : Statement .spanHorizonExpiry := of_none rfl

theorem holdupSampleExpiry (millivolts : Nat) : Statement (.holdupSampleExpiry millivolts) := of_none rfl

theorem responseWindowExpiry (lane : Lane) : Statement (.responseWindowExpiry lane) := of_none rfl

theorem pollIntervalExpiry (lane : Lane) : Statement (.pollIntervalExpiry lane) := of_none rfl

theorem restoreLimitExpiry (station : Nat) : Statement (.restoreLimitExpiry station) := of_none rfl

theorem interByteTimeoutExpiry : Statement .interByteTimeoutExpiry := of_none rfl

theorem storeOperationTimeoutExpiry : Statement .storeOperationTimeoutExpiry := of_none rfl

theorem laneReplyReceived (lane : Lane) (frame : List Byte) : Statement (.laneReplyReceived lane frame) := of_none rfl

theorem groupFrameEnd (lane : Lane) : Statement (.groupFrameEnd lane) := of_none rfl

theorem flashOpComplete (transferred : Option (List Byte)) : Statement (.flashOpComplete transferred) := of_none rfl

theorem controlByteReceived (byte : Byte) : Statement (.controlByteReceived byte) := of_none rfl

theorem replySent : Statement .replySent := of_none rfl

theorem supplyLoss : Statement .supplyLoss := of_none rfl

theorem unknownRequestKind (kind tag : Byte) (p : List Byte) : Statement (.unknownRequestKind kind tag p) := by
  refine of_request rfl (fun h => payload ?_) fun h => ?_
  · simp only [WellFormed, Bool.and_eq_true] at h
    exact h.2
  · simp only [WellFormed, Bool.and_eq_true] at h
    have h1 := h.1
    simp [kindUnlisted] at h1
    simp [listed, unknown, requestOf]
    omega

theorem status (tag : Byte) (p : List Byte) : Statement (.status tag p) :=
  of_request rfl (fun h => payload h) fun _ => iff_of_true (by simp [listed, requestOf]) id

theorem noticeFetch (tag : Byte) (p : List Byte) : Statement (.noticeFetch tag p) :=
  of_request rfl (fun h => payload h) fun _ => iff_of_true (by simp [listed, requestOf]) id

theorem settingsSet (tag : Byte) (p : List Byte) : Statement (.settingsSet tag p) :=
  of_request rfl (fun h => payload h) fun _ => iff_of_true (by simp [listed, requestOf]) id

theorem settingsRead (tag : Byte) (p : List Byte) : Statement (.settingsRead tag p) :=
  of_request rfl (fun h => payload h) fun _ => iff_of_true (by simp [listed, requestOf]) id

theorem configSave (tag : Byte) (p : List Byte) : Statement (.configSave tag p) :=
  of_request rfl (fun h => payload h) fun _ => iff_of_true (by simp [listed, requestOf]) id

theorem nodeDefine (tag : Byte) (p : List Byte) : Statement (.nodeDefine tag p) :=
  of_request rfl (fun h => payload h) fun _ => iff_of_true (by simp [listed, requestOf]) id

theorem nodeRemove (tag : Byte) (p : List Byte) : Statement (.nodeRemove tag p) :=
  of_request rfl (fun h => payload h) fun _ => iff_of_true (by simp [listed, requestOf]) id

theorem nodeRead (tag : Byte) (p : List Byte) : Statement (.nodeRead tag p) :=
  of_request rfl (fun h => payload h) fun _ => iff_of_true (by simp [listed, requestOf]) id

theorem nodeQuery (tag : Byte) (p : List Byte) : Statement (.nodeQuery tag p) :=
  of_request rfl (fun h => payload h) fun _ => iff_of_true (by simp [listed, requestOf]) id

theorem contextSet (tag : Byte) (p : List Byte) : Statement (.contextSet tag p) :=
  of_request rfl (fun h => payload h) fun _ => iff_of_true (by simp [listed, requestOf]) id

theorem contextRead (tag : Byte) (p : List Byte) : Statement (.contextRead tag p) :=
  of_request rfl (fun h => payload h) fun _ => iff_of_true (by simp [listed, requestOf]) id

theorem carStateSet (tag : Byte) (p : List Byte) : Statement (.carStateSet tag p) :=
  of_request rfl (fun h => payload h) fun _ => iff_of_true (by simp [listed, requestOf]) id

theorem restoreNow (tag : Byte) (p : List Byte) : Statement (.restoreNow tag p) :=
  of_request rfl (fun h => payload h) fun _ => iff_of_true (by simp [listed, requestOf]) id

theorem engineRestart (tag : Byte) (p : List Byte) : Statement (.engineRestart tag p) :=
  of_request rfl (fun h => payload h) fun _ => iff_of_true (by simp [listed, requestOf]) id

theorem gapRead (tag : Byte) (p : List Byte) : Statement (.gapRead tag p) :=
  of_request rfl (fun h => payload h) fun _ => iff_of_true (by simp [listed, requestOf]) id

theorem imageOpen (tag : Byte) (p : List Byte) : Statement (.imageOpen tag p) :=
  of_request rfl (fun h => payload h) fun _ => iff_of_true (by simp [listed, requestOf]) id

theorem imageBlock (tag : Byte) (p : List Byte) : Statement (.imageBlock tag p) :=
  of_request rfl (fun h => payload h) fun _ => iff_of_true (by simp [listed, requestOf]) id

theorem imageClose (tag : Byte) (p : List Byte) : Statement (.imageClose tag p) :=
  of_request rfl (fun h => payload h) fun _ => iff_of_true (by simp [listed, requestOf]) id

theorem imageAbort (tag : Byte) (p : List Byte) : Statement (.imageAbort tag p) :=
  of_request rfl (fun h => payload h) fun _ => iff_of_true (by simp [listed, requestOf]) id

theorem imageList (tag : Byte) (p : List Byte) : Statement (.imageList tag p) :=
  of_request rfl (fun h => payload h) fun _ => iff_of_true (by simp [listed, requestOf]) id

theorem laneInject (tag : Byte) (p : List Byte) : Statement (.laneInject tag p) :=
  of_request rfl (fun h => payload h) fun _ => iff_of_true (by simp [listed, requestOf]) id

end Sys2Proof.Laws.RequestFrame
end

