-- ==== Sys2Proof/Laws/Sound.lean ====
section
/-! SUPPORT. What each change of a station does to its soundness, and what the readers of entries and of context
fields give. -/

namespace Sys2Proof.Machine

/-! ### The Estimator's values (R30) -/

theorem Estimate.refill_inRange {e : Entry} {x : Estimate} (he : 1 ≤ e.ratio) (h : x.inRange e) (p : Nat) :
    (x.refill e.ratio p).inRange e := by
  obtain ⟨h1, h2, h3, h4⟩ := h
  have hm := Nat.mod_lt (x.carry + p) he
  refine ⟨Nat.min_le_left _ _, h2, ?_, h4⟩
  simp only [Estimate.refill]
  split <;> omega

theorem Estimate.drain_inRange {e : Entry} {x : Estimate} (h : x.inRange e) (d : Nat) : (x.drain d).inRange e := by
  obtain ⟨h1, h2, h3, h4⟩ := h
  unfold Estimate.drain
  split
  · exact ⟨by simp only; omega, h2, h3, h4⟩
  · exact ⟨Nat.zero_le _, h2, h3, Nat.min_le_left _ _⟩

theorem Estimate.adapt_inRange {e : Entry} {x : Estimate} (he : 1 ≤ e.ratio) (h : x.inRange e) (p : Prediction) :
    (x.adapt e.capacity p).inRange e := by
  obtain ⟨h1, h2, h3, h4⟩ := h
  cases p
  · exact ⟨h1, h2, h3, h4⟩
  · exact ⟨Nat.zero_le _, Nat.min_le_left _ _, he, h4⟩
  · exact ⟨Nat.zero_le _, by simp only [Estimate.adapt]; omega, he, h4⟩

theorem Estimate.restore_inRange {e : Entry} {x : Estimate} (he : 1 ≤ e.ratio) (h : x.inRange e) (w : Nat) :
    (x.restore e.capacity w).inRange e := by
  obtain ⟨h1, h2, h3, h4⟩ := h
  refine ⟨Nat.min_le_left _ _, Nat.min_le_left _ _, ?_, h4⟩
  simp only [Estimate.restore]
  split <;> omega

/-! ### Stations -/

theorem Station.sound.ratio {car : CarState} {st : Station} (h : st.sound car) : 1 ≤ st.entry.ratio := by
  obtain ⟨he, _⟩ := h
  unfold Entry.inRange at he
  omega

theorem Station.sound.atFall {car : CarState} {st : Station} (h : st.sound car) (o : Bool) (p : Nat) :
    (st.atFall o p).sound car := by
  have hq := h.ratio
  obtain ⟨h1, h2, h3⟩ := h
  refine ⟨h1, ?_, h3⟩
  refine Estimate.refill_inRange hq ?_ p
  split
  · exact ⟨h2.1, h2.2.1, h2.2.2.1, Nat.zero_le _⟩
  · exact h2

theorem Station.sound.atRise {car : CarState} {st : Station} (h : st.sound car) (d : Nat) : (st.atRise d).sound car :=
  ⟨h.1, Estimate.drain_inRange h.2.1 d, h.2.2⟩

theorem Station.sound.adapt {car : CarState} {st : Station} (h : st.sound car) (p : Prediction) :
    Station.sound car { st with estimate := st.estimate.adapt st.entry.capacity p } :=
  ⟨h.1, Estimate.adapt_inRange h.ratio h.2.1 p, h.2.2⟩

theorem Fields.blank_inRange : Fields.blank.inRange := by
  intro k hk v hv
  simp only [fieldCodes, List.mem_cons, List.not_mem_nil, or_false] at hk
  rcases hk with rfl | rfl | rfl | rfl | rfl | rfl | rfl | rfl | rfl <;> cases hv

theorem Fields.blank_get (c : Nat) : Fields.blank.get c = none := by
  unfold Fields.get Fields.blank
  split <;> rfl

theorem Fields.blank_belongTo (k : Kind) : Fields.blank.belongTo k := by
  intro c v hv
  rw [Fields.blank_get] at hv
  cases hv

theorem Station.defined_sound {e : Entry} (h : e.inRange) (car : CarState) : (Station.defined e).sound car := by
  refine ⟨h, ⟨Nat.zero_le _, Nat.le_refl _, ?_, by simp [Station.defined, Estimate.defined]⟩, Nat.le_refl _,
    by simp [Station.defined, Context.blank], Fields.blank_inRange, ?_⟩
  · unfold Entry.inRange at h
    simp only [Station.defined, Estimate.defined]
    omega
  · simp [Station.defined, Context.blank, effectiveRelease, Fields.blank]

theorem Station.defined_ofItsKind {e : Entry} (h : e.wellMade) : (Station.defined e).ofItsKind :=
  ⟨h, Fields.blank_belongTo _, by simp [Station.defined, Context.blank], fun _ => rfl⟩

/-! ### Fields -/

/-- A value taken for a field is taken unchanged a second time. -/
theorem judgeField_stable {k v w : Nat} (h : judgeField k v = some w) : judgeField k w = some w := by
  unfold judgeField at h ⊢
  split at h
  all_goals first
    | (split at h
       · cases h; simp_all
       · cases h)
    | (cases h; simp; try omega)
    | cases h

theorem Fields.get_put (f : Fields) (k c : Nat) (v : Option Nat) (hc : c ≤ 8) :
    (f.put c v).get k = if k = c then v else f.get k := by
  have h : c = 0 ∨ c = 1 ∨ c = 2 ∨ c = 3 ∨ c = 4 ∨ c = 5 ∨ c = 6 ∨ c = 7 ∨ c = 8 := by omega
  rcases h with rfl | rfl | rfl | rfl | rfl | rfl | rfl | rfl | rfl <;>
    (unfold Fields.put Fields.get; split <;> simp_all)

theorem Fields.put_inRange {f : Fields} (h : f.inRange) {c : Nat} {v : Option Nat}
    (hv : ∀ w, v = some w → judgeField c w = some w) : (f.put c v).inRange := by
  intro k hk w hw
  by_cases hc : c ≤ 8
  · rw [Fields.get_put f k c v hc] at hw
    split at hw
    · subst k
      exact hv w hw
    · exact h k hk w hw
  · have hp : f.put c v = f := by
      unfold Fields.put
      split <;> first | omega | rfl
    rw [hp] at hw
    exact h k hk w hw

theorem Fields.put_belongTo {k : Kind} {f : Fields} (h : f.belongTo k) {c : Nat} {v : Option Nat}
    (hv : v.isSome = true → fieldBelongs k c = true) : (f.put c v).belongTo k := by
  intro d w hw
  by_cases hc : c ≤ 8
  · rw [Fields.get_put f d c v hc] at hw
    split at hw
    · subst d
      exact hv (by rw [hw]; rfl)
    · exact h d w hw
  · have hp : f.put c v = f := by
      unfold Fields.put
      split <;> first | omega | rfl
    rw [hp] at hw
    exact h d w hw

theorem readFields_belongTo (kind : Kind) (mask : Nat) (ks : List Nat) (area : List Byte) {f : Fields}
    (h : f.belongTo kind) : (readFields kind mask ks area f).belongTo kind := by
  induction ks generalizing area f with
  | nil => exact h
  | cons k ks ih =>
    unfold readFields
    split
    · exact ih _ h
    · split
      · exact h
      · dsimp only
        refine ih _ ?_
        split
        · rename_i hb
          split
          · exact h
          · exact Fields.put_belongTo h fun _ => hb
        · exact h

theorem readFields_inRange (kind : Kind) (mask : Nat) (ks : List Nat) (area : List Byte) {f : Fields}
    (h : f.inRange) : (readFields kind mask ks area f).inRange := by
  induction ks generalizing area f with
  | nil => exact h
  | cons k ks ih =>
    unfold readFields
    split
    · exact ih _ h
    · split
      · exact h
      · dsimp only
        refine ih _ ?_
        split
        · split
          · exact h
          · rename_i v' hv
            refine Fields.put_inRange h fun w hw => ?_
            cases hw
            exact judgeField_stable hv
        · exact h

theorem Station.sound.restored {car : CarState} {st : Station} (h : st.sound car) (place : List Byte) :
    (st.restored car place).sound car := by
  have hq := h.ratio
  obtain ⟨h1, h2, h3, h4, h5, h6⟩ := h
  refine ⟨h1, Estimate.restore_inRange hq h2 _, ?_, ?_, readFields_inRange _ _ _ _ h5, rfl⟩
  · simp only [Station.restored]
    split <;> omega
  · simp only [Station.restored]
    split
    · omega
    · have a := (byteAt place 4).isLt
      have b := (byteAt place 5).isLt
      simp only [num16At, nat16]
      omega

theorem Station.ofItsKind.restored {st : Station} (h : st.ofItsKind) (car : CarState) (place : List Byte) :
    (st.restored car place).ofItsKind := ⟨h.1, readFields_belongTo _ _ _ _ h.2.1, h.2.2⟩

theorem putPairs_inRange {ps : List Pair} {f g : Fields} (h : f.inRange) (hg : putPairs ps f = some g) : g.inRange := by
  induction ps generalizing f with
  | nil => cases hg; exact h
  | cons p ps ih =>
    unfold putPairs at hg
    split at hg
    · cases hg
    · rename_i f' hf
      refine ih ?_ hg
      unfold putPair at hf
      split at hf
      · cases hf
        exact Fields.put_inRange h fun _ hw => by cases hw
      · rw [Option.map_eq_some_iff] at hf
        obtain ⟨v, hv, rfl⟩ := hf
        exact Fields.put_inRange h fun w hw => by cases hw; exact judgeField_stable hv

theorem putPairs_belongTo {k : Kind} {ps : List Pair} {f g : Fields} (h : f.belongTo k)
    (hp : ∀ p ∈ ps, fieldBelongs k p.code = true) (hg : putPairs ps f = some g) : g.belongTo k := by
  induction ps generalizing f with
  | nil => cases hg; exact h
  | cons p ps ih =>
    unfold putPairs at hg
    split at hg
    · cases hg
    · rename_i f' hf
      refine ih ?_ (fun q hq => hp q (List.mem_cons_of_mem _ hq)) hg
      have hb := hp p (List.mem_cons_self ..)
      unfold putPair at hf
      split at hf
      · cases hf
        exact Fields.put_belongTo h fun _ => hb
      · rw [Option.map_eq_some_iff] at hf
        obtain ⟨v, _, rfl⟩ := hf
        exact Fields.put_belongTo h fun _ => hb

theorem nextEpoch_range (e : Nat) : 1 ≤ nextEpoch e ∧ nextEpoch e ≤ 65535 := by
  unfold nextEpoch
  split <;> omega

theorem Station.sound.withFields {car : CarState} {st : Station} (h : st.sound car) {f : Fields} (hf : f.inRange) :
    (st.withFields car f).sound car :=
  ⟨h.1, h.2.1, (nextEpoch_range _).1, (nextEpoch_range _).2, hf, rfl⟩

theorem Station.ofItsKind.withFields {st : Station} (h : st.ofItsKind) (car : CarState) {f : Fields}
    (hf : f.belongTo st.entry.kind) : (st.withFields car f).ofItsKind := ⟨h.1, hf, h.2.2⟩

theorem Station.sound.under {old car : CarState} {st : Station} (h : st.sound old) : (st.under car).sound car := by
  obtain ⟨h1, h2, h3, h4, h5, h6⟩ := h
  unfold Station.under
  split
  · exact ⟨h1, h2, (nextEpoch_range _).1, (nextEpoch_range _).2, h5, rfl⟩
  · rename_i hc
    refine ⟨h1, h2, h3, h4, h5, ?_⟩
    unfold releaseChanges at hc
    by_cases hk : st.entry.kind = .entrance
    · simp [hk] at hc
      exact hc.symm
    · rw [h6]
      simp [effectiveRelease, hk]

theorem LiveStatus.leafState_ne_ok (draw : Nat) (live : LiveStatus) : live.leafState draw ≠ some .ok := by
  cases live
  case ok =>
    simp only [LiveStatus.leafState]
    split
    · simp
    · rename_i h
      exact h
  all_goals simp [LiveStatus.leafState]

theorem Station.sound.observing {car : CarState} {st : Station} (h : st.sound car) (leaf : Option LiveStatus) :
    (st.observing leaf).sound car := by
  unfold Station.observing
  split <;> exact h

theorem Station.ofItsKind.under {st : Station} (h : st.ofItsKind) (car : CarState) : (st.under car).ofItsKind := by
  unfold Station.under
  split <;> exact h

theorem Station.ofItsKind.observing {st : Station} (h : st.ofItsKind) {leaf : Option LiveStatus}
    (hl : leaf ≠ some .ok) : (st.observing leaf).ofItsKind := by
  unfold Station.observing
  split
  · rename_i hk
    exact ⟨h.1, h.2.1, hl, fun hn => absurd hk hn⟩
  · exact h

/-! ### Settings (R162, R165) -/

theorem Settings.default_inRange : Settings.default.inRange := by
  unfold Settings.inRange
  decide

theorem clamp_range {low high : Nat} (h : low ≤ high) (n : Nat) : low ≤ clamp low high n ∧ clamp low high n ≤ high := by
  unfold clamp
  omega

theorem heldOn_started (v : Nat) : (heldOn v).getLsbD 0 = true := by
  simp [heldOn]

theorem Settings.put_inRange {x y : Settings} (h : x.inRange) {code v : Nat} (hy : x.put code v = some y) :
    y.inRange := by
  have c1 := clamp_range (low := 1) (high := 15) (by omega) v
  have c2 := clamp_range (low := 1) (high := 255) (by omega) v
  have c3 := clamp_range (low := 20) (high := 2000) (by omega) v
  have c4 := clamp_range (low := 1) (high := 14) (by omega) v
  have c5 := clamp_range (low := 0) (high := 7) (by omega) v
  have c6 := clamp_range (low := 1000) (high := 65535) (by omega) v
  have c7 := clamp_range (low := 5) (high := 1000) (by omega) v
  have c8 := heldOn_started v
  obtain ⟨h1, h2, h3, h4, h5, h6, h7, h8, h9, h10, h11, h12, h13, h14, h15, h16, h17, h18⟩ := h
  unfold Settings.put at hy
  split at hy
  all_goals first
    | cases hy
    | (rw [Option.map_eq_some_iff] at hy; obtain ⟨_, _, rfl⟩ := hy)
  all_goals first
    | exact ⟨h1, h2, h3, h4, h5, h6, h7, h8, h9, h10, h11, h12, h13, h14, h15, h16, h17, h18⟩
    | (refine ⟨?_, ?_, ?_, ?_, ?_, ?_, ?_, ?_, ?_, ?_, ?_, ?_, ?_, ?_, ?_, ?_, ?_, ?_⟩ <;> first | assumption | exact c8 | (simp only; omega))

theorem putSettings_inRange {ps : List (Nat × Nat)} {x y : Settings} (h : x.inRange)
    (hy : putSettings ps x = some y) : y.inRange := by
  induction ps generalizing x with
  | nil => cases hy; exact h
  | cons p ps ih =>
    unfold putSettings at hy
    split at hy
    · cases hy
    · rename_i x' hx
      exact ih (Settings.put_inRange h hx) hy

theorem readSettings_inRange {cs : List Nat} {b : List Byte} {x y : Settings} (h : x.inRange)
    (hy : readSettings cs b x = some y) : y.inRange := by
  induction cs generalizing b x with
  | nil => cases hy; exact h
  | cons c cs ih =>
    unfold readSettings at hy
    dsimp only at hy
    split at hy
    · cases hy
    · rename_i x' hx
      exact ih (Settings.put_inRange h hx) hy

/-! ### Entries -/

/-- A side byte read gives a side unless it is 0xFF. -/
theorem sideOfByte_isSome {b : Byte} {x : Option Side} (h : sideOfByte b = some x) :
    x.isSome = true ↔ b ≠ absentByte := by
  unfold sideOfByte at h
  split at h
  all_goals first
    | (rename_i hb; cases h; simp [absentByte, ← BitVec.toNat_inj, hb])
    | cases h

theorem readEntry_wellMade {b : List Byte} {e : Entry} (hs : sideAgrees b = true) (h : readEntry b = some e) :
    e.wellMade := by
  unfold readEntry at h
  split at h
  · rename_i kind side _ hk hsd
    dsimp only at h
    split at h
    · rename_i hc
      cases h
      simp only [Bool.and_eq_true, decide_eq_true_eq] at hc
      refine ⟨?_, hc.2, ?_⟩
      · unfold Entry.inRange
        simp only
        omega
      · have hb := sideOfByte_isSome hsd
        simp only [sideAgrees, hk] at hs
        cases kind <;> simp_all
    · cases h
  · cases h

/-- An entry fits a table: it shares no alias and no lane-and-address pair with an entry of another number, and its
lane has room for it (R46, R47). -/
def Entry.fits (e : Entry) (es : List Entry) : Prop :=
  (∀ x ∈ es, x.number ≠ e.number → x.aliasNo ≠ e.aliasNo ∧ ¬(x.lane = e.lane ∧ x.address = e.address)) ∧
    (es.filter fun x => x.number ≠ e.number ∧ x.lane = e.lane).length < 16

/-- The entries of a table agree where each fits the others. -/
theorem entriesAgree_iff (es : List Entry) :
    entriesAgree es = true ↔
      (es.Pairwise fun x y =>
        x.number ≠ y.number ∧ x.aliasNo ≠ y.aliasNo ∧ ¬(x.lane = y.lane ∧ x.address = y.address)) ∧
      ∀ l, (es.filter (·.lane = l)).length ≤ 16 := by
  simp only [entriesAgree, Bool.and_eq_true, decide_eq_true_eq, Config.stationsPerLane, List.all_cons, List.all_nil,
    Bool.and_true]
  refine and_congr_right fun _ => ⟨fun h l => ?_, fun h => ⟨decide_eq_true (h .a), decide_eq_true (h .b)⟩⟩
  cases l
  · exact of_decide_eq_true h.1
  · exact of_decide_eq_true h.2

/-- A station put in its place: the list in station order with it, in place of one of its number. -/
theorem insertStation_perm (st : Station) {xs : List Station} (h : (xs.map (·.entry.number)).Pairwise (· < ·)) :
    (insertStation st xs).Perm (st :: xs.filter (·.entry.number ≠ st.entry.number)) := by
  induction xs with
  | nil => simp [insertStation]
  | cons x xs ih =>
    simp only [List.map_cons, List.pairwise_cons] at h
    have hx : ∀ y ∈ xs, x.entry.number < y.entry.number := fun y hy => h.1 _ (List.mem_map_of_mem hy)
    have keep : st.entry.number ≤ x.entry.number → xs.filter (·.entry.number ≠ st.entry.number) = xs := fun hl =>
      List.filter_eq_self.2 fun y hy => by have := hx y hy; simp; omega
    unfold insertStation
    split
    · rename_i hl
      rw [List.filter_cons_of_pos (by simp; omega), keep (by omega)]
    · split
      · rename_i he
        rw [List.filter_cons_of_neg (by simp [he]), keep (by omega)]
      · rename_i hne
        rw [List.filter_cons_of_pos (by simp; omega)]
        exact ((ih h.2).cons x).trans (List.Perm.swap ..)

/-- In station order, one number names one station. -/
theorem State.stationsOrdered.sameNumber {s : State} (h : s.stationsOrdered) {x y : Station} (hx : x ∈ s.stations)
    (hy : y ∈ s.stations) (hn : x.entry.number = y.entry.number) : x = y := by
  unfold State.stationsOrdered at h
  rw [List.pairwise_map] at h
  rcases List.mem_iff_getElem.1 hx with ⟨i, hi, rfl⟩
  rcases List.mem_iff_getElem.1 hy with ⟨j, hj, rfl⟩
  rcases Nat.lt_trichotomy i j with hl | rfl | hl
  · exact absurd (List.pairwise_iff_getElem.1 h i j hi hj hl) (by omega)
  · rfl
  · exact absurd (List.pairwise_iff_getElem.1 h j i hj hi hl) (by omega)

/-- A station put among others keeps the station order. -/
theorem insertStation_ordered (st : Station) {xs : List Station} (h : (xs.map (·.entry.number)).Pairwise (· < ·)) :
    ((insertStation st xs).map (·.entry.number)).Pairwise (· < ·) := by
  induction xs with
  | nil => simp [insertStation]
  | cons x xs ih =>
    simp only [List.map_cons, List.pairwise_cons] at h
    have hx : ∀ y ∈ xs, x.entry.number < y.entry.number := fun y hy => h.1 _ (List.mem_map_of_mem hy)
    unfold insertStation
    split
    · rename_i hl
      simp only [List.map_cons, List.pairwise_cons, List.mem_cons, forall_eq_or_imp]
      exact ⟨⟨hl, fun a ha => Nat.lt_trans hl (h.1 a ha)⟩, h⟩
    · split
      · rename_i he
        simp only [List.map_cons, List.pairwise_cons, List.mem_map]
        exact ⟨fun a ⟨y, hy, e⟩ => by have := hx y hy; omega, h.2⟩
      · rename_i hne
        simp only [List.map_cons, List.pairwise_cons, List.mem_map]
        refine ⟨fun a ⟨y, hy, e⟩ => ?_, ih h.2⟩
        rcases List.mem_cons.1 ((insertStation_perm st h.2).mem_iff.1 hy) with rfl | hy
        · omega
        · have := hx y (List.mem_of_mem_filter hy)
          omega

/-- A directory that an entry fits is sound with its station in it. -/
theorem State.directorySound.insert {s : State} (h : s.directorySound) {e : Entry} (he : e.wellMade)
    (hf : e.fits (s.stations.map (·.entry))) :
    State.directorySound { s with stations := insertStation (Station.defined e) s.stations } := by
  obtain ⟨h1, h2, h3, h4, h5⟩ := h
  have hp : (insertStation (Station.defined e) s.stations).Perm
      (Station.defined e :: s.stations.filter (·.entry.number ≠ e.number)) := insertStation_perm _ h1
  have others : ∀ x ∈ s.stations, x.entry.number ≠ e.number →
      x.entry.aliasNo ≠ e.aliasNo ∧ ¬(x.entry.lane = e.lane ∧ x.entry.address = e.address) := fun x hx hn =>
    hf.1 _ (List.mem_map_of_mem hx) hn
  refine ⟨insertStation_ordered _ h1, fun st hst => ?_, ?_, ?_, fun l => ?_⟩
  · rcases List.mem_cons.1 (hp.mem_iff.1 hst) with rfl | hst
    · exact Station.defined_ofItsKind he
    · exact h2 st (List.mem_of_mem_filter hst)
  · rw [(hp.map _).nodup_iff, List.map_cons, List.nodup_cons]
    refine ⟨fun hm => ?_, h3.sublist (List.filter_sublist.map _)⟩
    obtain ⟨x, hx, hxe⟩ := List.mem_map.1 hm
    exact (others x (List.mem_of_mem_filter hx) (by simpa using List.of_mem_filter hx)).1 hxe
  · rw [(hp.map _).nodup_iff, List.map_cons, List.nodup_cons]
    refine ⟨fun hm => ?_, h4.sublist (List.filter_sublist.map _)⟩
    obtain ⟨x, hx, hxe⟩ := List.mem_map.1 hm
    simp only [Prod.mk.injEq] at hxe
    exact (others x (List.mem_of_mem_filter hx) (by simpa using List.of_mem_filter hx)).2 hxe
  · rw [(hp.filter _).length_eq, List.filter_cons]
    split
    · rename_i hl
      have hl : e.lane = l := of_decide_eq_true hl
      subst hl
      have hw := hf.2
      rw [List.filter_map, List.length_map] at hw
      rw [List.filter_filter, List.length_cons]
      refine Nat.succ_le_of_lt (Nat.lt_of_le_of_lt (Nat.le_of_eq ?_) hw)
      congr 1
      exact List.filter_congr fun st _ => by simp [Bool.and_comm]
    · exact Nat.le_trans (List.filter_sublist.filter _).length_le (h5 l)

/-- A directory loses stations or changes their values, and stays sound. -/
theorem State.directorySound.sublist {s t : State} (h : s.directorySound)
    (he : (t.stations.map (·.entry)).Sublist (s.stations.map (·.entry))) (hk : ∀ st ∈ t.stations, st.ofItsKind) :
    t.directorySound := by
  obtain ⟨h1, _, h3, h4, h5⟩ := h
  have part : ∀ {α : Type} (f : Entry → α),
      (t.stations.map fun st => f st.entry).Sublist (s.stations.map fun st => f st.entry) := fun f => by
    simpa only [List.map_map, Function.comp_def] using he.map f
  refine ⟨List.Pairwise.sublist (part (·.number)) h1, hk, h3.sublist (part (·.aliasNo)),
    h4.sublist (part fun e => (e.lane, e.address)), fun l => Nat.le_trans ?_ (h5 l)⟩
  have := (he.filter fun e => decide (e.lane = l)).length_le
  simpa only [List.filter_map, List.length_map, Function.comp_def] using this

/-- Of entries that agree, the first that is not yet in the table fits it. -/
theorem fits_of_entriesAgree {es rest : List Entry} {e : Entry} (h : entriesAgree (es ++ e :: rest) = true) :
    e.fits es := by
  rw [entriesAgree_iff, List.pairwise_append] at h
  refine ⟨fun x hx _ => (h.1.2.2 x hx e (List.mem_cons_self ..)).2, ?_⟩
  have h2 := h.2 e.lane
  rw [List.filter_append, List.length_append, List.filter_cons_of_pos (by simp), List.length_cons] at h2
  have h3 : (es.filter fun x => decide (x.number ≠ e.number ∧ x.lane = e.lane)).length ≤
      (es.filter (·.lane = e.lane)).length := by
    have : (es.filter fun x => decide (x.number ≠ e.number ∧ x.lane = e.lane)) =
        (es.filter (·.lane = e.lane)).filter (·.number ≠ e.number) := by
      rw [List.filter_filter]
      exact List.filter_congr fun x _ => by simp
    rw [this]
    exact List.length_filter_le _ _
  omega

theorem insertStation_entries (st : Station) {xs : List Station} (h : ∀ x ∈ xs, x.entry.number ≠ st.entry.number) :
    ((insertStation st xs).map (·.entry)).Perm (xs.map (·.entry) ++ [st.entry]) := by
  induction xs with
  | nil => simp [insertStation]
  | cons x xs ih =>
    unfold insertStation
    split
    · exact (List.perm_append_singleton st.entry _).symm
    · split
      · rename_i he
        exact absurd he.symm (h x (List.mem_cons_self ..))
      · exact (ih fun y hy => h y (List.mem_cons_of_mem _ hy)).cons _

/-- Entries that agree still agree once the first of them has been put in its place. -/
theorem entriesAgree_insert {sts : List Station} {rest : List Entry} {e : Entry}
    (h : entriesAgree (sts.map (·.entry) ++ e :: rest) = true) :
    entriesAgree ((insertStation (Station.defined e) sts).map (·.entry) ++ rest) = true := by
  rw [entriesAgree_iff] at h ⊢
  have hn : ∀ x ∈ sts, x.entry.number ≠ (Station.defined e).entry.number := fun x hx =>
    ((List.pairwise_append.1 h.1).2.2 _ (List.mem_map_of_mem hx) e (List.mem_cons_self ..)).1
  have hp : ((insertStation (Station.defined e) sts).map (·.entry) ++ rest).Perm (sts.map (·.entry) ++ e :: rest) := by
    have := (insertStation_entries _ hn).append_right rest
    rwa [List.append_assoc] at this
  refine ⟨?_, fun l => by rw [(hp.filter _).length_eq]; exact h.2 l⟩
  refine (hp.pairwise_iff fun {x y} hxy => ⟨fun e => hxy.1 e.symm, fun e => hxy.2.1 e.symm, fun e => hxy.2.2 ⟨e.1.symm, e.2.symm⟩⟩).2 h.1

/-- NODE DEFINE takes only an entry that fits the table (R47). -/
theorem fits_of_checks {e : Entry} {s : State} (hl : laneFull e s = false) (hc : entryConflicts e s = false) :
    e.fits (s.stations.map (·.entry)) := by
  simp only [entryConflicts, Bool.or_eq_false_iff, State.others] at hc
  have hl := Nat.not_le.1 (of_decide_eq_false hl)
  refine ⟨fun x hx hn => ?_, ?_⟩
  · obtain ⟨st, hst, rfl⟩ := List.mem_map.1 hx
    have h := List.any_eq_false.1 hc.1 st (by simp [hst, hn])
    simp at h
    exact ⟨h.1, fun ⟨ha, hb⟩ => h.2 ha hb⟩
  · rw [List.filter_map, List.length_map]
    refine Nat.lt_of_le_of_lt (Nat.le_of_eq ?_) hl
    rw [State.others, List.filter_filter]
    congr 1
    exact List.filter_congr fun st _ => by simp [Bool.and_comm]

/-- The first 11 bytes of a run decide whether its side agrees. -/
theorem sideAgrees_take (b : List Byte) : sideAgrees (b.take 11) = sideAgrees b := by
  have h : ∀ i, i < 11 → byteAt (b.take 11) i = byteAt b i := fun i hi => by
    simp [byteAt, List.getD_eq_getElem?_getD, hi]
  simp only [sideAgrees, numAt, h 4 (by omega), h 5 (by omega)]

theorem readEntries_wellMade {n : Nat} {b : List Byte} {es : List Entry} (h : readEntries n b = some es) :
    ∀ e ∈ es, e.wellMade := by
  induction n generalizing b es with
  | zero => cases h; intro e he; cases he
  | succ n ih =>
    unfold readEntries at h
    split at h
    · cases h
    · rename_i hs
      split at h
      · rename_i e es' h1 h2
        cases h
        intro x hx
        rcases List.mem_cons.1 hx with rfl | hx
        · exact readEntry_wellMade (by simpa [sideAgrees_take] using hs) h1
        · exact ih h2 x hx
      · cases h

/-- What a valid config record gives: settings within their ranges, and entries that are well made and agree. -/
theorem readConfig_sound {b : List Byte} {x : Settings} {es : List Entry} (h : readConfig b = some (x, es)) :
    x.inRange ∧ (∀ e ∈ es, e.wellMade) ∧ entriesAgree es = true := by
  unfold readConfig at h
  split at h
  · cases h
  · split at h
    · split at h
      · rename_i h1 h2
        split at h
        · rename_i ha
          cases h
          exact ⟨readSettings_inRange Settings.default_inRange h1, readEntries_wellMade h2, ha⟩
        · cases h
      · cases h
    · cases h

end Sys2Proof.Machine
end

