-- ==== Sys2Proof/Laws/Stable.lean ====
section
/-! SUPPORT. What every operation can do to a state, said once: a property that is stable under the few
primitive changes below is kept by every operation, and by every command. A proof that a property of states is
an invariant shows that it is `Stable`, and cites `Stable.exec`; a proof that the lanes leave something alone shows
that it is `LaneStable`, and cites `LaneStable.lanesAct`. The structures grow by what the changes reach:
`StoreStable`, `LaneStable`, `BlockStable` (every block, but no job created), `EventStable` (jobs created too) and
`Stable` (cold starts and loading too). -/

namespace Sys2Proof.Machine

/-- Two stores hold the same slot records, image write, config save and mark list. -/
def Store.sameRecords (x y : Store) : Prop :=
  x.slots = y.slots ∧ x.imageWrite = y.imageWrite ∧ x.configSave = y.configSave ∧ x.markList = y.markList

/-- How many of a store's buffers a lane owns. -/
def Store.laneOwns (x : Store) (l : Lane) : Nat :=
  (bufferIndices.filter fun i => (x.buffers.getD i Buffer.unowned).owner = some (.lane l)).length

/-- A FREE buffer has no owner. -/
def Store.freeUnowned (x : Store) : Prop := ∀ b ∈ x.buffers, b.state = .free → b.owner = none

/-- A store with as many slot records and buffers as another, no lane owning more buffers than its two or than it
owned there, FREE buffers unowned if they were there, and the chip select following what runs if it did there. -/
def Store.within (x y : Store) : Prop :=
  x.slots.length = y.slots.length ∧ x.buffers.length = y.buffers.length ∧
    (∀ l, x.laneOwns l ≤ max Config.buffersPerLane (y.laneOwns l)) ∧ (y.freeUnowned → x.freeUnowned) ∧
    (y.selectFollows → x.selectFollows)

/-- What the work of the buffers and of the flash operation queue makes of a store. -/
def Store.worksFrom (x y : Store) : Prop := x.sameRecords y ∧ x.within y

theorem Store.within_of {x y : Store} (hs : x.slots.length = y.slots.length) (hb : x.buffers = y.buffers)
    (hc : y.selectFollows → x.selectFollows := by exact fun h => h) : x.within y := by
  refine ⟨hs, by rw [hb], fun l => ?_, ?_, hc⟩
  · unfold Store.laneOwns
    rw [hb]
    exact Nat.le_max_right ..
  · unfold Store.freeUnowned
    rw [hb]
    exact id

/-- Changes of the queue, the wait list and what runs. -/
theorem Store.worksFrom_of {x y : Store} (hs : x.slots = y.slots) (hw : x.imageWrite = y.imageWrite)
    (hc : x.configSave = y.configSave) (hm : x.markList = y.markList) (hb : x.buffers = y.buffers)
    (hr : y.selectFollows → x.selectFollows := by exact fun h => h) : x.worksFrom y :=
  ⟨⟨hs, hw, hc, hm⟩, Store.within_of (by rw [hs]) hb hr⟩

theorem owner_set (bs : List Buffer) (i j : Nat) (b : Buffer) :
    ((bs.set i b).getD j Buffer.unowned).owner = (bs.getD j Buffer.unowned).owner ∨
      (j = i ∧ ((bs.set i b).getD j Buffer.unowned).owner = b.owner) := by
  simp only [List.getD_eq_getElem?_getD, List.getElem?_set]
  by_cases h : i = j
  · subst h
    by_cases hi : i < bs.length <;> simp [hi]
  · simp [h]

/-- A buffer keeps the unowned FREE ones so, if it is not FREE and owned where the one it replaces was not. -/
theorem Store.freeUnowned_set (y : Store) (i : Nat) (b : Buffer)
    (hf : ((y.buffers.getD i Buffer.unowned).state = .free → (y.buffers.getD i Buffer.unowned).owner = none) →
      b.state = .free → b.owner = none) (h : y.freeUnowned) :
    ({ y with buffers := y.buffers.set i b } : Store).freeUnowned := by
  intro x hx
  rcases List.mem_or_eq_of_mem_set hx with hm | rfl
  · exact h x hm
  · refine hf fun he => ?_
    rw [List.getD_eq_getElem?_getD] at he ⊢
    cases hi : y.buffers[i]? with
    | none => rfl
    | some z =>
      rw [hi] at he
      exact h z (List.mem_of_getElem? hi) he

/-- A buffer that changes, and no lane gains. -/
theorem Store.worksFrom_setBuffer (y : Store) (i : Nat) (b : Buffer)
    (hb : ∀ l, b.owner = some (.lane l) → b.owner = (y.buffers.getD i Buffer.unowned).owner)
    (hf : ((y.buffers.getD i Buffer.unowned).state = .free → (y.buffers.getD i Buffer.unowned).owner = none) →
      b.state = .free → b.owner = none) :
    ({ y with buffers := y.buffers.set i b } : Store).worksFrom y := by
  refine ⟨⟨rfl, rfl, rfl, rfl⟩, rfl, List.length_set, fun l => Nat.le_trans ?_ (Nat.le_max_right ..),
    Store.freeUnowned_set y i b hf, id⟩
  refine (List.monotone_filter_right _ fun j hj => ?_).length_le
  simp only [decide_eq_true_eq] at hj ⊢
  rcases owner_set y.buffers i j b with h | ⟨rfl, h⟩
  · rw [← h]
    exact hj
  · rw [← hb l (h.symm.trans hj), ← h]
    exact hj

/-- A buffer that a lane owning fewer than two takes. -/
theorem Store.worksFrom_takeBuffer (y : Store) (i : Nat) (b : Buffer) (l : Lane) (hl : b.owner = some (.lane l))
    (hn : y.laneOwns l < Config.buffersPerLane) (hf : b.state ≠ .free) :
    ({ y with buffers := y.buffers.set i b } : Store).worksFrom y := by
  refine ⟨⟨rfl, rfl, rfl, rfl⟩, rfl, List.length_set, fun m => ?_,
    Store.freeUnowned_set y i b fun _ he => absurd he hf, id⟩
  by_cases hm : m = l
  · subst hm
    refine Nat.le_trans (Nat.le_trans (?_ : _ ≤ y.laneOwns m + 1) hn) (Nat.le_max_left ..)
    have key : ∀ xs : List Nat, xs.Nodup →
        (xs.filter fun j => ((y.buffers.set i b).getD j Buffer.unowned).owner = some (.lane m)).length ≤
          (xs.filter fun j => (y.buffers.getD j Buffer.unowned).owner = some (.lane m)).length +
            (if i ∈ xs then 1 else 0) := by
      intro xs hx
      induction xs with
      | nil => simp
      | cons j js ih =>
        have h := owner_set y.buffers i j b
        have hi := ih hx.tail
        have hj := List.nodup_cons.1 hx
        simp only [List.filter_cons, List.mem_cons]
        grind
    refine Nat.le_trans (key bufferIndices (by decide)) ?_
    unfold Store.laneOwns
    split <;> simp
  · refine Nat.le_trans ?_ (Nat.le_max_right ..)
    refine (List.monotone_filter_right _ fun j hj => ?_).length_le
    simp only [decide_eq_true_eq] at hj ⊢
    rcases owner_set y.buffers i j b with h | ⟨rfl, h⟩
    · rw [← h]
      exact hj
    · rw [h, hl] at hj
      cases hj
      exact absurd rfl hm

/-- A property of states that the block buffers, the flash operation queue and the park writer do not touch. -/
structure StoreStable (P : State → Prop) : Prop where
  storeWork : ∀ s x, x.worksFrom s.store → P s → P { s with store := x }
  park : ∀ s x, P s → P { s with park := x }

/-- The deadlines that the lanes set as they act: their response windows, and the timeout of the flash operation that
they have issued. -/
def Purpose.ofLanes (p : Purpose) : Prop := p = .storeOperation ∨ ∃ l, p = .responseWindow l

/-- A lane's holder changes so that it names no station twice, if it did not before and no station has two jobs. -/
def State.holderMayBecome (s : State) (x y : LaneState) : Prop :=
  (s.engine.queue.map (·.station)).Nodup → x.holderDistinct → y.holderDistinct

/-- A change of a lane that keeps its holder or ends it. -/
theorem State.holderMayBecome_of (s : State) {x y : LaneState} (h : y.holder = x.holder ∨ y.holder = none) :
    s.holderMayBecome x y := fun _ hx k hk => by
  rcases h with h | h
  · exact hx k (h ▸ hk)
  · rw [h] at hk
    cases hk

/-- A property of states that the work of the lanes keeps: changes of the store that keep its records, of the park writer
and of the draws; changes of the lanes' own state, where a transaction comes only to a lane that has one or to lanes that
may begin frames, a holder names no station twice, and the driver follows the frame in flight if it did; changes of jobs
that keep their stations; and the lanes' deadlines set. -/
structure LaneStable (P : State → Prop) : Prop extends StoreStable P where
  laneA : ∀ s x, (x.txn.isSome = true → s.laneA.txn.isSome = true ∨ s.lanesOpen = true) →
    s.holderMayBecome s.laneA x → (s.laneA.driverFollows → x.driverFollows) → P s → P { s with laneA := x }
  laneB : ∀ s x, (x.txn.isSome = true → s.laneB.txn.isSome = true ∨ s.lanesOpen = true) →
    s.holderMayBecome s.laneB x → (s.laneB.driverFollows → x.driverFollows) → P s → P { s with laneB := x }
  free : ∀ s x, P s → P { s with free := x }
  laneDeadline : ∀ s p due, p.ofLanes → P s → P (setDeadline p due s)
  jobs : ∀ s q, q.map (·.station) = s.engine.queue.map (·.station) → P s →
    P { s with engine := { s.engine with queue := q } }

/-- The lanes have no transaction, or the supply state changes in a way that opens no lane with one: it stays,
becomes LINE, or was not LINE. -/
def SupplyMayBecome (s : State) (x : SupplyWatch) : Prop :=
  x.state = s.supply.state ∨ x.state = .line ∨ s.supply.state ≠ .line ∨ (s.laneA.txn = none ∧ s.laneB.txn = none)

/-- The stations that have a job keep their entries in another table. -/
def State.keepsEntries (s : State) (x : List Station) : Prop :=
  ∀ n, s.hasJob n = true → (x.find? (·.entry.number = n)).map (·.entry) = (s.station? n).map (·.entry)

theorem find_entry {x y : List Station} (h : x.map (·.entry) = y.map (·.entry)) (n : Nat) :
    (x.find? (·.entry.number = n)).map (·.entry) = (y.find? (·.entry.number = n)).map (·.entry) := by
  have key : ∀ z : List Station,
      (z.find? (·.entry.number = n)).map (·.entry) = (z.map (·.entry)).find? (·.number = n) := fun z => by
    rw [List.find?_map]
    rfl
  rw [key, key, h]

/-- A table with the same entries keeps them all. -/
theorem State.keepsEntries_of {s : State} {x : List Station} (h : x.map (·.entry) = s.stations.map (·.entry)) :
    s.keepsEntries x := fun n _ => find_entry h n

/-- A table without a station that has no job keeps those of the stations that have one. -/
theorem State.keepsEntries_filter {s : State} {n : Nat} (h : s.hasJob n = false) :
    s.keepsEntries (s.stations.filter (·.entry.number ≠ n)) := by
  intro m hm
  have hn : m ≠ n := fun e => by rw [e, h] at hm; cases hm
  rw [List.find?_filter]
  congr 1
  refine congrArg (List.find? · s.stations) (funext fun st => ?_)
  simp only [decide_eq_true_eq, ne_eq]
  by_cases he : st.entry.number = m <;> simp [he, hn]

/-- A property of states that the primitive changes of every block keep, with no job created: free replacement of the
fields it does not constrain; a store with as many records, no lane gaining a third buffer; shrinking of the deadline
list, the queue, the push lists, the station table and the holding places; changes of stations that keep them sound, and,
once loading has ended, those with a job as they are; and the operations that make one of these grow. -/
structure BlockStable (P : State → Prop) : Prop extends LaneStable P where
  store : ∀ s x, x.within s.store → P s → P { s with store := x }
  setDeadline : ∀ s p due, P s → P (setDeadline p due s)
  storeWork := fun s x hx h => store s x hx.2 h
  laneDeadline := fun s p due _ h => setDeadline s p due h
  supply : ∀ s x, SupplyMayBecome s x → P s → P { s with supply := x }
  estimator : ∀ s x, P s → P { s with estimator := x }
  carStations : ∀ s c, P s → P { s with car := c, stations := s.stations.map (Station.under c) }
  settings : ∀ s x, (s.settings.inRange → x.inRange) → P s → P { s with settings := x }
  query : ∀ s x, P s → P { s with query := x }
  tick : ∀ s, P s → P { s with timebase := s.timebase.tick }
  deadlines : ∀ s ds, ds.Sublist s.timebase.deadlines → P s → P { s with timebase := { s.timebase with deadlines := ds } }
  engine : ∀ s e, (e.queue.map (·.station)).Sublist (s.engine.queue.map (·.station)) → P s → P { s with engine := e }
  pushes : ∀ s a b, (a.map (·.station)).Sublist (s.pushA.map (·.station)) →
    (b.map (·.station)).Sublist (s.pushB.map (·.station)) → P s → P { s with pushA := a, pushB := b }
  joinPush : ∀ s n u, s.hasJob n = false → P s → P (joinPush n u s)
  stations : ∀ s x, (x.map (·.entry)).Sublist (s.stations.map (·.entry)) →
    (s.stationsSound → ∀ st ∈ x, st.sound s.car) → (s.directorySound → ∀ st ∈ x, st.ofItsKind) →
    (s.loadingEnded = true → s.keepsEntries x) → P s → P { s with stations := x }
  insertStation : ∀ s e, e.wellMade → e.fits (s.stations.map (·.entry)) →
    (s.loadingEnded = true → s.hasJob e.number = false) → P s →
    P { s with stations := insertStation (Station.defined e) s.stations }
  complete : ∀ s op, P s → P { s with flash := s.flash.complete op }
  settleDevice : ∀ s, P s → P (settleDevice s)
  leaveBusy : ∀ s torn u, P s → P { s with flash := s.flash.leaveBusy torn u }
  postNotice : ∀ s b, P s → P (postNotice b s)
  takeNotice : ∀ s, P s → P (takeNotice s).2
  link : ∀ s l, l.notices = s.link.notices → l.held.Sublist s.link.held → P s → P { s with link := l }
  hold : ∀ s r, s.link.held.length < Config.holdingPlaces → P s →
    P { s with link := { s.link with held := s.link.held ++ [r] } }

/-- A property of states that the creation of a job for a station without one keeps too. -/
structure EventStable (P : State → Prop) : Prop extends BlockStable P where
  addJob : ∀ s n o p, s.hasJob n = false → (s.station? n).isSome = true → P s → P (addJob n o p s)

/-- A property of states that every command keeps: it is kept by the primitive changes without a creation of jobs; where
jobs may be created, that is once loading has ended or with a transaction in flight, it follows from a property that
their creation keeps too (itself, or itself with the end of loading); and cold starts and loading keep it. -/
structure Stable (P : State → Prop) : Prop extends BlockStable P where
  events : ∀ s, P s → s.loadingEnded = true ∨ (∃ l, (s.lane l).txn.isSome = true) →
    ∃ Q : State → Prop, EventStable Q ∧ Q s ∧ ∀ t, Q t → P t
  loader : ∀ s x, (s.loader.step = .ended → x.step = .ended) → P s → P { s with loader := x }
  coldBlocks : ∀ s c l b, P s → P (coldBlocks c l b s)
  stateless : ∀ s p r b, P s → P (stateless p r b s)

/-- A property that the creation of jobs keeps needs no other for events. -/
theorem EventStable.events {P : State → Prop} (h : EventStable P) (s : State) (hs : P s) :
    ∃ Q : State → Prop, EventStable Q ∧ Q s ∧ ∀ t, Q t → P t := ⟨P, h, hs, fun _ ht => ht⟩

/-- What holds after the work of events that may create jobs. -/
theorem Stable.afterEvents {P : State → Prop} (h : Stable P) {s : State} (hs : P s)
    (hj : s.loadingEnded = true ∨ ∃ l, (s.lane l).txn.isSome = true) {f : State → State}
    (hf : ∀ Q : State → Prop, EventStable Q → Q s → Q (f s)) : P (f s) := by
  obtain ⟨Q, hQ, hq, hp⟩ := h.events s hs hj
  exact hp _ (hf Q hQ hq)

theorem subOfEq {α : Type} {a b : List α} (h : a = b) : a.Sublist b := h ▸ List.Sublist.refl a

theorem Stable.fold {P : State → Prop} {α : Type} {f : State → α → State} (hf : ∀ s a, P s → P (f s a)) (xs : List α) {s : State} (hs : P s) :
    P (xs.foldl f s) := by
  induction xs generalizing s with
  | nil => exact hs
  | cons x xs ih => exact ih (hf s x hs)

namespace StoreStable

variable {P : State → Prop}

/-- A buffer record that changes but that no lane gains. -/
theorem setBuffer (h : StoreStable P) {s : State} (hs : P s) (i : Nat) (b : Buffer)
    (hb : ∀ l, b.owner = some (.lane l) → b.owner = (s.buffer i).owner)
    (hf : ((s.buffer i).state = .free → (s.buffer i).owner = none) → b.state = .free → b.owner = none) :
    P (s.setBuffer i b) :=
  h.storeWork s _ (Store.worksFrom_setBuffer s.store i b hb hf) hs

/-- A buffer that takes the owner it has, and is FREE only if it was. -/
theorem keepBuffer (h : StoreStable P) {s : State} (hs : P s) (i : Nat) (b : Buffer)
    (hb : b.owner = (s.buffer i).owner)
    (hf : b.state = .free → (s.buffer i).state = .free := by first | exact fun he => he | exact fun he => by cases he) :
    P (s.setBuffer i b) := h.setBuffer hs i b (fun _ _ => hb) fun ho he => hb ▸ ho (hf he)

/-- A buffer that becomes FREE. -/
theorem clearBuffer (h : StoreStable P) {s : State} (hs : P s) (i : Nat) : P (s.setBuffer i Buffer.unowned) :=
  h.setBuffer hs i _ (fun _ hl => by cases hl) fun _ _ => rfl

theorem queueOp (h : StoreStable P) {s : State} (hs : P s) (op : FlashOp) : P (Machine.queueOp op s) :=
  h.storeWork s _ (by exact Store.worksFrom_of rfl rfl rfl rfl rfl) hs

theorem queueOpFirst (h : StoreStable P) {s : State} (hs : P s) (op : FlashOp) : P (Machine.queueOpFirst op s) :=
  h.storeWork s _ (by exact Store.worksFrom_of rfl rfl rfl rfl rfl) hs

theorem giveBuffer (h : StoreStable P) {s : State} (hs : P s) (i : Nat) (w : BufferOwner) : P (Machine.giveBuffer i w s) := by
  unfold Machine.giveBuffer
  split
  · split
    · exact hs
    · split
      · exact hs
      · rename_i hn
        exact h.queueOp (h.storeWork s _
          (Store.worksFrom_takeBuffer s.store i _ _ rfl (Nat.lt_of_not_le hn) (by intro he; cases he)) hs) _
  · split
    · exact hs
    · exact h.setBuffer hs _ _ (fun _ hl => by cases hl) fun _ he => by cases he
  · exact h.queueOpFirst (h.setBuffer (h.park _ _ hs) _ _ (fun _ hl => by cases hl) fun _ he => by cases he) _

theorem grantSome (h : StoreStable P) (k : Nat) {s : State} (hs : P s) : P (Machine.grantSome k s) := by
  induction k generalizing s with
  | zero => exact hs
  | succ k ih =>
    unfold Machine.grantSome
    split
    · exact ih (h.giveBuffer (h.storeWork _ _ (by exact Store.worksFrom_of rfl rfl rfl rfl rfl) hs) _ _)
    · exact hs

theorem grantBuffers (h : StoreStable P) {s : State} (hs : P s) : P (Machine.grantBuffers s) := h.grantSome 6 hs

theorem freeBuffer (h : StoreStable P) {s : State} (hs : P s) (i : Nat) : P (Machine.freeBuffer i s) :=
  h.grantBuffers (h.clearBuffer hs _)

theorem giveBack (h : StoreStable P) {s : State} (hs : P s) (i : Nat) (b : Bool) : P (Machine.giveBack i b s) := by
  unfold Machine.giveBack
  split
  · exact h.keepBuffer hs _ _ rfl
  · exact h.clearBuffer hs _

theorem requestBuffers (h : StoreStable P) {s : State} (hs : P s) (w : BufferOwner) (n : Nat) :
    P (Machine.requestBuffers w n s) := h.storeWork s _ (by exact Store.worksFrom_of rfl rfl rfl rfl rfl) hs

theorem withdrawRequest (h : StoreStable P) {s : State} (hs : P s) (w : BufferOwner) : P (Machine.withdrawRequest w s) :=
  h.storeWork s _ (by exact Store.worksFrom_of rfl rfl rfl rfl rfl) hs

theorem releaseUnneeded (h : StoreStable P) {s : State} (hs : P s) (l : Lane) : P (Machine.releaseUnneeded l s) := by
  unfold Machine.releaseUnneeded
  refine Stable.fold (fun s i hs => ?_) _ hs
  dsimp only
  split
  · exact hs
  · exact h.giveBack hs _ _

theorem planBuffers (h : StoreStable P) {s : State} (hs : P s) (l : Lane) : P (Machine.planBuffers l s) := by
  unfold Machine.planBuffers
  have h1 := h.grantBuffers (h.releaseUnneeded hs l)
  dsimp only
  split
  · exact h.withdrawRequest h1 _
  · exact h.grantBuffers (h.requestBuffers h1 _ _)

end StoreStable

theorem orphanFrame_txn (x : LaneState) (h : x.orphanFrame.txn.isSome = true) : x.txn.isSome = true := by
  unfold LaneState.orphanFrame at h
  split at h
  · rename_i hx
    simp [hx] at h
  · rename_i hx
    simp [hx]

theorem orphanFrame_holder (x : LaneState) : x.orphanFrame.holder = x.holder := by
  unfold LaneState.orphanFrame
  repeat' split
  all_goals rfl

theorem orphanFrame_driver (x : LaneState) (h : x.driverFollows) : x.orphanFrame.driverFollows := by
  unfold LaneState.orphanFrame
  split
  · exact h
  · rename_i t ht
    split
    · unfold LaneState.driverFollows at h ⊢
      rw [ht] at h
      exact h
    · exact h

/-- The members of a group are of different stations. -/
theorem groupOf_nodup (l : Lane) (j : Job) (s : State) (h : (s.engine.queue.map (·.station)).Nodup) :
    (groupOf l j s).Nodup := by
  unfold groupOf
  rw [List.map_take]
  refine List.Nodup.sublist (List.take_sublist _ _) (List.nodup_cons.2 ⟨fun hm => ?_, ?_⟩)
  · obtain ⟨k, hk, he⟩ := List.mem_map.1 hm
    simp only [State.laneJobs, List.mem_filter, Bool.and_eq_true, decide_eq_true_eq] at hk
    exact hk.2.1.1.2 he
  · exact h.sublist (List.filter_sublist.map _)

theorem updJobs_stations (f : Job → Job) (hf : ∀ j, (f j).station = j.station) (ns : List Nat) (s : State) :
    (ns.foldl (fun x n => x.updJob n f) s).engine.queue.map (·.station) = s.engine.queue.map (·.station) := by
  induction ns generalizing s with
  | nil => rfl
  | cons n ns ih =>
    rw [List.foldl_cons, ih]
    simp only [State.updJob, List.map_map]
    refine List.map_congr_left fun j _ => ?_
    simp only [Function.comp]
    split
    · exact hf j
    · rfl

namespace LaneStable

variable {P : State → Prop}

theorem laneDeadlineIn (h : LaneStable P) {s : State} (hs : P s) {p : Purpose} (hp : p.ofLanes) (n : Nat) :
    P (Machine.setDeadlineIn p n s) := h.laneDeadline s p _ hp hs

theorem setLane (h : LaneStable P) {s : State} (hs : P s) (l : Lane) (x : LaneState)
    (hx : x.txn.isSome = true → (s.lane l).txn.isSome = true ∨ s.lanesOpen = true)
    (hh : s.holderMayBecome (s.lane l) x) (hd : (s.lane l).driverFollows → x.driverFollows := by exact fun h => h) :
    P (s.setLane l x) := by
  cases l
  · exact h.laneA s x hx hh hd hs
  · exact h.laneB s x hx hh hd hs

/-- A change of a lane that brings it no transaction and no other holder. -/
theorem updLane (h : LaneStable P) {s : State} (hs : P s) (l : Lane) (f : LaneState → LaneState)
    (hf : ∀ x : LaneState, (f x).txn.isSome = true → x.txn.isSome = true)
    (hh : ∀ x : LaneState, (f x).holder = x.holder ∨ (f x).holder = none := by exact fun _ => .inl rfl)
    (hd : ∀ x : LaneState, x.driverFollows → (f x).driverFollows := by exact fun _ h => h) : P (s.updLane l f) :=
  h.setLane hs l _ (fun hx => .inl (hf _ hx)) (s.holderMayBecome_of (hh _)) (hd _)

theorem bothLanes (h : LaneStable P) {s : State} (hs : P s) (f : LaneState → LaneState)
    (hf : ∀ x : LaneState, (f x).txn.isSome = true → x.txn.isSome = true)
    (hh : ∀ x : LaneState, (f x).holder = x.holder ∨ (f x).holder = none := by exact fun _ => .inl rfl)
    (hd : ∀ x : LaneState, x.driverFollows → (f x).driverFollows := by exact fun _ h => h) : P (s.bothLanes f) :=
  h.updLane (h.updLane hs _ _ hf hh hd) _ _ hf hh hd

/-- A change of a lane that brings it another holder, and no transaction. -/
theorem updHolder (h : LaneStable P) {s : State} (hs : P s) (l : Lane) (f : LaneState → LaneState)
    (hf : ∀ x : LaneState, (f x).txn.isSome = true → x.txn.isSome = true)
    (hh : s.holderMayBecome (s.lane l) (f (s.lane l)))
    (hd : ∀ x : LaneState, x.driverFollows → (f x).driverFollows := by exact fun _ h => h) : P (s.updLane l f) :=
  h.setLane hs l _ (fun hx => .inl (hf _ hx)) hh (hd _)

theorem updJob (h : LaneStable P) {s : State} (hs : P s) (n : Nat) (f : Job → Job)
    (hf : ∀ j, (f j).station = j.station) : P (s.updJob n f) := by
  refine h.jobs s _ ?_ hs
  simp only [List.map_map]
  refine List.map_congr_left fun j _ => ?_
  simp only [Function.comp]
  split
  · exact hf j
  · rfl

theorem issueFlash (h : LaneStable P) {s : State} (hs : P s) : P (Machine.issueFlash s) := by
  unfold Machine.issueFlash
  split
  · exact hs
  · split
    · exact hs
    · dsimp only
      split
      · exact h.storeWork _ _ (by exact Store.worksFrom_of rfl rfl rfl rfl rfl fun _ => rfl) hs
      · exact h.laneDeadlineIn (h.storeWork _ _ (by exact Store.worksFrom_of rfl rfl rfl rfl rfl fun _ => rfl) hs)
          (.inl rfl) _

theorem endHolder (h : LaneStable P) {s : State} (hs : P s) (l : Lane) : P (Machine.endHolder l s) :=
  h.planBuffers (h.updHolder hs _ _ (by exact fun _ hx => by have h1 := orphanFrame_txn _ hx; exact h1)
    (s.holderMayBecome_of (.inr (orphanFrame_holder _))) fun x hx => orphanFrame_driver { x with holder := none } hx) l

theorem toSingle (h : LaneStable P) {s : State} (hs : P s) (l : Lane) (n : Nat) : P (Machine.toSingle l n s) :=
  h.planBuffers (h.updHolder hs _ _ (by exact fun _ hx => by have h1 := orphanFrame_txn _ hx; exact h1)
    (fun _ _ k hk => by
      rw [orphanFrame_holder] at hk
      cases hk
      exact List.nodup_singleton _) fun x hx => orphanFrame_driver { x with holder := some (.single n) } hx) l

theorem settleGroup (h : LaneStable P) {s : State} (hs : P s) (l : Lane) (m : List Nat) (c : Nat) (r : Option (List Nat))
    (hm : (s.lane l).holderDistinct → m.Nodup) : P (Machine.settleGroup l m c r s) := by
  unfold Machine.settleGroup
  dsimp only
  split
  · exact h.endHolder hs l
  · exact h.toSingle hs l _
  · exact h.updHolder hs _ _ (by exact fun _ hx => hx) fun _ hx k hk => by
      cases hk
      exact hm hx

theorem leaveHolder (h : LaneStable P) {s : State} (hs : P s) (l : Lane) (n : Nat) : P (Machine.leaveHolder l n s) := by
  unfold Machine.leaveHolder
  split
  · exact hs
  · split
    · exact h.endHolder hs l
    · exact hs
  · rename_i hg
    split
    · exact h.settleGroup hs _ _ _ _ fun hx => (hx _ hg).filter _
    · exact hs

theorem leaveLoad (h : LaneStable P) {s : State} (hs : P s) (n : Nat) : P (Machine.leaveLoad n s) := by
  unfold Machine.leaveLoad
  split
  · exact hs
  · exact h.leaveHolder hs _ _

theorem selectHolder (h : LaneStable P) {s : State} (hs : P s) (l : Lane) : P (Machine.selectHolder l s) := by
  unfold Machine.selectHolder
  split
  · exact hs
  · split
    · exact hs
    · rename_i j _ _
      split
      · exact h.planBuffers (h.updHolder (h.updJob hs _ _ (by intro _; rfl)) _ _ (by exact fun _ hx => hx)
          fun _ _ k hk => by cases hk; exact List.nodup_singleton _) l
      · refine h.planBuffers (h.updHolder ?_ _ _ (by exact fun _ hx => hx) fun hn _ k hk => ?_) l
        · refine Stable.fold (fun s n hs => ?_) _ hs
          exact h.updJob hs _ _ (by intro _; rfl)
        · dsimp only at hk
          rw [updJobs_stations (fun j => { j with state := .opn }) (fun _ => rfl)] at hn
          have hm : (if s.settings.groupLoading = true then groupOf l j s else [j.station]).Nodup := by
            split
            · exact groupOf_nodup l j s hn
            · exact List.nodup_singleton _
          revert hk
          generalize (if s.settings.groupLoading = true then groupOf l j s else [j.station]) = members at hm
          intro hk
          cases hk
          split
          · exact List.nodup_singleton _
          · exact hm

theorem countBlocks (h : LaneStable P) {s : State} (hs : P s) (l : Lane) (t : Txn) : P (Machine.countBlocks l t s) := by
  unfold Machine.countBlocks
  split
  · exact hs
  · split
    · exact h.updJob hs _ _ (by intro _; rfl)
    · refine Stable.fold (fun s n hs => ?_) _ hs
      refine h.updJob hs _ _ fun j => ?_
      split <;> rfl
    · exact hs

theorem markSending (h : LaneStable P) {s : State} (hs : P s) (t : Txn) : P (Machine.markSending t s) := by
  unfold Machine.markSending
  split
  · exact h.keepBuffer hs _ _ rfl
  · exact hs

theorem beginAttempt (h : LaneStable P) {s : State} (hs : P s) (l : Lane) (t : Txn)
    (ht : (s.lane l).txn.isSome = true ∨ s.lanesOpen = true) : P (Machine.beginAttempt l t s) := by
  unfold Machine.beginAttempt
  dsimp only
  generalize countInjection (s.lane l).injection = ci
  have h2 := h.markSending (h.countBlocks (h.free (s.updLane l fun x =>
      { x with
        seq := (x.seq + 1) % 16
        injection := ci.2
        txn := some
          { t with
            address := frameAddress t s
            sequence := (s.lane l).seq
            rate := s.settings.rate l
            frame := sentFrame ci.1 s.free t.step (frameAddress t s) (s.lane l).seq (framePayload l t s)
            stale := false }
        driver :=
          if (sentFrame ci.1 s.free t.step (frameAddress t s) (s.lane l).seq (framePayload l t s)).isSome then .inUse
          else .released
        abandoned := x.abandoned.filter (· ≠ { address := frameAddress t s, sequence := x.seq }) }) (if ci.1.isSome then s.free + 1 else s.free)
      (h.setLane hs _ _ (fun _ => ht) (s.holderMayBecome_of (.inl rfl)) fun _ => rfl)) l t) t
  split
  · exact h2
  · exact h.laneDeadlineIn h2 (.inr ⟨l, rfl⟩) _

theorem beginStep (h : LaneStable P) {s : State} (hs : P s) (l : Lane) (turn : Turn) (k : TurnKind)
    (ho : s.lanesOpen = true) : P (Machine.beginStep l turn k s) := by
  unfold Machine.beginStep
  refine h.beginAttempt (h.updLane ?_ _ _ (by exact fun _ hx => hx)) _ _ (.inr ?_)
  · split
    · exact h.updJob hs _ _ (by intro _; rfl)
    · exact h.updLane hs _ _ (by exact fun _ hx => hx)
    · exact hs
  · split <;> cases l <;> exact ho

theorem arbitrate (h : LaneStable P) {s : State} (hs : P s) (l : Lane) : P (Machine.arbitrate l s) := by
  unfold Machine.arbitrate
  split
  · rename_i ho
    split
    · exact hs
    · exact h.beginStep hs _ _ _ (by simp only [Bool.and_eq_true] at ho; exact ho.2)
  · exact hs

theorem lanesAct (h : LaneStable P) {s : State} (hs : P s) : P (Machine.lanesAct s) :=
  h.arbitrate (h.arbitrate (h.issueFlash (h.selectHolder (h.selectHolder hs _) _)) _) _

end LaneStable

namespace BlockStable

variable {P : State → Prop}

/-! ### General forms -/

/-! ### Timebase -/

theorem setDeadlineIn (h : BlockStable P) {s : State} (hs : P s) (p : Purpose) (n : Nat) :
    P (Machine.setDeadlineIn p n s) := h.setDeadline s p _ hs

theorem removeDeadline (h : BlockStable P) {s : State} (hs : P s) (p : Purpose) : P (Machine.removeDeadline p s) :=
  h.deadlines s _ List.filter_sublist hs

theorem onExpiry (h : BlockStable P) {s : State} (hs : P s) (p : Purpose) {act : Time → State → State}
    (hact : ∀ due s, P s → P (act due s)) : P (Machine.onExpiry p act s) := by
  unfold Machine.onExpiry
  split
  · exact hs
  · rename_i t due he
    refine hact due _ ?_
    unfold Timebase.expire at he
    split at he
    · cases he
    · rename_i d ds hd
      split at he
      · cases he
        exact h.deadlines s ds (by rw [hd]; exact List.sublist_cons_self _ _) hs
      · cases he

/-! ### Lanes, jobs, stations, slots, pushes -/

theorem updStation (h : BlockStable P) {s : State} (hs : P s) (n : Nat) (f : Station → Station)
    (hf : ∀ st, (f st).entry = st.entry)
    (hr : s.stationsSound → ∀ st ∈ s.stations, st.sound s.car → (f st).sound s.car)
    (hk : s.directorySound → ∀ st ∈ s.stations, st.entry.number = n → st.ofItsKind → (f st).ofItsKind) :
    P (s.updStation n f) := by
  have he : (s.stations.map fun st => if st.entry.number = n then f st else st).map (·.entry) =
      s.stations.map (·.entry) := by
    rw [List.map_map]
    refine List.map_congr_left fun st _ => ?_
    simp only [Function.comp]
    split
    · exact hf st
    · rfl
  refine h.stations s _ (subOfEq he) (fun ha st' hst' => ?_) (fun ha st' hst' => ?_)
    (fun _ => State.keepsEntries_of he) hs
  · obtain ⟨st, hst, rfl⟩ := List.mem_map.1 hst'
    split
    · exact hr ha st hst (ha st hst)
    · exact ha st hst
  · obtain ⟨st, hst, rfl⟩ := List.mem_map.1 hst'
    split
    · exact hk ha st hst ‹_› (ha.2.1 st hst)
    · exact ha.2.1 st hst

theorem setSlot (h : BlockStable P) {s : State} (hs : P s) (n : Nat) (x : Slot) : P (s.setSlot n x) := by
  unfold State.setSlot
  split
  · exact hs
  · exact h.store s _ (by exact Store.within_of (by simp) rfl) hs

theorem removePush (h : BlockStable P) {s : State} (hs : P s) (n : Nat) : P (Machine.removePush n s) :=
  h.pushes s _ _ (List.filter_sublist.map _) (List.filter_sublist.map _) hs

theorem makePending (h : BlockStable P) {s : State} (hs : P s) (n : Nat) (u : Bool) : P (Machine.makePending n u s) := by
  unfold Machine.makePending
  split
  · exact hs
  · rename_i hj
    exact h.joinPush s n u (by simpa using hj) hs

theorem withdrawPoll (h : BlockStable P) {s : State} (hs : P s) (n : Nat) : P (Machine.withdrawPoll n s) :=
  h.bothLanes hs _ (fun x hx => by split at hx <;> exact hx) (fun x => by split <;> exact .inl rfl) fun x hx => by
    split <;> exact hx

theorem setPresence (h : BlockStable P) {s : State} (hs : P s) (n : Nat) (p : Presence) : P (Machine.setPresence n p s) := by
  unfold Machine.setPresence
  split
  · exact hs
  · split
    · exact hs
    · dsimp only
      have h1 := h.updStation hs n (fun x => { x with presence := p }) (fun _ => rfl) (fun _ _ _ hr => hr)
        fun _ _ _ _ hk => hk
      split
      · exact h.postNotice _ _ h1
      · exact h1

theorem presenceReply (h : BlockStable P) {s : State} (hs : P s) (n : Nat) : P (Machine.presenceReply n s) := by
  unfold Machine.presenceReply
  split
  · exact hs
  · split
    · exact h.setPresence hs n _
    · exact hs

/-! ### Estimator -/

theorem eachStation (h : BlockStable P) {s : State} (hs : P s) (f : Station → Station)
    (hf : ∀ st, (f st).entry = st.entry)
    (hr : ∀ st, st.sound s.car → (f st).sound s.car) (hk : ∀ st, st.ofItsKind → (f st).ofItsKind) :
    P (s.eachStation f) := by
  have he : (s.stations.map f).map (·.entry) = s.stations.map (·.entry) := by
    rw [List.map_map]
    exact List.map_congr_left fun st _ => hf st
  refine h.stations s _ (subOfEq he) (fun ha st' hst' => ?_) (fun ha st' hst' => ?_)
    (fun _ => State.keepsEntries_of he) hs
  · obtain ⟨st, hst, rfl⟩ := List.mem_map.1 hst'
    exact hr st (ha st hst)
  · obtain ⟨st, hst, rfl⟩ := List.mem_map.1 hst'
    exact hk st (ha.2.1 st hst)

theorem estimatorFall (h : BlockStable P) {s : State} (hs : P s) (raw : Time) (o m : Bool) :
    P (Machine.estimatorFall raw o m s) :=
  h.estimator (s.eachStation _) _ (h.eachStation hs _ (fun _ => rfl) (fun _ hr => hr.atFall o _) fun _ hk => hk)

theorem estimatorRise (h : BlockStable P) {s : State} (hs : P s) (raw : Time) (m : Bool) :
    P (Machine.estimatorRise raw m s) :=
  h.estimator (s.eachStation _) _ (h.eachStation hs _ (fun _ => rfl) (fun _ hr => hr.atRise _) fun _ hk => hk)

theorem clearLost (h : BlockStable P) {s : State} (hs : P s) : P (Machine.clearLost s) :=
  h.eachStation hs _ (fun _ => rfl) (fun _ hr => hr) fun _ hk => hk

/-! ### Store -/

theorem withdrawOps (h : BlockStable P) {s : State} (hs : P s) (w : Requester) : P (Machine.withdrawOps w s) :=
  h.store s _ (by exact Store.within_of rfl rfl) hs

theorem endWrite (h : BlockStable P) {s : State} (hs : P s) (b : Bool) : P (Machine.endWrite b s) := by
  unfold Machine.endWrite
  refine h.grantBuffers ?_
  have h1 := h.store _ { (Machine.withdrawRequest .imageWrite (Machine.withdrawOps .imageWrite s)).store with imageWrite := none }
    (Store.within_of rfl rfl) (h.withdrawRequest (h.withdrawOps hs .imageWrite) .imageWrite)
  unfold giveBackWriteBuffer
  split
  · exact h1
  · exact h.giveBack h1 _ _

theorem freeReleasedWriteBuffer (h : BlockStable P) {s : State} (hs : P s) : P (Machine.freeReleasedWriteBuffer s) := by
  unfold Machine.freeReleasedWriteBuffer
  split
  · exact hs
  · split
    · exact h.freeBuffer hs _
    · exact hs

theorem abandonWrite (h : BlockStable P) {s : State} (hs : P s) : P (Machine.abandonWrite s) := by
  unfold Machine.abandonWrite
  split
  · exact hs
  · exact h.endWrite (h.setSlot hs _ _) _

theorem kickMarkWriter (h : BlockStable P) {s : State} (hs : P s) : P (Machine.kickMarkWriter s) := by
  unfold Machine.kickMarkWriter
  split
  · exact hs
  · split
    · exact hs
    · exact h.queueOp hs _

theorem cutFlash (h : BlockStable P) {s : State} (hs : P s) : P (Machine.cutFlash s) := by
  unfold Machine.cutFlash
  split
  · exact hs
  · exact h.leaveBusy _ _ _ hs

/-! ### Engine -/

theorem setPhase (h : BlockStable P) {s : State} (hs : P s) (p : EnginePhase) : P (Machine.setPhase p s) :=
  h.engine s _ (List.Sublist.refl _) hs

theorem startRun (h : BlockStable P) {s : State} (hs : P s) : P (Machine.startRun s) := h.engine s _ (List.Sublist.refl _) hs

theorem passCompleteIfEmpty (h : BlockStable P) {s : State} (hs : P s) : P (Machine.passCompleteIfEmpty s) := by
  unfold Machine.passCompleteIfEmpty
  split
  · exact h.setPhase (h.postNotice _ _ hs) _
  · exact hs

theorem departJob (h : BlockStable P) {s : State} (hs : P s) (n : Nat) : P (Machine.departJob n s) := by
  unfold Machine.departJob
  exact h.engine _ _ (List.filter_sublist.map _) (h.leaveLoad (h.removeDeadline hs _) n)

theorem completeJob (h : BlockStable P) {s : State} (hs : P s) (n : Nat) (o : RestoreOutcome) :
    P (Machine.completeJob n o s) := by
  unfold Machine.completeJob
  split
  · exact hs
  · exact h.passCompleteIfEmpty (h.engine _ _ (List.Sublist.refl _)
      (h.postNotice _ _ (h.setPresence (h.departJob hs n) n _)))

theorem failJob (h : BlockStable P) {s : State} (hs : P s) (n : Nat) (r : Reason) : P (Machine.failJob n r s) := by
  unfold Machine.failJob
  split
  · exact hs
  · exact h.passCompleteIfEmpty (h.engine _ _ (List.Sublist.refl _)
      (h.postNotice _ _ (h.setPresence (h.departJob hs n) n _)))

theorem slotLeftValid (h : BlockStable P) {s : State} (hs : P s) (n : Nat) : P (Machine.slotLeftValid n s) :=
  by
  unfold Machine.slotLeftValid
  refine Stable.fold (fun s j hs => ?_) _ hs
  exact h.failJob hs _ _

theorem armLimit (h : BlockStable P) {s : State} (hs : P s) (n : Nat) : P (Machine.armLimit n s) := h.setDeadlineIn hs _ _

theorem carryAll (h : BlockStable P) {s : State} (hs : P s) (n : Nat) (f : Nat → Prediction) :
    P (Machine.carryAll n f s) :=
  h.engine s _ (subOfEq (by simp [Function.comp_def, carryJob])) hs

theorem armAll (h : BlockStable P) {s : State} (hs : P s) : P (Machine.armAll s) := by
  unfold Machine.armAll
  refine Stable.fold (fun s j hs => ?_) _ hs
  exact h.armLimit hs _

theorem openPass (h : BlockStable P) {s : State} (hs : P s) (n : Nat) : P (Machine.openPass n s) := by
  unfold Machine.openPass
  split
  · exact h.setPhase (h.postNotice _ _ hs) _
  · exact h.setPhase hs _

theorem removeLimits (h : BlockStable P) {s : State} (hs : P s) : P (Machine.removeLimits s) :=
  h.deadlines s _ List.filter_sublist hs

theorem engineGapBegin (h : BlockStable P) {s : State} (hs : P s) : P (Machine.engineGapBegin s) := by
  unfold Machine.engineGapBegin
  exact h.engine _ _ (subOfEq (by simp [Function.comp_def, Job.atGap])) (h.removeLimits hs)

theorem abandonLanes (h : BlockStable P) {s : State} (hs : P s) : P (Machine.abandonLanes s) := by
  unfold Machine.abandonLanes
  exact h.planBuffers (h.planBuffers (h.withdrawRequest (h.withdrawRequest
    (h.bothLanes (h.removeDeadline (h.removeDeadline hs _) _) _ (by exact fun _ hx => by cases hx)
      (by exact fun _ => .inr rfl) (by exact fun _ _ => rfl)) _) _) _) _

theorem lanesGapBegin (h : BlockStable P) {s : State} (hs : P s) : P (Machine.lanesGapBegin s) := by
  unfold Machine.lanesGapBegin
  have h1 := h.bothLanes (h.abandonLanes hs) (fun x => { x with pendingPoll := none }) (by exact fun _ hx => hx)
  revert h1
  generalize (Machine.abandonLanes s).bothLanes (fun x => { x with pendingPoll := none }) = s1
  intro h1
  dsimp only
  split
  · exact h1
  · exact h.postNotice _ _ (h.query s1 none h1)

theorem engineRestart (h : BlockStable P) {s : State} (hs : P s) : P (Machine.engineRestart s) := by
  unfold Machine.engineRestart
  exact h.engine (Machine.removeLimits s) _ (List.nil_sublist _) (h.removeLimits hs)

theorem lanesRestart (h : BlockStable P) {s : State} (hs : P s) : P (Machine.lanesRestart s) := by
  unfold Machine.lanesRestart
  exact h.query ((Machine.abandonLanes s).bothLanes _) none (h.bothLanes (h.abandonLanes hs) _ (by exact fun _ hx => hx))

end BlockStable

namespace EventStable

variable {P : State → Prop}

/-! ### Jobs created -/

theorem joinJob (h : EventStable P) {s : State} (hs : P s) (n : Nat) (o : Origin) (p : Prediction)
    (hn : (s.station? n).isSome = true) : P (Machine.joinJob n o p s) := by
  unfold Machine.joinJob
  split
  · exact hs
  · rename_i hj
    exact h.addJob s n o p (by simpa using hj) hn hs

theorem createJob (h : EventStable P) {s : State} (hs : P s) (n : Nat) (o : Origin) : P (Machine.createJob n o s) := by
  unfold Machine.createJob
  split
  · exact hs
  · rename_i hj
    simp only [Bool.or_eq_true, not_or, Bool.not_eq_true, Option.isNone_eq_false_iff] at hj
    have h1 := h.addJob s n o .none hj.1 hj.2 hs
    dsimp only
    split
    · split
      · exact h.startRun (h.setPhase (h.armLimit h1 n) _)
      · exact h.armLimit h1 n
    · exact h1

theorem joinJob_stations (n : Nat) (o : Origin) (p : Prediction) (s : State) :
    (Machine.joinJob n o p s).stations = s.stations := by
  unfold Machine.joinJob
  split <;> rfl

theorem joinAll (h : EventStable P) {s : State} (hs : P s) (o : Origin) (xs : List Station)
    (hx : ∀ st ∈ xs, (s.station? st.entry.number).isSome = true) : P (Machine.joinAll o xs s) := by
  unfold Machine.joinAll
  induction xs generalizing s with
  | nil => exact hs
  | cons st xs ih =>
    refine ih (h.joinJob hs _ _ _ (hx st (List.mem_cons_self ..))) fun x hm => ?_
    unfold State.station?
    rw [joinJob_stations]
    exact hx x (List.mem_cons_of_mem _ hm)

theorem joiningOrder_defined {s : State} {st : Station} (h : st ∈ joiningOrder s) : st ∈ s.stations := by
  simp only [joiningOrder, List.mem_flatMap, List.mem_append, List.mem_filter] at h
  obtain ⟨_, _, h | h⟩ := h <;> exact h.1.1

theorem buildPass (h : EventStable P) {s : State} (hs : P s) : P (Machine.buildPass s) := by
  refine h.openPass (h.startRun (h.armAll (h.postNotice _ _
    (h.joinAll (h.carryAll (h.clearLost hs) _ _) _ _ fun st hst => ?_)))) _
  have e := find_entry (x := (Machine.clearLost s).stations) (y := s.stations) (by
    unfold Machine.clearLost State.eachStation
    rw [List.map_map]
    exact List.map_congr_left fun _ _ => rfl) st.entry.number
  have hm := joiningOrder_defined hst
  have hf : (s.stations.find? (·.entry.number = st.entry.number)).isSome = true := by
    rw [List.find?_isSome]
    exact ⟨st, hm, by simp⟩
  show ((Machine.clearLost s).stations.find? (·.entry.number = st.entry.number)).isSome = true
  rw [← Option.isSome_map, e, Option.isSome_map]
  exact hf

end EventStable

end Sys2Proof.Machine
end

