-- ==== Sys2Proof/Laws/StableLanes.lean ====
section
/-! SUPPORT. Event-stable properties are kept by the lanes: selection, the arbiter, attempts, replies and their
outcomes. -/

namespace Sys2Proof.Machine.EventStable

open Sys2Proof.Machine

variable {P : State → Prop}

theorem endStep (h : EventStable P) {s : State} (hs : P s) (l : Lane) (t : Txn) : P (Machine.endStep l t s) := by
  unfold Machine.endStep
  have h1 := h.updLane hs l LaneState.freed (by exact fun _ hx => by cases hx) (fun _ => .inl rfl) fun _ _ => rfl
  dsimp only
  split
  · refine h.updJob h1 _ _ fun j => ?_
    split <;> rfl
  · exact h1

theorem restartOpen (h : EventStable P) {s : State} (hs : P s) (n : Nat) (r : Reason) : P (Machine.restartOpen n r s) := by
  unfold Machine.restartOpen
  split
  · exact hs
  · split
    · exact h.failJob hs _ _
    · exact h.leaveLoad (h.updJob hs _ _ (by intro _; rfl)) _

theorem strictError (h : EventStable P) {s : State} (hs : P s) (l : Lane) : P (Machine.strictError l s) := by
  unfold Machine.strictError
  split
  · exact hs
  · refine Stable.fold (fun s n hs => ?_) _ (h.endHolder hs l)
    exact h.restartOpen hs _ _

theorem exhausted (h : EventStable P) {s : State} (hs : P s) (t : Txn) (e : List Ending) : P (Machine.exhausted t e s) := by
  unfold Machine.exhausted
  split
  · exact h.failJob hs _ _
  · exact h.createJob (h.setPresence (h.removePush hs _) _ _) _ _
  · exact h.createJob (h.setPresence hs _ _) _ _
  · exact h.postNotice _ _ (h.query (Machine.createJob _ .link (Machine.setPresence _ .absent s)) none
      (h.createJob (h.setPresence hs _ _) _ _))
  · exact hs

theorem countRetry (h : EventStable P) {s : State} (hs : P s) (t : Txn) : P (Machine.countRetry t s) := by
  unfold Machine.countRetry
  split
  · exact h.updJob hs _ _ (by intro _; rfl)
  · exact hs

theorem errorEnding (h : EventStable P) {s : State} (hs : P s) (l : Lane) (t : Txn) (e : Ending)
    (ht : (s.lane l).txn.isSome = true) : P (Machine.errorEnding l t e s) := by
  unfold Machine.errorEnding
  have h1 := h.removeDeadline hs (.responseWindow l)
  dsimp only
  split
  · exact h.endStep h1 _ _
  · split
    · exact h.strictError (h.endStep h1 _ _) _
    · split
      · refine h.beginAttempt (h.countRetry h1 _) _ _ (.inl ?_)
        unfold Machine.countRetry
        split <;> cases l <;> exact ht
      · exact h.exhausted (h.endStep h1 _ _) _ _

theorem checkPrediction (h : EventStable P) {s : State} (hs : P s) (n : Nat) (r : Report) (tag : Word) :
    P (Machine.checkPrediction n r tag s) := by
  unfold Machine.checkPrediction
  split
  · split
    · rename_i j _ _
      have h1 := h.updJob hs n
        (fun j' => { j' with result := predictionResult j.prediction (findingIntact r tag) }) (by intro _; rfl)
      dsimp only
      split
      · exact h.updStation h1 _ _ (by intro _; rfl) (fun _ _ _ hr => hr.adapt _) fun _ _ _ _ hk => hk
      · exact h1
    · exact hs
  · exact hs

theorem probeOutcome (h : EventStable P) {s : State} (hs : P s) (n : Nat) (r : Report) : P (Machine.probeOutcome n r s) := by
  unfold Machine.probeOutcome
  have h1 := h.updJob hs n (fun j => { j with finding := some r }) (by intro _; rfl)
  dsimp only
  split
  · split
    · exact h.failJob h1 _ _
    · split
      · exact h.failJob h1 _ _
      · split
        · exact h.completeJob (h.checkPrediction h1 _ _ _) _ _
        · exact h.updJob (h.checkPrediction h1 _ _ _) _ _ (by intro _; rfl)
  · exact h.failJob h1 _ _

theorem fillJudged (h : EventStable P) {s : State} (hs : P s) (l : Lane) (n f : Nat) : P (Machine.fillJudged l n f s) := by
  unfold Machine.fillJudged
  split
  · rename_i hg
    split
    · exact h.settleGroup (h.updJob hs _ _ (by intro _; rfl)) _ _ _ _ fun hx => hx (.group ..) (by cases l <;> exact hg)
    · split
      · exact h.leaveHolder (h.updJob hs _ _ (by intro _; rfl)) _ _
      · exact h.leaveHolder (h.updJob hs _ _ (by intro _; rfl)) _ _
  · exact hs

theorem slotChecked (h : EventStable P) {s : State} (hs : P s) (n : Nat) (e : Bool) : P (Machine.slotChecked n e s) := by
  unfold Machine.slotChecked
  split
  · split
    · exact h.setSlot hs _ _
    · split
      · exact h.setSlot hs _ _
      · exact h.slotLeftValid (h.kickMarkWriter (h.store (s.setSlot n _) _ (by exact Store.within_of rfl rfl) (h.setSlot hs _ _))) _
  · exact hs

theorem closeResult (h : EventStable P) {s : State} (hs : P s) (n : Nat) (e : Bool) : P (Machine.closeResult n e s) := by
  unfold Machine.closeResult
  split
  · exact hs
  · refine h.slotChecked ?_ _ _
    split
    · exact h.leaveLoad (h.updJob hs _ _ (by intro _; rfl)) _
    · have h0 := h.updJob hs n (fun j => { j with mismatches := j.mismatches + 1 }) (by intro _; rfl)
      dsimp only
      split
      · exact h.failJob h0 _ _
      · exact h.leaveLoad (h.updJob h0 _ _ (by intro _; rfl)) _

theorem replayAcknowledged (h : EventStable P) {s : State} (hs : P s) (n e : Nat) :
    P (Machine.replayAcknowledged n e s) := by
  unfold Machine.replayAcknowledged
  split
  · split
    · exact h.completeJob hs _ _
    · exact hs
  · exact hs

theorem wrongState (h : EventStable P) {s : State} (hs : P s) (n : Nat) : P (Machine.wrongState n s) := by
  unfold Machine.wrongState
  split
  · exact hs
  · split
    · exact h.failJob hs _ _
    · exact h.leaveLoad (h.updJob hs _ _ (by intro _; rfl)) _

theorem badIndexOnBlock (h : EventStable P) {s : State} (hs : P s) (l : Lane) (t : Txn) (n f : Nat) :
    P (Machine.badIndexOnBlock l t n f s) := by
  unfold Machine.badIndexOnBlock
  split
  · exact h.restartOpen hs _ _
  · split
    · have h1 := h.updJob hs n (Job.fillTo (s.lengthOf n) f) (by intro _; rfl)
      refine h.planBuffers ?_ l
      split
      · exact h.keepBuffer h1 _ _ rfl
      · exact h1
    · exact h.wrongState hs _

theorem jobRefused (h : EventStable P) {s : State} (hs : P s) (l : Lane) (t : Txn) (n : Nat) (r : NakReason) (f : Nat) :
    P (Machine.jobRefused l t n r f s) := by
  unfold Machine.jobRefused
  split
  · exact hs
  · exact h.failJob hs _ _
  · split
    · exact h.failJob hs _ _
    · exact h.wrongState hs _
  · split
    · exact h.failJob hs _ _
    · exact h.badIndexOnBlock hs _ _ _ _
    · exact h.restartOpen hs _ _
    · exact h.wrongState hs _

theorem jobReply (h : EventStable P) {s : State} (hs : P s) (l : Lane) (t : Txn) (n : Nat) (r : LaneReply) :
    P (Machine.jobReply l t n r s) := by
  unfold Machine.jobReply
  split
  · exact h.jobRefused hs _ _ _ _ _
  · exact h.probeOutcome hs _ _
  · exact h.planBuffers (h.updJob hs _ _ (by intro _; rfl)) _
  · exact h.planBuffers (h.freeBuffer (h.updJob hs _ _ (by intro _; rfl)) _) _
  · exact h.fillJudged hs _ _ _
  · exact h.closeResult hs _ _
  · exact h.updJob hs _ _ (by intro _; rfl)
  · exact h.replayAcknowledged hs _ _
  · exact hs

theorem pushReply (h : EventStable P) {s : State} (hs : P s) (n : Nat) (r : LaneReply) : P (Machine.pushReply n r s) := by
  unfold Machine.pushReply
  split
  · split
    · exact hs
    · split
      · exact h.removePush hs _
      · exact hs
  · exact h.createJob (h.removePush hs _) _ _
  · exact hs

theorem presencePoll (h : EventStable P) {s : State} (hs : P s) (n : Nat) (r : Report) :
    P (Machine.presencePoll n r s) := by
  unfold Machine.presencePoll
  split
  · exact hs
  · split
    · exact h.presenceReply hs _
    · exact h.setPresence hs _ _

theorem observeLeaf (h : EventStable P) {s : State} (hs : P s) (n : Nat) (x : LiveStatus) :
    P (Machine.observeLeaf n x s) := by
  unfold Machine.observeLeaf
  have h1 := h.updStation hs n (Station.observing (x.leafState s.free))
    (fun st => by unfold Station.observing; split <;> rfl) (fun _ _ _ hr => hr.observing _)
    fun _ _ _ _ hk => hk.observing (x.leafState_ne_ok s.free)
  dsimp only
  split
  · exact h.free _ _ h1
  · exact h1

theorem pollHandedOn (h : EventStable P) {s : State} (hs : P s) (n : Nat) (r : Report) (x : LiveStatus) :
    P (Machine.pollHandedOn n r x s) := by
  unfold Machine.pollHandedOn
  split
  · exact hs
  · have h1 := h.observeLeaf (h.presencePoll hs n r) n x
    dsimp only
    split
    · exact h1
    · exact h.createJob h1 _ _

theorem queryReply (h : EventStable P) {s : State} (hs : P s) (n : Nat) (r : LaneReply) : P (Machine.queryReply n r s) := by
  unfold Machine.queryReply
  split
  · exact h.postNotice _ _ (h.query (Machine.pollHandedOn n _ _ s) none (h.pollHandedOn hs _ _ _))
  · exact hs

theorem presenceOfReply (h : EventStable P) {s : State} (hs : P s) (n : Nat) (r : LaneReply) (gone : Bool) :
    P (Machine.presenceOfReply n r gone s) := by
  unfold Machine.presenceOfReply
  split
  · split
    · exact h.presencePoll hs _ _
    · exact hs
  · exact h.presenceReply hs _

/-- Presence is no matter of the lanes. -/
theorem setPresence_lane (n : Nat) (p : Presence) (s : State) (l : Lane) :
    (Machine.setPresence n p s).lane l = s.lane l := by
  unfold Machine.setPresence
  split
  · rfl
  · split
    · rfl
    · dsimp only
      split
      · unfold Machine.postNotice
        split <;> cases l <;> rfl
      · cases l <;> rfl

theorem presenceOfReply_lane (n : Nat) (r : LaneReply) (gone : Bool) (s : State) (l : Lane) :
    (Machine.presenceOfReply n r gone s).lane l = s.lane l := by
  unfold Machine.presenceOfReply Machine.presencePoll Machine.presenceReply
  repeat' split
  all_goals first | rfl | exact setPresence_lane _ _ _ _

theorem takeReply (h : EventStable P) {s : State} (hs : P s) (l : Lane) (t : Txn) (r : LaneReply)
    (ht : (s.lane l).txn.isSome = true) : P (Machine.takeReply l t r s) := by
  unfold Machine.takeReply
  have h1 := h.presenceOfReply (h.removeDeadline hs (.responseWindow l)) (t.station.getD 0) r (ownerGone t s)
  dsimp only
  split
  · refine h.errorEnding h1 _ _ _ ?_
    rw [presenceOfReply_lane]
    cases l <;> exact ht
  · have h2 := h.endStep h1 l t
    split
    · exact h2
    · split
      · exact h.jobReply h2 _ _ _ _
      · exact h.pushReply h2 _ _
      · unfold pollReply
        split
        · exact h.pollHandedOn h2 _ _ _
        · exact h2
      · exact h.queryReply h2 _ _
      · exact h2

theorem laneReply (h : EventStable P) {s : State} (hs : P s) (l : Lane) (f : List Byte) : P (Machine.laneReply l f s) := by
  unfold Machine.laneReply
  split
  · exact hs
  · rename_i t ht
    have ht' : (s.lane l).txn.isSome = true := by rw [ht]; rfl
    have hm : P (markStale l t s) := h.setLane hs _ _ (fun _ => .inl ht') (s.holderMayBecome_of (.inl rfl))
      fun hd => by unfold LaneState.driverFollows at hd ⊢; rw [ht] at hd; exact hd
    split
    · exact hs
    · split
      · exact h.lanesAct (h.errorEnding hs _ _ _ ht')
      · split
        · unfold unmatchedReply
          split
          · exact hs
          · exact hm
        · split
          · exact hm
          · exact h.lanesAct (h.errorEnding hs _ _ _ ht')
          · exact h.lanesAct (h.takeReply hs _ _ _ ht')

theorem windowExpired (h : EventStable P) {s : State} (hs : P s) (l : Lane) : P (Machine.windowExpired l s) := by
  unfold Machine.windowExpired
  split
  · exact hs
  · rename_i t ht
    exact h.lanesAct (h.errorEnding hs _ _ _ (by rw [ht]; rfl))

theorem groupFrameEnded (h : EventStable P) {s : State} (hs : P s) (l : Lane) : P (Machine.groupFrameEnded l s) := by
  unfold Machine.groupFrameEnded
  split
  · exact hs
  · have h1 := h.updLane hs l LaneState.freed (by exact fun _ hx => by cases hx) (fun _ => .inl rfl) fun _ _ => rfl
    dsimp only
    split
    · rename_i m c r _ hg
      exact h.lanesAct (h.planBuffers (h.freeBuffer (h.updHolder h1 _ _ (by exact fun _ hx => hx) fun _ hx k hk => by
        cases hk
        exact hx (.group m c r) (by cases l <;> exact hg)) _) _)
    · split
      · exact h.lanesAct (h.planBuffers (h.freeBuffer h1 _) _)
      · exact h.lanesAct h1
    · exact hs

end Sys2Proof.Machine.EventStable
end

