-- ==== Sys2Proof/Laws/StableEvents.lean ====
section
/-! SUPPORT. Stable properties are kept by the Supply Watch, the park, the store, cold start loading, the
Control Link and, last, by every command and every step. -/

namespace Sys2Proof.Machine.Stable

open Sys2Proof.Machine

variable {P : State → Prop}

/-! ### Cold start and park -/

theorem drawn (h : Stable P) {s : State} (hs : P s) : P s.drawn := h.free s _ hs

theorem coldDeadlines (h : Stable P) {s : State} (hs : P s) (l : LineLevel) : P (Machine.coldDeadlines l s) := by
  unfold Machine.coldDeadlines
  cases l
  · exact h.setDeadline _ _ _ (h.setDeadline _ _ _ (h.setDeadline _ _ _ (h.setDeadline _ _ _ hs)))
  · exact h.setDeadline _ _ _ (h.setDeadline _ _ _ (h.setDeadline _ _ _ hs))

theorem coldStart (h : Stable P) {s : State} (hs : P s) (c : Cause) (l : LineLevel) (b : Bool) :
    P (Machine.coldStart c l b s) :=
  h.issueFlash (h.coldDeadlines (h.coldBlocks _ _ _ _ (h.cutFlash hs)) _)

theorem parkReturn (h : Stable P) {s : State} (hs : P s) : P (Machine.parkReturn s) :=
  h.coldStart (h.drawn hs) _ _ _

theorem powerRises (h : Stable P) {s : State} (hs : P s) (l : LineLevel) (b : Bool) : P (Machine.powerRises l b s) := by
  unfold Machine.powerRises
  split
  · exact h.stateless _ _ _ _ hs
  · exact h.coldStart hs _ _ _

theorem resetLineFalls (h : Stable P) {s : State} (hs : P s) : P (Machine.resetLineFalls s) := by
  unfold Machine.resetLineFalls
  split
  · exact hs
  · exact h.stateless _ _ _ _ (h.cutFlash hs)

theorem resetLineRises (h : Stable P) {s : State} (hs : P s) (l : LineLevel) (b : Bool) :
    P (Machine.resetLineRises l b s) := by
  unfold Machine.resetLineRises
  split
  · exact hs
  · split
    · exact h.coldStart hs _ _ _
    · exact h.stateless _ _ _ _ hs

theorem supplyLost (h : Stable P) {s : State} (hs : P s) : P (Machine.supplyLost s) :=
  h.stateless _ _ _ _ (h.settleDevice _ (h.cutFlash hs))

theorem freeParkBuffer (h : Stable P) {s : State} (hs : P s) : P (Machine.freeParkBuffer s) := by
  unfold Machine.freeParkBuffer
  split
  · exact hs
  · exact h.freeBuffer hs _

theorem endPark (h : Stable P) {s : State} (hs : P s) : P (Machine.endPark s) := by
  unfold Machine.endPark
  have h1 := h.freeParkBuffer (h.park s { s.park with phase := .ended } hs)
  revert h1
  generalize Machine.freeParkBuffer _ = s1
  intro h1
  dsimp only
  split
  · exact h1
  · rename_i hp
    split
    · exact h.parkReturn h1
    · refine h.removeDeadline (h.supply s1 { s1.supply with state := .parked } (.inr (.inr (.inl ?_))) h1) _
      intro hl
      exact hp (by rw [hl]; decide)

theorem takeParkImage (h : Stable P) {s : State} (hs : P s) : P (Machine.takeParkImage s) :=
  h.drawn (h.park s _ hs)

theorem beginPark (h : Stable P) {s : State} (hs : P s) (hl : s.supply.state ≠ .line) : P (Machine.beginPark s) := by
  unfold Machine.beginPark
  have h0 : P (Machine.enterParking s) :=
    h.removeDeadline (h.supply s { s.supply with state := .parking } (.inr (.inr (.inl hl))) hs) _
  have h1 := h.abandonWrite (h.takeParkImage h0)
  have h2 : P (Machine.abandonSave (Machine.abandonWrite (Machine.takeParkImage (Machine.enterParking s)))) := by
    unfold Machine.abandonSave
    exact h.store (Machine.withdrawOps .configSave _) _ (by exact Store.within_of rfl rfl) (h.withdrawOps h1 _)
  have h3 := h.withdrawOps (h.store _ { (Machine.abandonSave (Machine.abandonWrite (Machine.takeParkImage
      (Machine.enterParking s)))).store with
    markList := []
    queue := (Machine.abandonSave (Machine.abandonWrite (Machine.takeParkImage
      (Machine.enterParking s)))).store.queue.filter fun op => !op.who.isMarkWriter } (by exact Store.within_of rfl rfl) h2) .loader
  have h4 : P (Machine.discardHeld (Machine.withdrawOps .loader (Machine.abandonMarks (Machine.abandonSave
      (Machine.abandonWrite (Machine.takeParkImage (Machine.enterParking s))))))) :=
    h.link (Machine.withdrawOps .loader (Machine.abandonMarks _)) _ rfl (List.nil_sublist _) h3
  revert h4
  generalize Machine.discardHeld _ = s1
  intro h4
  dsimp only
  split
  · exact h.issueFlash (h.grantBuffers (h.requestBuffers (h.postNotice _ _ h4) _ _))
  · exact h.endPark (h.postNotice _ _ h4)

theorem parkProgrammed (h : Stable P) {s : State} (hs : P s) : P (Machine.parkProgrammed s) := by
  unfold Machine.parkProgrammed
  split
  · unfold Machine.programPage2
    have h1 := h.park s { s.park with phase := .page2 } hs
    refine h.queueOpFirst ?_ _
    dsimp only
    split
    · exact h1
    · exact h.keepBuffer h1 _ _ rfl
  · exact h.endPark hs
  · exact hs

/-! ### Supply Watch -/

theorem updSupply (h : Stable P) {s : State} (hs : P s) (f : SupplyWatch → SupplyWatch)
    (hf : SupplyMayBecome s (f s.supply)) : P (s.updSupply f) := h.supply s _ hf hs

theorem rawChange (h : Stable P) {s : State} (hs : P s) (l : LineLevel) : P (Machine.rawChange l s) := by
  unfold Machine.rawChange
  split
  · exact hs
  · split
    · exact h.removeDeadline (h.updSupply hs _ (.inl rfl)) _
    · exact h.setDeadlineIn (h.updSupply hs _ (.inl rfl)) _ _

theorem rearmHorizon (h : Stable P) {s : State} (hs : P s) (r : Time) : P (Machine.rearmHorizon r s) :=
  h.setDeadline _ _ _ (h.updSupply hs _ (.inl rfl))

/-- The lanes have no transaction once they have abandoned their work. -/
theorem abandonLanes_txn (s : State) :
    (Machine.abandonLanes s).laneA.txn = none ∧ (Machine.abandonLanes s).laneB.txn = none := by
  have h : StoreStable fun s => s.laneA.txn = none ∧ s.laneB.txn = none :=
    { storeWork := fun _ _ _ h => h, park := fun _ _ h => h }
  have key : ∀ x : State, x.laneA.txn = none ∧ x.laneB.txn = none →
      (planBuffers .b (planBuffers .a (withdrawRequest (.lane .b) (withdrawRequest (.lane .a) x)))).laneA.txn = none ∧
      (planBuffers .b (planBuffers .a (withdrawRequest (.lane .b) (withdrawRequest (.lane .a) x)))).laneB.txn = none := by
    intro x hx
    have h1 := h.withdrawRequest (s := x) hx (.lane .a)
    have h2 := h.withdrawRequest h1 (.lane .b)
    have h3 := h.planBuffers h2 .a
    exact h.planBuffers h3 .b
  have e : Machine.abandonLanes s = planBuffers .b (planBuffers .a (withdrawRequest (.lane .b) (withdrawRequest (.lane .a)
      ((Machine.removeDeadline (.responseWindow .b) (Machine.removeDeadline (.responseWindow .a) s)).bothLanes
        LaneState.abandonWork)))) := by
    unfold Machine.abandonLanes
    rfl
  have hx : ∀ x : State, (x.bothLanes LaneState.abandonWork).laneA.txn = none ∧
      (x.bothLanes LaneState.abandonWork).laneB.txn = none := fun _ => ⟨rfl, rfl⟩
  rw [e]
  exact key _ (hx _)

theorem lanesGapBegin_txn (s : State) :
    (Machine.lanesGapBegin s).laneA.txn = none ∧ (Machine.lanesGapBegin s).laneB.txn = none := by
  have h := abandonLanes_txn s
  unfold Machine.lanesGapBegin
  revert h
  generalize Machine.abandonLanes s = s1
  intro h
  dsimp only
  split
  · exact h
  · unfold Machine.postNotice
    split <;> exact h

theorem openGapAt (h : Stable P) {s : State} (hs : P s) (r : Time) : P (Machine.openGapAt r s) :=
  h.rearmHorizon (h.postNotice _ _ (h.updSupply
    (h.lanesGapBegin (h.engineGapBegin (h.estimatorFall hs r true s.supply.horizonMark))) _
    (.inr (.inr (.inr (lanesGapBegin_txn _)))))) _

theorem confirmedFall (h : Stable P) {s : State} (hs : P s) (r : Time) : P (Machine.confirmedFall r s) := by
  unfold Machine.confirmedFall
  split
  · exact h.setDeadlineIn (h.openGapAt hs r) _ _
  · rename_i hst
    split
    · exact h.openGapAt (h.removeDeadline hs _) r
    · refine h.rearmHorizon (h.estimatorFall (h.removeDeadline (h.updSupply hs _ (.inr (.inr (.inl ?_)))) _) _ _ _) _
      rw [hst]
      decide
  · exact hs
  · exact h.updSupply hs _ (.inl rfl)
  · exact hs

theorem confirmedRise (h : Stable P) {s : State} (hs : P s) (r : Time) : P (Machine.confirmedRise r s) := by
  unfold Machine.confirmedRise
  split
  · exact hs
  · exact hs
  · rename_i hst
    refine h.rearmHorizon (h.setDeadline _ _ _ (h.estimatorRise (h.updSupply hs _ (.inr (.inr (.inl ?_)))) _ _)) _
    rw [hst]
    decide
  · exact h.updSupply hs _ (.inl rfl)
  · exact h.parkReturn hs

theorem confirmFilter (h : Stable P) {s : State} (hs : P s) : P (Machine.confirmFilter s) := by
  unfold Machine.confirmFilter
  split
  · exact hs
  · rename_i c _
    have h1 := h.updSupply hs (fun w => { w with confirmed := c.level, candidate := none }) (.inl rfl)
    dsimp only
    split
    · exact h.confirmedFall h1 _
    · exact h.confirmedRise h1 _

theorem closeGap (h : Stable P) {s : State} (hs : P s) : P (Machine.closeGap s) := by
  unfold Machine.closeGap
  have h1 := h.updSupply hs (fun w => { w with state := .line, openGap := none, lastGap := w.openGap.or w.lastGap })
    (.inr (.inl rfl))
  dsimp only
  split
  · exact h1
  · exact h.postNotice _ _ h1

theorem settleExpired (h : Stable P) {s : State} (hs : P s) : P (Machine.settleExpired s) := by
  unfold Machine.settleExpired
  split
  · refine h.lanesAct (h.setDeadlineIn ?_ _ _)
    unfold Machine.engineSettled
    split
    · rename_i hl
      exact h.afterEvents (h.closeGap hs) (.inl hl) fun _ hQ hq => hQ.buildPass hq
    · exact h.setPhase (h.closeGap hs) _
  · exact hs

theorem rescheduleSample (h : Stable P) {s : State} (hs : P s) (d : Time) : P (Machine.rescheduleSample d s) := by
  unfold Machine.rescheduleSample
  split
  · exact hs
  · exact h.setDeadline _ _ _ hs

theorem holdupSampled (h : Stable P) {s : State} (hs : P s) (mv : Nat) (d : Time) :
    P (Machine.holdupSampled mv d s) := by
  unfold Machine.holdupSampled
  have h1 : P (takeSample (holdupLevel mv) s) := h.updSupply hs _ (.inl rfl)
  dsimp only
  split
  · rename_i hd
    have hl : (takeSample (holdupLevel mv) s).supply.state ≠ .line := by
      simp only [parkDecided, Bool.and_eq_true, decide_eq_true_eq] at hd
      intro hl
      have h2 : s.supply.state = .line := hl
      rw [hd.1] at h2
      cases h2
    split
    · exact h.rescheduleSample (h.beginPark h1 hl) _
    · exact h.beginPark h1 hl
  · split
    · exact hs
    · exact h.rescheduleSample h1 _

/-! ### Flash events -/

theorem laneReadDone (h : Stable P) {s : State} (hs : P s) (l : Lane) (i : Nat) (d : List Byte) :
    P (Machine.laneReadDone l i d s) := by
  unfold Machine.laneReadDone
  dsimp only
  split
  · exact h.planBuffers (h.freeBuffer hs _) _
  · exact h.keepBuffer hs _ _ rfl

theorem setWrite (h : Stable P) {s : State} (hs : P s) (w : ImageWrite) : P (Machine.setWrite w s) := h.store s _ (by exact Store.within_of rfl rfl) hs

theorem setSave (h : Stable P) {s : State} (hs : P s) (c : ConfigSave) : P (Machine.setSave c s) := h.store s _ (by exact Store.within_of rfl rfl) hs

theorem updWriteBuffer (h : Stable P) {s : State} (hs : P s) (f : Buffer → Buffer)
    (hf : ∀ b, (f b).owner = b.owner)
    (he : ∀ b, (f b).state = .free → b.state = .free := by exact fun _ he => by cases he) :
    P (Machine.updWriteBuffer f s) := by
  unfold Machine.updWriteBuffer
  split
  · exact hs
  · exact h.keepBuffer hs _ _ (hf _) (he _)

theorem queueReadback (h : Stable P) {s : State} (hs : P s) (w : ImageWrite) (i : Nat) :
    P (Machine.queueReadback w i s) :=
  h.queueOp (h.updWriteBuffer (h.setWrite hs _) _ (by exact fun _ => rfl)) _

theorem imageWriteDone (h : Stable P) {s : State} (hs : P s) (d : List Byte) : P (Machine.imageWriteDone d s) := by
  unfold Machine.imageWriteDone
  split
  · exact h.freeReleasedWriteBuffer hs
  · rename_i w _
    split
    · unfold Machine.sectorErased
      dsimp only
      split
      · exact h.queueOp (h.setWrite hs _) _
      · exact h.setWrite hs _
    · exact h.updWriteBuffer hs _ fun _ => rfl
    · unfold Machine.blockReadBack
      have h1 := h.updWriteBuffer (h.setWrite hs { w with crcSoFar := crc32Feed w.crcSoFar d })
        (fun b => { b with state := .full, data := d, crc := crc16 d }) fun _ => rfl
      dsimp only
      split
      · exact h.queueReadback h1 _ _
      · unfold Machine.readbackDone
        split
        · exact h.queueOp (h.setWrite h1 _) _
        · exact h.postNotice _ _ (h.endWrite (h.setSlot h1 _ _) _)
    · exact h.postNotice _ _ (h.endWrite (h.setSlot hs _ _) _)

theorem endSave (h : Stable P) {s : State} (hs : P s) (o : StoreOutcome) : P (Machine.endSave o s) :=
  h.postNotice _ _ (h.store s _ (by exact Store.within_of rfl rfl) hs)

theorem configSaveDone (h : Stable P) {s : State} (hs : P s) (d : List Byte) : P (Machine.configSaveDone d s) := by
  unfold Machine.configSaveDone
  split
  · exact hs
  · split
    · exact h.queueOp (h.setSave hs _) _
    · split
      · exact h.queueOp (h.setSave hs _) _
      · exact h.queueOp (h.setSave hs _) _
    · split
      · exact h.endSave hs _
      · split
        · exact h.queueOp (h.setSave hs _) _
        · exact h.endSave hs _

theorem markDone (h : Stable P) {s : State} (hs : P s) (n : Nat) : P (Machine.markDone n s) :=
  h.kickMarkWriter (h.store s _ (by exact Store.within_of rfl rfl) hs)

theorem updLoader (h : Stable P) {s : State} (hs : P s) (f : Loader → Loader)
    (hf : s.loader.step = .ended → (f s.loader).step = .ended) : P (s.updLoader f) := h.loader s _ hf hs

theorem loaderRead (h : Stable P) {s : State} (hs : P s) (r b : Nat) : P (Machine.loaderRead r b s) := h.queueOp hs _

theorem beginHeaders (h : Stable P) {s : State} (hs : P s) (hn : s.loader.step ≠ .ended) :
    P (Machine.beginHeaders s) :=
  h.loaderRead (h.updLoader hs _ fun he => absurd he hn) _ _

theorem insertAll (h : Stable P) (es : List Entry) {s : State} (sts : List Station) (he : ∀ e ∈ es, e.wellMade)
    (hf : entriesAgree (sts.map (·.entry) ++ es) = true) (hl : s.loadingEnded = false)
    (hs : P { s with stations := sts }) :
    P { s with stations := es.foldl (fun sts e => Machine.insertStation (Station.defined e) sts) sts } := by
  induction es generalizing sts with
  | nil => exact hs
  | cons e es ih =>
    refine ih _ (fun x hx => he x (List.mem_cons_of_mem _ hx)) (entriesAgree_insert hf)
      (h.insertStation { s with stations := sts } e (he e (List.mem_cons_self ..)) (fits_of_entriesAgree hf)
        (fun he => absurd (hl.symm.trans he) Bool.false_ne_true) hs)

theorem takeConfig (h : Stable P) {s : State} (hs : P s) (x : Settings) (es : List Entry)
    (hx : x.inRange) (he : ∀ e ∈ es, e.wellMade) (ha : entriesAgree es = true)
    (hl : s.loadingEnded = false) : P (Machine.takeConfig x es s) := by
  have h1 : P { s with stations := [] } := h.stations s [] (List.nil_sublist _) (fun _ _ hx => by cases hx)
    (fun _ _ hx => by cases hx) (fun he => by rw [hl] at he; cases he) hs
  exact h.settings { s with stations := _ } x (fun _ => hx) (h.insertAll es [] he ha hl h1)

theorem configRead (h : Stable P) {s : State} (hs : P s) (r : Option (Settings × List Entry))
    (hn : s.loader.step ≠ .ended)
    (hr : ∀ x es, r = some (x, es) → x.inRange ∧ (∀ e ∈ es, e.wellMade) ∧ entriesAgree es = true) :
    P (Machine.configRead r s) := by
  unfold Machine.configRead
  split
  · exact h.beginHeaders hs hn
  · obtain ⟨hx, he, ha⟩ := hr _ _ rfl
    exact h.beginHeaders (h.updLoader (h.takeConfig hs _ _ hx he ha (by simpa [State.loadingEnded] using hn)) _ fun he => absurd he hn) hn

theorem loadConfig (h : Stable P) {s : State} (hs : P s) (d : List Byte) (hn : s.loader.step ≠ .ended) :
    P (Machine.loadConfig d s) := by
  unfold Machine.loadConfig
  split
  · split
    · exact h.configRead hs _ hn fun _ _ hx => by cases hx
    · split
      · exact h.configRead hs _ hn fun _ _ hx => by cases hx
      · split
        · exact h.configRead hs _ hn fun _ _ hx => readConfig_sound hx
        · exact h.loaderRead (h.updLoader hs _ fun he => absurd he hn) _ _
  · refine h.configRead hs _ hn fun _ _ hx => ?_
    split at hx
    · cases hx
    · exact readConfig_sound hx

theorem loadHeader (h : Stable P) {s : State} (hs : P s) (d : List Byte) (hn : s.loader.step ≠ .ended) :
    P (Machine.loadHeader d s) := by
  unfold Machine.loadHeader
  have h1 := h.setSlot hs s.loader.nextSlot
    (if s.torn s.loader.nextSlot 0 then .empty else slotOfHeader d)
  have hn1 : (s.setSlot s.loader.nextSlot
      (if s.torn s.loader.nextSlot 0 then .empty else slotOfHeader d)).loader.step ≠ .ended := by
    unfold State.setSlot
    split <;> exact hn
  dsimp only
  split
  · exact h.loaderRead (h.updLoader h1 _ fun he => absurd he hn1) _ _
  · exact h.loaderRead (h.updLoader h1 _ fun he => absurd he hn1) _ _

theorem takePlace_loader (b : List Byte) (s : State) : (Machine.takePlace b s).loader = s.loader := by
  unfold Machine.takePlace
  dsimp only
  repeat' split
  all_goals rfl

theorem takePlaces_loader (n : Nat) (b : List Byte) (s : State) : (Machine.takePlaces n b s).loader = s.loader := by
  induction n generalizing b s with
  | zero => rfl
  | succ n ih => exact (ih _ _).trans (takePlace_loader _ _)

theorem takePlaces (h : Stable P) (n : Nat) (b : List Byte) {s : State} (hs : P s) : P (Machine.takePlaces n b s) := by
  induction n generalizing b s with
  | zero => exact hs
  | succ n ih =>
    refine ih _ ?_
    unfold Machine.takePlace
    dsimp only
    split
    · exact hs
    · split
      · exact hs
      · split
        · exact h.updStation hs _ _ (by intro _; rfl) (fun _ _ _ hr => hr.restored _)
            fun _ _ _ _ hk => hk.restored _ _
        · exact hs

theorem beginErase (h : Stable P) {s : State} (hs : P s) (hn : s.loader.step ≠ .ended) : P (Machine.beginErase s) :=
  h.queueOp (h.updLoader hs _ fun he => absurd he hn) _

theorem loadPark (h : Stable P) {s : State} (hs : P s) (d : List Byte) (hn : s.loader.step ≠ .ended) :
    P (Machine.loadPark d s) := by
  unfold Machine.loadPark
  split
  · exact h.loaderRead (h.updLoader hs _ fun he => absurd he hn) _ _
  · dsimp only
    split
    · have hn1 := hn
      rw [← takePlaces_loader (num16At (s.loader.held ++ d) 10) ((s.loader.held ++ d).drop 12) s] at hn1
      exact h.beginErase (h.updLoader (h.takePlaces _ _ hs) _ fun he => absurd he hn1) hn1
    · exact h.beginErase hs hn

theorem loaderDone (h : Stable P) {s : State} (hs : P s) (d : List Byte) : P (Machine.loaderDone d s) := by
  unfold Machine.loaderDone
  split
  · exact h.store s _ (by exact Store.within_of rfl rfl) hs
  · rename_i hn
    split
    · exact hs
    · split
      · exact h.loaderRead (h.updLoader hs _ fun he => absurd he hn) _ _
      · exact h.loadConfig hs _ hn
      · exact h.loadHeader hs _ hn
      · exact h.loadPark hs _ hn
      · exact hs

theorem endLoading (h : Stable P) {s : State} (hs : P s) : P (Machine.endLoading s) := by
  unfold Machine.endLoading
  have h1 := h.setDeadlineIn (h.setDeadlineIn (h.postNotice _
    (.started s.loader.cause s.loader.configFinding s.loader.parkFinding)
    (h.updLoader hs (fun x => { x with step := .ended }) fun _ => rfl)) (.pollInterval .a) s.settings.pollInterval)
    (.pollInterval .b) s.settings.pollInterval
  dsimp only
  split
  · refine h.afterEvents h1 (.inl ?_) fun _ hQ hq => hQ.buildPass hq
    unfold Machine.postNotice
    split <;> rfl
  · exact h1

theorem issueNext (h : Stable P) {s : State} (hs : P s) : P (Machine.issueNext s) := by
  unfold Machine.issueNext
  have h1 := h.issueFlash hs
  dsimp only
  split
  · exact h.endLoading h1
  · exact h1

theorem clearRunning (h : Stable P) {s : State} (hs : P s) : P (Machine.clearRunning s) :=
  h.removeDeadline (h.store s s.store.idle (by exact Store.within_of rfl rfl fun _ => rfl) hs) _

theorem deviceDone (h : Stable P) {s : State} (hs : P s) (op : FlashOp) : P (Machine.deviceDone op s) := by
  unfold Machine.deviceDone
  split
  · exact h.settleDevice _ hs
  · exact h.complete _ _ hs

theorem requesterDone (h : Stable P) {s : State} (hs : P s) (op : FlashOp) (d : List Byte) :
    P (Machine.requesterDone op d s) := by
  unfold Machine.requesterDone
  split
  · exact h.laneReadDone hs _ _ _
  · exact h.imageWriteDone hs _
  · exact h.configSaveDone hs _
  · exact h.markDone hs _
  · exact h.loaderDone hs _
  · exact h.parkProgrammed hs
  · exact h.freeReleasedWriteBuffer hs

theorem flashCompleted (h : Stable P) {s : State} (hs : P s) (g : Option (List Byte)) :
    P (Machine.flashCompleted g s) := by
  unfold Machine.flashCompleted
  split
  · exact h.settleDevice _ hs
  · exact h.lanesAct (h.issueNext (h.requesterDone (h.deviceDone (h.clearRunning hs) _) _ _))

theorem requesterFailed (h : Stable P) {s : State} (hs : P s) (op : FlashOp) : P (Machine.requesterFailed op s) := by
  unfold Machine.requesterFailed
  split
  · unfold Machine.imageWriteFailed
    split
    · exact h.freeReleasedWriteBuffer hs
    · exact h.postNotice _ _ (h.endWrite (h.setSlot hs _ _) _)
  · split
    · exact h.endSave hs _
    · exact hs
  · exact h.markDone hs _
  · exact h.endPark hs
  · exact hs
  · exact hs
  · exact hs

theorem failRunning (h : Stable P) {s : State} (hs : P s) (op : FlashOp) : P (Machine.failRunning op s) :=
  h.leaveBusy { s with store := s.store.idle } _ _ (h.store s _ (by exact Store.within_of rfl rfl fun _ => rfl) hs)

theorem settleFailure (h : Stable P) {s : State} (hs : P s) (op : FlashOp) : P (Machine.settleFailure op s) := by
  unfold Machine.settleFailure
  split
  · exact h.requesterFailed (h.queueOpFirst hs _) _
  · exact h.queueOpFirst (h.requesterFailed hs _) _

theorem storeTimedOut (h : Stable P) {s : State} (hs : P s) : P (Machine.storeTimedOut s) := by
  unfold Machine.storeTimedOut
  split
  · exact hs
  · exact h.lanesAct (h.issueNext (h.settleFailure (h.failRunning hs _) _))

/-! ### Requests -/

theorem serveNoticeFetch (h : Stable P) {s : State} (hs : P s) (p : List Byte) :
    P (Machine.serveNoticeFetch p s).state := by
  unfold Machine.serveNoticeFetch
  split
  · exact h.takeNotice _ hs
  · exact hs
  · exact hs

/-- A presence set changes no station's entry. -/
theorem setPresence_entries (n : Nat) (p : Presence) (s : State) :
    (Machine.setPresence n p s).stations.map (·.entry) = s.stations.map (·.entry) := by
  have h : ∀ x : State, (Machine.postNotice (.presence n p) x).stations = x.stations := fun x => by
    unfold Machine.postNotice
    split <;> rfl
  unfold Machine.setPresence
  split
  · rfl
  · split
    · rfl
    · dsimp only
      split
      · rw [h, State.updStation_stations, List.map_map]
        exact List.map_congr_left fun st _ => by simp only [Function.comp]; split <;> rfl
      · rw [State.updStation_stations, List.map_map]
        exact List.map_congr_left fun st _ => by simp only [Function.comp]; split <;> rfl

/-- A presence set concerns no job. -/
theorem setPresence_hasJob (n : Nat) (p : Presence) (s : State) (m : Nat) :
    (Machine.setPresence n p s).hasJob m = s.hasJob m := by
  unfold Machine.setPresence
  split
  · rfl
  · split
    · rfl
    · dsimp only
      split
      · unfold Machine.postNotice
        split <;> rfl
      · rfl

theorem defineStation (h : Stable P) {s : State} (hs : P s) (e : Entry) (he : e.wellMade)
    (hf : e.fits (s.stations.map (·.entry))) (hj : s.hasJob e.number = false) : P (Machine.defineStation e s) := by
  refine h.insertStation _ _ he ?_ (fun _ => (setPresence_hasJob _ _ _ _).trans hj) (h.withdrawPoll (h.removePush (h.setPresence hs _ _) _) _)
  show e.fits ((Machine.setPresence e.number .absent s).stations.map (·.entry))
  rwa [setPresence_entries]

theorem removeStation (h : Stable P) {s : State} (hs : P s) (n : Nat) (hj : s.hasJob n = false) :
    P (Machine.removeStation n s) := by
  unfold Machine.removeStation
  exact h.stations (Machine.withdrawPoll n (Machine.removePush n s)) _ (List.filter_sublist.map _)
    (fun ha st hst => ha st (List.mem_of_mem_filter hst))
    (fun ha st hst => ha.2.1 st (List.mem_of_mem_filter hst))
    (fun _ => State.keepsEntries_filter (s := Machine.withdrawPoll n (Machine.removePush n s)) hj) (h.withdrawPoll (h.removePush hs _) _)

theorem setContext (h : Stable P) {s : State} (hs : P s) (st : Station) (f : Fields)
    (hf : s.stationsSound → f.inRange) (hb : s.directorySound → f.belongTo st.entry.kind) (hst : st ∈ s.stations) :
    P (Machine.setContext st f s) := by
  refine h.makePending (h.updStation hs _ _ (by intro _; rfl) (fun ha _ _ hr => hr.withFields (hf ha))
    fun ha x hx hn hk => hk.withFields _ ?_) _ _
  rw [ha.1.sameNumber hx hst hn]
  exact hb ha

theorem setCar (h : Stable P) {s : State} (hs : P s) (c : CarState) : P (Machine.setCar c s) := by
  unfold Machine.setCar
  refine fold (fun s st hs => ?_) _ (h.carStations s c hs)
  exact h.makePending hs _ _

theorem openImage (h : Stable P) {s : State} (hs : P s) (n : Nat) (im : Image) : P (Machine.openImage n im s) :=
  h.issueFlash (h.queueOp (h.grantBuffers (h.requestBuffers (h.setWrite
    (h.slotLeftValid (h.markDone (h.withdrawOps (h.setSlot hs _ _) _) _) _) _) _ _)) _)

theorem serveStatus (h : Stable P) {s : State} (hs : P s) (p : List Byte) :
    P (Machine.serveStatus p s).state := by
  unfold Machine.serveStatus
  split
  · exact hs
  · exact h.link s _ rfl (List.Sublist.refl _) hs

theorem serveSettingsSet (h : Stable P) {s : State} (hs : P s) (p : List Byte) :
    P (Machine.serveSettingsSet p s).state := by
  unfold Machine.serveSettingsSet
  split
  · exact hs
  · dsimp only
    split
    · exact hs
    · rename_i hx
      exact h.settings s _ (fun hr => putSettings_inRange hr hx) hs

theorem serveSettingsRead (_ : Stable P) {s : State} (hs : P s) (p : List Byte) :
    P (Machine.serveSettingsRead p s).state := by
  unfold Machine.serveSettingsRead
  split <;> exact hs

theorem serveConfigSave (h : Stable P) {s : State} (hs : P s) (p : List Byte) :
    P (Machine.serveConfigSave p s).state := by
  unfold Machine.serveConfigSave
  split
  · exact hs
  · split
    · exact hs
    · exact h.issueFlash (h.queueOp (h.setSave hs _) _)

theorem serveNodeDefine (h : Stable P) {s : State} (hs : P s) (p : List Byte) :
    P (Machine.serveNodeDefine p s).state := by
  unfold Machine.serveNodeDefine
  split
  · exact hs
  · rename_i hside
    simp only [Bool.or_eq_true, not_or] at hside
    split
    · exact hs
    · rename_i he
      have hw : Entry.wellMade _ := readEntry_wellMade (by simpa using hside.2) he
      repeat' split
      all_goals first | exact hs | exact h.defineStation hs _ hw (fits_of_checks (by simpa using ‹¬laneFull _ _ = true›)
        (by simpa using ‹¬entryConflicts _ _ = true›)) (by simpa using ‹¬State.hasJob _ _ = true›)

theorem serveNodeRemove (h : Stable P) {s : State} (hs : P s) (p : List Byte) :
    P (Machine.serveNodeRemove p s).state := by
  unfold Machine.serveNodeRemove
  split
  · dsimp only
    repeat' split
    all_goals first | exact hs | exact h.removeStation hs _ (by simpa using ‹¬State.hasJob _ _ = true›)
  · exact hs

theorem serveNodeRead (_ : Stable P) {s : State} (hs : P s) (p : List Byte) :
    P (Machine.serveNodeRead p s).state := by
  unfold Machine.serveNodeRead
  repeat' split
  all_goals exact hs

theorem serveNodeQuery (h : Stable P) {s : State} (hs : P s) (p : List Byte) :
    P (Machine.serveNodeQuery p s).state := by
  unfold Machine.serveNodeQuery
  split
  · split
    · exact hs
    · split
      · exact hs
      · split
        · exact hs
        · exact h.lanesAct (h.query s _ hs)
  · exact hs

theorem serveContextSet (h : Stable P) {s : State} (hs : P s) (p : List Byte) :
    P (Machine.serveContextSet p s).state := by
  unfold Machine.serveContextSet
  split
  · exact hs
  · split
    · exact hs
    · rename_i st hst
      dsimp only
      split
      · exact hs
      · rename_i hb
        split
        · exact hs
        · rename_i f hf
          have hm := List.mem_of_find?_eq_some hst
          exact h.lanesAct (h.drawn (h.setContext hs _ _ (fun ha => putPairs_inRange (ha st hm).2.2.2.2.1 hf)
            (fun ha => putPairs_belongTo (ha.2.1 st hm).2.1 (by simpa using hb) hf) hm))

theorem serveContextRead (_ : Stable P) {s : State} (hs : P s) (p : List Byte) :
    P (Machine.serveContextRead p s).state := by
  unfold Machine.serveContextRead
  repeat' split
  all_goals exact hs

theorem serveCarStateSet (h : Stable P) {s : State} (hs : P s) (p : List Byte) :
    P (Machine.serveCarStateSet p s).state := by
  unfold Machine.serveCarStateSet
  split
  · split
    · exact h.lanesAct (h.setCar hs _)
    · exact hs
  · exact hs

theorem serveRestoreNow (h : Stable P) {s : State} (hs : P s) (hl : s.loadingEnded = true) (p : List Byte) :
    P (Machine.serveRestoreNow p s).state := by
  unfold Machine.serveRestoreNow
  split
  · exact hs
  · split
    · exact hs
    · refine h.afterEvents (f := fun s =>
        Machine.lanesAct ((restoreOrder _ s).foldl (fun x n => Machine.createJob n .host x) s)) hs (.inl hl)
        fun _ hQ hq => hQ.lanesAct (fold (fun s n hs => ?_) _ hq)
      exact hQ.createJob hs _ _

@[simp] theorem taken_state (p : List Byte) (s : State) : (taken p s).state = s := rfl

theorem restartEngine (h : Stable P) {s : State} (hs : P s) : P (Machine.restartEngine s) := by
  unfold Machine.restartEngine
  have h1 := h.lanesRestart (h.engineRestart hs)
  revert h1
  generalize Machine.lanesRestart (Machine.engineRestart s) = s1
  intro h1
  exact h.postNotice s1 _ h1

theorem serveEngineRestart (h : Stable P) {s : State} (hs : P s) (p : List Byte) :
    P (Machine.serveEngineRestart p s).state := by
  unfold Machine.serveEngineRestart
  split
  · exact hs
  · rw [taken_state]
    exact h.lanesAct (h.restartEngine hs)

theorem serveGapRead (_ : Stable P) {s : State} (hs : P s) (p : List Byte) :
    P (Machine.serveGapRead p s).state := by
  unfold Machine.serveGapRead
  split <;> exact hs

theorem serveImageOpen (h : Stable P) {s : State} (hs : P s) (p : List Byte) :
    P (Machine.serveImageOpen p s).state := by
  unfold Machine.serveImageOpen
  split
  · exact hs
  · split
    · exact hs
    · repeat' split
      all_goals first | exact hs | exact h.openImage hs _ _

theorem serveImageBlock (h : Stable P) {s : State} (hs : P s) (p : List Byte) :
    P (Machine.serveImageBlock p s).state := by
  unfold Machine.serveImageBlock
  split
  · exact hs
  · split
    · exact hs
    · split
      · exact hs
      · split
        · exact hs
        · split
          · exact hs
          · split
            · exact hs
            · split
              · exact hs
              · exact h.issueFlash (h.queueOp (h.keepBuffer (h.setWrite hs _) _ _ (by rfl)) _)

theorem serveImageClose (h : Stable P) {s : State} (hs : P s) (p : List Byte) :
    P (Machine.serveImageClose p s).state := by
  unfold Machine.serveImageClose
  split
  · split
    · exact hs
    · split
      · exact hs
      · split
        · exact hs
        · split
          · exact hs
          · exact h.issueFlash (h.queueReadback hs _ _)
  · exact hs

theorem serveImageAbort (h : Stable P) {s : State} (hs : P s) (p : List Byte) :
    P (Machine.serveImageAbort p s).state := by
  unfold Machine.serveImageAbort
  split
  · split
    · exact hs
    · split
      · exact hs
      · exact h.issueFlash (h.abandonWrite hs)
  · exact hs

theorem serveImageList (_ : Stable P) {s : State} (hs : P s) (p : List Byte) :
    P (Machine.serveImageList p s).state := by
  unfold Machine.serveImageList
  split <;> exact hs

theorem serveLaneInject (h : Stable P) {s : State} (hs : P s) (p : List Byte) :
    P (Machine.serveLaneInject p s).state := by
  unfold Machine.serveLaneInject
  split
  · split
    · split
      · dsimp only [taken]
        exact h.updLane hs _ _ (by exact fun _ hx => hx)
      · exact hs
    · exact hs
  · exact hs

theorem serveKind (h : Stable P) {s : State} (hs : P s) (r : Request)
    (hl : (s.loadingEnded || servedInLoading r.kind) = true) : P (Machine.serveKind r s).state := by
  unfold Machine.serveKind
  split
  · exact h.serveStatus hs _
  · exact h.serveNoticeFetch hs _
  · exact h.serveSettingsSet hs _
  · exact h.serveSettingsRead hs _
  · exact h.serveConfigSave hs _
  · exact h.serveNodeDefine hs _
  · exact h.serveNodeRemove hs _
  · exact h.serveNodeRead hs _
  · exact h.serveNodeQuery hs _
  · exact h.serveContextSet hs _
  · exact h.serveContextRead hs _
  · exact h.serveCarStateSet hs _
  · rename_i hk
    refine h.serveRestoreNow hs ?_ _
    have hn : servedInLoading r.kind = false := by
      simp only [servedInLoading, Bool.or_eq_false_iff, decide_eq_false_iff_not]
      constructor <;> intro he <;> rw [he] at hk <;> cases hk
    simpa [hn] using hl
  · exact h.serveEngineRestart hs _
  · exact h.serveGapRead hs _
  · exact h.serveImageOpen hs _
  · exact h.serveImageBlock hs _
  · exact h.serveImageClose hs _
  · exact h.serveImageAbort hs _
  · exact h.serveImageList hs _
  · exact h.serveLaneInject hs _
  · exact hs

theorem serveOldest (h : Stable P) {s : State} (hs : P s) : P (Machine.serveOldest s) := by
  unfold Machine.serveOldest
  split
  · exact hs
  · split
    · exact hs
    · rename_i r rest hr
      have h0 := h.link s { s.link with held := rest } rfl (by rw [hr]; exact List.sublist_cons_self _ _) hs
      have h1 : P (answerRequest r { s with link := { s.link with held := rest } }).state := by
        unfold answerRequest
        split
        · exact h.serveKind h0 _ ‹_›
        · exact h0
      unfold beginReply
      revert h1
      generalize (answerRequest r { s with link := { s.link with held := rest } }) = x
      intro h1
      exact h.link x.state _ rfl (List.Sublist.refl _) h1

theorem arrive (h : Stable P) {s : State} (hs : P s) (r : Request) : P (Machine.arrive r s) := by
  unfold Machine.arrive
  split
  · exact hs
  · split
    · exact h.link s _ rfl (List.Sublist.refl _) hs
    · rename_i hl
      exact h.serveOldest (h.hold s r (by omega) hs)

theorem replyDone (h : Stable P) {s : State} (hs : P s) : P (Machine.replyDone s) := by
  unfold Machine.replyDone
  split
  · exact hs
  · exact h.serveOldest (h.link s { s.link with reply := none } rfl (List.Sublist.refl _) hs)

theorem setReceiver (h : Stable P) {s : State} (hs : P s) (r : Receiver) : P (Machine.setReceiver r s) :=
  h.link s _ rfl (List.Sublist.refl _) hs

theorem setLinkFault (h : Stable P) {s : State} (hs : P s) : P (Machine.setLinkFault s) :=
  h.link s _ rfl (List.Sublist.refl _) hs

theorem extendFrame (h : Stable P) {s : State} (hs : P s) (f : List Byte) : P (Machine.extendFrame f s) := by
  unfold Machine.extendFrame
  dsimp only
  split
  · exact h.setDeadlineIn (h.setReceiver hs _) _ _
  · split
    · exact h.setDeadlineIn (h.setReceiver (h.setLinkFault hs) _) _ _
    · split
      · exact h.setDeadlineIn (h.setReceiver hs _) _ _
      · unfold checkFrame
        have h1 := h.setReceiver (h.removeDeadline hs .interByte) .idle
        split
        · exact h.arrive h1 _
        · exact h.setLinkFault h1

theorem receiveByte (h : Stable P) {s : State} (hs : P s) (b : Byte) : P (Machine.receiveByte b s) := by
  unfold Machine.receiveByte
  split
  · exact h.extendFrame hs _
  · exact h.extendFrame hs _
  · exact h.setDeadlineIn hs _ _

theorem lineQuiet (h : Stable P) {s : State} (hs : P s) : P (Machine.lineQuiet s) := by
  unfold Machine.lineQuiet
  split
  · exact hs
  · exact h.setReceiver (h.setLinkFault hs) _
  · exact h.setReceiver hs _

theorem pollExpired (h : Stable P) {s : State} (hs : P s) (l : Lane) (d : Time) : P (Machine.pollExpired l d s) := by
  unfold Machine.pollExpired
  refine h.lanesAct ?_
  have h1 := h.setDeadline s (.pollInterval l) (d + ms s.settings.pollInterval) hs
  unfold makePollPending
  split
  · exact h1
  · split
    · exact h1
    · exact h.updLane h1 _ _ (by exact fun _ hx => hx)

theorem limitExpired (h : Stable P) {s : State} (hs : P s) (n : Nat) : P (Machine.limitExpired n s) :=
  h.lanesAct (h.failJob hs _ _)

/-! ### The lanes -/

theorem laneReply (h : Stable P) {s : State} (hs : P s) (l : Lane) (f : List Byte) : P (Machine.laneReply l f s) := by
  cases ht : (s.lane l).txn with
  | none =>
    unfold Machine.laneReply
    rw [ht]
    exact hs
  | some t => exact h.afterEvents hs (.inr ⟨l, by rw [ht]; rfl⟩) fun _ hQ hq => hQ.laneReply hq l f

theorem windowExpired (h : Stable P) {s : State} (hs : P s) (l : Lane) : P (Machine.windowExpired l s) := by
  cases ht : (s.lane l).txn with
  | none =>
    unfold Machine.windowExpired
    rw [ht]
    exact hs
  | some t => exact h.afterEvents hs (.inr ⟨l, by rw [ht]; rfl⟩) fun _ hQ hq => hQ.windowExpired hq l

theorem groupFrameEnded (h : Stable P) {s : State} (hs : P s) (l : Lane) : P (Machine.groupFrameEnded l s) := by
  cases ht : (s.lane l).txn with
  | none =>
    unfold Machine.groupFrameEnded
    rw [ht]
    exact hs
  | some t => exact h.afterEvents hs (.inr ⟨l, by rw [ht]; rfl⟩) fun _ hQ hq => hQ.groupFrameEnded hq l

/-! ### Commands and steps -/

theorem whileRunning {f : State → State} {s t : State} (hf : P s → P (f s)) (hs : P s)
    (ht : Machine.whileRunning f s = .next t) : P t := by
  unfold Machine.whileRunning at ht
  cases ht
  split
  · exact hf hs
  · exact hs

/-- What a stable property says of one command: if it holds before, it holds in the next state. -/
theorem exec (h : Stable P) (i : Instr) {s t : State} (hs : P s) (ht : Machine.exec i s = .next t) : P t := by
  cases i with
  | powerOn l b => cases ht; exact h.powerRises hs _ _
  | resetLineAssert => cases ht; exact h.resetLineFalls hs
  | resetLineRelease l b => cases ht; exact h.resetLineRises hs _ _
  | supplyLoss => cases ht; exact h.supplyLost hs
  | millisecondTick => exact whileRunning (f := fun s => { s with timebase := s.timebase.tick }) (h.tick s) hs ht
  | rawLineChange l => exact whileRunning (fun hs => h.rawChange hs l) hs ht
  | filterConfirmExpiry => exact whileRunning (fun hs => h.onExpiry hs _ fun _ _ hs => h.confirmFilter hs) hs ht
  | settleExpiry => exact whileRunning (fun hs => h.onExpiry hs _ fun _ _ hs => h.settleExpired hs) hs ht
  | spanHorizonExpiry => exact whileRunning (fun hs => h.onExpiry hs _ fun _ _ hs => h.updSupply hs _ (.inl rfl)) hs ht
  | holdupSampleExpiry mv => exact whileRunning (fun hs => h.onExpiry hs _ fun d _ hs => h.holdupSampled hs mv d) hs ht
  | responseWindowExpiry l => exact whileRunning (fun hs => h.onExpiry hs _ fun _ _ hs => h.windowExpired hs l) hs ht
  | pollIntervalExpiry l => exact whileRunning (fun hs => h.onExpiry hs _ fun d _ hs => h.pollExpired hs l d) hs ht
  | restoreLimitExpiry n => exact whileRunning (fun hs => h.onExpiry hs _ fun _ _ hs => h.limitExpired hs n) hs ht
  | interByteTimeoutExpiry => exact whileRunning (fun hs => h.onExpiry hs _ fun _ _ hs => h.lineQuiet hs) hs ht
  | storeOperationTimeoutExpiry =>
    exact whileRunning (fun hs => h.onExpiry hs _ fun _ _ hs => h.storeTimedOut hs) hs ht
  | laneReplyReceived l f => exact whileRunning (fun hs => h.laneReply hs l f) hs ht
  | groupFrameEnd l => exact whileRunning (fun hs => h.groupFrameEnded hs l) hs ht
  | flashOpComplete g => exact whileRunning (fun hs => h.flashCompleted hs g) hs ht
  | controlByteReceived b => exact whileRunning (fun hs => h.receiveByte hs b) hs ht
  | replySent => exact whileRunning (fun hs => h.replyDone hs) hs ht
  | _ => exact whileRunning (fun hs => h.arrive hs _) hs ht

end Sys2Proof.Machine.Stable
end

