-- ==== Sys2Proof/Tests/Slice0.lean ====
section
/-! SUPPORT. The model's own tests: the checks of well-formed commands, the manual's worked values, single steps,
and for each statement with hypotheses a state and operands that meet them all. -/

open Sys2Proof Sys2Proof.Machine

namespace Sys2Proof.Tests

/-! ### Well-formed commands: each check refuses an ill-formed one -/

theorem test_payload_limit :
    WellFormed (.status 0 (List.replicate 259 0)) = true ∧ WellFormed (.status 0 (List.replicate 260 0)) = false := by
  decide +kernel

theorem test_reply_bounds :
    WellFormed (.laneReplyReceived .a (List.replicate 7 0)) = true ∧
      WellFormed (.laneReplyReceived .a (List.replicate 6 0)) = false := by decide

theorem test_transfer_length :
    WellFormed (.flashOpComplete none) = true ∧ WellFormed (.flashOpComplete (some [0])) = false := by decide

theorem test_unknown_kind_bounds :
    WellFormed (.unknownRequestKind 0 1 []) = true ∧ WellFormed (.unknownRequestKind 0x16 1 []) = true ∧
      WellFormed (.unknownRequestKind 0x15 1 []) = false ∧ WellFormed (.unknownRequestKind 0x01 1 []) = false := by
  decide

theorem test_voltage_bound :
    WellFormed (.holdupSampleExpiry 65535) = true ∧ WellFormed (.holdupSampleExpiry 65536) = false := by decide

theorem test_station_bounds :
    WellFormed (.restoreLimitExpiry 24) = true ∧ WellFormed (.restoreLimitExpiry 0) = false ∧
      WellFormed (.restoreLimitExpiry 25) = false := by decide

/-- The opcode table gives no row any bits. -/
theorem test_no_word_decodes : decodeTableWord 0 0 = none ∧ decodeTableWord 32 0x15 = none := by decide

/-! ### The manual's worked values -/

/-- The nine ASCII bytes of spec/11, 11.2. -/
def nineDigits : List Byte := [0x31, 0x32, 0x33, 0x34, 0x35, 0x36, 0x37, 0x38, 0x39]

theorem test_crc16_check_value : crc16 nineDigits = 0x29B1#16 := by decide

theorem test_crc32_check_value : crc32 nineDigits = 0xCBF43926#32 := by decide

/-- Station 12 of Figure 3-6. -/
def station12 : Estimate := { working := 400, reserve := 400, carry := 0, lost := false, overdraw := 0 }

/-- Station 9 of Figure 3-6. -/
def station9 : Estimate := { working := 20, reserve := 20, carry := 0, lost := false, overdraw := 0 }

/-- Figure 3-7: station 12 after the fall at 10,000, the rise at 10,045, the rebound and the last rise. -/
theorem test_figure_3_7_station_12 :
    ((((station12.refill 8 8000).drain 45).refill 8 60).drain 35) =
      { working := 400, reserve := 327, carry := 4, lost := false, overdraw := 0 } := by decide

/-- Figure 3-7: station 9, which runs out in both dark intervals. -/
theorem test_figure_3_7_station_9 :
    ((((station9.refill 2 8000).drain 45).refill 2 60).drain 35) =
      { working := 20, reserve := 0, carry := 0, lost := true, overdraw := 40 } := by decide

/-- Spec/05, 5.8: station 7's working capacity rises from 20 to 41 at the PROBE outcome of 21,264. -/
theorem test_adaptation_of_section_5_8 :
    (Estimate.adapt 60 .lost { working := 20, reserve := 0, carry := 0, lost := false, overdraw := 20 }).working =
      41 := by decide

/-- R9: the thresholds at 2.75 V and 6.25 V. -/
theorem test_holdup_thresholds :
    holdupLevel 2749 = 0 ∧ holdupLevel 2750 = 1 ∧ holdupLevel 6249 = 14 ∧ holdupLevel 6250 = 15 ∧
      holdupLevel 65535 = 15 := by decide

/-- R165: a fall filter of 40 is taken as 15, and a restore limit of 200 as 1,000; a lane rate of 1500 is refused. -/
theorem test_settings_clamped :
    ((Settings.default.put 0 40).map (·.fallFilter)) = some 15 ∧
      ((Settings.default.put 11 200).map (·.restoreLimit)) = some 1000 ∧ Settings.default.put 4 1500 = none := by
  decide

/-- R54: after 65535 an epoch becomes 1; R69: so does a pass number. -/
theorem test_epoch_and_pass_wrap : nextEpoch 65535 = 1 ∧ nextEpoch 1 = 2 ∧ nextPass 65535 = 1 ∧ nextPass 0 = 1 := by
  decide

/-- R21: a time behind the count by less than 2^31 is due, across the wrap of the count. -/
theorem test_due_across_the_wrap :
    isDue 1 0xFFFFFFFF = true ∧ isDue 0xFFFFFFFF 1 = false ∧ remaining 0xFFFFFFFF 1 = 2 := by decide

/-! ### Small states -/

/-- A part in LINE whose loading has ended, with nothing under way. -/
def quiet : State :=
  { State.reset with
    supply := { State.reset.supply with state := .line }
    timebase := { count := 0, deadlines := [] }
    engine := { State.reset.engine with phase := .idle, pass := 1 }
    store := { State.reset.store with running := none }
    loader := { State.reset.loader with step := .ended } }

def image2 : Image := { kind := .saloon, tag := 7, generation := 3, length := 2, crc := 5 }

/-- An entrance unit's station, number 1, alias 11. -/
def door : Station :=
  { Station.defined
      { number := 1, aliasNo := 11, lane := .a, address := 1, kind := .entrance, side := some .left, slot := 1
        restoreClass := 0, capacity := 80, ratio := 4 } with
    presence := .ready }

/-- A saloon display's station, number 2, alias 12. -/
def display : Station :=
  { Station.defined
      { number := 2, aliasNo := 12, lane := .a, address := 2, kind := .saloon, side := none, slot := 2
        restoreClass := 2, capacity := 20, ratio := 2 } with
    presence := .ready }

/-- Two stations, with a VALID image for the display. -/
def twoStations : State :=
  { quiet with
    stations := [door, display]
    store := { quiet.store with slots := .empty :: .valid image2 0 :: List.replicate 13 .empty } }

/-- A job of a station in a state. -/
def jobIn (n id : Nat) (state : JobState) : Job := { Job.create n id .gap .kept (some 1) with state := state }

/-- Two jobs in PROBE. -/
def twoJobs : State :=
  { twoStations with
    engine := { twoStations.engine with phase := .active, queue := [jobIn 1 0 .probe, jobIn 2 1 .probe], nextJob := 2 } }

/-- A deadline that is due at the head of a state's list. -/
def dueFirst (p : Purpose) (s : State) : State :=
  { s with timebase := { s.timebase with deadlines := { purpose := p, due := 0, position := 99 } :: s.timebase.deadlines } }

theorem dueFirst_due (p : Purpose) (s : State) (hr : s.runs = true) (hc : isDue s.timebase.count 0 = true) :
    (dueFirst p s).dueNow p s.timebase 0 := by
  refine ⟨hr, ?_⟩
  have h : isDue s.timebase.count 0#32 = true := hc
  simp [dueFirst, Timebase.expire, h]

/-- A state with another supply state, and a candidate for the filter. -/
def withCandidate (state : SupplyState) (level : LineLevel) (s : State) : State :=
  { s with supply := { s.supply with state := state, candidate := some { level := level, rawTime := 0 } } }

def gapRecord : GapRecord :=
  { start := 0, endTime := none, dark := 0, rebounds := 0, holdupAtStart := none, minHoldup := none }

/-- A gap open, in some supply state. -/
def gapOpen (state : SupplyState) (s : State) : State :=
  { s with supply := { s.supply with state := state, openGap := some gapRecord, lastFall := some 0 }
           estimator := { s.estimator with lastFall := some 0 } }

/-- A transaction on lane A. -/
def txnOf (step : StepKind) (owner : Owner) (station : Option Nat) : Txn :=
  { step := step, owner := owner, station := station, address := 2, sequence := 3, rate := .r1000, frame := none
    attempt := 1, endings := [], limit := 3, stale := false, index := 0, buffer := 0 }

def withTxn (t : Txn) (s : State) : State := { s with laneA := { s.laneA with txn := some t } }

theorem quiet_serves : quiet.serves := ⟨by decide, by decide, by decide, rfl, rfl⟩

theorem twoStations_serves : twoStations.serves := ⟨by decide, by decide, by decide, rfl, rfl⟩

theorem twoJobs_serves : twoJobs.serves := ⟨by decide, by decide, by decide, rfl, rfl⟩

/-! ### Single steps -/

/-- The state after a command. -/
def after (i : Instr) (s : State) : State :=
  match exec i s with
  | .next t => t
  | .fault _ => s
  | .refused _ => s

/-- R171, R17: a cold start begins in SETTLE with the settle deadline at 150. -/
theorem test_power_on_settles :
    let t := after (.powerOn .present false) State.reset
    t.supply.state = .settle ∧ t.timebase.dueOf .settle = some 150 := by decide

/-- R20: the count wraps. -/
theorem test_tick_wraps :
    let t := after .millisecondTick { quiet with timebase := { count := 0xFFFFFFFF, deadlines := [] } }
    t.timebase.count = 0 := by decide

/-- R25: with an expiry due, no millisecond passes before it. -/
theorem test_tick_waits_for_a_due_expiry :
    (after .millisecondTick (dueFirst .settle quiet)).timebase.count = 0 := by decide

/-- R157: GAP READ with a payload is answered FORMAT. -/
theorem test_gap_read_refused :
    let t := after (.gapRead 9 [1]) quiet
    t.link.reply = some (replyFrame (requestOf 0x0F 9 []) .format []) := by decide

/-- R114: NODE QUERY of an alias that no station has is answered UNKNOWN. -/
theorem test_query_unknown :
    let t := after (.nodeQuery 9 [99]) twoStations
    t.link.reply = some (replyFrame (requestOf 0x09 9 []) .unknown []) ∧ t.query = none := by decide

/-- R171: while RSTN is low nothing but power and the reset line acts. -/
theorem test_reset_low_holds :
    let t := after .resetLineAssert quiet
    after (.status 1 []) t = t ∧ t.pins.attn = false := by decide

/-! ### Witnesses: states and operands that meet the hypotheses of each statement -/

theorem witness_StepTakesFront : State.reset.pending = [] := rfl

theorem storeBounded_of (s : State)
    (h : s.store.slots.length = 15 ∧ s.store.buffers.length = 4 ∧ (s.ownedBy (.lane .a)).length ≤ 2 ∧
      (s.ownedBy (.lane .b)).length ≤ 2 ∧ ∀ b ∈ s.store.buffers, b.state = .free → b.owner = none) : s.storeBounded :=
  ⟨h.1, h.2.1, fun l => by cases l; exacts [h.2.2.1, h.2.2.2.1], h.2.2.2.2⟩

/-- The outputs follow where they do on each lane and at the store. -/
theorem outputsFollow_of (s : State) (h : s.laneA.driver = (if (s.laneA.txn.bind (·.frame)).isSome then .inUse else .released) ∧
      s.laneB.driver = (if (s.laneB.txn.bind (·.frame)).isSome then .inUse else .released) ∧
      s.store.chipSelect = if s.store.running.isSome then .inUse else .released) : s.outputsFollow :=
  ⟨fun l => by cases l; exacts [h.1, h.2.1], h.2.2⟩

/-- An empty wait list is sound. -/
theorem waitListSound_of_nil (s : State) (h : s.store.waitList = []) : s.waitListSound := by
  simp [State.waitListSound, h]

/-- The state after reset, with a command waiting, meets every condition that steps keep, and its step answers a
next state. -/
theorem witness_invariants :
    let s := State.reset.withPending [.millisecondTick]
    s.flashCanonical ∧ (s.attentionFollows ∧ s.holdingBounded) ∧
      (s.deadlinesDistinct ∧ s.queueDistinct ∧ s.stationsOrdered) ∧ s.stationsSound ∧ s.settingsSound ∧
      s.directorySound ∧ s.lanesSilent ∧ s.deadlinesOrdered ∧ s.holdersDistinct ∧ s.queueOrdered ∧ s.storeBounded ∧
      s.waitListSound ∧ s.outputsFollow ∧ ∃ t, step s = .next t := by
  refine ⟨by unfold State.flashCanonical; decide, ⟨⟨by decide, by decide⟩, by unfold State.holdingBounded; decide⟩,
    ⟨by unfold State.deadlinesDistinct; decide, ⟨by decide, by decide⟩, ?_⟩, ?_, ?_,
    ⟨?_, ?_, .nil, .nil, fun l => by cases l <;> decide⟩,
    .inr fun l => by cases l <;> exact ⟨rfl, rfl⟩, by unfold State.deadlinesOrdered; decide, ?_,
    ⟨.nil, (by intro j h; cases h), fun _ => rfl⟩, storeBounded_of _ (by decide),
    waitListSound_of_nil _ rfl, outputsFollow_of _ (by decide), _, rfl⟩
  · show List.Pairwise _ []; exact .nil
  · intro st h; cases h
  · unfold State.settingsSound Settings.inRange; decide
  · show List.Pairwise _ []; exact .nil
  · intro st h; cases h
  · intro l h e; cases l <;> cases e

/-- A state with stations, jobs, a push entry and a notice meets them too. -/
def busy : State :=
  { twoJobs with
    stations := [{ door with estimate := { door.estimate with carry := 3 } }, display]
    engine := { twoJobs.engine with queue := [jobIn 2 1 .load] }
    pushA := [{ station := 1, urgent := true }]
    pins := { twoJobs.pins with attn := true }
    link := { twoJobs.link with notices := [{ number := 0, body := .presence 1 .absent }] }
    timebase := { count := 5, deadlines := [⟨.restoreLimit 2, 30005, 1⟩] }
    pending := [.millisecondTick] }

theorem witness_invariants_busy :
    busy.flashCanonical ∧ busy.attentionFollows ∧ busy.holdingBounded ∧ busy.deadlinesDistinct ∧
      busy.queueDistinct ∧ busy.settingsSound ∧ busy.lanesSilent ∧ ∃ t, step busy = .next t := by
  refine ⟨by unfold State.flashCanonical; decide, ⟨by decide, by decide⟩, by unfold State.holdingBounded; decide,
    by unfold State.deadlinesDistinct; decide, ⟨by decide, by decide⟩, ?_, .inl rfl, _, rfl⟩
  unfold State.settingsSound Settings.inRange; decide

/-- Two jobs in class order, a group of both, a lane with two buffers and a request, and deadlines one of which is due. -/
def busyLists : State :=
  { twoJobs with
    laneA := { twoJobs.laneA with holder := some (.group [1, 2] 1 none) }
    store :=
      { twoJobs.store with
        buffers := List.replicate 2 { Buffer.unowned with owner := some (.lane .a), state := .filling } ++ List.replicate 2 Buffer.unowned
        waitList := [{ who := .parkWriter, count := 1 }, { who := .lane .a, count := 2 }] }
    timebase := { count := 5, deadlines := [⟨.pollInterval .a, 4, 1⟩, ⟨.interByte, 9, 1⟩, ⟨.restoreLimit 2, 9, 2⟩] }
    pending := [.pollIntervalExpiry .a] }

theorem witness_invariants_lists :
    busyLists.deadlinesOrdered ∧ busyLists.queueDistinct ∧ busyLists.holdersDistinct ∧ busyLists.lanesSilent ∧
      busyLists.queueOrdered ∧ busyLists.storeBounded ∧ busyLists.waitListSound ∧ ∃ t, step busyLists = .next t := by
  refine ⟨by unfold State.deadlinesOrdered; decide, ⟨by decide, by decide⟩, ?_, .inl rfl,
    ⟨by decide, by decide, by decide⟩, storeBounded_of _ (by decide),
    ⟨by decide, by decide, ?_⟩, _, rfl⟩
  · intro l h e
    cases l <;> cases e
    decide
  · simp [busyLists, BufferOwner.mostAsked, State.lane]

theorem display_sound (car : CarState) : display.sound car := by
  refine ⟨?_, ?_, by decide, by decide, ?_, ?_⟩
  · unfold Entry.inRange; decide
  · unfold Estimate.inRange; decide
  · intro k hk v hv
    simp only [fieldCodes, List.mem_cons, List.not_mem_nil, or_false] at hk
    rcases hk with rfl | rfl | rfl | rfl | rfl | rfl | rfl | rfl | rfl <;> cases hv
  · rfl

theorem witness_stationsSound : ({ quiet with stations := [display] }).stationsSound := by
  intro st h
  simp only [List.mem_singleton] at h
  subst h
  exact display_sound _

/-- An entrance unit with a leaf state and a field, and a display: a directory that is sound. -/
theorem witness_directorySound :
    let fields : Fields := { Fields.blank with serviceMode := some 0 }
    let st : Station := { door with context := { door.context with fields := fields, leaf := some .closed } }
    ({ quiet with stations := [st, display], pending := [.millisecondTick] } : State).directorySound := by
  refine ⟨by unfold State.stationsOrdered; decide, ?_, by decide, by decide, fun l => by cases l <;> decide⟩
  intro x hx
  simp only [List.mem_cons, List.not_mem_nil, or_false] at hx
  rcases hx with rfl | rfl
  all_goals
    refine ⟨⟨by unfold Entry.inRange; decide, by decide, by decide⟩, ?_, by unfold Station.leafSound; decide⟩
    intro k v h
    unfold Fields.get at h
    split at h <;> first | rfl | cases h

theorem witness_ColdStartsByCause :
    State.reset.pins.rstnLow = false ∧
      (∃ t, exec .resetLineAssert State.reset = .next t ∧ t.pins.rstnLow = true ∧ t.pins.powered = true) ∧
      let s := dueFirst .filterConfirm (withCandidate .parked .present quiet)
      s.dueNow .filterConfirm quiet.timebase 0 ∧ s.supply.state = .parked ∧
        s.supply.candidate = some { level := .present, rawTime := 0 } :=
  ⟨rfl, ⟨_, rfl, rfl, rfl⟩, dueFirst_due _ _ (by decide) (by decide), rfl, rfl⟩

/-- A park write of which a page's PROGRAM runs, in PARKING. -/
def parkWriting (phase : ParkPhase) (heldRise : Bool) (block : Nat) : State :=
  { quiet with
    supply := { quiet.supply with state := .parking, heldRise := heldRise }
    park := { quiet.park with phase := phase }
    store :=
      { quiet.store with
        buffers := { Buffer.unowned with owner := some .parkWriter, state := .programming } :: List.replicate 3 Buffer.unowned
        running := some { command := .program 0 block [0], who := .parkWriter } } }

/-- Page 2 with the held-rise mark set, and the timeout of the same PROGRAM. -/
theorem witness_ColdStartsByCause_parkWrite :
    let p := parkWriting .page2 true 257
    p.runs = true ∧ p.supply.state = .parking ∧ p.supply.heldRise = true ∧ p.park.phase = .page2 ∧
      p.store.running = some { command := .program 0 257 [0], who := .parkWriter } ∧
      (dueFirst .storeOperation p).dueNow .storeOperation p.timebase 0 :=
  ⟨rfl, rfl, rfl, rfl, rfl, dueFirst_due _ _ (by decide) (by decide)⟩

theorem witness_StoppedPart :
    quiet.pins.rstnLow = false ∧ quiet.flashCanonical ∧
      (∃ t, exec .supplyLoss quiet = .next t ∧ t.runs = false) ∧
      (∀ op, quiet.store.running = some op ∨ quiet.flash.busy.map (·.op) = some op → ¬op.reaches 0) ∧
      (∀ l b, Instr.millisecondTick ≠ .powerOn l b) ∧ (after .resetLineAssert quiet).pins.rstnLow = true := by
  refine ⟨rfl, by unfold State.flashCanonical; decide, ⟨_, rfl, rfl⟩, ?_, ?_, rfl⟩
  · rintro op (h | h) <;> cases h
  · intro l b h; cases h

theorem witness_DueWithinHalfTheCount : isDue 0 1 = false ∧ isDue 0 0x80000001 = true ∧ isDue 0 0x80000000 = false := by
  decide

theorem witness_DeadlinesByIdentity :
    Purpose.settle ≠ .spanHorizon ∧ quiet.timebase.dueOf .settle = none ∧
      ∃ e ∈ (busy.timebase.set .settle 9).deadlines, e.purpose ≠ .settle :=
  ⟨by decide, rfl, ⟨.restoreLimit 2, 30005, 1⟩, by decide, by decide⟩

/-- A part with nothing due, and one with an expiry to be delivered first. -/
theorem witness_TickAndHorizon :
    quiet.runs = true ∧ quiet.timebase.expiryDue = false ∧ busy.timebase.expiryDue = false ∧
      (dueFirst .settle quiet).timebase.expiryDue = true ∧
      (dueFirst .spanHorizon quiet).dueNow .spanHorizon quiet.timebase 0 :=
  ⟨rfl, rfl, by decide, by decide, dueFirst_due _ _ (by decide) (by decide)⟩

/-- A fall away from the confirmed level, a glitch that ends, and settings at and past both ends of their ranges. -/
theorem witness_RawChangeFiltered :
    quiet.runs = true ∧ LineLevel.absent ≠ quiet.supply.raw ∧ LineLevel.absent ≠ quiet.supply.confirmed ∧
      (let g : State := { quiet with supply := { quiet.supply with raw := .absent } };
        LineLevel.present ≠ g.supply.raw ∧ LineLevel.present = g.supply.confirmed) ∧
      quiet.loadingEnded = true ∧ State.reset.loadingEnded = false ∧
      (∃ y, Settings.default.put 0 0 = some y) ∧ (∃ y, Settings.default.put 0 16 = some y) ∧
      (∃ y, Settings.default.put 1 0 = some y) ∧ ∃ y, Settings.default.put 1 256 = some y :=
  ⟨rfl, by decide, by decide, ⟨by decide, by decide⟩, rfl, rfl, ⟨_, rfl⟩, ⟨_, rfl⟩, ⟨_, rfl⟩, ⟨_, rfl⟩⟩

/-- A fall in LINE, and one in the SETTLE of a cold start, in which no gap is open. -/
theorem witness_FallOpensGap :
    (let s := dueFirst .filterConfirm (withCandidate .line .absent twoJobs);
      s.dueNow .filterConfirm twoJobs.timebase 0 ∧ s.supply.state = .line ∧
        s.supply.candidate = some { level := .absent, rawTime := 0 }) ∧
    let s := dueFirst .filterConfirm (withCandidate .settle .absent twoStations)
    s.dueNow .filterConfirm twoStations.timebase 0 ∧ s.supply.state = .settle ∧ s.supply.openGap = none ∧
      s.supply.candidate = some { level := .absent, rawTime := 0 } :=
  ⟨⟨dueFirst_due _ _ (by decide) (by decide), rfl, rfl⟩, dueFirst_due _ _ (by decide) (by decide), rfl, rfl, rfl⟩

theorem witness_EdgesWithinAGap :
    (let s := dueFirst .filterConfirm (withCandidate .settle .absent (gapOpen .settle twoStations));
      s.dueNow .filterConfirm twoStations.timebase 0 ∧ s.supply.openGap = some gapRecord ∧ s.supply.state = .settle ∧
        s.supply.candidate = some { level := .absent, rawTime := 0 }) ∧
    (let s := dueFirst .filterConfirm (withCandidate .gap .present (gapOpen .gap twoStations));
      s.dueNow .filterConfirm twoStations.timebase 0 ∧ s.supply.openGap = some gapRecord ∧ s.supply.state = .gap ∧
        s.supply.candidate = some { level := .present, rawTime := 0 } ∧ s.supply.lastFall = some 0 ∧
        s.estimator.lastFall = some 0) :=
  ⟨⟨dueFirst_due _ _ (by decide) (by decide), rfl, rfl, rfl⟩,
    dueFirst_due _ _ (by decide) (by decide), rfl, rfl, rfl, rfl, rfl⟩

theorem witness_EdgesInParking :
    ∀ level, let s := dueFirst .filterConfirm (withCandidate .parking level quiet)
      s.dueNow .filterConfirm quiet.timebase 0 ∧ s.supply.state = .parking ∧
        s.supply.candidate = some { level := level, rawTime := 0 } :=
  fun _ => ⟨dueFirst_due _ _ rfl (show isDue 0 0 = true by decide), rfl, rfl⟩

theorem witness_SettleExpiryEndsSettle :
    (let s := dueFirst .settle (gapOpen .settle { quiet with stations := [display] });
      s.dueNow .settle quiet.timebase 0 ∧ s.supply.state = .settle ∧ s.supply.openGap = some gapRecord ∧
        s.loadingEnded = true ∧ s.stationsSound ∧ (s.stations ≠ [] ∨ s.engine.queue ≠ [])) ∧
    (let s := dueFirst .settle { State.reset with timebase := { count := 0, deadlines := [] } };
      s.dueNow .settle { count := 0, deadlines := [] } 0 ∧ s.supply.state = .settle ∧ s.supply.openGap = none ∧
        s.loadingEnded = false) := by
  refine ⟨⟨dueFirst_due _ _ (by decide) (by decide), rfl, rfl, rfl, ?_, .inl (by decide)⟩,
    dueFirst_due _ _ (by decide) (by decide), rfl, rfl, rfl⟩
  exact witness_stationsSound

/-- The SETTLE of a cold start whose loading has ended, with a station on the first pass, and one with no station. -/
theorem witness_SettleExpiryEndsSettle_cold :
    let cold : State :=
      { quiet with supply := { quiet.supply with state := .settle }, engine := { quiet.engine with phase := .held, pass := 0 } }
    (let s := dueFirst .settle { cold with stations := [display] };
      s.dueNow .settle quiet.timebase 0 ∧ s.supply.state = .settle ∧ s.loadingEnded = true ∧ s.engine.pass = 0 ∧
        s.supply.openGap = none ∧ s.stationsOrdered ∧ s.hasJob 2 = false ∧ s.stations ≠ []) ∧
    (let s := dueFirst .settle cold;
      s.dueNow .settle quiet.timebase 0 ∧ s.supply.state = .settle ∧ s.loadingEnded = true ∧ s.stations = [] ∧
        s.engine.queue = []) :=
  ⟨⟨dueFirst_due _ _ (by decide) (by decide), rfl, rfl, rfl, rfl, by unfold State.stationsOrdered; decide, by decide,
    by decide⟩, dueFirst_due _ _ (by decide) (by decide), rfl, rfl, rfl, rfl⟩

/-- A sample in LINE, and one in GAP just above the park level 4; the voltage of level 5 is 3.75 V. -/
theorem witness_HoldupSampleTaken :
    (let s := dueFirst .holdupSample quiet;
      s.dueNow .holdupSample quiet.timebase 0 ∧ s.supply.state ≠ .parked ∧ s.supply.state ≠ .gap) ∧
    (let s := dueFirst .holdupSample (gapOpen .gap quiet);
      s.dueNow .holdupSample quiet.timebase 0 ∧ s.supply.state ≠ .parked ∧ s.settings.parkLevel < holdupLevel 3750) ∧
    0 < holdupLevel 2750 ∧ (1 ≤ 15 ∧ 2500 + 250 * 15 ≤ 6250) :=
  ⟨⟨dueFirst_due _ _ (by decide) (by decide), by decide, by decide⟩,
    ⟨dueFirst_due _ _ (by decide) (by decide), by decide, by decide⟩, by decide, by decide⟩

/-- A sample in GAP at the park level 4, 3.50 V, with the park area prepared and not. -/
theorem witness_ParkBegins :
    let s := dueFirst .holdupSample (gapOpen .gap quiet)
    s.dueNow .holdupSample quiet.timebase 0 ∧ s.supply.state = .gap ∧ holdupLevel 3749 ≤ s.settings.parkLevel ∧
      s.store.prepared = false ∧ s.supply.heldRise = false ∧
      (let p : State := dueFirst .holdupSample (gapOpen .gap { quiet with store := { quiet.store with prepared := true } });
        p.dueNow .holdupSample quiet.timebase 0 ∧ p.supply.state = .gap ∧ holdupLevel 0 ≤ p.settings.parkLevel ∧
          p.store.prepared = true) :=
  ⟨dueFirst_due _ _ (by decide) (by decide), rfl, by decide, rfl, rfl, dueFirst_due _ _ (by decide) (by decide), rfl,
    by decide, rfl⟩

/-- The same with an open gap's record and an image write under way. -/
theorem witness_ParkBegins_imageWrite :
    let w : ImageWrite :=
      { slot := 15, image := image2, phase := .receiving, nextIndex := 1, sectorsErased := 16, readIndex := 0, crcSoFar := 0 }
    let g := gapOpen .gap { quiet with store := { quiet.store with imageWrite := some w } }
    let s := dueFirst .holdupSample g
    s.dueNow .holdupSample g.timebase 0 ∧ s.supply.state = .gap ∧ s.supply.openGap = some gapRecord ∧
      s.store.imageWrite = some w :=
  ⟨dueFirst_due _ _ (by decide) (by decide), rfl, rfl, rfl⟩

/-- A part in GAP whose park area is prepared, with given buffers, and with or without an image write. -/
def parkingWith (buffers : List Buffer) (w : Option ImageWrite) (op : Option FlashOp) : State :=
  gapOpen .gap
    { quiet with
      store := { quiet.store with prepared := true, buffers := buffers, imageWrite := w, running := op } }

theorem parkingWith_sound (buffers : List Buffer) (w : Option ImageWrite) (op : Option FlashOp)
    (h : (parkingWith buffers w op).storeBounded) :
    (parkingWith buffers w op).storeBounded ∧ (parkingWith buffers w op).lanesSilent ∧
      (parkingWith buffers w op).waitListSound ∧
      ∀ r ∈ (parkingWith buffers w op).store.waitList, r.who ≠ .parkWriter :=
  ⟨h, .inr fun l => by cases l <;> exact ⟨rfl, rfl⟩, waitListSound_of_nil _ rfl, by simp [parkingWith, gapOpen, quiet, State.reset]⟩

/-- A park that finds a FREE buffer, with an operation running and with none; one that the image write gives back; and one
whose buffers are all the lanes', FILLING, or that finds the image write's PROGRAMMING. -/
theorem witness_ParkBegins_buffer :
    let free := List.replicate 4 Buffer.unowned
    let filling : Buffer := { Buffer.unowned with owner := some (.lane .a), state := .filling, released := true }
    let lanes := [filling, filling, { filling with owner := some (.lane .b) }]
    let written : Buffer := { Buffer.unowned with owner := some .imageWrite, state := .full }
    let w : ImageWrite :=
      { slot := 15, image := image2, phase := .receiving, nextIndex := 1, sectorsErased := 16, readIndex := 0, crcSoFar := 0 }
    let op : FlashOp := { command := .program 15 1 [], who := .imageWrite }
    (∀ o : Option FlashOp,
      (parkingWith free none o).storeBounded ∧ (parkingWith free none o).lanesSilent ∧
        (parkingWith free none o).waitListSound ∧ ((parkingWith free none o).buffer 0).state = .free) ∧
    ((parkingWith (lanes ++ [written]) (some w) none).storeBounded ∧
      writeBuffer? (parkingWith (lanes ++ [written]) (some w) none) = some 3 ∧
      (parkingWith (lanes ++ [written]) (some w) none).store.running = none) ∧
    (let s := parkingWith (lanes ++ [{ written with state := .programming }]) (some w) (some op);
      s.storeBounded ∧ s.waitListSound ∧ writeBuffer? s = some 3 ∧ s.store.running = some op ∧
        (s.buffer 3).state = .programming ∧ ∀ i, i < 4 → (s.buffer i).state ≠ .free) := by
  refine ⟨fun o => ?_, ⟨(parkingWith_sound _ _ _ (storeBounded_of _ (by decide))).1, by decide, rfl⟩, ?_⟩
  · have h0 : (parkingWith (List.replicate 4 Buffer.unowned) none none).storeBounded := storeBounded_of _ (by decide)
    have h := parkingWith_sound (List.replicate 4 Buffer.unowned) none o h0
    exact ⟨h.1, h.2.1, h.2.2.1, rfl⟩
  · have h := parkingWith_sound
      [{ Buffer.unowned with owner := some (.lane .a), state := .filling, released := true },
        { Buffer.unowned with owner := some (.lane .a), state := .filling, released := true },
        { Buffer.unowned with owner := some (.lane .b), state := .filling, released := true },
        { Buffer.unowned with owner := some .imageWrite, state := .programming }]
      (some
        { slot := 15, image := image2, phase := .receiving, nextIndex := 1, sectorsErased := 16, readIndex := 0
          crcSoFar := 0 })
      (some { command := .program 15 1 [], who := .imageWrite }) (storeBounded_of _ (by decide))
    exact ⟨h.1, h.2.2.1, by decide, rfl, rfl, by decide⟩

/-- R169: with every buffer FILLING for the lanes the park writer waits, and with one FREE it programs page 1. -/
theorem test_park_writer_waits :
    let filling : Buffer := { Buffer.unowned with owner := some (.lane .a), state := .filling }
    let full := [filling, filling, { filling with owner := some (.lane .b) }, { filling with owner := some (.lane .b) }]
    (after (.holdupSampleExpiry 0) (dueFirst .holdupSample (parkingWith full none none))).park.phase = .waiting ∧
      (after (.holdupSampleExpiry 0)
        (dueFirst .holdupSample (parkingWith (List.replicate 4 .unowned) none none))).park.phase = .page1 := by
  decide

/-- Both ends of the recharge ratio, with the greatest carry and span. -/
theorem witness_RefillArithmetic :
    (1 ≤ 1 ∧ 1 ≤ 64 ∧ station9.carry < 1 ∧ 65535 ≤ 65535) ∧
      ({ station12 with carry := 63 } : Estimate).carry < 64 := by decide

/-- A dark span just below the reserve, and one equal to it. -/
theorem witness_DrainArithmetic :
    19 < station9.reserve ∧ station9.reserve ≤ 20 ∧ ({ station9 with lost := true } : Estimate).lost = true := by decide

def blankReport : Report := { state := .blank, kind := .saloon, tag := 0, generation := 0, fill := 0, epoch := 0 }

def runningReport : Report := { state := .running, kind := .saloon, tag := 7, generation := 3, fill := 0, epoch := 1 }

/-- A job of the display with a prediction. -/
def predicted (p : Prediction) : Job := { jobIn 2 0 .probe with prediction := p }

def onePredicted (p : Prediction) : State :=
  { twoStations with engine := { twoStations.engine with queue := [predicted p] } }

theorem witness_AdaptationAtMiss :
    (let s := onePredicted .kept;
      s.job? 2 = some (predicted .kept) ∧ s.station? 2 = some display ∧ (predicted .kept).origin = .gap ∧
        s.settings.adaptation = true ∧ (predicted .kept).result = .none ∧ blankReport.state = .blank) ∧
    (let s := onePredicted .lost;
      s.job? 2 = some (predicted .lost) ∧ s.station? 2 = some display ∧ runningReport.state ≠ .blank ∧
        runningReport.tag = 7) := by decide

theorem witness_PredictionChecked :
    let s := onePredicted .kept
    s.queueDistinct ∧ s.job? 2 = some (predicted .kept) ∧ (predicted .kept).result = .none ∧
      ({ predicted .kept with result := .hit } : Job).result ≠ .none :=
  ⟨⟨by decide, by decide⟩, by decide, rfl, by decide⟩

/-- An entry for a new station, at the ends of its ranges: number 24, alias 127, address 30, slot 15. -/
def farEntry : Entry :=
  { number := 24, aliasNo := 127, lane := .b, address := 30, kind := .destination, side := none, slot := 15
    restoreClass := 3, capacity := 1000, ratio := 64 }

theorem witness_NodeDefineTaken :
    twoStations.serves ∧ farEntry.bytes.length = 11 ∧ sideAgrees farEntry.bytes = true ∧
      readEntry farEntry.bytes = some farEntry ∧ laneFull farEntry twoStations = false ∧
      twoStations.hasJob 24 = false ∧ stationBusy 24 twoStations = false ∧ entryConflicts farEntry twoStations = false :=
  ⟨twoStations_serves, by decide, by decide, by decide, by decide, by decide, by decide, by decide⟩

/-- The same for a station that is already defined, whose presence changes. -/
theorem witness_NodeDefineTaken_again :
    readEntry door.entry.bytes = some door.entry ∧ laneFull door.entry twoStations = false ∧
      twoStations.hasJob 1 = false ∧ stationBusy 1 twoStations = false ∧
      entryConflicts door.entry twoStations = false ∧ (twoStations.station? 1).isSome = true := by decide

theorem witness_NodeRemoveAndQueryTaken :
    twoStations.serves ∧ 1 ≤ (1 : Byte).toNat ∧ (1 : Byte).toNat ≤ 24 ∧
      (twoStations.station? (1 : Byte).toNat).isSome = true ∧ twoStations.hasJob 1 = false ∧
      stationBusy 1 twoStations = false ∧ twoStations.aliased? (12 : Byte).toNat = some display ∧
      twoStations.supply.state = .line ∧ twoStations.query = none :=
  ⟨twoStations_serves, by decide, by decide, by decide, by decide, by decide, by decide, rfl, rfl⟩

theorem witness_ReadsChangeNothing :
    twoStations.serves ∧ twoStations.aliased? (11 : Byte).toNat = some door ∧
      twoStations.station? (1 : Byte).toNat = some door :=
  ⟨twoStations_serves, by decide, by decide⟩

/-- One pair that gives next stop 127, and eight pairs are the most. -/
def stopPayload : List Byte := [12, 1, 5, 0, 127, 0]

theorem witness_ContextSetTaken :
    twoStations.serves ∧ twoStations.stationsOrdered ∧ contextLayout stopPayload = true ∧
      twoStations.aliased? (numAt stopPayload 0) = some display ∧
      ((contextPairs stopPayload).all fun p => fieldBelongs display.entry.kind p.code) = true ∧
      putPairs (contextPairs stopPayload) display.context.fields =
        some { Fields.blank with nextStop := some 127 } ∧
      twoStations.hasJob 2 = false ∧ twoJobs.hasJob 2 = true :=
  ⟨twoStations_serves, by unfold State.stationsOrdered; decide, by decide, by decide, by decide, by decide, by decide,
    by decide⟩

theorem witness_CarStateTaken :
    twoStations.serves ∧ twoStations.stationsOrdered ∧ Motion.ofCode (0 : Byte).toNat = some .standstill ∧
      ReleaseSide.ofCode (1 : Byte).toNat = some .left :=
  ⟨twoStations_serves, by unfold State.stationsOrdered; decide, by decide, by decide⟩

/-- An entrance station whose release a car state changes. -/
theorem witness_CarStateTaken_changed :
    let st : Station := { door with context := { door.context with fields := { Fields.blank with serviceMode := some 0 } } }
    effectiveRelease { motion := .standstill, side := .left } st.entry st.context.fields ≠ st.context.release := by
  decide

/-- The part serves, with an image write and without. -/
theorem witness_RefusalsInOrder :
    (answerRequest (requestOf 0x0F 1 [1]) quiet).status ≠ .ok ∧
      (answerRequest (requestOf 0x05 1 []) State.reset).status ≠ .ok ∧ twoJobs.serves ∧
      twoJobs.store.imageWrite = none := by
  exact ⟨by decide, by decide, twoJobs_serves, rfl⟩

/-- The statuses that requests of one kind are answered with. -/
def statuses (s : State) (kind : Byte) (payloads : List (List Byte)) : List Status :=
  payloads.map fun p => (answerRequest (requestOf kind 1 p) s).status

/-- R47, R49, R50, R55, R57, R59, R91, R114: the requests that name stations, by the first check that each fails. -/
theorem test_station_refusals :
    let door2 : List Byte := [3, 11, 0, 9, 0, 0, 1, 0, 80, 0, 4]
    statuses twoJobs 0x06 [door2.dropLast, door2.set 5 0xFF, door2.set 3 31, door2.set 0 1, door2, door2.set 1 13] =
        [.format, .format, .range, .state, .conflict, .ok] ∧
      statuses { twoStations with query := some 1 } 0x06 [door2.set 0 1] = [.busy] ∧
      statuses twoJobs 0x07 [[], [25], [3], [1]] = [.format, .range, .unknown, .state] ∧
      statuses { twoStations with query := some 1 } 0x07 [[1], [2]] = [.busy, .ok] ∧
      statuses twoJobs 0x08 [[2, 11], [0, 1], [1, 11], [1, 1]] = [.format, .unknown, .unknown, .ok] ∧
      statuses (gapOpen .gap twoJobs) 0x09 [[], [13], [11]] = [.format, .unknown, .unreachable] ∧
      statuses { twoStations with query := some 1 } 0x09 [[11]] = [.busy] ∧
      statuses twoJobs 0x0A [[12, 1, 5, 0, 1], [12, 1, 9, 0, 0, 0], [13, 1, 5, 0, 0, 0], [12, 1, 0, 0, 0, 0], [12, 1, 5, 0, 128, 0],
        [12, 1, 5, 1, 128, 0]] = [.format, .format, .unknown, .format, .range, .ok] ∧
      statuses twoJobs 0x0C [[0], [2, 0], [0, 4], [1, 3]] = [.format, .range, .range, .ok] ∧
      statuses twoJobs 0x0D [[2, 11], [2, 11, 11], [1, 13], [1, 11]] = [.format, .format, .unknown, .ok] := by
  decide +kernel

theorem witness_PassBuilt :
    let s : State := { quiet with stations := [display] }
    s.supply.state = .line ∧ s.queueDistinct ∧ s.stationsOrdered ∧ s.stationsSound ∧
      (∀ j ∈ s.engine.queue, (s.station? j.station).isSome = true) ∧
      (s.engine.queue.map fun j => s.classOf j.station).Pairwise (· ≤ ·) := by
  refine ⟨rfl, ⟨by decide, by decide⟩, by unfold State.stationsOrdered; decide, witness_stationsSound, ?_, ?_⟩
  · intro j h; cases h
  · exact .nil

/-- A pass that carries a job of origin HOST; and a job of origin COLD whose station is predicted LOST. -/
theorem witness_PassBuilt_carried :
    ∀ o ∈ [Origin.host, .cold],
      let s : State :=
        { quiet with
          stations := [display]
          engine := { quiet.engine with queue := [{ jobIn 2 0 .probe with origin := o, blocksSent := 9, loaded := true }] } };
      s.supply.state = .line ∧ s.queueDistinct ∧ s.job? 2 = some { jobIn 2 0 .probe with origin := o, blocksSent := 9, loaded := true } ∧
        s.station? 2 = some display ∧ (∀ j ∈ s.engine.queue, (s.station? j.station).isSome = true) ∧
        (s.engine.queue.map fun j => s.classOf j.station).Pairwise (· ≤ ·) ∧ display.estimate.lost = true := by
  unfold State.queueDistinct
  decide

theorem witness_RestoreLimitFailsJob :
    let s := dueFirst (.restoreLimit 2) twoJobs
    s.dueNow (.restoreLimit 2) twoJobs.timebase 0 ∧ s.job? 2 = some (jobIn 2 1 .probe) :=
  ⟨dueFirst_due _ _ (by decide) (by decide), by decide⟩

theorem witness_RestoreNowCreatesJobs :
    let s : State := { quiet with stations := [display] }
    s.serves ∧ s.stationsOrdered ∧ s.stationsSound ∧ restoreLayout [1, 12] = true ∧
      ((([1, 12] : List Byte).drop 1).all fun a => (s.aliased? a.toNat).isSome) = true ∧
      restoreLayout [0] = true ∧ s.hasJob 2 = false := by
  refine ⟨⟨by decide, by decide, by decide, rfl, rfl⟩, by unfold State.stationsOrdered; decide, witness_stationsSound,
    by decide, by decide, by decide, by decide⟩

/-- The same in GAP, where no deadline changes. -/
theorem witness_RestoreNowCreatesJobs_outsideLine :
    let s : State := gapOpen .gap { quiet with stations := [display] }
    s.serves ∧ s.supply.state ≠ .line ∧ restoreLayout [0] = true ∧ s.hasJob 2 = false :=
  ⟨⟨by decide, by decide, by decide, rfl, rfl⟩, by decide, by decide, by decide⟩

/-- With a transaction in flight, its window set, and a buffer that is full and one that is filling. -/
theorem witness_EngineRestartEmptiesQueue :
    let held : Buffer := { Buffer.unowned with owner := some (.lane .a), slot := 2, state := .full }
    let s : State :=
      withTxn (txnOf .probe (.job 2 1) (some 2))
        { twoJobs with
          store := { twoJobs.store with buffers := [held, { held with state := .filling }, .unowned, .unowned] }
          timebase := { count := 0, deadlines := [⟨.responseWindow .a, 20, 1⟩, ⟨.pollInterval .b, 50, 2⟩] } }
    s.serves ∧ (s.lane .a).txn.isSome = true ∧ s.heldBy .a = [0, 1] ∧ (s.buffer 0).state ≠ .filling ∧
      Purpose.pollInterval .b ≠ .responseWindow .a :=
  ⟨⟨by decide, by decide, by decide, rfl, rfl⟩, rfl, by decide, by decide, by decide⟩

/-- A PROBE in flight for the display, and the reply of its running unit. -/
def probing : State := withTxn (txnOf .probe (.job 2 1) (some 2)) twoJobs

def probeReply : List Byte := laneFrame 2 3 0x20 runningReport.bytes

theorem witness_JobRepliesTaken :
    probing.runs = true ∧ probing.queueDistinct ∧ probing.stationsOrdered ∧
      (probing.lane .a).txn = some (txnOf .probe (.job 2 1) (some 2)) ∧ probing.job? 2 = some (jobIn 2 1 .probe) ∧
      jobIn 1 0 .probe ∈ probing.engine.queue ∧
      readReplyFrame probeReply = some { address := 2, sequence := 3, kind := 0x20, payload := runningReport.bytes } ∧
      readAnswer .probe 0x20 runningReport.bytes = .reply (.report runningReport) ∧
      probing.station? 2 = some display ∧ probing.validImage? 2 = some image2 ∧ image2.kind = display.entry.kind ∧
      runningReport.kind = display.entry.kind ∧ runningReport.tag = image2.tag ∧
      runningReport.generation = image2.generation ∧ runningReport.epoch = display.context.epoch :=
  ⟨rfl, ⟨by decide, by decide⟩, by unfold State.stationsOrdered; decide, rfl, by decide, by decide, by decide,
    by decide, by decide, by decide, rfl, rfl, rfl, rfl, rfl⟩

/-- A step of a job of the display in flight on lane A, and a reply to it; another job is in the queue. -/
def answered (step : StepKind) (j : Job) (r : LaneReply) : Prop :=
  let t := txnOf step (.job 2 j.id) (some 2)
  let s : State := withTxn t { twoJobs with engine := { twoJobs.engine with queue := [jobIn 1 0 .probe, j] } }
  s.jobAnswered .a (laneFrame 2 3 r.encode.1 r.encode.2) t j display r

/-- Each reply that a job goes on with: of every load step, of START and CONTEXT, every state of a PROBE report, and the
refusals of each kind of step, at the last restart and at the fifth. -/
theorem witness_JobRepliesTaken_steps :
    (∀ x ∈ ([(.opn, jobIn 2 1 .opn, .ack), (.block, jobIn 2 1 .load, .blockAck 0 0), (.fill, jobIn 2 1 .load, .fillReport 1),
        (.close, jobIn 2 1 .close, .closeResult true), (.close, jobIn 2 1 .close, .closeResult false),
        (.close, { jobIn 2 1 .close with mismatches := 1 }, .closeResult false), (.start, jobIn 2 1 .start, .ack),
        (.context, jobIn 2 1 .replay, .contextAck 1), (.context, jobIn 2 1 .replay, .contextAck 2),
        (.probe, jobIn 2 1 .probe, .report { runningReport with epoch := 2 }),
        (.probe, jobIn 2 1 .probe, .report { runningReport with state := .held }),
        (.probe, jobIn 2 1 .probe, .report { runningReport with state := .partly, fill := 2 }),
        (.probe, jobIn 2 1 .probe, .report { runningReport with state := .partly, fill := 3 }),
        (.probe, jobIn 2 1 .probe, .report blankReport),
        (.probe, { jobIn 2 1 .probe with result := .hit }, .report { runningReport with kind := .destination }),
        (.start, jobIn 2 1 .start, .nak .noSpace 0), (.probe, jobIn 2 1 .probe, .nak .wrongState 0),
        (.start, { jobIn 2 1 .start with restarts := 4 }, .nak .wrongState 0),
        (.start, { jobIn 2 1 .start with restarts := 3 }, .nak .wrongState 0)] : List (StepKind × Job × LaneReply)) ++
        ([0, 4].flatMap fun r => [0, 2, 3].map fun f =>
          (.block, { jobIn 2 1 .load with restarts := r }, .nak .badIndex f)) ++
        [(.close, jobIn 2 1 .close, .nak .badIndex 0)],
      answered x.1 x.2.1 x.2.2) ∧
    twoStations.lengthOf 2 = 2 ∧ (twoStations.buffer 0).crc = 0 ∧ twoStations.slot 2 = .valid image2 0 ∧
      display.context.epoch = 1 ∧ (txnOf .block (.job 2 1) (some 2)).index = 0 := by
  unfold answered State.jobAnswered
  decide

/-- A job that has had no result is predicted LOST and found intact, and adapts; and a job whose departure ends the run. -/
theorem witness_JobRepliesTaken_ends :
    (let j : Job := { jobIn 2 1 .probe with prediction := .lost };
      answered .probe j (.report { runningReport with epoch := 2 }) ∧ j.result = .none ∧ j.origin = .gap ∧
        twoJobs.settings.adaptation = true ∧
        predictionResult j.prediction (decide (runningReport.state ≠ .blank ∧ runningReport.tag = image2.tag)) = .miss) ∧
    (let s : State := { probing with engine := { probing.engine with queue := [jobIn 2 1 .probe] } };
      s.jobAnswered .a probeReply (txnOf .probe (.job 2 1) (some 2)) (jobIn 2 1 .probe) display (.report runningReport) ∧
        s.queueDistinct ∧ s.endsRun [2] = true) := by
  unfold answered State.jobAnswered State.queueDistinct
  decide

/-- The third mismatch in a row, of a job that had none and of one that had one, with another job of the slot waiting. -/
theorem witness_JobRepliesTaken_thirdMismatch :
    ∀ m ∈ [0, 1],
      let j : Job := { jobIn 2 1 .close with mismatches := m };
      let t := txnOf .close (.job 2 1) (some 2);
      let twin : Station := { door with entry := { door.entry with kind := .saloon, side := none, slot := 2 } };
      let s : State :=
        (withTxn t
          { twoJobs with
            stations := [twin, display]
            engine := { twoJobs.engine with queue := [jobIn 1 0 .loadwait, j] } }).setSlot 2 (.valid image2 2);
      s.jobAnswered .a (laneFrame 2 3 0x24 [0]) t j display (.closeResult false) ∧ s.queueDistinct ∧
        s.slot display.entry.slot = .valid image2 2 ∧ s.slotOf 1 = display.entry.slot ∧ s.store.markList = [] ∧
        markBusy s = false := by
  unfold State.jobAnswered State.queueDistinct
  decide

/-- Fill reports at, below and above a group's count, with a round open. -/
theorem witness_JobRepliesTaken_group :
    let j := jobIn 2 1 .load
    let t := txnOf .fill (.job 2 1) (some 2)
    let s : State :=
      { twoJobs with
        engine := { twoJobs.engine with queue := [jobIn 1 0 .load, j] }
        laneA := { twoJobs.laneA with txn := some t, holder := some (.group [1, 2] 1 (some [1, 2])) } };
    (s.lane .a).holder = some (.group [1, 2] 1 (some [1, 2])) ∧
      ∀ f ∈ [0, 1, 2], s.jobAnswered .a (laneFrame 2 3 0x23 (le16 f)) t j display (.fillReport f) := by
  unfold State.jobAnswered
  decide

/-- A slot that is not VALID, and one of another kind. -/
theorem witness_JobRepliesTaken_noImage :
    (∀ image, quiet.validImage? display.entry.slot = some image → image.kind ≠ display.entry.kind) ∧
      (let s := twoJobs.setSlot 2 (.valid { image2 with kind := .destination } 0);
        ∀ image, s.validImage? display.entry.slot = some image → image.kind ≠ display.entry.kind) := by
  refine ⟨fun image h => ?_, fun image h => ?_⟩
  · have e : quiet.validImage? display.entry.slot = none := by decide
    rw [e] at h; cases h
  · have e : (twoJobs.setSlot 2 (.valid { image2 with kind := .destination } 0)).validImage? display.entry.slot =
        some { image2 with kind := .destination } := by decide
    rw [e, Option.some.injEq] at h
    subst h
    decide

/-- The last attempt that may be retried, at the limit of 3, and the one after it, at the expiry of the window. -/
theorem witness_AttemptsEndInError :
    let t : Txn := { txnOf .probe (.job 2 1) (some 2) with attempt := 3 }
    let last : Txn := { t with attempt := 4 }
    let s := dueFirst (.responseWindow .a) (withTxn t twoJobs)
    let e := dueFirst (.responseWindow .a) (withTxn last twoJobs)
    s.attemptEnds .a t (.responseWindowExpiry .a) .noReply (withTxn t twoJobs) ∧
      ownerGone t s = false ∧ t.attempt ≤ t.limit ∧
      e.attemptEnds .a last (.responseWindowExpiry .a) .noReply (withTxn last twoJobs) ∧
      ownerGone last e = false ∧ last.limit < last.attempt ∧ e.job? 2 = some (jobIn 2 1 .probe) ∧
      e.station? 2 = some display ∧ display.entry.lane = .a :=
  ⟨⟨rfl, rfl, rfl, .inl ⟨_, 0, dueFirst_due _ _ (by decide) (by decide), rfl, rfl, rfl⟩⟩, by decide, by decide,
    ⟨rfl, rfl, rfl, .inl ⟨_, 0, dueFirst_due _ _ (by decide) (by decide), rfl, rfl, rfl⟩⟩, by decide, by decide,
    by decide, by decide, rfl⟩

/-- A reply that fails its check, a NAK BUSY, a BLOCK acknowledged with another index, and a NAK to a POLL. -/
theorem witness_AttemptsEndInError_kinds :
    let probe := txnOf .probe (.job 2 1) (some 2)
    let block := txnOf .block (.job 2 1) (some 2)
    let poll := txnOf .poll (.poll 2) (some 2)
    let nak : LaneReply := .nak .busy 0
    let wrong : LaneReply := .nak .wrongState 0
    let echo : LaneReply := .blockAck 1 0
    probing.endsInError probe [] .crc ∧ probing.endsInError probe (laneFrame 2 3 nak.encode.1 nak.encode.2) .busy ∧
      (withTxn block twoJobs).endsInError block (laneFrame 2 3 echo.encode.1 echo.encode.2) .echo ∧
      (withTxn poll twoStations).endsInError poll (laneFrame 2 3 wrong.encode.1 wrong.encode.2) .crc ∧
      ownerGone block (withTxn block twoJobs) = false ∧ probing.settings.strict .a = false := by
  refine ⟨.inl (show Txn.answer _ _ = .malformed by decide), ⟨0, by decide⟩, ⟨1, 0, by decide, by decide⟩,
    .inr ⟨rfl, .wrongState, 0, by decide, by decide⟩, by decide, rfl⟩

/-- A strict lane, on which a BLOCK's reply fails its check: with no holder, with a group of which one job is at its fifth
restart and one is not, and with the step's owner gone. -/
theorem witness_AttemptsEndInError_strict :
    let block := txnOf .block (.job 2 1) (some 2)
    let strict := fun (holder : Option Holder) =>
      withTxn block
        { twoJobs with
          engine := { twoJobs.engine with queue := [{ jobIn 1 0 .load with restarts := 4 }, jobIn 2 1 .load] }
          settings := { twoJobs.settings with strictA := true }
          laneA := { twoJobs.laneA with holder := holder } }
    (∀ holder, (strict holder).attemptEnds .a block (.laneReplyReceived .a []) .crc (strict holder)) ∧
      (∀ holder, (strict holder).settings.strict .a = true ∧ ownerGone block (strict holder) = false ∧
        (strict holder).queueDistinct ∧ ((strict holder).lane .a).holder = holder) ∧
      (Holder.group [1, 2] 1 none).stations.Nodup ∧
      ownerGone block (withTxn block twoStations) = true ∧
      (withTxn block twoStations).attemptEnds .a block (.laneReplyReceived .a []) .crc (withTxn block twoStations) := by
  refine ⟨fun h => ⟨rfl, rfl, rfl, .inr ⟨[], rfl, .inl (show Txn.answer _ _ = .malformed by decide), rfl⟩⟩,
    fun h => ⟨rfl, rfl, ⟨show ([1, 2] : List Nat).Nodup by decide, by intro p hp; cases hp⟩, rfl⟩, by decide, by decide,
    rfl, rfl, rfl, .inr ⟨[], rfl, .inl (show Txn.answer _ _ = .malformed by decide), rfl⟩⟩

theorem witness_PollsMadeAndAnswered :
    (let s := dueFirst (.pollInterval .a) twoStations;
      s.dueNow (.pollInterval .a) twoStations.timebase 0 ∧ s.supply.state = .line ∧ (s.lane .a).pendingPoll = none ∧
        ((pollOrder .a s).find? fun m => !(s.hasJob m)) = some 1) ∧
    (let s := dueFirst (.pollInterval .a) (gapOpen .gap twoStations);
      s.dueNow (.pollInterval .a) twoStations.timebase 0 ∧ s.supply.state ≠ .line) ∧
    (let t : Txn := { txnOf .poll (.poll 2) (some 2) with attempt := 4 };
      let r := withTxn t twoStations;
      let s := dueFirst (.responseWindow .a) r;
      s.attemptEnds .a t (.responseWindowExpiry .a) .noReply r ∧ s.supply.state = .line ∧ t.limit < t.attempt ∧
        s.hasJob 2 = false ∧ s.station? 2 = some display) :=
  ⟨⟨dueFirst_due _ _ (by decide) (by decide), rfl, rfl, by decide⟩,
    ⟨dueFirst_due _ _ (by decide) (by decide), by decide⟩,
    ⟨rfl, rfl, rfl, .inl ⟨_, 0, dueFirst_due _ _ (by decide) (by decide), rfl, rfl, rfl⟩⟩, rfl, by decide, by decide,
    by decide⟩

/-- A poll reply that is current and one that is not, to a poll and to the poll of a NODE QUERY, for a station without a job
and one with; a refusal at the last attempt; and a reply of an entrance unit with a leaf state. -/
theorem witness_PollsMadeAndAnswered_replies :
    (∀ owner ∈ [Owner.poll 2, .query 2], ∀ s ∈ [twoStations, twoJobs], ∀ epoch ∈ [1, 2],
      let t := txnOf .poll owner (some 2);
      let p : Report := { runningReport with epoch := epoch };
      let x : LaneReply := .pollReport p .ok;
      let u : State := withTxn t { s with query := some 2 };
      u.runs = true ∧ (u.lane .a).txn = some t ∧ t.step = .poll ∧ t.station = some 2 ∧ u.station? 2 = some display ∧
        u.supply.state = .line ∧ u.query = some 2 ∧ t.answer (laneFrame 2 3 x.encode.1 x.encode.2) = .reply x ∧
        display.context.epoch = 1) ∧
    (let t : Txn := { txnOf .poll (.query 2) (some 2) with attempt := 4 };
      let x : LaneReply := .nak .wrongState 0;
      t.answer (laneFrame 2 3 x.encode.1 x.encode.2) = .reply x ∧ t.limit < t.attempt) ∧
    (let t : Txn := { txnOf .poll (.poll 1) (some 1) with address := 1 };
      let x : LaneReply := .pollReport { runningReport with kind := .entrance } .moving;
      t.answer (laneFrame 1 3 x.encode.1 x.encode.2) = .reply x ∧ twoStations.station? 1 = some door ∧
        door.entry.kind = .entrance) := by
  decide

/-- A reply with another sequence number, one from another address, one of another kind, and one with no transaction. -/
theorem witness_LateRepliesOnlyMark :
    probing.runs = true ∧ (probing.lane .a).txn = some (txnOf .probe (.job 2 1) (some 2)) ∧
      readReplyFrame (laneFrame 2 4 0x21 []) = some { address := 2, sequence := 4, kind := 0x21, payload := [] } ∧
      readReplyFrame (laneFrame 1 3 0x21 []) = some { address := 1, sequence := 3, kind := 0x21, payload := [] } ∧
      readAnswer .probe 0x21 [] = .unpaired ∧ (twoJobs.lane .a).txn = none := by decide

/-- A push in flight to the display, acknowledged with its epoch 1 and with another. -/
def pushing : State :=
  withTxn (txnOf .context (.push 2) (some 2)) { twoStations with pushA := [{ station := 2, urgent := true }] }

/-- A reply to the third of the attempts that an abandoned transaction had made, while another transaction is in flight; and a
frame that begins with an abandoned one's address and sequence number. -/
theorem witness_LateRepliesOnlyMark_abandoned :
    let old : Txn := { txnOf .context (.push 2) (some 2) with sequence := 1, attempt := 4 }
    let x : LaneState := { twoJobs.laneA with txn := some old }
    let s : State := { probing with laneA := { probing.laneA with abandoned := x.abandonedFrames } }
    s.runs = true ∧ (s.lane .a).txn = some (txnOf .probe (.job 2 1) (some 2)) ∧
      readReplyFrame (laneFrame 2 15 0x25 [1, 0]) = some { address := 2, sequence := 15, kind := 0x25, payload := [1, 0] } ∧
      ({ address := 2, sequence := 15 } : FrameId) ∈ (s.lane .a).abandoned ∧
      (s.lane .a).seq = 0 ∧ ({ address := 2, sequence := 0 } : FrameId) ∈ (s.lane .a).abandoned ∧
      frameAddress (txnOf .probe (.job 2 1) (some 2)) s = 2 := by decide

/-- R65, R99: after ENGINE RESTART in LINE the push is sent again at once; the late reply to the abandoned frame, of sequence
number 3, is not counted as stale, and one of sequence number 5 is. -/
theorem test_late_reply_after_restart :
    let t := after (.engineRestart 9 []) pushing
    let stale := fun (sequence : Nat) =>
      ((after (.laneReplyReceived .a (laneFrame 2 sequence 0x25 [1, 0])) t).laneA.txn.map (·.stale))
    t.laneA.txn.map (fun x => (x.owner, x.sequence)) = some (.push 2, 0) ∧ stale 3 = some false ∧ stale 5 = some true := by
  decide +kernel

theorem witness_PushesDeliveredAndLost :
    pushing.runs = true ∧ (pushing.lane .a).txn = some (txnOf .context (.push 2) (some 2)) ∧
      pushing.push? 2 = some { station := 2, urgent := true } ∧ pushing.station? 2 = some display ∧
      readReplyFrame (laneFrame 2 3 0x25 [1, 0]) = some { address := 2, sequence := 3, kind := 0x25, payload := [1, 0] } ∧
      readAnswer .context 0x25 [1, 0] = .reply (.contextAck 1) ∧
      readAnswer .context 0x25 [2, 0] = .reply (.contextAck 2) ∧ display.context.epoch = 1 := by decide

/-- A push that is refused, and one whose window expires at its last attempt. -/
theorem witness_PushesDeliveredAndLost_lost :
    (let x : LaneReply := .nak .wrongState 0;
      (txnOf .context (.push 2) (some 2)).answer (laneFrame 2 3 x.encode.1 x.encode.2) = .reply x ∧
        NakReason.wrongState ≠ .busy ∧ pushing.supply.state = .line ∧ pushing.queueDistinct) ∧
    (let t : Txn := { txnOf .context (.push 2) (some 2) with attempt := 4 };
      let r := withTxn t pushing;
      let s := dueFirst (.responseWindow .a) r;
      s.attemptEnds .a t (.responseWindowExpiry .a) .noReply r ∧ t.limit < t.attempt ∧ s.supply.state = .line ∧
        s.queueDistinct ∧ s.push? 2 = some { station := 2, urgent := true }) :=
  ⟨⟨by decide, by decide, rfl, ⟨by decide, by decide⟩⟩,
    ⟨rfl, rfl, rfl, .inl ⟨_, 0, dueFirst_due _ _ (by decide) (by decide), rfl, rfl, rfl⟩⟩, by decide, rfl,
    ⟨by decide, by decide⟩, by decide⟩

/-- A group frame in flight, at the count before a round and elsewhere. -/
theorem witness_GroupFramesAndBuffers :
    let t := txnOf .block .group none
    let s : State :=
      { twoJobs with laneA := { twoJobs.laneA with txn := some t, holder := some (.group [1, 2] 15 none) } };
    s.runs = true ∧ (s.lane .a).txn = some t ∧ t.owner = .group ∧
      (s.lane .a).holder = some (.group (1 :: [2]) 15 none) ∧ (15 + 1) % 16 = 0 := by decide

/-- The display's job in LOAD at fill mark 0, with given buffers and requests. -/
def loadingWith (buffers : List Buffer) (requests : List BufferRequest) : State :=
  { twoJobs with
    engine := { twoJobs.engine with queue := [jobIn 2 1 .load] }
    laneA := { twoJobs.laneA with holder := some (.single 2) }
    store :=
      { twoJobs.store with
        buffers := buffers, waitList := requests
        imageWrite :=
          some
            { slot := 3, image := image2, phase := .erasing, nextIndex := 0, sectorsErased := 0, readIndex := 0
              crcSoFar := 0 } } }

/-- A buffer with a block of slot 2, for lane A. -/
def blockOf2 (block : Nat) (state : BufferState) : Buffer :=
  { Buffer.unowned with owner := some (.lane .a), slot := 2, block := block, state := state }

theorem loadingWith_needs (buffers : List Buffer) (requests : List BufferRequest) (b : Nat) (h : b < 2) :
    (loadingWith buffers requests).needs .a 2 b :=
  ⟨2, 0, .inl ⟨rfl, _, rfl, .inr ⟨rfl, rfl⟩⟩, rfl, by omega, h⟩

/-- A lane that holds one needed block and misses the other; one with an unneeded block FILLING, which it has not released;
and another owner's buffer. The head request of each requester, with a FREE buffer: of a lane that misses a block, of one
that misses none, of the image write, and of the park writer. -/
theorem witness_GroupFramesAndBuffers_grants :
    let others : List Buffer := [{ Buffer.unowned with owner := some .imageWrite, state := .full }, .unowned]
    let s := loadingWith (blockOf2 0 .full :: blockOf2 7 .filling :: others) []
    let missing := loadingWith (blockOf2 0 .full :: .unowned :: others) [{ who := .lane .a, count := 1 }]
    let covered := loadingWith (blockOf2 0 .full :: blockOf2 1 .full :: others) [{ who := .lane .a, count := 1 }]
    (s.storeBounded ∧ s.waitListSound ∧ s.heldBy .a = [0, 1] ∧ s.needs .a 2 0 ∧ ¬s.needs .a 2 7 ∧ s.misses .a 2 1) ∧
    (missing.storeBounded ∧ missing.waitListSound ∧ missing.misses .a 2 1 ∧ (missing.buffer 1).state = .free ∧
      (missing.ownedBy (.lane .a)).length < 2) ∧
    (covered.storeBounded ∧ covered.waitListSound ∧ (∀ slot block, ¬covered.misses .a slot block) ∧
      (covered.buffer 3).state = .free) ∧
    (loadingWith (List.replicate 4 .unowned) [{ who := .imageWrite, count := 1 }]).waitListSound ∧
    (loadingWith (List.replicate 4 .unowned) [{ who := .parkWriter, count := 1 }]).waitListSound := by
  have needed : ∀ (bs : List Buffer) (rs : List BufferRequest) (slot block : Nat),
      (loadingWith bs rs).needs .a slot block → slot = 2 ∧ block < 2 := by
    rintro bs rs slot block ⟨n, next, ⟨h, _⟩ | ⟨_, _, h, _⟩, rfl, _, hb⟩ <;> cases h
    exact ⟨rfl, hb⟩
  refine ⟨⟨storeBounded_of _ (by decide), waitListSound_of_nil _ rfl, by decide, loadingWith_needs _ _ 0 (by omega),
      fun h => absurd (needed _ _ _ _ h).2 (by decide), loadingWith_needs _ _ 1 (by omega), by decide⟩,
    ⟨storeBounded_of _ (by decide), ⟨by decide, by decide, ?_⟩, ⟨loadingWith_needs _ _ 1 (by omega), by decide⟩,
      rfl, by decide⟩,
    ⟨storeBounded_of _ (by decide), ⟨by decide, by decide, ?_⟩, ?_, rfl⟩,
    ⟨by decide, by decide, ?_⟩, ⟨by decide, by decide, ?_⟩⟩
  · simp [loadingWith, BufferOwner.mostAsked, State.lane]
  · simp [loadingWith, BufferOwner.mostAsked, State.lane]
  · rintro slot block ⟨hn, hm⟩
    obtain ⟨rfl, hb⟩ := needed _ _ _ _ hn
    rcases (by omega : block = 0 ∨ block = 1) with rfl | rfl
    · exact hm 0 (by decide) ⟨rfl, rfl⟩
    · exact hm 1 (by decide) ⟨rfl, rfl⟩
  · simp [loadingWith, BufferOwner.mostAsked]
  · simp [loadingWith, BufferOwner.mostAsked]

/-- R134, R143: the lane gives back the block that it does not need, which stays its own while it is FILLING, and asks for a
buffer for block 1, which it gets as the buffer is FREE. -/
theorem test_lane_plans :
    let t := planBuffers .a (loadingWith [blockOf2 0 .full, blockOf2 7 .full, .unowned, .unowned] [])
    t.heldBy .a = [0, 1] ∧ (t.buffer 1).block = 1 ∧ t.store.queue = [FlashOp.fills .a 1 2 1] ∧
      (planBuffers .a (loadingWith [blockOf2 0 .full, blockOf2 7 .filling, .unowned, .unowned] [])).heldBy .a = [0] := by
  decide

/-- Two jobs of one lane and one slot in LOADWAIT. -/
def selecting (needsOpen : Bool) : State :=
  { twoStations with
    stations := [{ door with entry := { door.entry with kind := .saloon, side := none, slot := 2 } }, display]
    settings := { twoStations.settings with groupLoading := true }
    engine :=
      { twoStations.engine with
        phase := .active
        queue := [{ jobIn 1 0 .loadwait with needsOpen := needsOpen }, { jobIn 2 1 .loadwait with needsOpen := true }] } }

/-- A transaction in flight and a flash operation running; a supply that is not LINE; a lane without a holder, whose first job
in LOADWAIT is a resume or needs OPEN; a lane with nobody waiting; and free lanes whose arbiter chooses, and does not. -/
theorem witness_LanesActAfterEvents :
    ((probing.lane .a).txn.isSome = true ∧
      ({ probing with store := { probing.store with running := some { command := .read 2 1, who := .lane .a 0 } } } :
        State).store.running.isSome = true ∧
      Purpose.interByte ≠ .storeOperation ∧ (gapOpen .gap twoJobs).lanesOpen = false) ∧
    (∀ b, (selecting b).queueDistinct ∧ (selecting b).lanesOpen = true ∧ ((selecting b).lane .a).holder = none ∧
      (selecting b).firstJob ((selecting b).waits .a) { jobIn 1 0 .loadwait with needsOpen := b }) ∧
    (∀ j ∈ twoJobs.engine.queue, ¬twoJobs.waits .a j) ∧
    (twoJobs.laneFree .a = true ∧ twoJobs.lanesOpen = true ∧
      (arbiterChoice .a (issueFlash (selectHolder .b (selectHolder .a twoJobs)))).isSome = true) ∧
    quiet.laneFree .a = true ∧ quiet.lanesOpen = true ∧
      arbiterChoice .a (issueFlash (selectHolder .b (selectHolder .a quiet))) = none := by
  refine ⟨by decide, fun b => ⟨by cases b <;> exact ⟨by decide, by decide⟩, rfl, rfl, ⟨rfl, rfl⟩, [], _, rfl, by simp⟩, ?_,
    by decide, by decide⟩
  unfold State.waits
  decide

/-- R98, R115, R171: a lane's driver is enabled as a frame is put on it, but not for one that a DROP withholds, and is
released as the attempt ends, with the lane's frame cut off by a reset. -/
theorem test_driver :
    let begun := lanesAct twoJobs
    let dropped :=
      lanesAct { twoJobs with laneA := { twoJobs.laneA with injection := some { kind := .drop, count := 1 } } }
    begun.laneA.driver = .inUse ∧ dropped.laneA.txn.isSome = true ∧ dropped.laneA.driver = .released ∧
      (after .resetLineAssert begun).laneA.driver = .released ∧ State.reset.store.chipSelect = .inUse ∧
      (after .resetLineAssert State.reset).store.chipSelect = .released := by decide

/-- R119, R120: with group loading on, both jobs join one group and are in OPEN; the first begins its OPEN at once. -/
theorem test_group_selected :
    let t := lanesAct (selecting true)
    (t.lane .a).holder = some (.group [1, 2] 0 none) ∧ t.engine.queue.map (·.state) = [.opn, .opn] ∧
      (t.lane .a).txn.map (fun x => (x.step, x.owner)) = some (.opn, .job 1 0) := by decide

/-- An urgent push; a restore step with no push; an ordinary push; a query; a poll; and a poll with a query for the other
lane. -/
theorem witness_ArbiterOrder :
    (arbiterChoice .a pushing).isSome = true ∧ (∃ p ∈ pushing.pushes .a, p.urgent = true) ∧
      (restoreTurn .a twoJobs).isSome = true ∧ (∀ p ∈ twoJobs.pushes .a, p.urgent = false) ∧
      (let s : State := { twoStations with pushA := [{ station := 2, urgent := false }] };
        (arbiterChoice .a s).isSome = true ∧ restoreTurn .a s = none) ∧
      (let s : State := { twoStations with query := some 2 };
        (arbiterChoice .a s).isSome = true ∧ s.pushes .a = [] ∧ s.station? 2 = some display) ∧
      (let s : State := { twoStations with laneA := { twoStations.laneA with pendingPoll := some 2 } };
        (arbiterChoice .a s).isSome = true ∧ s.query = none) ∧
      (let far : Station := { display with entry := { display.entry with lane := .b } };
        let s : State :=
          { twoStations with
            stations := [door, far], query := some 2, laneA := { twoStations.laneA with pendingPoll := some 1 } };
        (arbiterChoice .a s).isSome = true ∧ s.query = some 2 ∧ s.station? 2 = some far ∧ far.entry.lane ≠ .a) := by
  decide

/-- A load holder on lane A, with a buffer FULL with block 1 of slot 2, and the display's job in a state. -/
def holding (holder : Holder) (state : JobState) : State :=
  { twoJobs with
    engine := { twoJobs.engine with queue := [jobIn 1 0 .probe, { jobIn 2 1 state with fill := 1 }] }
    laneA := { twoJobs.laneA with holder := some holder, lastTurn := .load }
    store :=
      { twoJobs.store with
        buffers :=
          { Buffer.unowned with owner := some (.lane .a), slot := 2, block := 1, state := .full } ::
            List.replicate 3 Buffer.unowned } }

/-- A BLOCK that begins for a job alone, and one for a group. -/
theorem witness_LanesActAfterEvents_blocks :
    ∀ h ∈ [Holder.single 2, .group [2] 1 none],
      let s : State := { holding h .load with laneA := { (holding h .load).laneA with lastTurn := .other } }
      s.queueDistinct ∧ s.holdersDistinct ∧ (s.lane .a).txn = none ∧ (lanesAct s).blockCounts .a 2 .load = true := by
  intro h hh
  simp only [List.mem_cons, List.not_mem_nil, or_false] at hh
  rcases hh with rfl | rfl
  all_goals
    refine ⟨⟨by decide, by decide⟩, fun l k hk => ?_, rfl, by decide⟩
    cases l <;> cases hk
    decide

/-- A step of another job after a turn of kind LOAD; each row of Figure 7-2 for a job alone and for a group, with its block
in a buffer and not; and a state in which nothing is eligible or ready. -/
theorem witness_ArbiterOrder_restore :
    ((holding (.single 2) .opn).firstJob ((holding (.single 2) .opn).eligible .a) (jobIn 1 0 .probe) ∧
      ((holding (.single 2) .opn).lane .a).lastTurn = .load ∧
      holderTurn .a (holding (.single 2) .opn) = some (Turn.ofJob .opn { jobIn 2 1 .opn with fill := 1 }) ∧
      ((twoJobs.lane .a).lastTurn ≠ .load ∧ (∀ j ∈ quiet.engine.queue, ¬quiet.eligible .a j) ∧
        holderTurn .a quiet = none ∧ (quiet.lane .a).holder = none)) ∧
    ((holding (.single 2) .load).fullWith .a ((holding (.single 2) .load).slotOf 2) 1 0 ∧
      (∀ i, ¬twoJobs.fullWith .a (twoJobs.slotOf 2) 1 i) ∧
      ∀ k ∈ [JobState.opn, .load, .close],
        (holding (.single 2) k).job? 2 = some { jobIn 2 1 k with fill := 1 }) ∧
    ((holding (.group [2] 1 none) .opn).firstOf [2] (·.state = .opn) { jobIn 2 1 .opn with fill := 1 } ∧
      (holding (.group [2] 1 (some [2])) .load).firstOf [2] (fun _ => True) { jobIn 2 1 .load with fill := 1 } ∧
      (holding (.group [2] 2 none) .close).firstOf [2] (·.state = .close) { jobIn 2 1 .close with fill := 1 }) ∧
    1 < (holding (.group [2] 1 none) .load).lengthOf 2 ∧ (holding (.group [2] 2 none) .close).lengthOf 2 ≤ 2 := by
  refine ⟨⟨⟨⟨rfl, .inl rfl, by decide⟩, [], _, rfl, by simp⟩, rfl, by decide, by decide, ?_, by decide, rfl⟩,
    ⟨?_, ?_, by decide⟩, ⟨?_, ?_, ?_⟩, by decide, by decide⟩
  · intro j h; cases h
  · unfold State.fullWith; decide
  · intro i h; have e : twoJobs.heldBy .a = [] := by decide
    rw [State.fullWith, e] at h; simp at h
  all_goals exact ⟨by decide, rfl, [], 2, [], rfl, by decide, by simp⟩

theorem witness_ContextFrameCarriesRelease :
    (txnOf .context (.push 2) (some 2)).step = .context ∧ pushing.station? 2 = some display ∧
      (pushing.lane .a).injection = none := by decide

/-- The counts 1 and 8, and a frame begun of each kind of injection, which brings the count to 0 or does not. -/
theorem witness_InjectionAltersAFrame :
    quiet.serves ∧ laneOfCode (0 : Byte).toNat = some .a ∧ InjectionKind.ofCode (1 : Byte).toNat = some .drop ∧
      1 ≤ (1 : Byte).toNat ∧ (8 : Byte).toNat ≤ 8 ∧
      (∀ kind n, (let s := quiet.setLane .a { quiet.laneA with injection := some { kind := kind, count := n + 1 } };
        (s.lane .a).injection = some { kind := kind, count := n + 1 })) ∧
      (txnOf .block (.job 2 1) (some 2)).step = .block ∧ (txnOf .probe (.job 2 1) (some 2)).step ≠ .block :=
  ⟨quiet_serves, by decide, by decide, by decide, by decide, fun _ _ => rfl, rfl, by decide⟩

theorem witness_FlashProgramAndErase :
    Memory.wf [(0, 0x12#8), (255, 0x34#8)] = true ∧ (List.replicate 256 (0 : Byte)).length = 256 := by decide +kernel

/-- A flash operation running. -/
def running (op : FlashOp) (s : State) : State :=
  { s with store := { s.store with running := some op, chipSelect := .inUse } }

def writeIn (phase : WritePhase) (next : Nat) : ImageWrite :=
  { slot := 15, image := image2, phase := phase, nextIndex := next, sectorsErased := 16, readIndex := 0, crcSoFar := 0 }

/-- An image write of slot 15, which owns buffer 0. -/
def writing (phase : WritePhase) (next : Nat) : State :=
  (quiet.setSlot 15 .writing).setBuffer 0
      { Buffer.unowned with owner := some .imageWrite, slot := 15, state := .full } |> fun s =>
    { s with store := { s.store with imageWrite := some (writeIn phase next) } }

theorem writing_serves (phase : WritePhase) (next : Nat) : (writing phase next).serves :=
  ⟨rfl, rfl, rfl, rfl, rfl⟩

/-- A lane's READ running into buffer 3, the mark writer's PROGRAM, both pages of a park write, and the park area's
ERASE. -/
theorem witness_FlashCompletions :
    (let s := running { command := .read 2 1, who := .lane .a 3 } quiet;
      s.runs = true ∧ s.store.running = some { command := .read 2 1, who := .lane .a 3 } ∧ 3 < 4 ∧
        s.store.buffers.length = 4 ∧ (s.buffer 3).released = false) ∧
    ((quiet.setBuffer 3 { Buffer.unowned with owner := some (.lane .a), state := .filling, released := true }).buffer
      3).released = true ∧
    (∀ x ∈ (running { command := .program 2 0 markData, who := .markWriter 2 } quiet).store.queue,
      x.who.isMarkWriter = false) ∧
    (let p := parkWriting .page1 false 256; p.park.phase = .page1 ∧ (p.ownedBy .parkWriter).head? = some 0) ∧
    (let p := parkWriting .page2 false 257;
      p.park.phase = .page2 ∧ p.supply.state = .parking ∧ p.supply.heldRise = false ∧
        ∀ x ∈ p.store.waitList, x.who ≠ .parkWriter) ∧
    (running { command := .erase 0 1, who := .loader } quiet).loadingEnded = true := by
  decide

/-- The STATUS that a failure placed, with no buffer to free and with the one that an image write gave back as it failed,
while the device goes on with the failed ERASE. -/
theorem witness_FlashCompletions_recovery :
    let op : FlashOp := { command := .status, who := .recovery }
    let s := running op quiet
    let kept : State := s.setBuffer 0 { Buffer.unowned with owner := some .imageWrite, state := .full, released := true }
    s.runs = true ∧ s.store.running = some op ∧ (∀ i ∈ s.ownedBy .imageWrite, (s.buffer i).released = false) ∧
      writeBuffer? kept = some 0 ∧ (kept.buffer 0).released = true ∧ kept.store.waitList = [] ∧
      quiet.store.running = none ∧ kept.store.imageWrite = none ∧ quiet.store.configSave = none ∧
      ({ kept.flash with busy := some { op := { command := .erase 15 0, who := .imageWrite }, failed := true } } :
        Flash).busy.isSome = true := by decide

/-- An image write at both ends of its erasing, at a block, at the first and the last block of its readback, with the
CRC-32 of the image and with another, and at its header. -/
theorem witness_FlashCompletions_imageWrite :
    (∀ n, n + 1 < 16 ∨ n = 15 →
      ({ writing .erasing 0 with
        store := { (writing .erasing 0).store with imageWrite := some { writeIn .erasing 0 with sectorsErased := n } } } :
          State).store.imageWrite = some { writeIn .erasing 0 with sectorsErased := n }) ∧
    (writing .receiving 1).store.imageWrite = some (writeIn .receiving 1) ∧
    (let op : FlashOp := { command := .read 15 1, who := .imageWrite };
      let s := running op (writing .checking 2);
      s.runs = true ∧ s.store.running = some op ∧ s.store.imageWrite = some (writeIn .checking 2) ∧
        writeBuffer? s = some 0 ∧ (writeIn .checking 2).readIndex + 1 < image2.length ∧ s.store.slots.length = 15) ∧
    (let w : ImageWrite := { writeIn .checking 2 with readIndex := 1 };
      let crc := crc32Final (crc32Feed w.crcSoFar (quiet.flash.block 15 2));
      image2.length ≤ w.readIndex + 1 ∧ crc ≠ w.image.crc ∧
        crc = ({ w with image := { image2 with crc := crc } } : ImageWrite).image.crc) ∧
    (writeIn .committing 2).phase = .committing ∧ ∃ bytes : List Byte, bytes.length = 256 := by
  refine ⟨fun n _ => rfl, rfl, by decide +kernel, ⟨by decide, by decide +kernel, rfl⟩, rfl,
    List.replicate 256 0, List.length_replicate⟩

/-- A config save in each phase, of a record of one block and of two, read back equal and not. -/
theorem witness_FlashCompletions_configSave :
    let ones := fun n => List.replicate n (0xFF : Byte)
    let s := running { command := .read 0 0, who := .configSave } (setSave { record := ones 257, phase := .reading 0 } quiet)
    s.runs = true ∧ s.store.running = some { command := .read 0 0, who := .configSave } ∧
      s.store.configSave = some { record := ones 257, phase := .reading 0 } ∧
      s.flash.block 0 0 = recordBlock (ones 257) 0 ∧ 0 + 1 < recordBlocks (ones 257) ∧ recordBlocks (ones 256) ≤ 0 + 1 ∧
      s.flash.block 0 0 ≠ recordBlock [0] 0 := by
  decide +kernel

/-- The loader at each step: its STATUS, a blank config area, the header of a record of two blocks, a valid record and one
that is not, the first and the last slot header, and both pages of the park record. -/
theorem witness_FlashCompletions_loader :
    let loads := fun (step : LoadingStep) (held : List Byte) =>
      ({ State.reset with loader := { State.reset.loader with step := step, held := held } } : State)
    let good := toBlock (configRecord Settings.default [])
    let long : List Byte := configMarker ++ [1, 0, 11, 1, 21]
    (State.reset.runs = true ∧ State.reset.loadingEnded = false ∧ State.reset.silent = false ∧
      State.reset.store.running = some { command := .status, who := .loader } ∧ State.reset.flash.busy = none ∧
      State.reset.loader.step = .status) ∧
    (configLength ((loads .config []).flash.block 0 0) = none ∧
      configLength (({ cells := [], torn := [], busy := none } : Flash).program 0 0 long |>.block 0 0) = some 267 ∧
      (loads .config []).torn 0 0 = false ∧ 256 < 267) ∧
    (readConfig good = some (Settings.default, []) ∧ configLength good = some 36 ∧
      (loads .config good).loader.held ≠ [] ∧ readConfig ([0] ++ (loads .config [0]).flash.block 0 1) = none) ∧
    ((loads .headers []).loader.nextSlot = 1 ∧ (1 < 15 ∧ ¬15 < 15)) ∧
    (loads .park []).loader.held = [] ∧ (loads .park good).loader.held ≠ [] ∧ (loads .park good).store.queue = [] ∧
    (gapOpen .parking State.reset).silent = true ∧ (gapOpen .parking State.reset).loadingEnded = false := by
  decide

/-- The image write's ERASE timing out; and, in PARKING with the park writer waiting for a buffer, the PROGRAM of an image
write that was abandoned. -/
theorem witness_StoreTimeoutsTaken :
    (let op : FlashOp := { command := .erase 15 0, who := .imageWrite };
      let r := running op (writing .erasing 0);
      let s := dueFirst .storeOperation r;
      s.dueNow .storeOperation r.timebase 0 ∧ s.store.running = some op ∧ op.who = .imageWrite ∧
        s.store.imageWrite = some (writeIn .erasing 0) ∧ s.storeBounded ∧ 1 ≤ 15 ∧ 15 ≤ 15) ∧
    (let op : FlashOp := { command := .program 15 1 [], who := .imageWrite };
      let p : State :=
        { running op quiet with
          supply := { quiet.supply with state := .parking }
          store := { (running op quiet).store with waitList := [{ who := .parkWriter, count := 1 }] } };
      let s := dueFirst .storeOperation p;
      s.dueNow .storeOperation p.timebase 0 ∧ s.store.running = some op ∧ op.who ≠ .parkWriter ∧
        s.supply.state ≠ .parked) :=
  ⟨⟨dueFirst_due _ _ (by decide) (by decide), rfl, rfl, rfl, storeBounded_of _ (by decide), by decide, by decide⟩,
    dueFirst_due _ _ (by decide) (by decide), rfl, by decide, by decide⟩

/-- The timeouts of a config save, of one that was abandoned, of the mark writer with another slot to mark, of the loader's
ERASE, of an image write that has ended, with its buffer given back and with none, and of the park writer. -/
theorem witness_StoreTimeoutsTaken_others :
    let due := fun (op : FlashOp) (r : State) =>
      let s := dueFirst .storeOperation (running op r);
      s.dueNow .storeOperation r.timebase 0 ∧ s.store.running = some op
    (due { command := .erase 0 0, who := .configSave } (setSave { record := [], phase := .erasing } quiet) ∧
      (setSave { record := [], phase := .erasing } quiet).store.configSave = some { record := [], phase := .erasing } ∧
      quiet.store.configSave = none ∧ due { command := .erase 0 0, who := .configSave } quiet ∧
      due { command := .erase 0 1, who := .loader } quiet) ∧
    (due { command := .program 2 0 markData, who := .markWriter 2 }
        { quiet with store := { quiet.store with markList := [2, 3] } } ∧
      ∀ x ∈ quiet.store.queue, x.who.isMarkWriter = false) ∧
    (let kept : State := quiet.setBuffer 0 { Buffer.unowned with owner := some .imageWrite, state := .full, released := true };
      due { command := .erase 15 0, who := .imageWrite } kept ∧ kept.store.imageWrite = none ∧
        writeBuffer? kept = some 0 ∧ (kept.buffer 0).released = true ∧ kept.store.waitList = [] ∧
        ∀ i ∈ quiet.ownedBy .imageWrite, (quiet.buffer i).released = false) ∧
    let p := parkWriting .page1 false 256
    due { command := .program 0 256 [0], who := .parkWriter } p ∧ p.supply.state = .parking ∧ p.supply.heldRise = false ∧
      ∀ x ∈ p.store.waitList, x.who ≠ .parkWriter :=
  ⟨⟨⟨dueFirst_due _ _ (by decide) (by decide), rfl⟩, rfl, rfl, ⟨dueFirst_due _ _ (by decide) (by decide), rfl⟩,
      dueFirst_due _ _ (by decide) (by decide), rfl⟩,
    ⟨⟨dueFirst_due _ _ (by decide) (by decide), rfl⟩, by decide⟩,
    ⟨⟨dueFirst_due _ _ (by decide) (by decide), rfl⟩, rfl, by decide, by decide, rfl, by decide⟩,
    ⟨dueFirst_due _ _ (by decide) (by decide), rfl⟩, rfl, rfl, by decide⟩

/-- R140: the STATUS of a failed operation is issued before the park writer's first page, and R145: until it completes an
IMAGE OPEN is answered BUSY. -/
theorem test_status_before_page_1 :
    let op : FlashOp := { command := .program 15 1 [], who := .imageWrite }
    let p : State :=
      { running op quiet with
        supply := { quiet.supply with state := .parking }
        store :=
          { (running op quiet).store with
            buffers := { Buffer.unowned with owner := some .imageWrite, state := .programming, released := true } ::
              List.replicate 3 { Buffer.unowned with owner := some (.lane .a), state := .full }
            waitList := [{ who := .parkWriter, count := 1 }] } }
    let t := after .storeOperationTimeoutExpiry (dueFirst .storeOperation p)
    t.store.running = some { command := .status, who := .recovery } ∧ t.store.queue.map (·.who) = [.parkWriter] ∧
      openBusy 1 t = true := by decide

/-- IMAGE OPEN of slot 2, for the display's image; a job of it waits in LOADWAIT. -/
def openPayload : List Byte := [2, 1] ++ le32 7 ++ le16 4 ++ le16 4095 ++ le32 9

def waiting : State :=
  { twoStations with engine := { twoStations.engine with phase := .active, queue := [jobIn 2 0 .loadwait] } }

theorem witness_ImageOpenTaken :
    waiting.serves ∧ openPayload.length = 14 ∧
      readOpen openPayload = some (2, { kind := .saloon, tag := 7, generation := 4, length := 4095, crc := 9 }) ∧
      waiting.slot 2 ≠ .writing ∧ openBusy 2 waiting = false ∧ openConflicts 2 .saloon waiting = false ∧
      waiting.store.slots.length = 15 ∧ waiting.queueDistinct :=
  ⟨⟨by decide, by decide, by decide, rfl, rfl⟩, by decide, by decide, by decide, by decide, by decide,
    by decide, by decide, by decide⟩

/-- A part without jobs, with a FREE buffer and with none; and one whose only job waits, outside every holder. -/
theorem witness_ImageOpenTaken_buffers :
    twoStations.serves ∧ openBusy 2 twoStations = false ∧ twoStations.store.running = none ∧
      twoStations.store.queue = [] ∧ twoStations.store.markList = [] ∧ twoStations.store.waitList = [] ∧
      twoStations.engine.queue = [] ∧ twoStations.storeBounded ∧ twoStations.waitListSound ∧
      (twoStations.buffer 0).state = .free ∧ waiting.endsRun [2] = true ∧
      (∀ l h, (waiting.lane l).holder = some h → 2 ∉ h.stations) ∧
      (let s : State :=
          { waiting with store := { waiting.store with buffers := List.replicate 4 (blockOf2 0 .full |> fun b => { b with slot := 9, owner := some .parkWriter }) } };
        s.serves ∧ s.storeBounded ∧ s.waitListSound ∧ openBusy 2 s = false ∧
          ∀ i, i < 4 → (s.buffer i).state ≠ .free) := by
  refine ⟨twoStations_serves, by decide, rfl, rfl, rfl, rfl, rfl, storeBounded_of _ (by decide),
    waitListSound_of_nil _ rfl, rfl, by decide, fun l h e => (by cases l <;> cases e),
    ⟨⟨by decide, by decide, by decide, rfl, rfl⟩, storeBounded_of _ (by decide),
      waitListSound_of_nil _ rfl, by decide, by decide⟩⟩

/-- R81, R89, R145: the job that waits fails with NO_IMAGE and ends the run, and the ERASE of sector 0 is issued. -/
theorem test_image_open_fails_jobs :
    let t := after (.imageOpen 9 openPayload) waiting
    t.link.notices.map (·.body.code) = [8, 6, 7] ∧ t.engine.phase = .idle ∧
      t.store.running = some { command := .erase 2 0, who := .imageWrite } := by decide +kernel

/-- The last block of the image; the close after it; and the abort. -/
theorem witness_ImageWriteRequests :
    (writing .receiving 1).serves ∧ writeOf (15 : Byte).toNat (writing .receiving 1) = some (writeIn .receiving 1) ∧
      (writeIn .receiving 1).nextIndex < image2.length ∧ (List.replicate 256 (7 : Byte)).length = 256 ∧
      writeBuffer? (writing .receiving 1) = some 0 ∧ ((writing .receiving 1).buffer 0).state ≠ .programming ∧
      (writing .receiving 2).serves ∧ writeOf (15 : Byte).toNat (writing .receiving 2) = some (writeIn .receiving 2) ∧
      image2.length ≤ (writeIn .receiving 2).nextIndex ∧ writeProgramming (writing .receiving 2) = false ∧
      (writeIn .receiving 2).phase ≠ .committing ∧ (writing .receiving 2).store.slots.length = 15 :=
  ⟨writing_serves _ _, by decide +kernel, by decide, by decide +kernel, by decide +kernel, by decide +kernel,
    writing_serves _ _, by decide +kernel, by decide, by decide +kernel, by decide, by decide +kernel⟩

/-- An abort while a block is programmed, and one while the buffer is FULL. -/
theorem witness_ImageWriteRequests_abort :
    let op : FlashOp := { command := .program 15 1 [], who := .imageWrite }
    let s := running op ((writing .receiving 1).setBuffer 0
      { Buffer.unowned with owner := some .imageWrite, slot := 15, state := .programming })
    s.serves ∧ writeOf (15 : Byte).toNat s = some (writeIn .receiving 1) ∧ writeBuffer? s = some 0 ∧
      s.store.buffers.length = 4 ∧ s.store.running = some op ∧ (s.buffer 0).state = .programming ∧
      ((writing .receiving 1).buffer 0).state = .full ∧ (writing .receiving 1).store.waitList = [] :=
  ⟨⟨rfl, rfl, rfl, rfl, rfl⟩, by decide +kernel, by decide +kernel, by decide +kernel, rfl, by decide +kernel,
    by decide +kernel, rfl⟩

/-- R145 to R148, R151, R115, R163, R165: the requests that name slots, lanes and settings, by the first check that each
fails. -/
theorem test_store_refusals :
    let block (slot index : Nat) : List Byte := byte slot :: le16 index ++ List.replicate 256 0
    let bad := openPayload.set 8 0
    statuses twoStations 0x10 [openPayload.dropLast, bad.set 9 0, openPayload.set 1 2, openPayload] =
        [.format, .range, .conflict, .ok] ∧
      statuses (writing .receiving 1) 0x10 [openPayload.set 0 15, openPayload] = [.state, .busy] ∧
      statuses (holding (.single 2) .load) 0x10 [openPayload] = [.busy] ∧
      statuses (writing .receiving 1) 0x11 [[15], block 14 1, block 15 0, block 15 1] = [.format, .state, .order, .ok] ∧
      statuses (writing .erasing 1) 0x11 [block 15 1] = [.busy] ∧
      statuses (writing .receiving 1) 0x12 [[], [14], [15]] = [.format, .state, .order] ∧
      statuses (writing .checking 2) 0x12 [[15]] = [.state] ∧
      statuses (writing .committing 2) 0x13 [[], [14], [15]] = [.format, .state, .busy] ∧
      statuses (writing .committing 2) 0x05 [[1], []] = [.format, .busy] ∧
      statuses quiet 0x15 [[0, 0], [2, 0, 1], [0, 3, 1], [0, 0, 9], [0, 0, 8]] = [.format, .range, .range, .range, .ok] ∧
      statuses quiet 0x02 [[], [2], [1]] = [.format, .format, .ok] ∧
      statuses quiet 0x03 [[0], [1, 17, 0, 0], [2, 0, 1, 0, 0, 2, 0], [1, 4, 0xDC, 5], [1, 13, 2, 0], [1, 0, 40, 0]] =
        [.format, .format, .format, .range, .range, .ok] := by
  decide +kernel

/-- A config save; each operation at the head of the queue with nothing running; and an operation running. -/
theorem witness_OperationsIssuedAndConfigSaved :
    quiet.serves ∧ quiet.store.configSave = none ∧ writeFinishing quiet = false ∧
      (∀ op : FlashOp, let s := queueOp op quiet;
        s.store.running = none ∧ s.supply.state ≠ .parked ∧ s.store.queue = op :: [] ∧ s.loader.step ≠ .erase) ∧
      (running { command := .status, who := .recovery } quiet).store.running.isSome = true :=
  ⟨quiet_serves, rfl, by decide, fun op => ⟨rfl, (by show quiet.supply.state ≠ .parked; decide), rfl,
    (by show quiet.loader.step ≠ .erase; decide)⟩, rfl⟩

/-- The longest payload, and none. -/
theorem witness_BytesMakeTheRequest :
    requestOfCommand (.imageBlock 9 (List.replicate 259 0)) = some (requestOf 0x11 9 (List.replicate 259 0)) ∧
      (List.replicate 259 (0 : Byte)).length ≤ 259 ∧
      requestOfCommand (.status 9 []) = some (requestOf 0x01 9 []) ∧ quiet.runs = true ∧
      quiet.link.receiver = .idle ∧ quiet.timebase.dueOf .interByte = none := by
  refine ⟨rfl, by decide +kernel, rfl, rfl, rfl, rfl⟩

theorem witness_RequestsMet :
    requestOfCommand (.gapRead 9 []) = some (requestOf 0x0F 9 []) ∧ (gapOpen .parked quiet).silent = true ∧
      quiet.silent = false ∧
      (let s : State :=
          { quiet with link := { quiet.link with held := [requestOf 1 1 [], requestOf 1 2 []], reply := some [] } };
        s.runs = true ∧ 2 ≤ s.link.held.length) ∧
      (let s : State := { quiet with link := { quiet.link with held := [requestOf 1 1 []], reply := some [] } };
        s.link.held.length < 2 ∧ s.link.reply.isSome = true ∧ s.link.held = requestOf 1 1 [] :: []) ∧
      State.reset.silent = false ∧ State.reset.loadingEnded = false ∧ State.reset.link.held = [] ∧
      State.reset.link.reply = none ∧ (requestOf 0x0F 9 []).kind ≠ 0x01 ∧ quiet.serves ∧
      WellFormed (.unknownRequestKind 0x16 9 []) = true :=
  ⟨rfl, by decide, by decide, ⟨rfl, by decide⟩, ⟨by decide, rfl, rfl⟩, by decide, by decide, rfl, rfl, by decide,
    quiet_serves, by decide⟩

/-- Headers of the least and the greatest impossible and possible lengths. -/
theorem witness_ReceiverByBytes :
    quiet.runs = true ∧ quiet.link.receiver = .idle ∧ ([6, 0] : List Byte).length < 3 ∧ 3 ≤ ([6, 0, 1] : List Byte).length ∧
      num16At ([5, 0, 1] ++ [1]) 0 < 6 ∧ 265 < num16At ([10, 1, 1] ++ [1]) 0 ∧ 6 ≤ num16At ([6, 0, 1] ++ [1]) 0 ∧
      (let body : List Byte := [6, 0, 9, 0x16]
        let frame := body ++ le16 (crc16 body).toNat
        frame.dropLast ++ [frame.getLastD 0] = body ++ le16 (crc16 body).toNat ∧
          frame.dropLast.length + 1 = num16At frame 0 ∧ 0x15 < (byteAt body 3).toNat ∧ quiet.serves ∧
          (gapOpen .parked quiet).silent = true ∧
          ∃ crc : Half, crc ≠ crc16 body ∧ [6, 0, 9, 0x16, 0] ++ [0] = body ++ le16 crc.toNat) ∧
      num16At ([9, 1, 1] ++ [1]) 0 ≤ 265 ∧ ([6, 0, 1] : List Byte).length + 1 < num16At ([6, 0, 1] ++ [1]) 0 ∧
      (let s := dueFirst .interByte { quiet with link := { quiet.link with receiver := .receiving [6, 0] } };
        s.dueNow .interByte quiet.timebase 0 ∧ s.link.receiver = .receiving [6, 0]) ∧
      (let s := dueFirst .interByte { quiet with link := { quiet.link with receiver := .discarding } };
        s.dueNow .interByte quiet.timebase 0 ∧ s.link.receiver = .discarding) :=
  ⟨rfl, rfl, by decide, by decide, by decide, by decide, by decide,
    ⟨by decide, by decide, by decide, quiet_serves, rfl, 0, by decide, by decide⟩, by decide, by decide,
    ⟨dueFirst_due _ _ (by decide) (by decide), rfl⟩, dueFirst_due _ _ (by decide) (by decide), rfl⟩

theorem witness_StatusAndNoticeFetch :
    State.reset.servesStatus ∧ quiet.servesStatus ∧ quiet.link.notices = [] ∧ quiet.link.lastFetched = none ∧
      (let n : Notice := { number := 4, body := .presence 1 .seen };
        let s : State := { quiet with link := { quiet.link with notices := [n], lastFetched := some n } };
        s.servesStatus ∧ s.link.notices = n :: [] ∧ s.link.lastFetched = some n) :=
  ⟨⟨rfl, rfl, rfl, rfl⟩, ⟨rfl, rfl, rfl, rfl⟩, rfl, rfl, ⟨rfl, rfl, rfl, rfl⟩, rfl, rfl⟩

/-- R158, R160: STATUS is answered while loading goes on. -/
theorem test_status_while_loading : statuses State.reset 0x01 [[]] = [.ok] := by decide

/-- One pair past its range, and values at the ends of each kind of range. -/
theorem witness_SettingsSetTaken :
    quiet.serves ∧ settingsLayout [1, 0, 40, 0] = true ∧
      (∃ x, putSettings (settingPairs [1, 0, 40, 0]) quiet.settings = some x) ∧
      (∀ code : Fin 17, (Settings.default.put code 1).isSome = true ∨ code = 4 ∨ code = 5) ∧
      (Settings.default.put 4 2000).isSome = true ∧ (Settings.default.put 5 500).isSome = true ∧
      (Settings.default.put 16 0).isSome = true ∧ (Settings.default.put 16 2047).isSome = true :=
  ⟨quiet_serves, by decide, ⟨_, rfl⟩, by decide, by decide, by decide, by decide, by decide⟩

/-- Loading, a disabled kind, an empty queue and a full one. -/
theorem witness_NoticePosted :
    State.reset.loadingEnded = false ∧ noticeEnabled 1#11 8 = false ∧ quiet.loadingEnded = true ∧
      quiet.settings.noticeMask.getLsbD (8 - 1) = true ∧ quiet.link.notices.length < 16 ∧
      16 ≤ (List.replicate 16 ({ number := 0, body := .presence 1 .seen } : Notice)).length := by decide

theorem witness_HeaderReadsBack :
    (∃ im : Image, 1 ≤ im.length ∧ im.length ≤ 4095 ∧ im.generation < 65536) ∧
      (({ image2 with length := 4095, generation := 65535 } : Image).length ≤ 4095) :=
  ⟨⟨image2, by decide, by decide, by decide⟩, by decide⟩

/-- The greatest table: 24 stations on both lanes. -/
def manyEntries : List Entry :=
  (List.range 24).map fun i =>
    { door.entry with number := i + 1, aliasNo := i + 1, lane := if i < 12 then .a else .b, address := i + 1 }

/-- A record of one block, and the longest, of two. -/
theorem witness_ConfigReadsBack :
    Settings.default.inRange ∧ [door.entry, farEntry].length ≤ 24 ∧ entriesAgree [door.entry, farEntry] = true ∧
      farEntry.inRange ∧ farEntry.capacity * farEntry.ratio ≤ 65535 ∧
      (door.entry.kind = .entrance ↔ door.entry.side.isSome = true) ∧
      (farEntry.kind = .entrance ↔ farEntry.side.isSome = true) ∧
      (configRecord Settings.default [door.entry, farEntry]).length ≤ 256 ∧
      manyEntries.length ≤ 24 ∧ entriesAgree manyEntries = true ∧
      (∀ e ∈ manyEntries, e.inRange ∧ e.capacity * e.ratio ≤ 65535 ∧ (e.kind = .entrance ↔ e.side.isSome = true)) ∧
      (configRecord Settings.default manyEntries).length = 300 :=
  ⟨by unfold Settings.inRange; decide, by decide, by decide, by unfold Entry.inRange; decide, by decide, by decide,
    by decide, by decide, by decide, by decide, by unfold Entry.inRange; decide, by decide +kernel⟩

theorem witness_ParkReadsBack :
    (List.replicate 24 display).length ≤ 24 ∧ display.sound { motion := .moving, side := .none } ∧
      ∀ k v, display.context.fields.get k = some v → fieldBelongs display.entry.kind k = true := by
  refine ⟨by decide, display_sound _, ?_⟩
  intro k v h
  have : display.context.fields.get k = none := by
    show Fields.blank.get k = none
    unfold Fields.get Fields.blank
    split <;> rfl
  rw [this] at h
  cases h

theorem witness_LaneFramesReadBack :
    (255 < 256 ∧ ([] : List Byte).length < 65536) ∧
      (let r : Report := { runningReport with fill := 4095, generation := 65535, epoch := 65535 };
        r.generation < 65536 ∧ r.fill ≤ 4095 ∧ r.epoch < 65536) := by decide

end Sys2Proof.Tests
end

section
/-! PROOFS. The deadline list, the confirm filter, the confirmed edges within a gap and the holdup samples (spec/01, spec/02). -/

namespace Sys2Proof.Machine

/-! ### The deadline list -/

theorem find_insertDeadline (count : Time) (e : Deadline) (p : Purpose) {ds : List Deadline}
    (h : ∀ d ∈ ds, d.purpose ≠ e.purpose) :
    (insertDeadline count e ds).find? (·.purpose = p) =
      if p = e.purpose then some e else ds.find? (·.purpose = p) := by
  induction ds with
  | nil => by_cases hp : p = e.purpose <;> simp [insertDeadline, hp, eq_comm]
  | cons d ds ih =>
    have hd : d.purpose ≠ e.purpose := h d (List.mem_cons_self ..)
    have ih := ih fun x hx => h x (List.mem_cons_of_mem _ hx)
    unfold insertDeadline
    split
    · by_cases hp : p = e.purpose <;> simp [hp, eq_comm]
    · by_cases hp : p = e.purpose
      · subst hp
        simp [ih, hd]
      · simp [List.find?_cons, ih, hp]

theorem find_withoutPurpose (p q : Purpose) (ds : List Deadline) :
    (withoutPurpose p ds).find? (·.purpose = q) = if q = p then none else ds.find? (·.purpose = q) := by
  unfold withoutPurpose
  split
  · rename_i h
    subst h
    simp [List.find?_eq_none]
  · rename_i h
    rw [List.find?_filter]
    refine congrArg (List.find? · ds) (funext fun d => ?_)
    by_cases hd : d.purpose = q <;> simp [hd, h]

@[simp] theorem Timebase.set_count (t : Timebase) (p : Purpose) (due : Time) : (t.set p due).count = t.count := rfl

@[simp] theorem Timebase.remove_count (t : Timebase) (p : Purpose) : (t.remove p).count = t.count := rfl

@[simp] theorem Timebase.dueOf_set (t : Timebase) (p q : Purpose) (due : Time) :
    (t.set p due).dueOf q = if q = p then some due else t.dueOf q := by
  unfold Timebase.dueOf Timebase.set
  rw [find_insertDeadline, find_withoutPurpose]
  · split <;> rfl
  · intro d hd
    simpa using List.of_mem_filter hd

@[simp] theorem Timebase.dueOf_remove (t : Timebase) (p q : Purpose) :
    (t.remove p).dueOf q = if q = p then none else t.dueOf q := by
  unfold Timebase.dueOf Timebase.remove
  rw [find_withoutPurpose]
  split <;> rfl

/-- The delivery of an expiry leaves the count. -/
theorem State.dueNow.count {s : State} {p : Purpose} {left : Timebase} {due : Time} (h : s.dueNow p left due) :
    left.count = s.timebase.count := by
  obtain ⟨_, _, _, _, _, _, rfl⟩ := Timebase.expire_eq h.2
  rfl

/-- A command that delivers an expiry, of an entry that is due: the owner acts on the list without it. -/
theorem whileRunning_onExpiry {s : State} {p : Purpose} {left : Timebase} {due : Time} (h : s.dueNow p left due)
    (act : Time → State → State) : whileRunning (onExpiry p act) s = .next (act due (s.withTimebase left)) := by
  rw [whileRunning_runs h.1, onExpiry_due h]

/-- Some expiry is delivered exactly while the head of the list is due. -/
theorem Timebase.expiryDue_iff (t : Timebase) :
    t.expiryDue = true ↔ ∃ (p : Purpose) (left : Timebase) (due : Time), t.expire p = some (left, due) := by
  unfold Timebase.expiryDue Timebase.expire
  cases t.deadlines with
  | nil => simp
  | cons d ds =>
    constructor
    · intro h
      exact ⟨d.purpose, _, _, by simp [h]; exact ⟨rfl, rfl⟩⟩
    · rintro ⟨p, left, due, h⟩
      dsimp only at h ⊢
      split at h
      · rename_i hd
        simp only [Bool.and_eq_true] at hd
        exact hd.2
      · cases h

/-- Settles O13. -/
theorem tickAndHorizon : Obligations.TickAndHorizon := by
  refine ⟨fun s hs => ⟨fun he => ⟨s.timebase.count + 1, ?_, ?_⟩, fun he => ?_⟩, Timebase.expiryDue_iff,
    fun s left due h => ?_⟩
  · simp [BitVec.toNat_add]
  · simp only [exec, execMillisecondTick, whileRunning_runs hs, Timebase.tick_early he, State.withTimebase]
  · simp only [exec, execMillisecondTick, whileRunning_runs hs, Timebase.tick_due he]
  · simp only [exec, execSpanHorizonExpiry, whileRunning_onExpiry h]
    rfl

/-! ### The confirm filter (R1 to R3) -/

theorem filterLength_loaded {s : State} (h : s.loadingEnded = true) :
    filterLength .absent s = s.settings.fallFilter ∧ filterLength .present s = s.settings.riseFilter := by
  simp [filterLength, h]

theorem filterLength_loading {s : State} (h : s.loadingEnded = false) :
    filterLength .absent s = 2 ∧ filterLength .present s = 10 := by
  simp [filterLength, h, Settings.default]

/-- SETTINGS SET limits the filter lengths to their ranges. -/
theorem Settings.put_filters (x y : Settings) (v : Nat) :
    (x.put 0 v = some y → 1 ≤ y.fallFilter ∧ y.fallFilter ≤ 15) ∧
      (x.put 1 v = some y → 1 ≤ y.riseFilter ∧ y.riseFilter ≤ 255) := by
  constructor <;> intro h <;> cases h <;> exact clamp_range (by omega) v

/-- Settles O14. -/
theorem rawChangeFiltered : Obligations.RawChangeFiltered := by
  refine ⟨fun level s hs hr => ⟨fun hc => ?_, fun hc => ?_⟩, fun s => filterLength_loaded,
    fun s => filterLength_loading, rfl, rfl, Settings.put_filters⟩
  · simp only [exec, execRawLineChange, whileRunning_runs hs, rawChange, if_neg hr, if_neg hc]
    rfl
  · simp only [exec, execRawLineChange, whileRunning_runs hs, rawChange, if_neg hr, if_pos hc]
    rfl

/-! ### Confirmed edges -/

/-- The filter confirm expiry confirms a candidate, in the state that the delivery leaves. -/
theorem exec_filterConfirmExpiry {s : State} {left : Timebase} {due : Time} (h : s.dueNow .filterConfirm left due) :
    exec .filterConfirmExpiry s = .next (confirmFilter (s.withTimebase left)) :=
  whileRunning_onExpiry h fun _ s => confirmFilter s

/-- The state in which a confirmed edge is acted on: its expiry delivered, the candidate gone, the level followed. -/
def State.confirming (s : State) (left : Timebase) (level : LineLevel) : State :=
  { s with timebase := left, supply := { s.supply with confirmed := level, candidate := none } }

theorem confirmFilter_fall {s : State} {raw : Time} (h : s.supply.candidate = some ⟨.absent, raw⟩) (left : Timebase) :
    confirmFilter (s.withTimebase left) = confirmedFall raw (s.confirming left .absent) := by
  simp only [confirmFilter, State.withTimebase, h]
  rfl

theorem confirmFilter_rise {s : State} {raw : Time} (h : s.supply.candidate = some ⟨.present, raw⟩) (left : Timebase) :
    confirmFilter (s.withTimebase left) = confirmedRise raw (s.confirming left .present) := by
  simp only [confirmFilter, State.withTimebase, h]
  rfl

/-- Settles O17. -/
theorem edgesInParking : Obligations.EdgesInParking := by
  intro s left due raw level h hp hc
  rw [exec_filterConfirmExpiry h]
  have hs : ∀ x, (s.confirming left x).supply.state = .parking := fun _ => hp
  cases level with
  | absent =>
    rw [confirmFilter_fall hc]
    simp only [confirmedFall, hs]
    rfl
  | present =>
    rw [confirmFilter_rise hc]
    simp only [confirmedRise, hs]
    rfl

/-- A rebound: its record, the refill and the recorded fall, and the deadlines; nothing else. -/
theorem rebound_eq (raw : Time) (g : GapRecord) (s : State) :
    rebound raw g s =
      { s with
        timebase := (s.timebase.remove .settle).set .spanHorizon (raw + 65535)
        supply :=
          { s.supply with state := .gap, horizonMark := false, lastFall := some raw, openGap := some g.rebound }
        stations := s.stations.map (Station.atFall false (spanOf s.supply.horizonMark raw s.estimator.lastRise))
        estimator := { s.estimator with lastFall := some raw } } := rfl

/-- A rise in GAP: the record, the drain and the recorded rise, and the deadlines; nothing else. -/
theorem riseInGap_eq (raw : Time) (s : State) :
    riseInGap raw s =
      { s with
        timebase :=
          (s.timebase.set .settle (raw + ms s.settings.settleWindow)).set .spanHorizon (raw + 65535)
        supply :=
          { s.supply with
            state := .settle, horizonMark := false
            openGap := s.supply.openGap.map (GapRecord.rise raw (s.supply.lastFall.getD 0)) }
        stations :=
          s.stations.map (Station.atRise (spanOf s.supply.horizonMark raw (s.estimator.lastFall.getD 0)))
        estimator := { s.estimator with lastRise := raw } } := rfl

/-- Settles O16. -/
theorem edgesWithinAGap : Obligations.EdgesWithinAGap := by
  intro s left due raw g h hg
  rw [exec_filterConfirmExpiry h]
  refine ⟨fun hp hc => ?_, fun f lf hp hc hf hlf => ?_⟩
  · have hs : (s.confirming left .absent).supply.state = .settle := hp
    have ho : (s.confirming left .absent).supply.openGap = some g := hg
    rw [confirmFilter_fall hc]
    simp only [confirmedFall, hs, ho, rebound_eq]
    refine ⟨_, rfl, h.count, by simp, by simp, fun p h1 h2 => ?_⟩
    simp [h1, h2, State.confirming]
  · have hs : (s.confirming left .present).supply.state = .gap := hp
    rw [confirmFilter_rise hc]
    simp only [confirmedRise, hs]
    simp only [riseInGap_eq, State.confirming, hg, hf, hlf]
    refine ⟨_, rfl, h.count, by simp, by simp, fun p h1 h2 => ?_⟩
    simp [h1, h2]

/-! ### The holdup bank (R9 to R12) -/

/-- The level is the greatest k of 1..15 whose voltage, 2.50 V and 0.25 V for each k, is reached. -/
theorem holdupLevel_spec (mv : Nat) :
    holdupLevel mv ≤ 15 ∧ (0 < holdupLevel mv → 2500 + 250 * holdupLevel mv ≤ mv) ∧
      ∀ k, 1 ≤ k → k ≤ 15 → 2500 + 250 * k ≤ mv → k ≤ holdupLevel mv := by
  unfold holdupLevel
  refine ⟨Nat.min_le_left .., fun _ => ?_, fun k _ _ _ => ?_⟩ <;> omega

/-- The minimum holdup follows the samples of an open gap. -/
theorem GapRecord.sampled_eq (level : Nat) (g : GapRecord) :
    g.sampled level =
      { g with
        minHoldup := some (match g.minHoldup with
          | none => level
          | some m => min m level) } := by
  unfold GapRecord.sampled
  cases g.minHoldup <;> rfl

/-- The holdup sample expiry takes a sample, in the state that the delivery leaves. -/
theorem exec_holdupSampleExpiry {s : State} {left : Timebase} {due : Time} (h : s.dueNow .holdupSample left due)
    (mv : Nat) : exec (.holdupSampleExpiry mv) s = .next (holdupSampled mv due (s.withTimebase left)) :=
  whileRunning_onExpiry h (holdupSampled mv)

theorem sampleInterval_eq {x : SupplyState} (h : x ≠ .parked) :
    sampleInterval x = some (if x = .line then 64 else 2) := by
  cases x <;> first | rfl | exact absurd rfl h

/-- Settles O19. -/
theorem holdupSampleTaken : Obligations.HoldupSampleTaken := by
  refine ⟨holdupLevel_spec, fun s left due mv h hp hl => ?_⟩
  have hd : parkDecided (holdupLevel mv) (s.withTimebase left) = false := by
    rcases hl with hl | hl
    · simp [parkDecided, State.withTimebase, hl]
    · simp [parkDecided, State.withTimebase, Nat.not_le_of_lt hl]
  have hp' : (s.withTimebase left).supply.state ≠ .parked := hp
  have hi : sampleInterval (takeSample (holdupLevel mv) (s.withTimebase left)).supply.state =
      some (if s.supply.state = .line then 64 else 2) := sampleInterval_eq hp
  rw [exec_holdupSampleExpiry h]
  simp only [holdupSampled, hd, if_neg hp', rescheduleSample, hi, Bool.false_eq_true, if_false]
  simp only [takeSample, State.updSupply, State.withTimebase, setDeadline, funext (GapRecord.sampled_eq _)]
  split <;> rfl

end Sys2Proof.Machine
end

section
/-! PROOFS. The requests that read, the state after reset, and cold starts (spec/09, spec/10). -/

namespace Sys2Proof.Machine

/-! ### Requests that read -/

/-- A request that the part takes and that changes nothing is answered OK at once. -/
theorem exec_taken {s : State} {i : Instr} (r : Request) {payload : List Byte} (hs : s.serves)
    (hr : requestOfCommand i = some r) (hk : serveKind r s = taken payload s) :
    exec i s = .next (s.replying r.kind r.tag .ok payload) := by
  rw [exec_request hr, whileRunning_runs hs.1, arrive_serves hs, hk]
  rfl

theorem serveNodeRead_found {byNumber : Bool} {v : Byte} {s : State} {st : Station}
    (h : readNamed byNumber v.toNat s = some st) :
    serveNodeRead [flagByte byNumber, v] s = taken (nodeBytes st s) s := by
  have hf : flagOf (flagByte byNumber) = some byNumber := by cases byNumber <;> rfl
  simp only [serveNodeRead, hf, h]

theorem serveContextRead_found {a : Byte} {s : State} {st : Station} (h : s.aliased? a.toNat = some st) :
    serveContextRead [a] s = taken (contextBytes st) s := by
  simp only [serveContextRead, h]

/-- Settles O27. -/
theorem readsChangeNothing : Obligations.ReadsChangeNothing := by
  intro s tag v hs
  refine ⟨exec_taken (requestOf 0x04 tag []) hs rfl rfl, exec_taken (requestOf 0x0F tag []) hs rfl rfl,
    exec_taken (requestOf 0x14 tag []) hs rfl rfl, fun st h => ⟨?_, ?_⟩, fun st h => ?_⟩
  · exact exec_taken (requestOf 0x08 tag [0, v]) hs rfl (serveNodeRead_found (byNumber := false) h)
  · exact exec_taken (requestOf 0x0B tag [v]) hs rfl (serveContextRead_found h)
  · exact exec_taken (requestOf 0x08 tag [1, v]) hs rfl (serveNodeRead_found (byNumber := true) h)

/-! ### The state after reset -/

theorem reset_deadlines : State.reset.deadlinesDistinct ∧ State.reset.deadlinesOrdered := by
  unfold State.deadlinesDistinct State.deadlinesOrdered
  decide

theorem reset_link : State.reset.attentionFollows ∧ State.reset.holdingBounded := by
  unfold State.attentionFollows State.holdingBounded
  decide

/-- No job, no push entry and no load holder. -/
theorem reset_queue :
    State.reset.queueDistinct ∧ State.reset.holdersDistinct ∧ State.reset.queueOrdered ∧ State.reset.lanesSilent := by
  refine ⟨⟨.nil, fun p hp => ?_⟩, fun l h e => ?_, ⟨.nil, fun j hj => ?_, fun _ => rfl⟩, .inr fun l => ?_⟩
  · cases hp
  · cases l <;> cases e
  · cases hj
  · cases l <;> exact ⟨rfl, rfl⟩

/-- No station is defined. -/
theorem reset_stations : State.reset.stationsOrdered ∧ State.reset.stationsSound ∧ State.reset.directorySound := by
  have ordered : State.reset.stationsOrdered := .nil
  refine ⟨ordered, fun st h => ?_, ordered, fun st h => ?_, .nil, .nil, fun _ => Nat.zero_le _⟩ <;> cases h

theorem reset_store : State.reset.storeBounded ∧ State.reset.waitListSound ∧ State.reset.outputsFollow := by
  refine ⟨⟨rfl, rfl, fun l => ?_, fun b hb _ => ?_⟩, ⟨.nil, fun r hr => ?_, fun r hr => ?_⟩, fun l => ?_, rfl⟩
  · cases l <;> decide
  · rw [List.eq_of_mem_replicate hb]
    rfl
  · cases hr
  · cases hr
  · cases l <;> rfl

/-- Settles O8. -/
theorem resetIsSound : Obligations.ResetIsSound := by
  obtain ⟨distinct, ordered⟩ := reset_deadlines
  obtain ⟨attention, holding⟩ := reset_link
  obtain ⟨queue, holders, classes, silent⟩ := reset_queue
  obtain ⟨stations, sound, directory⟩ := reset_stations
  obtain ⟨store, waits, outputs⟩ := reset_store
  exact ⟨reset_memory_wf, attention, holding, distinct, queue, stations, ordered, holders, classes, store, waits, sound,
    Settings.default_inRange, directory, silent, outputs⟩

/-! ### Cold starts (R171) -/

/-- An operation that is cut off has changed no byte yet. -/
theorem cutFlash_cells (s : State) : (cutFlash s).flash.cells = s.flash.cells := by
  unfold cutFlash
  split
  · rfl
  · exact Flash.leaveBusy_cells ..

/-- The Supply Watch's deadlines of a cold start, set one after another, stand in the order of remaining time (R17). -/
theorem cold_deadlines :
    let t : Timebase := { count := 0, deadlines := [] }
    (((t.set .settle 150).set .spanHorizon 65535).set .holdupSample 2).deadlines =
        [⟨.holdupSample, 2, 3⟩, ⟨.settle, 150, 1⟩, ⟨.spanHorizon, 65535, 2⟩] ∧
      ((((t.set .filterConfirm 2).set .settle 150).set .spanHorizon 65535).set .holdupSample 2).deadlines =
        [⟨.filterConfirm, 2, 1⟩, ⟨.holdupSample, 2, 4⟩, ⟨.settle, 150, 2⟩, ⟨.spanHorizon, 65535, 3⟩] := by
  decide

/-- A cold start leaves every block at its cold start values, and the flash memory as it was. -/
theorem coldStarted_coldStart (cause : Cause) (line : LineLevel) (baudHigh : Bool) (s : State) :
    ColdStarted cause line baudHigh s (coldStart cause line baudHigh s) := by
  refine ⟨?_, ?_, ?_, ?_, ?_, ?_, ?_, ?_, ?_, ?_, ?_, ?_, ?_, ?_, ?_, ?_, ?_, ?_, ?_, ?_⟩
  case refine_3 =>
    cases line
    · exact congrArg (Timebase.mk 0) cold_deadlines.2
    · exact congrArg (Timebase.mk 0) cold_deadlines.1
  case refine_20 =>
    rw [← cutFlash_cells s]
    cases line <;> rfl
  all_goals cases line <;> rfl

theorem ColdStarted.of_cells {cause : Cause} {line : LineLevel} {baudHigh : Bool} {s s' t : State}
    (h : ColdStarted cause line baudHigh s t) (he : s.flash.cells = s'.flash.cells) :
    ColdStarted cause line baudHigh s' t := by
  unfold ColdStarted at h ⊢
  rwa [← he]

theorem coldStarted_parkReturn (s : State) :
    ∃ baudHigh, ColdStarted .parkReturn s.supply.raw baudHigh s (parkReturn s) :=
  ⟨_, (coldStarted_coldStart .parkReturn _ _ s.drawn).of_cells rfl⟩

/-- VDD rises with RSTN high (R171). -/
theorem powerRises_high {s : State} (h : s.pins.rstnLow = false) (line : LineLevel) (baudHigh : Bool) :
    powerRises line baudHigh s = coldStart .power line baudHigh s := by
  simp [powerRises, h]

/-- RSTN returns high while VDD is present (R171). -/
theorem resetLineRises_powered {s : State} (h : s.pins.rstnLow = true) (hp : s.pins.powered = true) (line : LineLevel)
    (baudHigh : Bool) : resetLineRises line baudHigh s = coldStart .resetLine line baudHigh s := by
  simp [resetLineRises, h, hp]

/-! ### What follows an event, where the lanes may begin no frame -/

theorem selectHolder_closed {s : State} (h : s.lanesOpen = false) (l : Lane) : selectHolder l s = s := by
  simp [selectHolder, h]

theorem arbitrate_closed {s : State} (h : s.lanesOpen = false) (l : Lane) : arbitrate l s = s := by
  simp [arbitrate, h]

/-- The issue of a flash operation leaves the lanes open or closed. -/
theorem issueFlash_lanesOpen (s : State) : (issueFlash s).lanesOpen = s.lanesOpen := by
  unfold issueFlash
  split
  · rfl
  · split
    · rfl
    · dsimp only
      split <;> rfl

/-- Only the flash operation at the head of the queue is issued. -/
theorem lanesAct_closed {s : State} (h : s.lanesOpen = false) : lanesAct s = issueFlash s := by
  have hi : (issueFlash s).lanesOpen = false := by rw [issueFlash_lanesOpen, h]
  simp only [lanesAct, selectHolder_closed h, arbitrate_closed hi]

/-- No operation is issued while one runs. -/
theorem issueFlash_running {s : State} (h : s.store.running.isSome = true) : issueFlash s = s := by
  simp [issueFlash, h]

/-- A part that has just cold started: the loader's STATUS runs, so nothing follows the event. -/
theorem ColdStarted.lanesAct_issueNext {cause : Cause} {line : LineLevel} {baudHigh : Bool} {s t : State}
    (h : ColdStarted cause line baudHigh s t) : lanesAct (issueNext t) = t := by
  obtain ⟨_, hsupply, _, _, _, _, _, _, _, _, _, _, _, _, _, hstore, _, hloader, _, _⟩ := h
  have hr : t.store.running.isSome = true := by rw [hstore]; rfl
  have hn : issueNext t = t := by simp [issueNext, issueFlash_running hr, eraseIssued, hloader]
  rw [hn, lanesAct_closed (by simp [State.lanesOpen, hsupply]), issueFlash_running hr]

end Sys2Proof.Machine
end

section
/-! PROOFS. What the work of the buffer pool can change (spec/08, 8.4). -/

namespace Sys2Proof.Machine

/-! ### What the work of the buffer pool changes -/

/-- The state with other buffer records, another wait list, another flash operation queue and another phase of the park
writer, which is all that the grants, returns and requests of buffers change (R134, R143, R144). -/
def State.withPool (s : State) (buffers : List Buffer) (waits : List BufferRequest) (queue : List FlashOp)
    (phase : ParkPhase) : State :=
  { s with
    store := { s.store with buffers := buffers, waitList := waits, queue := queue }
    park := { s.park with phase := phase } }

/-- Nothing has changed but what the work of the buffer pool changes. -/
def State.poolBecomes (s t : State) : Prop := ∃ b w q p, t = s.withPool b w q p

namespace State.poolBecomes

theorem refl (s : State) : s.poolBecomes s := ⟨_, _, _, _, rfl⟩

theorem trans {s t u : State} (h : s.poolBecomes t) (h' : t.poolBecomes u) : s.poolBecomes u := by
  obtain ⟨_, _, _, _, rfl⟩ := h
  obtain ⟨b, w, q, p, rfl⟩ := h'
  exact ⟨b, w, q, p, rfl⟩

theorem foldl {α : Type} {f : State → α → State} (hf : ∀ (s : State) (a : α), s.poolBecomes (f s a))
    (xs : List α) (s : State) :
    s.poolBecomes (xs.foldl f s) := by
  induction xs generalizing s with
  | nil => exact refl s
  | cons x xs ih => exact (hf s x).trans (ih _)

theorem setBuffer (s : State) (i : Nat) (b : Buffer) : s.poolBecomes (s.setBuffer i b) := ⟨_, _, _, _, rfl⟩

theorem queueOp (op : FlashOp) (s : State) : s.poolBecomes (Machine.queueOp op s) := ⟨_, _, _, _, rfl⟩

theorem withdrawOps (who : Requester) (s : State) : s.poolBecomes (Machine.withdrawOps who s) := ⟨_, _, _, _, rfl⟩

theorem requestBuffers (who : BufferOwner) (n : Nat) (s : State) : s.poolBecomes (Machine.requestBuffers who n s) :=
  ⟨_, _, _, _, rfl⟩

theorem withdrawRequest (who : BufferOwner) (s : State) : s.poolBecomes (Machine.withdrawRequest who s) :=
  ⟨_, _, _, _, rfl⟩

theorem giveBuffer (i : Nat) (who : BufferOwner) (s : State) : s.poolBecomes (Machine.giveBuffer i who s) := by
  unfold Machine.giveBuffer
  split
  · split
    · exact refl s
    · split
      · exact refl s
      · exact (setBuffer s _ _).trans (queueOp _ _)
  · split
    · exact refl s
    · exact setBuffer s _ _
  · exact ⟨_, _, _, _, rfl⟩

theorem grantSome (k : Nat) (s : State) : s.poolBecomes (Machine.grantSome k s) := by
  induction k generalizing s with
  | zero => exact refl s
  | succ k ih =>
    unfold Machine.grantSome
    split
    · exact State.poolBecomes.trans ⟨_, _, _, _, rfl⟩ ((giveBuffer _ _ _).trans (ih _))
    · exact refl s

theorem grantBuffers (s : State) : s.poolBecomes (Machine.grantBuffers s) := grantSome 6 s

theorem freeBuffer (i : Nat) (s : State) : s.poolBecomes (Machine.freeBuffer i s) :=
  (setBuffer s i _).trans (grantBuffers _)

theorem giveBack (i : Nat) (pending : Bool) (s : State) : s.poolBecomes (Machine.giveBack i pending s) := by
  unfold Machine.giveBack
  split <;> exact setBuffer s i _

theorem giveBackWriteBuffer (pending : Bool) (s : State) : s.poolBecomes (Machine.giveBackWriteBuffer pending s) := by
  unfold Machine.giveBackWriteBuffer
  split
  · exact refl s
  · exact giveBack _ _ s

theorem freeParkBuffer (s : State) : s.poolBecomes (Machine.freeParkBuffer s) := by
  unfold Machine.freeParkBuffer
  split
  · exact refl s
  · exact freeBuffer _ s

theorem releaseUnneeded (l : Lane) (s : State) : s.poolBecomes (Machine.releaseUnneeded l s) := by
  unfold Machine.releaseUnneeded
  refine foldl (fun s i => ?_) _ s
  dsimp only
  split
  · exact refl s
  · exact giveBack _ _ s

theorem planBuffers (l : Lane) (s : State) : s.poolBecomes (Machine.planBuffers l s) := by
  have h := (releaseUnneeded l s).trans (grantBuffers _)
  unfold Machine.planBuffers
  dsimp only
  split
  · exact h.trans (withdrawRequest _ _)
  · exact (h.trans (requestBuffers _ _ _)).trans (grantBuffers _)

end State.poolBecomes

/-- With no request waiting, nothing is granted. -/
theorem grantSome_nil (k : Nat) {s : State} (h : s.store.waitList = []) : grantSome k s = s := by
  cases k with
  | zero => rfl
  | succ k => simp only [grantSome, h]

theorem grantBuffers_nil {s : State} (h : s.store.waitList = []) : grantBuffers s = s := grantSome_nil 6 h

end Sys2Proof.Machine
end

section
/-! PROOFS. Cold starts by cause, and the stopped part (spec/10, 10.1 and 10.2). -/

namespace Sys2Proof.Machine

/-! ### The end of a park write -/

/-- A park write that ends in PARKING with the held-rise mark set is a cold start (R15, R170). -/
theorem coldStarted_endPark {s : State} (h : s.supply.state = .parking) (hr : s.supply.heldRise = true) :
    ∃ baudHigh, ColdStarted .parkReturn s.supply.raw baudHigh s (endPark s) := by
  unfold endPark
  generalize hf : freeParkBuffer { s with park := { s.park with phase := .ended } } = f
  obtain ⟨b, w, q, p, rfl⟩ := hf ▸ State.poolBecomes.freeParkBuffer { s with park := { s.park with phase := .ended } }
  simp only [State.withPool, h, hr]
  obtain ⟨baudHigh, hc⟩ := coldStarted_parkReturn _
  exact ⟨baudHigh, hc.of_cells rfl⟩

/-- A park write that ends in PARKING with the held-rise mark clear is PARKED, with no sample to come (R170). -/
theorem endPark_parked {s : State} (h : s.supply.state = .parking) (hr : s.supply.heldRise = false) :
    ∃ b w q p,
      endPark s =
        { s.withPool b w q p with
          supply := { s.supply with state := .parked }
          timebase := s.timebase.remove .holdupSample } := by
  unfold endPark
  generalize hf : freeParkBuffer { s with park := { s.park with phase := .ended } } = f
  obtain ⟨b, w, q, p, rfl⟩ := hf ▸ State.poolBecomes.freeParkBuffer { s with park := { s.park with phase := .ended } }
  simp only [State.withPool, h, hr]
  exact ⟨b, w, q, p, rfl⟩

/-- A timeout of the park writer's PROGRAM ends the park write (R170). -/
theorem coldStarted_storeTimedOut {s : State} {op : FlashOp} (h : s.supply.state = .parking)
    (hr : s.supply.heldRise = true) (hop : s.store.running = some op) (hw : op.who = .parkWriter) :
    ∃ baudHigh, ColdStarted .parkReturn s.supply.raw baudHigh s (storeTimedOut s) := by
  obtain ⟨baudHigh, hc⟩ := coldStarted_endPark (s := queueRecovery (failRunning op s)) h hr
  have he : storeTimedOut s = lanesAct (issueNext (endPark (queueRecovery (failRunning op s)))) := by
    simp only [storeTimedOut, hop, settleFailure, hw, if_true, requesterFailed]
  rw [he, hc.lanesAct_issueNext]
  exact ⟨baudHigh, hc.of_cells (Flash.leaveBusy_cells ..)⟩

/-- The completion of the PROGRAM of page 2 ends the park write (R169, R170). -/
theorem coldStarted_parkProgrammed {s : State} {block : Nat} {page : List Byte} (h : s.supply.state = .parking)
    (hr : s.supply.heldRise = true) (hp : s.park.phase = .page2)
    (hop : s.store.running = some { command := .program 0 block page, who := .parkWriter }) :
    ∃ baudHigh,
      ColdStarted .parkReturn s.supply.raw baudHigh { s with flash := s.flash.program 0 block page }
        (flashCompleted none s) := by
  have hp' : (deviceDone ⟨.program 0 block page, .parkWriter⟩ (clearRunning s)).park.phase = .page2 := hp
  obtain ⟨baudHigh, hc⟩ :=
    coldStarted_endPark (s := deviceDone ⟨.program 0 block page, .parkWriter⟩ (clearRunning s)) h hr
  have he : flashCompleted none s =
      lanesAct (issueNext (endPark (deviceDone ⟨.program 0 block page, .parkWriter⟩ (clearRunning s)))) := by
    simp only [flashCompleted, hop, requesterDone, parkProgrammed, hp']
  rw [he, hc.lanesAct_issueNext]
  exact ⟨baudHigh, hc.of_cells rfl⟩

/-- Settles O9. -/
theorem coldStartsByCause : Obligations.ColdStartsByCause := by
  refine ⟨fun line baudHigh s => ⟨fun h => ?_, fun h hp => ?_⟩, fun s left due raw h hs hc => ?_,
    fun s block page hr hs hm hop => ⟨fun hp => ?_, fun left due h => ?_⟩⟩
  · refine ⟨_, rfl, ?_⟩
    rw [powerRises_high h]
    exact coldStarted_coldStart ..
  · refine ⟨_, rfl, ?_⟩
    rw [resetLineRises_powered h hp]
    exact coldStarted_coldStart ..
  · have hs' : (s.confirming left .present).supply.state = .parked := hs
    obtain ⟨baudHigh, ht⟩ := coldStarted_parkReturn (s.confirming left .present)
    refine ⟨baudHigh, _, exec_filterConfirmExpiry h, ?_⟩
    rw [confirmFilter_rise hc]
    simp only [confirmedRise, hs']
    exact ht.of_cells rfl
  · obtain ⟨baudHigh, ht⟩ := coldStarted_parkProgrammed hs hm hp hop
    exact ⟨baudHigh, _, whileRunning_runs hr _, ht⟩
  · obtain ⟨baudHigh, ht⟩ := coldStarted_storeTimedOut (s := s.withTimebase left) hs hm hop rfl
    exact ⟨baudHigh, _, whileRunning_onExpiry h fun _ s => storeTimedOut s, ht.of_cells rfl⟩

/-! ### The stopped part (R171) -/

/-- A part that is not powered, or has RSTN low, drives nothing. -/
theorem stateless_drivesNothing (powered rstnLow baudHigh : Bool) (s : State) :
    (stateless powered rstnLow baudHigh s).drivesNothing := ⟨rfl, rfl, rfl⟩

theorem resetLineFalls_high {s : State} (h : s.pins.rstnLow = false) :
    resetLineFalls s = stateless s.pins.powered true s.pins.baudHigh (cutFlash s) := by
  simp [resetLineFalls, h]

theorem powerRises_low {s : State} (h : s.pins.rstnLow = true) (line : LineLevel) (baudHigh : Bool) :
    powerRises line baudHigh s = stateless true true baudHigh s := by
  simp [powerRises, h]

/-- A byte that an interrupted operation does not reach stays (R137). -/
theorem Flash.read_interrupted (f : Flash) (draw : Nat) (u : Unfinished) {a : Nat} (h : Memory.wf f.cells = true)
    (ha : ¬u.op.reaches a) : Memory.read (f.interrupted draw u).cells a = Memory.read f.cells a := by
  unfold FlashOp.reaches at ha
  unfold Flash.interrupted
  split
  · rename_i hc
    rw [hc] at ha
    split
    · rfl
    · dsimp only at ha ⊢
      rw [Memory.read_update _ _ _ _ h, if_neg]
      simp only [List.length_mapIdx, List.length_take]
      omega
  · rename_i hc
    rw [hc] at ha
    dsimp only at ha ⊢
    rw [Memory.read_mapRange _ _ (fun a v => v ||| ~~~(Config.interruptedBits draw a)) _ h, if_neg ha]
  · rfl
  · rfl

/-- The end of what the device was left with changes no byte that it does not reach. -/
theorem settleDevice_read {s : State} {a : Nat} (h : s.flashCanonical)
    (ha : ∀ op, s.flash.busy.map (·.op) = some op → ¬op.reaches a) :
    Memory.read (settleDevice s).flash.cells a = Memory.read s.flash.cells a := by
  unfold settleDevice
  split
  · rfl
  · rename_i u hu
    exact Flash.read_interrupted _ _ _ h (ha u.op (by rw [hu]; rfl))

/-- What the device is left with by a cut is the operation that ran, or what it was left with before. -/
theorem cutFlash_busy {s : State} {op : FlashOp} (h : (cutFlash s).flash.busy.map (·.op) = some op) :
    s.store.running = some op ∨ s.flash.busy.map (·.op) = some op := by
  unfold cutFlash at h
  split at h
  · exact .inr h
  · rename_i x hx
    unfold Flash.leaveBusy at h
    split at h
    · exact .inl (hx.trans h)
    · exact .inr h

/-- A part that does not run lets every command but those of power and of the reset line pass. -/
theorem exec_stopped {i : Instr} {s : State} (h : s.runs = false) (hp : ∀ l b, i ≠ .powerOn l b)
    (ha : i ≠ .resetLineAssert) (hr : ∀ l b, i ≠ .resetLineRelease l b) (hl : i ≠ .supplyLoss) :
    exec i s = .next s := by
  cases i with
  | powerOn l b => exact absurd rfl (hp l b)
  | resetLineAssert => exact absurd rfl ha
  | resetLineRelease l b => exact absurd rfl (hr l b)
  | supplyLoss => exact absurd rfl hl
  | millisecondTick => exact whileRunning_stopped h fun s => { s with timebase := s.timebase.tick }
  | _ => exact whileRunning_stopped h _

/-- Settles O10. -/
theorem stoppedPart : Obligations.StoppedPart := by
  refine ⟨fun s h => ⟨_, rfl, ?_⟩, fun s line baudHigh h => ⟨_, rfl, ?_⟩, fun s h => ⟨_, rfl, ?_⟩,
    fun i s => exec_stopped⟩
  · rw [resetLineFalls_high h]
    exact ⟨by simp [State.runs, stateless], rfl, rfl, rfl, rfl, stateless_drivesNothing .., rfl, cutFlash_cells s⟩
  · rw [powerRises_low h]
    exact ⟨rfl, rfl, stateless_drivesNothing .., rfl⟩
  · refine ⟨rfl, rfl, rfl, rfl, rfl, rfl, stateless_drivesNothing .., fun a ha => ?_⟩
    have hw : (cutFlash s).flashCanonical := by
      unfold State.flashCanonical
      rw [cutFlash_cells]
      exact h
    calc Memory.read (settleDevice (cutFlash s)).flash.cells a
      _ = Memory.read (cutFlash s).flash.cells a := settleDevice_read hw fun op hop => ha op (cutFlash_busy hop)
      _ = Memory.read s.flash.cells a := by rw [cutFlash_cells]

end Sys2Proof.Machine
end

section
/-! PROOFS. What a notice changes, and what the lanes give back to the buffer pool (spec/07, 7.6; spec/09, 9.5). -/

namespace Sys2Proof.Machine

/-! ### Notices -/

/-- The same notice would be posted alike: the notice queue, the pins, the end of loading and the settings are the
same. -/
def State.noticesAlike (s t : State) : Prop :=
  t.link = s.link ∧ t.pins = s.pins ∧ t.loader = s.loader ∧ t.settings = s.settings

/-- The state with the Control Link and the pins of another, which is all that a notice changes. -/
def State.notified (s n : State) : State := { s with link := n.link, pins := n.pins }

theorem postNotice_loader (b : NoticeBody) (s : State) : (postNotice b s).loader = s.loader := by
  unfold postNotice
  split <;> rfl

theorem postNotice_settings (b : NoticeBody) (s : State) : (postNotice b s).settings = s.settings := by
  unfold postNotice
  split <;> rfl

/-- A notice changes the Control Link and the pins, as it would in any state that posts alike. -/
theorem postNotice_notified {s n : State} (h : n.noticesAlike s) (b : NoticeBody) :
    postNotice b s = s.notified (postNotice b n) := by
  obtain ⟨hl, hp, ho, hs⟩ := h
  have hc : (s.loadingEnded && noticeEnabled s.settings.noticeMask b.code) =
      (n.loadingEnded && noticeEnabled n.settings.noticeMask b.code) := by
    simp only [State.loadingEnded, ho, hs]
  unfold postNotice
  rw [hc]
  split
  · simp only [State.notified, hl, hp]
  · rw [State.notified, ← hl, ← hp]

theorem postNotice_noticesAlike {s n : State} (h : n.noticesAlike s) (b : NoticeBody) :
    (postNotice b n).noticesAlike (postNotice b s) := by
  refine ⟨?_, ?_, ?_, ?_⟩
  · rw [postNotice_notified h]
    rfl
  · rw [postNotice_notified h]
    rfl
  · rw [postNotice_loader, postNotice_loader]
    exact h.2.2.1
  · rw [postNotice_settings, postNotice_settings]
    exact h.2.2.2

/-! ### The buffers of a lane without a load holder -/

theorem State.buffer_setBuffer (s : State) (i j : Nat) (b : Buffer) :
    (s.setBuffer i b).buffer j = if j = i ∧ i < s.store.buffers.length then b else s.buffer j := by
  simp only [State.buffer, State.setBuffer, List.getD_eq_getElem?_getD, List.getElem?_set]
  by_cases hj : i = j
  · subst hj
    by_cases hi : i < s.store.buffers.length <;> simp [hi]
  · simp [hj, Ne.symm hj]

/-- No lane waits for a buffer. -/
def State.noLaneAsks (s : State) : Prop := ∀ r ∈ s.store.waitList, ∀ l, r.who ≠ .lane l

/-- A buffer stays as it is, or it was FREE and no lane has got it. -/
def Buffer.keptFromLanes (b b' : Buffer) : Prop := b' = b ∨ (b.state = .free ∧ ∀ l, b'.owner ≠ some (.lane l))

theorem Buffer.keptFromLanes.trans {b b' b'' : Buffer} (h : b.keptFromLanes b') (h' : b'.keptFromLanes b'') :
    b.keptFromLanes b'' := by
  rcases h with rfl | ⟨hf, hn⟩
  · exact h'
  · rcases h' with rfl | ⟨_, hn'⟩
    · exact .inr ⟨hf, hn⟩
    · exact .inr ⟨hf, hn'⟩

theorem State.keptFromLanes_setBuffer {s : State} {i : Nat} {b : Buffer} (hf : (s.buffer i).state = .free)
    (hb : ∀ l, b.owner ≠ some (.lane l)) (j : Nat) : (s.buffer j).keptFromLanes ((s.setBuffer i b).buffer j) := by
  rw [State.buffer_setBuffer]
  split
  · rename_i h
    rw [h.1]
    exact .inr ⟨hf, hb⟩
  · exact .inl rfl

theorem giveBuffer_keptFromLanes {s : State} {i : Nat} {who : BufferOwner} (hw : ∀ l, who ≠ .lane l)
    (hf : (s.buffer i).state = .free) (j : Nat) : (s.buffer j).keptFromLanes ((giveBuffer i who s).buffer j) := by
  cases who with
  | lane l => exact absurd rfl (hw l)
  | imageWrite =>
    unfold giveBuffer
    dsimp only
    split
    · exact .inl rfl
    · exact State.keptFromLanes_setBuffer hf (fun l h => by cases h) j
  | parkWriter =>
    exact State.keptFromLanes_setBuffer (s := { s with park := { s.park with phase := .page1 } }) hf
      (fun l h => by cases h) j

/-- A grant leaves the wait list. -/
theorem giveBuffer_waitList (i : Nat) (who : BufferOwner) (s : State) :
    (giveBuffer i who s).store.waitList = s.store.waitList := by
  unfold giveBuffer
  split
  · split
    · rfl
    · split <;> rfl
  · split <;> rfl
  · rfl

theorem takeTurn_who {ws : List BufferRequest} {r : BufferRequest} (h : r ∈ takeTurn ws) :
    ∃ r' ∈ ws, r'.who = r.who := by
  unfold takeTurn at h
  split at h
  · cases h
  · split at h
    · exact ⟨r, List.mem_cons_of_mem _ h, rfl⟩
    · rcases List.mem_cons.1 h with rfl | h
      · exact ⟨_, List.mem_cons_self .., rfl⟩
      · exact ⟨r, List.mem_cons_of_mem _ h, rfl⟩

/-- Where no lane asks, the grants go to others. -/
theorem grantSome_keptFromLanes (k : Nat) {s : State} (h : s.noLaneAsks) :
    (grantSome k s).noLaneAsks ∧ ∀ j, (s.buffer j).keptFromLanes ((grantSome k s).buffer j) := by
  induction k generalizing s with
  | zero => exact ⟨h, fun _ => .inl rfl⟩
  | succ k ih =>
    unfold grantSome
    split
    · rename_i r rest i hw hi
      have hf : (s.buffer i).state = .free := by simpa using List.find?_some hi
      have hr : ∀ l, r.who ≠ .lane l := h r (by rw [hw]; exact List.mem_cons_self ..)
      have hn : (giveBuffer i r.who { s with store := { s.store with waitList := takeTurn s.store.waitList } }).noLaneAsks := by
        intro x hx l
        rw [giveBuffer_waitList] at hx
        obtain ⟨y, hy, he⟩ := takeTurn_who hx
        rw [← he]
        exact h y hy l
      obtain ⟨h1, h2⟩ := ih hn
      exact ⟨h1, fun j => (giveBuffer_keptFromLanes
        (s := { s with store := { s.store with waitList := takeTurn s.store.waitList } }) hr hf j).trans (h2 j)⟩
    · exact ⟨h, fun _ => .inl rfl⟩

/-- A buffer given back: marked while the read that fills it goes on, and else FREE (R136). -/
def Buffer.givenBack (b : Buffer) : Buffer := if b.state = .filling then { b with released := true } else Buffer.unowned

/-- A lane without a load holder gives back all buffers that it holds. -/
theorem releaseUnneeded_idle {l : Lane} {s : State} (h : (s.lane l).holder = none) :
    releaseUnneeded l s = (s.heldBy l).foldl (fun s i => s.setBuffer i (s.buffer i).givenBack) s := by
  have hn : neededBlocks l s = [] := by simp [neededBlocks, holderNext, h]
  unfold releaseUnneeded
  rw [hn]
  refine congrArg (List.foldl · s (s.heldBy l)) (funext fun s => funext fun i => ?_)
  by_cases hf : (s.buffer i).state = .filling <;> simp [giveBack, Buffer.givenBack, hf]

theorem buffer_givenBack (is : List Nat) (s : State) (h : is.Nodup) (j : Nat) :
    (is.foldl (fun s i => s.setBuffer i (s.buffer i).givenBack) s).buffer j =
      if j ∈ is ∧ j < s.store.buffers.length then (s.buffer j).givenBack else s.buffer j := by
  induction is generalizing s with
  | nil => simp
  | cons i is ih =>
    obtain ⟨hi, hn⟩ := List.nodup_cons.1 h
    have hl : (s.setBuffer i (s.buffer i).givenBack).store.buffers.length = s.store.buffers.length := by
      simp [State.setBuffer]
    rw [List.foldl_cons, ih _ hn, hl, State.buffer_setBuffer]
    grind

theorem givenBack_waitList (is : List Nat) (s : State) :
    (is.foldl (fun s i => s.setBuffer i (s.buffer i).givenBack) s).store.waitList = s.store.waitList := by
  induction is generalizing s with
  | nil => rfl
  | cons i is ih =>
    rw [List.foldl_cons, ih]
    rfl

theorem State.heldBy_iff (s : State) (l : Lane) (i : Nat) :
    i ∈ s.heldBy l ↔ i ∈ bufferIndices ∧ (s.buffer i).owner = some (.lane l) ∧ (s.buffer i).released = false := by
  simp [State.heldBy, State.ownedBy, and_comm]

theorem State.heldBy_nodup (s : State) (l : Lane) : (s.heldBy l).Nodup :=
  List.Nodup.filter _ (List.Nodup.filter _ (by decide))

/-- A buffer with an owner is one of the buffers. -/
theorem State.buffer_owned {s : State} {i : Nat} (h : (s.buffer i).owner ≠ none) : i < s.store.buffers.length := by
  by_contra hi
  exact h (by simp [State.buffer, List.getElem?_eq_none (Nat.le_of_not_lt hi), Buffer.unowned])

/-- What becomes of a buffer as a lane without a load holder plans: one that it holds is given back, and goes to no lane
where none asks; of the others, a FREE one may be granted to another requester. -/
def Buffer.afterIdlePlan (l : Lane) (b b' : Buffer) : Prop :=
  (b.owner = some (.lane l) ∧ b.released = false →
    (b.state = .filling → b' = { b with released := true }) ∧ (b.state ≠ .filling → ∀ m, b'.owner ≠ some (.lane m))) ∧
  (¬(b.owner = some (.lane l) ∧ b.released = false) → b.keptFromLanes b')

/-- The plan of a lane without a load holder, where no lane asks for a buffer (R134, R136). -/
theorem planBuffers_idle {l : Lane} {s : State} (h : (s.lane l).holder = none) (hw : s.noLaneAsks) :
    (planBuffers l s).noLaneAsks ∧
      ∀ j ∈ bufferIndices, (s.buffer j).afterIdlePlan l ((planBuffers l s).buffer j) := by
  have hr : (releaseUnneeded l s).noLaneAsks := by
    unfold State.noLaneAsks
    rw [releaseUnneeded_idle h, givenBack_waitList]
    exact hw
  obtain ⟨hg, hk⟩ := grantSome_keptFromLanes 6 hr
  have hm : wantedBuffers l (grantBuffers (releaseUnneeded l s)) = 0 := by
    obtain ⟨_, _, _, _, he⟩ := (State.poolBecomes.releaseUnneeded l s).trans (.grantBuffers _)
    have hh : ((grantBuffers (releaseUnneeded l s)).lane l).holder = none := by
      rw [he]
      cases l <;> exact h
    simp [wantedBuffers, missingBlocks, neededBlocks, holderNext, hh]
  have hp : planBuffers l s = withdrawRequest (.lane l) (grantBuffers (releaseUnneeded l s)) := by
    simp only [planBuffers, hm, if_true]
  rw [hp]
  refine ⟨fun r hr => hg r (List.mem_of_mem_filter hr), fun j hj => ?_⟩
  have hj' := hk j
  rw [releaseUnneeded_idle h, buffer_givenBack _ _ (s.heldBy_nodup l)] at hj'
  rw [← releaseUnneeded_idle h] at hj'
  refine ⟨fun hb => ?_, fun hb => ?_⟩
  · rw [if_pos ⟨(s.heldBy_iff l j).2 ⟨hj, hb⟩, State.buffer_owned (by simp [hb.1])⟩] at hj'
    refine ⟨fun hf => ?_, fun hf m => ?_⟩
    · rw [Buffer.givenBack, if_pos hf] at hj'
      rcases hj' with he | ⟨he, _⟩
      · exact he
      · rw [hf] at he
        cases he
    · rw [Buffer.givenBack, if_neg hf] at hj'
      rcases hj' with he | ⟨_, he⟩
      · show ((grantSome 6 (releaseUnneeded l s)).buffer j).owner ≠ _
        rw [he]
        exact fun hm => by cases hm
      · exact he m
  · rwa [if_neg (fun hh => hb ((s.heldBy_iff l j).1 hh.1).2)] at hj'

/-- What becomes of a buffer as lane A and then lane B plan without a load holder. -/
theorem Buffer.afterIdlePlan.both {b b' b'' : Buffer} (hA : b.afterIdlePlan .a b') (hB : b'.afterIdlePlan .b b'')
    (l : Lane) :
    (b''.owner = some (.lane l) → b''.released = true) ∧
      (b.owner = some (.lane l) ∧ b.released = false →
        (b.state = .filling → b'' = { b with released := true }) ∧
          (b.state ≠ .filling → b''.owner ≠ some (.lane l))) := by
  have freed : ∀ {x y : Buffer}, (∀ m, x.owner ≠ some (.lane m)) → x.afterIdlePlan .b y →
      ∀ m, y.owner ≠ some (.lane m) := fun hx hy => by
    rcases hy.2 fun h => hx _ h.1 with rfl | ⟨_, h⟩
    · exact hx
    · exact h
  by_cases ha : b.owner = some (.lane .a) ∧ b.released = false
  · obtain ⟨hf, hn⟩ := hA.1 ha
    by_cases hs : b.state = .filling
    · have he := hf hs
      have hb : b'' = b' := by
        rcases hB.2 (fun h => by simp [he] at h) with h | h
        · exact h
        · simp [he, hs] at h
      subst hb
      simp_all
    · have := freed (hn hs) hB
      simp_all
  · rcases hA.2 ha with rfl | ⟨hs, hn⟩
    · by_cases hb : b'.owner = some (.lane .b) ∧ b'.released = false
      · obtain ⟨hf, hn⟩ := hB.1 hb
        by_cases hs : b'.state = .filling
        · have := hf hs
          simp_all
        · have := hn hs
          simp_all
      · have hl : ¬(b'.owner = some (.lane l) ∧ b'.released = false) := by
          cases l
          · exact ha
          · exact hb
        rcases hB.2 hb with rfl | ⟨hs, hn⟩
        · simp_all
        · simp_all
    · have := freed hn hB
      simp_all

/-- Both lanes without a load holder plan, lane A first: their buffers are given back (R136). -/
theorem planBuffers_gaveBack {s : State} (h : ∀ l, (s.lane l).holder = none) (hw : s.noLaneAsks) :
    s.lanesGaveBack (planBuffers .b (planBuffers .a s)) := by
  obtain ⟨hwA, hA⟩ := planBuffers_idle (h .a) hw
  have hB : ((planBuffers .a s).lane .b).holder = none := by
    obtain ⟨_, _, _, _, he⟩ := State.poolBecomes.planBuffers .a s
    rw [he]
    exact h .b
  obtain ⟨hwB, hB⟩ := planBuffers_idle hB hwA
  intro l
  refine ⟨fun i hi => ?_, fun i hi _ => ?_, fun r hr => hwB r hr l⟩
  · simp only [State.ownedBy, List.mem_filter, decide_eq_true_eq] at hi
    exact ((hA i hi.1).both (hB i hi.1) l).1 hi.2
  · obtain ⟨hm, hb⟩ := (s.heldBy_iff l i).1 hi
    exact ((hA i hm).both (hB i hm) l).2 hb

end Sys2Proof.Machine
end

section
/-! PROOFS. The opening of a gap (spec/01, 1.2; spec/05, 5.6; spec/06, 6.7). -/

namespace Sys2Proof.Machine

/-! ### The deadlines of a gap begin -/

/-- A deadline set leaves every other. -/
theorem setDeadlineIn_dueOf_ne {p q : Purpose} (h : q ≠ p) (n : Nat) (s : State) :
    (setDeadlineIn p n s).timebase.dueOf q = s.timebase.dueOf q := by
  simp [setDeadlineIn, h]

theorem setDeadlineIn_dueOf_self (p : Purpose) (n : Nat) (s : State) :
    (setDeadlineIn p n s).timebase.dueOf p = some (s.timebase.count + ms n) := by
  simp [setDeadlineIn]

/-- The restore limits are removed (R29). -/
theorem removeLimits_dueOf_limit (s : State) (n : Nat) : (removeLimits s).timebase.dueOf (.restoreLimit n) = none := by
  unfold Timebase.dueOf removeLimits
  rw [Option.map_eq_none_iff, List.find?_eq_none]
  intro d hd
  have hd := List.of_mem_filter hd
  intro he
  rw [of_decide_eq_true he] at hd
  cases hd

/-- No other deadline is removed with the restore limits. -/
theorem removeLimits_dueOf {p : Purpose} (h : ∀ n, p ≠ .restoreLimit n) (s : State) :
    (removeLimits s).timebase.dueOf p = s.timebase.dueOf p := by
  unfold Timebase.dueOf removeLimits
  rw [List.find?_filter]
  refine congrArg (fun f => (s.timebase.deadlines.find? f).map (·.due)) (funext fun d => ?_)
  by_cases hd : d.purpose = p
  · subst hd
    cases he : d.purpose <;> simp_all
  · simp [hd]

/-! ### The lanes' work abandoned (R116) -/

/-- What the lanes give back is seen in the store. -/
theorem State.lanesGaveBack.congr {s s' t t' : State} (h : s.lanesGaveBack t) (hs : s.store = s'.store)
    (ht : t.store = t'.store) : s'.lanesGaveBack t' := by
  cases s
  cases s'
  cases t
  cases t'
  cases hs
  cases ht
  exact h

/-- Both lanes without their transactions and load holders, and without their response windows. -/
def State.lanesAbandoned (s : State) : State :=
  { s with
    timebase := (s.timebase.remove (.responseWindow .a)).remove (.responseWindow .b)
    laneA := s.laneA.abandonWork
    laneB := s.laneB.abandonWork }

/-- The lanes abandon their work: beside that, the buffer pool changes, to which they give back what they hold. -/
theorem abandonLanes_eq (s : State) :
    ∃ b w q p, abandonLanes s = s.lanesAbandoned.withPool b w q p ∧ s.lanesGaveBack (abandonLanes s) := by
  let x := withdrawRequest (.lane .b) (withdrawRequest (.lane .a) s.lanesAbandoned)
  have he : abandonLanes s = planBuffers .b (planBuffers .a x) := rfl
  have hp : s.lanesAbandoned.poolBecomes (planBuffers .b (planBuffers .a x)) :=
    (((State.poolBecomes.withdrawRequest _ _).trans (.withdrawRequest _ _)).trans (.planBuffers _ _)).trans
      (.planBuffers _ _)
  have hw : x.noLaneAsks := by
    intro r hr l
    have h1 := List.of_mem_filter hr
    have h2 := List.of_mem_filter (List.mem_of_mem_filter hr)
    cases l
    · simpa using h2
    · simpa using h1
  have hg : x.lanesGaveBack (planBuffers .b (planBuffers .a x)) :=
    planBuffers_gaveBack (fun l => by cases l <;> rfl) hw
  obtain ⟨b, w, q, p, h⟩ := hp
  exact ⟨b, w, q, p, he.trans h, he ▸ hg⟩

/-- The lanes at a gap begin, but for the buffer pool and the notices: no poll and no query pends either (R114). -/
def State.lanesHeld (s : State) : State :=
  { s.lanesAbandoned with
    laneA := { s.laneA.abandonWork with pendingPoll := none }
    laneB := { s.laneB.abandonWork with pendingPoll := none }
    query := none }

/-- The notice of the lanes at a gap begin: QUERY RESULT for a pending NODE QUERY (R114). -/
def State.queryPosted (s : State) : State :=
  match s.query with
  | none => s
  | some n => postNotice (.queryUnreachable n) s

theorem lanesGapBegin_eq (s : State) :
    ∃ b w q p, s.lanesGaveBack (s.lanesHeld.withPool b w q p) ∧
      lanesGapBegin s = (s.lanesHeld.withPool b w q p).notified s.queryPosted := by
  obtain ⟨b, w, q, p, ha, hg⟩ := abandonLanes_eq s
  have hg' : s.lanesGaveBack (s.lanesHeld.withPool b w q p) := by
    rw [ha] at hg
    exact hg.congr rfl rfl
  have hb : ((s.lanesAbandoned.withPool b w q p).bothLanes fun x => { x with pendingPoll := none }) =
      { s.lanesHeld.withPool b w q p with query := s.query } := rfl
  refine ⟨b, w, q, p, hg', ?_⟩
  unfold lanesGapBegin State.queryPosted
  rw [ha, hb]
  dsimp only
  cases s.query with
  | none => rfl
  | some n => exact postNotice_notified (n := s) (s := s.lanesHeld.withPool b w q p) ⟨rfl, rfl, rfl, rfl⟩ _

/-! ### The opening of a gap (R4) -/

/-- The state that a fall leaves as it opens a gap, but for the buffer pool and the notices. -/
def State.gapOpened (raw : Time) (s : State) : State :=
  { s.lanesHeld with
    supply :=
      { s.supply with
        state := .gap, horizonMark := false, lastFall := some raw
        openGap := some (GapRecord.opened raw s.supply.holdup) }
    timebase := (removeLimits s).lanesAbandoned.timebase.set .spanHorizon (raw + 65535)
    stations := s.stations.map (Station.atFall true (spanOf s.supply.horizonMark raw s.estimator.lastRise))
    estimator := { s.estimator with lastFall := some raw }
    engine := { s.engine with phase := .held, queue := s.engine.queue.map Job.atGap } }

theorem queryPosted_noticesAlike {s n : State} (h : n.noticesAlike s) (hq : s.query = n.query) :
    n.queryPosted.noticesAlike s.queryPosted := by
  unfold State.queryPosted
  rw [hq]
  cases n.query with
  | none => exact h
  | some _ => exact postNotice_noticesAlike h _

theorem queryPosted_keeps (s : State) : s.queryPosted.loader = s.loader ∧ s.queryPosted.settings = s.settings := by
  unfold State.queryPosted
  split
  · exact ⟨rfl, rfl⟩
  · exact ⟨postNotice_loader .., postNotice_settings ..⟩

/-- A fall opens a gap: the lanes give back their buffers, and QUERY RESULT comes before GAP BEGUN. -/
theorem openGapAt_eq (raw : Time) (s : State) :
    ∃ b w q p, s.lanesGaveBack ((s.gapOpened raw).withPool b w q p) ∧
      openGapAt raw s =
        ((s.gapOpened raw).withPool b w q p).notified (postNotice (.gapBegun raw s.supply.holdup) s.queryPosted) := by
  let x := engineGapBegin (estimatorFall raw true s.supply.horizonMark s)
  obtain ⟨b, w, q, p, hg, hl⟩ := lanesGapBegin_eq x
  have hg' : s.lanesGaveBack ((s.gapOpened raw).withPool b w q p) := hg.congr rfl rfl
  refine ⟨b, w, q, p, hg', ?_⟩
  have ha : s.queryPosted.noticesAlike
      ((lanesGapBegin x).updSupply fun w =>
        { w with state := .gap, openGap := some (GapRecord.opened raw w.holdup), lastFall := some raw }) := by
    obtain ⟨ho, hs⟩ := queryPosted_keeps s
    obtain ⟨hlink, hpins, _, _⟩ := queryPosted_noticesAlike (n := s) (s := x) ⟨rfl, rfl, rfl, rfl⟩ rfl
    rw [hl]
    exact ⟨hlink, hpins, ho.symm, hs.symm⟩
  unfold openGapAt
  dsimp only
  rw [postNotice_notified ha, hl]
  rfl

/-! ### A fall in LINE, and in the SETTLE of a cold start -/

/-- The deadlines of an opening gap: the span horizon re-armed, no response window and no restore limit, and every
other as it was (R8, R29, R116). -/
theorem gapOpened_dueOf (raw : Time) (s : State) :
    (s.gapOpened raw).timebase.dueOf .spanHorizon = some (raw + 65535) ∧
      (∀ l, (s.gapOpened raw).timebase.dueOf (.responseWindow l) = none) ∧
      (∀ n, (s.gapOpened raw).timebase.dueOf (.restoreLimit n) = none) ∧
      ∀ p, p ≠ .spanHorizon → (∀ l, p ≠ .responseWindow l) → (∀ n, p ≠ .restoreLimit n) →
        (s.gapOpened raw).timebase.dueOf p = s.timebase.dueOf p := by
  refine ⟨by simp [State.gapOpened], fun l => ?_, fun n => ?_, fun p h hw hl => ?_⟩
  · cases l <;> simp [State.gapOpened, State.lanesAbandoned]
  · simp [State.gapOpened, State.lanesAbandoned, removeLimits_dueOf_limit]
  · simp [State.gapOpened, State.lanesAbandoned, h, hw, removeLimits_dueOf hl]

/-- The notices of an opening gap, posted in a state that posts alike and has the same query pending. -/
theorem gapBegun_posted {s n : State} (h : n.noticesAlike s) (hq : s.query = n.query) (raw : Time) (holdup : Option Nat) :
    (postNotice (.gapBegun raw holdup) s.queryPosted).link = (postNotice (.gapBegun raw holdup) n.queryPosted).link ∧
      (postNotice (.gapBegun raw holdup) s.queryPosted).pins = (postNotice (.gapBegun raw holdup) n.queryPosted).pins := by
  obtain ⟨hlink, hpins, _, _⟩ := postNotice_noticesAlike (queryPosted_noticesAlike h hq) (.gapBegun raw holdup)
  exact ⟨hlink, hpins⟩

/-- Settles O15. -/
theorem fallOpensGap : Obligations.FallOpensGap := by
  intro s left due raw h hs hc
  rw [exec_filterConfirmExpiry h, confirmFilter_fall hc]
  rcases hs with hs | ⟨hs, ho⟩
  · have hs' : (s.confirming left .absent).supply.state = .line := hs
    obtain ⟨b, w, q, p, hg, he⟩ := openGapAt_eq raw (s.confirming left .absent)
    obtain ⟨hh, hr, hl, hd⟩ := gapOpened_dueOf raw (s.confirming left .absent)
    have hn := gapBegun_posted (n := s) (s := s.confirming left .absent) ⟨rfl, rfl, rfl, rfl⟩ rfl raw s.supply.holdup
    simp only [confirmedFall, hs', gapFromLine, he]
    refine ⟨_, rfl, rfl, rfl, rfl, rfl, rfl, rfl, rfl, hg.congr rfl rfl, hn, h.count, ?_, ?_, ?_, fun l => ?_, fun n => ?_,
      fun p h1 h2 h3 h4 h5 => ?_, rfl, rfl, rfl, rfl, rfl, rfl, rfl, rfl, rfl, rfl, rfl, rfl, rfl⟩
    · rw [if_pos hs, ← h.count]
      exact setDeadlineIn_dueOf_self ..
    · rw [if_pos hs]
      exact (setDeadlineIn_dueOf_ne (by simp) ..).trans (hd .settle (by simp) (by simp) (by simp))
    · exact (setDeadlineIn_dueOf_ne (by simp) ..).trans hh
    · exact (setDeadlineIn_dueOf_ne (by simp) ..).trans (hr l)
    · exact (setDeadlineIn_dueOf_ne (by simp) ..).trans (hl n)
    · exact (setDeadlineIn_dueOf_ne h1 ..).trans (hd p h3 h4 h5)
  · have hs' : (s.confirming left .absent).supply.state = .settle := hs
    have ho' : (s.confirming left .absent).supply.openGap = none := ho
    let x := removeDeadline .settle (s.confirming left .absent)
    obtain ⟨b, w, q, p, hg, he⟩ := openGapAt_eq raw x
    obtain ⟨hh, hr, hl, hd⟩ := gapOpened_dueOf raw x
    have hn := gapBegun_posted (n := s) (s := x) ⟨rfl, rfl, rfl, rfl⟩ rfl raw s.supply.holdup
    have hx : ∀ p, p ≠ .settle → x.timebase.dueOf p = left.dueOf p := fun p hp => by
      simp [x, State.confirming, hp]
    have hx' : x.timebase.dueOf .settle = none := by simp [x]
    simp only [confirmedFall, hs', ho', gapFromColdSettle, he, x]
    refine ⟨_, rfl, rfl, rfl, rfl, rfl, rfl, rfl, rfl, hg.congr rfl rfl, hn, h.count, ?_, ?_, hh, hr, hl,
      fun p h1 h2 h3 h4 h5 => (hd p h3 h4 h5).trans (hx p h2), rfl, rfl, rfl, rfl, rfl, rfl, rfl, rfl, rfl, rfl, rfl, rfl,
      rfl⟩
    · rw [hs]
      exact (hd .holdupSample (by simp) (by simp) (by simp)).trans (hx .holdupSample (by simp))
    · rw [hs]
      exact (hd .settle (by simp) (by simp) (by simp)).trans hx'

end Sys2Proof.Machine
end

section
/-! PROOFS. What the work of the lanes keeps (spec/06, 6.4). -/

namespace Sys2Proof.Machine

/-! ### What the work of the lanes keeps -/

/-- What the work of the lanes leaves alone, the slot records and the deadlines that are not theirs included. -/
def State.lanesWorkFrom (s t : State) : Prop :=
  s.alikeOutsideLanes t ∧ t.store.slots = s.store.slots ∧
    ∀ p : Purpose, ¬p.ofLanes → t.timebase.dueOf p = s.timebase.dueOf p

theorem State.lanesWorkFrom.refl (s : State) : s.lanesWorkFrom s := by
  refine ⟨?_, rfl, fun _ _ => rfl⟩
  repeat' first | rfl | constructor

/-- The changes that the lanes make as they work leave it alone. -/
theorem State.lanesWorkFrom.stable (s : State) : LaneStable s.lanesWorkFrom where
  storeWork t x hx h := by
    obtain ⟨⟨hslots, hwrite, hsave, hmarks⟩, _⟩ := hx
    obtain ⟨⟨pins, supply, count, estimator, stations, car, pushA, pushB, settings, phase, pass, nextJob, restored, failed,
      runStart, queue, query, write, save, marks, rest⟩, slots, due⟩ := h
    exact ⟨⟨pins, supply, count, estimator, stations, car, pushA, pushB, settings, phase, pass, nextJob, restored, failed,
      runStart, queue, query, hwrite.trans write, hsave.trans save, hmarks.trans marks, rest⟩, hslots.trans slots, due⟩
  park _ _ h := h
  laneA _ _ _ _ _ h := h
  laneB _ _ _ _ _ h := h
  free _ _ h := h
  laneDeadline t p d hp h := by
    refine ⟨h.1, h.2.1, fun q hq => ?_⟩
    have hne : q ≠ p := fun he => hq (he ▸ hp)
    rw [setDeadline_timebase, Timebase.dueOf_set, if_neg hne]
    exact h.2.2 q hq
  jobs t q hq h := by
    obtain ⟨⟨pins, supply, count, estimator, stations, car, pushA, pushB, settings, phase, pass, nextJob, restored, failed,
      runStart, queue, rest⟩, slots, due⟩ := h
    exact ⟨⟨pins, supply, count, estimator, stations, car, pushA, pushB, settings, phase, pass, nextJob, restored, failed,
      runStart, hq.trans queue, rest⟩, slots, due⟩

theorem lanesAct_worksFrom (s : State) : s.lanesWorkFrom (lanesAct s) :=
  (State.lanesWorkFrom.stable s).lanesAct (.refl s)

/-! ### What the work of the lanes keeps of the jobs -/

/-- A job without what the work of the lanes changes of it: its state, its in-flight mark, its blocks sent and its retries
used (R77, R79, R125). -/
def Job.core (j : Job) : Job := { j with state := .probe, inFlight := false, blocksSent := 0, retriesUsed := 0 }

/-- The jobs of the queue without what the work of the lanes changes of them. -/
def State.jobCores (s : State) : List Job := s.engine.queue.map Job.core

theorem State.jobCores_updJob (s : State) (n : Nat) {f : Job → Job} (hf : ∀ j, (f j).core = j.core) :
    (s.updJob n f).jobCores = s.jobCores := by
  simp only [State.jobCores, State.updJob, List.map_map]
  refine List.map_congr_left fun j _ => ?_
  simp only [Function.comp]
  split
  · exact hf j
  · rfl

theorem State.jobCores_updJobs (ns : List Nat) (s : State) {f : Job → Job} (hf : ∀ j, (f j).core = j.core) :
    (ns.foldl (fun x n => x.updJob n f) s).jobCores = s.jobCores := by
  induction ns generalizing s with
  | nil => rfl
  | cons n ns ih => rw [List.foldl_cons, ih, s.jobCores_updJob n hf]

theorem State.jobCores_updLane (s : State) (l : Lane) (f : LaneState → LaneState) :
    (s.updLane l f).jobCores = s.jobCores := by
  cases l <;> rfl

theorem State.jobCores_setDeadlineIn (p : Purpose) (n : Nat) (s : State) :
    (setDeadlineIn p n s).jobCores = s.jobCores := rfl

theorem State.poolBecomes.jobCores {s t : State} (h : s.poolBecomes t) : t.jobCores = s.jobCores := by
  obtain ⟨_, _, _, _, rfl⟩ := h
  rfl

theorem jobCores_selectHolder (l : Lane) (s : State) : (selectHolder l s).jobCores = s.jobCores := by
  unfold selectHolder
  split
  · rfl
  · split
    · rfl
    · dsimp only
      split
      · rw [(State.poolBecomes.planBuffers _ _).jobCores, State.jobCores_updLane]
        exact s.jobCores_updJob _ fun _ => rfl
      · rw [(State.poolBecomes.planBuffers _ _).jobCores, State.jobCores_updLane]
        exact State.jobCores_updJobs _ s fun _ => rfl

theorem jobCores_issueFlash (s : State) : (issueFlash s).jobCores = s.jobCores := by
  unfold issueFlash
  split
  · rfl
  · split
    · rfl
    · dsimp only
      split <;> rfl

theorem jobCores_countBlocks (l : Lane) (t : Txn) (s : State) : (countBlocks l t s).jobCores = s.jobCores := by
  unfold countBlocks
  split
  · rfl
  · split
    · exact s.jobCores_updJob _ fun _ => rfl
    · exact State.jobCores_updJobs _ s fun j => by split <;> rfl
    · rfl

theorem jobCores_markSending (t : Txn) (s : State) : (markSending t s).jobCores = s.jobCores := by
  unfold markSending
  split <;> rfl

theorem jobCores_beginAttempt (l : Lane) (t : Txn) (s : State) : (beginAttempt l t s).jobCores = s.jobCores := by
  unfold beginAttempt
  dsimp only
  split
  · rw [jobCores_markSending, jobCores_countBlocks]
    exact s.jobCores_updLane l _
  · rw [State.jobCores_setDeadlineIn, jobCores_markSending, jobCores_countBlocks]
    exact s.jobCores_updLane l _

theorem jobCores_beginStep (l : Lane) (turn : Turn) (kind : TurnKind) (s : State) :
    (beginStep l turn kind s).jobCores = s.jobCores := by
  unfold beginStep
  rw [jobCores_beginAttempt, State.jobCores_updLane]
  split
  · exact s.jobCores_updJob _ fun _ => rfl
  · exact s.jobCores_updLane l _
  · rfl

theorem jobCores_arbitrate (l : Lane) (s : State) : (arbitrate l s).jobCores = s.jobCores := by
  unfold arbitrate
  split
  · split
    · rfl
    · exact jobCores_beginStep ..
  · rfl

/-- The work of the lanes changes nothing of the jobs but their states, their marks and their counts. -/
theorem jobCores_lanesAct (s : State) : (lanesAct s).jobCores = s.jobCores := by
  unfold lanesAct
  rw [jobCores_arbitrate, jobCores_arbitrate, jobCores_issueFlash, jobCores_selectHolder, jobCores_selectHolder]

theorem State.job?_core (s : State) (n : Nat) : (s.job? n).map Job.core = s.jobCores.find? (·.station = n) := by
  unfold State.job? State.jobCores
  rw [List.find?_map]
  rfl

/-- The jobs of a station before and after the work of the lanes. -/
theorem lanesAct_job? (s : State) (n : Nat) : ((lanesAct s).job? n).map Job.core = (s.job? n).map Job.core := by
  rw [State.job?_core, jobCores_lanesAct, State.job?_core]

theorem lanesAct_hasJob (s : State) (n : Nat) : (lanesAct s).hasJob n = s.hasJob n := by
  simp only [State.hasJob]
  rw [← Option.isSome_map (f := Job.core), lanesAct_job?, Option.isSome_map]

end Sys2Proof.Machine
end

section
/-! PROOFS. The building of a pass (spec/05, 5.3). -/

namespace Sys2Proof.Machine

/-! ### Jobs that join -/

theorem find_insertJob (classOf : Nat → Nat) (j : Job) (n : Nat) {js : List Job}
    (h : ∀ x ∈ js, x.station ≠ j.station) :
    (insertJob classOf j js).find? (·.station = n) = if n = j.station then some j else js.find? (·.station = n) := by
  induction js with
  | nil => by_cases hn : n = j.station <;> simp [insertJob, hn, eq_comm]
  | cons x xs ih =>
    have hx : x.station ≠ j.station := h x (List.mem_cons_self ..)
    have ih := ih fun y hy => h y (List.mem_cons_of_mem _ hy)
    unfold insertJob
    split
    · by_cases hn : n = j.station <;> simp [List.find?_cons, hn, eq_comm]
    · by_cases hn : n = j.station
      · subst hn
        simp [ih, hx]
      · simp [List.find?_cons, ih, hn]

/-- The pass number that a job created now holds (R72). -/
def State.joinPass (s : State) : Option Nat := if s.supply.state = .line then some s.engine.pass else none

/-- A job that joins is its station's, and every other station's is as it was. -/
theorem addJob_job? {n : Nat} {s : State} (h : s.hasJob n = false) (o : Origin) (p : Prediction) (m : Nat) :
    (addJob n o p s).job? m =
      if m = n then some (Job.create n s.engine.nextJob o p s.joinPass) else s.job? m := by
  refine find_insertJob _ (Job.create n s.engine.nextJob o p s.joinPass) m fun x hx he => ?_
  have hf : (s.job? n).isSome = true := by
    simp only [State.job?, List.find?_isSome]
    exact ⟨x, hx, decide_eq_true he⟩
  rw [State.hasJob, hf] at h
  cases h

/-- Nothing has changed but what jobs that join change: the queue, the numbers of jobs, the push lists and the pending
polls (R64, R72, R113). -/
def State.jobsJoin (s t : State) : Prop :=
  ∃ q k a b x y,
    t = { s with engine := { s.engine with queue := q, nextJob := k }, pushA := a, pushB := b, laneA := x, laneB := y }

theorem State.jobsJoin.joinPass {s t : State} (h : s.jobsJoin t) : t.joinPass = s.joinPass := by
  obtain ⟨_, _, _, _, _, _, rfl⟩ := h
  rfl

theorem jobsJoin_joinJob (n : Nat) (o : Origin) (p : Prediction) (s : State) : s.jobsJoin (joinJob n o p s) := by
  unfold joinJob
  split <;> exact ⟨_, _, _, _, _, _, rfl⟩

theorem jobsJoin_joinAll (o : Origin) (xs : List Station) (s : State) : s.jobsJoin (joinAll o xs s) := by
  unfold joinAll
  induction xs generalizing s with
  | nil => exact ⟨_, _, _, _, _, _, rfl⟩
  | cons st xs ih =>
    obtain ⟨_, _, _, _, _, _, h1⟩ := jobsJoin_joinJob st.entry.number o st.estimate.prediction s
    obtain ⟨q, k, a, b, x, y, h2⟩ := ih (joinJob st.entry.number o st.estimate.prediction s)
    exact ⟨q, k, a, b, x, y, by rw [List.foldl_cons, h2, h1]⟩

/-- A station that has a job keeps it. -/
theorem joinJob_kept {m : Nat} {j : Job} {s : State} (h : s.job? m = some j) (n : Nat) (o : Origin) (p : Prediction) :
    (joinJob n o p s).job? m = some j := by
  unfold joinJob
  split
  · exact h
  · rename_i hn
    have hm : m ≠ n := fun he => hn (by rw [State.hasJob, ← he, h]; rfl)
    rw [addJob_job? (by simpa using hn), if_neg hm, h]

theorem joinAll_kept {m : Nat} {j : Job} {s : State} (h : s.job? m = some j) (o : Origin) (xs : List Station) :
    (joinAll o xs s).job? m = some j := by
  unfold joinAll
  induction xs generalizing s with
  | nil => exact h
  | cons st xs ih => exact ih (joinJob_kept h ..)

/-- A station without a job gets one by its first entry among those that join (R73). -/
theorem joinAll_joined {n : Nat} {st : Station} {s : State} {xs : List Station} (h : s.job? n = none)
    (hx : xs.find? (·.entry.number = n) = some st) (o : Origin) :
    ∃ id, (joinAll o xs s).job? n = some (Job.create n id o st.estimate.prediction s.joinPass) := by
  induction xs generalizing s with
  | nil => cases hx
  | cons y ys ih =>
    have hs : (joinAll o (y :: ys) s) = joinAll o ys (joinJob y.entry.number o y.estimate.prediction s) := rfl
    have hj := (jobsJoin_joinJob y.entry.number o y.estimate.prediction s).joinPass
    rw [hs]
    by_cases hy : y.entry.number = n
    · subst hy
      have he : y = st := by simpa using hx
      subst he
      have hn : s.hasJob y.entry.number = false := by simp [State.hasJob, h]
      refine ⟨s.engine.nextJob, joinAll_kept ?_ o ys⟩
      rw [joinJob, if_neg (by simp [hn]), addJob_job? hn, if_pos rfl]
    · have h1 : (joinJob y.entry.number o y.estimate.prediction s).job? n = none := by
        unfold joinJob
        split
        · exact h
        · rename_i hn
          rw [addJob_job? (by simpa using hn), if_neg (Ne.symm hy), h]
      have h2 : ys.find? (·.entry.number = n) = some st := by simpa [List.find?_cons, hy] using hx
      rw [← hj]
      exact ih h1 h2

/-! ### The restore limits armed -/

/-- The restore limits of some jobs armed, one after another. -/
theorem armLimits_eq (js : List Job) (s : State) :
    ∃ tb : Timebase, js.foldl (fun x j => armLimit j.station x) s = { s with timebase := tb } ∧
      tb.count = s.timebase.count ∧
      (∀ n, tb.dueOf (.restoreLimit n) =
        if n ∈ js.map (·.station) then some (s.timebase.count + ms s.settings.restoreLimit)
        else s.timebase.dueOf (.restoreLimit n)) ∧
      ∀ p, (∀ n, p ≠ .restoreLimit n) → tb.dueOf p = s.timebase.dueOf p := by
  induction js generalizing s with
  | nil => exact ⟨s.timebase, rfl, rfl, by simp, fun _ _ => rfl⟩
  | cons j js ih =>
    obtain ⟨tb, he, hc, hl, hp⟩ := ih (armLimit j.station s)
    refine ⟨tb, he, hc, fun n => ?_, fun p hne => (hp p hne).trans (setDeadlineIn_dueOf_ne (hne _) ..)⟩
    have hj : (armLimit j.station s).timebase.dueOf (.restoreLimit n) =
        if n = j.station then some (s.timebase.count + ms s.settings.restoreLimit)
        else s.timebase.dueOf (.restoreLimit n) := by
      simp [armLimit, setDeadlineIn]
    rw [hl n, hj]
    by_cases hn : n = j.station
    · simp only [hn, List.map_cons, List.mem_cons, true_or, if_true]
      exact ite_self _
    · simp only [hn, List.map_cons, List.mem_cons, false_or, if_false]
      rfl

/-- Every job's restore limit is armed, and nothing else changes (R87). -/
theorem armAll_eq (s : State) :
    ∃ tb : Timebase, armAll s = { s with timebase := tb } ∧ tb.count = s.timebase.count ∧
      (∀ j ∈ s.engine.queue,
        tb.dueOf (.restoreLimit j.station) = some (s.timebase.count + ms s.settings.restoreLimit)) ∧
      ∀ p, (∀ n, p ≠ .restoreLimit n) → tb.dueOf p = s.timebase.dueOf p := by
  obtain ⟨tb, he, hc, hl, hp⟩ := armLimits_eq s.engine.queue s
  exact ⟨tb, he, hc, fun j hj => by rw [hl, if_pos (List.mem_map_of_mem hj)], hp⟩

/-! ### The stations that join at a pass (R71) -/

theorem mem_joiningOrder {s : State} {st : Station} :
    st ∈ joiningOrder s ↔ st ∈ s.stations ∧ s.hasJob st.entry.number = false ∧ st.entry.restoreClass ≤ 3 := by
  have hc : st.entry.restoreClass ≤ 3 ↔ ∃ c ∈ [0, 1, 2, 3], st.entry.restoreClass = c := by
    simp
    omega
  rw [hc]
  simp only [joiningOrder, List.mem_flatMap, List.mem_append, List.mem_filter, Bool.and_eq_true, decide_eq_true_eq,
    Bool.not_eq_true']
  constructor
  · rintro ⟨c, hc, ⟨⟨h1, h2⟩, h3, _⟩ | ⟨⟨h1, h2⟩, h3, _⟩⟩ <;> exact ⟨h1, h2, c, hc, h3⟩
  · rintro ⟨h1, h2, c, hc, h3⟩
    cases hl : st.estimate.lost
    · exact ⟨c, hc, .inr ⟨⟨h1, h2⟩, h3, rfl⟩⟩
    · exact ⟨c, hc, .inl ⟨⟨h1, h2⟩, h3, rfl⟩⟩

/-! ### A pass built (R73 to R75) -/

/-- The jobs that a pass begins with: those carried into it, and those that join. -/
def State.passJobs (s : State) : State :=
  joinAll (if s.engine.pass = 0 then .cold else .gap) (joiningOrder s)
    (carryAll (nextPass s.engine.pass) s.predictionOf (clearLost s))

theorem carryAll_job? (pass : Nat) (predict : Nat → Prediction) (s : State) (n : Nat) :
    (carryAll pass predict s).job? n = (s.job? n).map (carryJob pass predict) := by
  simp only [State.job?, carryAll, List.find?_map]
  rfl

/-- A station that joins is found among those that join. -/
theorem find_joiningOrder {s : State} {st : Station} (h : st ∈ joiningOrder s) :
    ∃ x, (joiningOrder s).find? (·.entry.number = st.entry.number) = some x := by
  rw [← Option.isSome_iff_exists, List.find?_isSome]
  exact ⟨st, h, by simp⟩

/-- Every station of a class of R71 has a job in the pass. -/
theorem passJobs_hasJob {s : State} {st : Station} (h : st ∈ s.stations) (hc : st.entry.restoreClass ≤ 3) :
    s.passJobs.hasJob st.entry.number = true := by
  have hk := carryAll_job? (nextPass s.engine.pass) s.predictionOf (clearLost s) st.entry.number
  cases hj : s.job? st.entry.number with
  | some j =>
    have hs : (clearLost s).job? st.entry.number = some j := hj
    rw [hs] at hk
    rw [State.hasJob, State.passJobs, joinAll_kept hk]
    rfl
  | none =>
    have hs : (clearLost s).job? st.entry.number = none := hj
    rw [hs] at hk
    have hm : st ∈ joiningOrder s := mem_joiningOrder.2 ⟨h, by simp [State.hasJob, hj], hc⟩
    obtain ⟨x, hx⟩ := find_joiningOrder hm
    obtain ⟨id, he⟩ := joinAll_joined hk hx (if s.engine.pass = 0 then .cold else .gap)
    rw [State.hasJob, State.passJobs, he]
    rfl

/-- A station without a job gets one in LINE, with its prediction, in the new pass. -/
theorem passJobs_joined {s : State} {st : Station} (hl : s.supply.state = .line) (ho : s.stationsOrdered)
    (h : st ∈ s.stations) (hc : st.entry.restoreClass ≤ 3) (hj : s.hasJob st.entry.number = false) :
    ∃ id, s.passJobs.job? st.entry.number =
      some (Job.create st.entry.number id (if s.engine.pass = 0 then .cold else .gap) st.estimate.prediction
        (some (nextPass s.engine.pass))) := by
  have hk := carryAll_job? (nextPass s.engine.pass) s.predictionOf (clearLost s) st.entry.number
  have hs : (clearLost s).job? st.entry.number = none := (by simpa [State.hasJob] using hj : s.job? _ = none)
  rw [hs] at hk
  have hm : st ∈ joiningOrder s := mem_joiningOrder.2 ⟨h, hj, hc⟩
  obtain ⟨x, hx⟩ := find_joiningOrder hm
  have he : x = st :=
    ho.sameNumber (mem_joiningOrder.1 (List.mem_of_find?_eq_some hx)).1 h (by simpa using List.find?_some hx)
  rw [he] at hx
  obtain ⟨id, hid⟩ := joinAll_joined hk hx (if s.engine.pass = 0 then .cold else .gap)
  have hp : (carryAll (nextPass s.engine.pass) s.predictionOf (clearLost s)).joinPass = some (nextPass s.engine.pass) :=
    if_pos hl
  rw [hp] at hid
  exact ⟨id, hid⟩

/-- PASS STARTED, and PASS COMPLETE where the pass has no job (R73, R75). -/
def State.passPosted (s : State) : State :=
  let started :=
    postNotice (.passStarted (nextPass s.engine.pass) (joiningOrder s).length s.engine.queue.length) s
  if s.passJobs.engine.queue.isEmpty then postNotice (.passComplete (nextPass s.engine.pass) 0 0 0) started else started

/-- The state of a pass just built, but for the notices and the restore limits. -/
def State.passBuilt (s : State) : State :=
  { s.passJobs with
    engine :=
      { s.passJobs.engine with
        phase := if s.passJobs.engine.queue.isEmpty then .idle else .active
        restored := 0, failed := 0, runStart := s.timebase.count } }

/-- The phase of a pass just built, and PASS COMPLETE where it has no job, posted as in a state that posts alike. -/
theorem openPass_eq (pass : Nat) {s n : State} (h : n.noticesAlike s) :
    openPass pass s =
      (setPhase (if s.engine.queue.isEmpty then .idle else .active) s).notified
        (if s.engine.queue.isEmpty then postNotice (.passComplete pass 0 0 0) n else n) := by
  unfold openPass
  split
  · rw [postNotice_notified h]
    rfl
  · obtain ⟨hlink, hpins, _, _⟩ := h
    rw [State.notified, ← hlink, ← hpins]
    rfl

theorem buildPass_eq (s : State) :
    ∃ tb : Timebase, buildPass s = State.notified { s.passBuilt with timebase := tb } s.passPosted ∧
      tb.count = s.timebase.count ∧
      (∀ j ∈ s.passJobs.engine.queue,
        tb.dueOf (.restoreLimit j.station) = some (s.timebase.count + ms s.settings.restoreLimit)) ∧
      ∀ p, (∀ n, p ≠ .restoreLimit n) → tb.dueOf p = s.timebase.dueOf p := by
  have hj : (carryAll (nextPass s.engine.pass) s.predictionOf (clearLost s)).jobsJoin s.passJobs := jobsJoin_joinAll ..
  obtain ⟨hlink, hpins, hloader, hsettings, htime⟩ : s.passJobs.link = s.link ∧ s.passJobs.pins = s.pins ∧
      s.passJobs.loader = s.loader ∧ s.passJobs.settings = s.settings ∧
      s.passJobs.timebase = s.timebase := by
    obtain ⟨_, _, _, _, _, _, he⟩ := hj
    rw [he]
    exact ⟨rfl, rfl, rfl, rfl, rfl⟩
  let n := postNotice (.passStarted (nextPass s.engine.pass) (joiningOrder s).length s.engine.queue.length) s
  have hn : postNotice (.passStarted (nextPass s.engine.pass) (joiningOrder s).length s.engine.queue.length) s.passJobs =
      s.passJobs.notified n := postNotice_notified ⟨hlink, hpins, hloader, hsettings⟩ _
  obtain ⟨tb, hb, hc, hl, hp⟩ := armAll_eq (s.passJobs.notified n)
  have hlen : (carryAll (nextPass s.engine.pass) s.predictionOf (clearLost s)).engine.queue.length =
      s.engine.queue.length := List.length_map ..
  have he : buildPass s = openPass (nextPass s.engine.pass) (startRun (armAll (s.passJobs.notified n))) := by
    rw [← hn, ← hlen]
    rfl
  refine ⟨tb, ?_, hc.trans (congrArg _ htime), fun j hj => (hl j hj).trans ?_,
    fun p hne => (hp p hne).trans (congrArg (·.dueOf p) htime)⟩
  · have hr : startRun { s.passJobs.notified n with timebase := tb } =
        State.notified
          { s.passJobs with
            engine :=
              { s.passJobs.engine with
                restored := 0, failed := 0, runStart := s.timebase.count }
            timebase := tb } n := by
      rw [← htime, show s.passJobs.timebase.count = tb.count from hc.symm]
      rfl
    have ha : n.noticesAlike (startRun { s.passJobs.notified n with timebase := tb }) := by
      have hnl : n.loader = s.loader := postNotice_loader ..
      have hns : n.settings = s.settings := postNotice_settings ..
      rw [hr]
      exact ⟨rfl, rfl, hloader.trans hnl.symm, hsettings.trans hns.symm⟩
    rw [he, hb, openPass_eq _ ha, hr]
    rfl
  · rw [← htime, ← hsettings]
    rfl

end Sys2Proof.Machine
end

section
/-! PROOFS. The settle expiry (spec/01, 1.3). -/

namespace Sys2Proof.Machine

/-! ### A gap closed (R7, R16) -/

/-- GAP ENDED for an open gap. -/
def State.gapEndPosted (s : State) : State :=
  match s.supply.openGap with
  | none => s
  | some g => postNotice (.gapEnded g.start g.endTime g.dark g.rebounds) s

/-- The state of a part that has just entered LINE from SETTLE, but for the notice: the open record is the last one. -/
def State.gapClosed (s : State) : State :=
  s.updSupply fun w => { w with state := .line, openGap := none, lastGap := w.openGap.or w.lastGap }

theorem closeGap_eq {s n : State} (h : n.noticesAlike s) (ho : s.supply.openGap = n.supply.openGap) :
    closeGap s = s.gapClosed.notified n.gapEndPosted := by
  unfold closeGap State.gapEndPosted
  rw [ho]
  cases n.supply.openGap with
  | none =>
    obtain ⟨hlink, hpins, _, _⟩ := h
    dsimp only
    rw [State.notified, ← hlink, ← hpins]
    rfl
  | some g => exact postNotice_notified (s := s.gapClosed) h _

theorem gapEndPosted_keeps (s : State) : s.gapEndPosted.loader = s.loader ∧ s.gapEndPosted.settings = s.settings := by
  unfold State.gapEndPosted
  split
  · exact ⟨rfl, rfl⟩
  · exact ⟨postNotice_loader .., postNotice_settings ..⟩

/-! ### The settle expiry before loading has ended (R7, R174) -/

/-- The issue of a flash operation changes the Store Interface's queue, what runs, and the timeout. -/
theorem issueFlash_eq (s : State) :
    ∃ (tb : Timebase) (x : Store), issueFlash s = { s with timebase := tb, store := x } ∧
      tb.count = s.timebase.count ∧ (∀ p, p ≠ .storeOperation → tb.dueOf p = s.timebase.dueOf p) ∧
      x = { s.store with queue := x.queue, running := x.running, chipSelect := x.chipSelect, prepared := x.prepared } := by
  unfold issueFlash
  split
  · exact ⟨_, _, rfl, rfl, fun _ _ => rfl, rfl⟩
  · split
    · exact ⟨_, _, rfl, rfl, fun _ _ => rfl, rfl⟩
    · dsimp only
      split
      · exact ⟨_, _, rfl, rfl, fun _ _ => rfl, rfl⟩
      · exact ⟨_, _, rfl, rfl, fun p hp => by simp [hp], rfl⟩

/-- The settle expiry, in the state that the delivery leaves. -/
theorem exec_settleExpiry {s : State} {left : Timebase} {due : Time} (h : s.dueNow .settle left due)
    (hs : s.supply.state = .settle) :
    exec .settleExpiry s =
      .next (lanesAct (setDeadlineIn .holdupSample 64 (engineSettled (closeGap (s.withTimebase left))))) := by
  have hs' : (s.withTimebase left).supply.state = .settle := hs
  have he : settleExpired (s.withTimebase left) =
      lanesAct (setDeadlineIn .holdupSample 64 (engineSettled (closeGap (s.withTimebase left)))) := by
    simp only [settleExpired, hs']
  rw [← he]
  exact whileRunning_onExpiry h fun _ s => settleExpired s

theorem gapEndPosted_loading {s : State} (h : s.loadingEnded = false) : s.gapEndPosted = s := by
  unfold State.gapEndPosted
  split
  · rfl
  · exact postNotice_loading h _

/-- Before loading has ended LINE is entered with no notice and no pass. -/
theorem settleExpiry_loading {s : State} {left : Timebase} {due : Time} (h : s.dueNow .settle left due)
    (hs : s.supply.state = .settle) (hl : s.loadingEnded = false) :
    ∃ (phase : EnginePhase) (tb : Timebase) (x : Store),
      exec .settleExpiry s =
        .next
          { s with
            supply :=
              { s.supply with state := .line, openGap := none, lastGap := s.supply.openGap.or s.supply.lastGap }
            engine := { s.engine with phase := phase }
            timebase := tb
            store := x } ∧
      tb.count = s.timebase.count ∧ tb.dueOf .holdupSample = some (s.timebase.count + 64) ∧
      x = { s.store with queue := x.queue, running := x.running, chipSelect := x.chipSelect, prepared := x.prepared } := by
  have hc : closeGap (s.withTimebase left) = (s.withTimebase left).gapClosed := by
    rw [closeGap_eq (s := s.withTimebase left) (n := s) ⟨rfl, rfl, rfl, rfl⟩ rfl, gapEndPosted_loading hl]
    rfl
  have hl' : (s.withTimebase left).gapClosed.loadingEnded = false := hl
  have hp : engineSettled (s.withTimebase left).gapClosed =
      setPhase (if s.engine.queue.isEmpty then .idle else .active) (s.withTimebase left).gapClosed := by
    simp only [engineSettled, hl', Bool.false_eq_true, if_false]
    rfl
  have ho : (setDeadlineIn .holdupSample 64
      (setPhase (if s.engine.queue.isEmpty then .idle else .active) (s.withTimebase left).gapClosed)).lanesOpen =
        false := by
    show (decide _ && s.loadingEnded) = false
    rw [hl, Bool.and_false]
  obtain ⟨tb, x, he, hcount, hd, hx⟩ := issueFlash_eq (setDeadlineIn .holdupSample 64
    (setPhase (if s.engine.queue.isEmpty then .idle else .active) (s.withTimebase left).gapClosed))
  rw [exec_settleExpiry h hs, hc, hp, lanesAct_closed ho, he]
  refine ⟨_, tb, x, rfl, hcount.trans h.count, (hd _ (by simp)).trans ?_, hx⟩
  rw [setDeadlineIn_dueOf_self, ← h.count]
  rfl

/-! ### The settle expiry once loading has ended (R7, R73 to R75) -/

/-- What a pass just built leaves alone, and what it sets (R37, R73, R76). -/
theorem passBuilt_keeps (s : State) :
    s.passBuilt.supply = s.supply ∧
      s.passBuilt.stations = s.stations.map (fun st => { st with estimate := { st.estimate with lost := false } }) ∧
      s.passBuilt.car = s.car ∧ s.passBuilt.settings = s.settings ∧ s.passBuilt.flash = s.flash ∧
      s.passBuilt.query = s.query ∧ s.passBuilt.estimator = s.estimator ∧ s.passBuilt.loader = s.loader ∧
      s.passBuilt.store = s.store ∧ s.passBuilt.engine.pass = nextPass s.engine.pass := by
  obtain ⟨_, _, _, _, _, _, hj⟩ := jobsJoin_joinAll (if s.engine.pass = 0 then .cold else .gap) (joiningOrder s)
    (carryAll (nextPass s.engine.pass) s.predictionOf (clearLost s))
  unfold State.passBuilt State.passJobs
  rw [hj]
  exact ⟨rfl, rfl, rfl, rfl, rfl, rfl, rfl, rfl, rfl, rfl⟩

/-- With no station and no job carried a pass has no job. -/
theorem passJobs_none {s : State} (hs : s.stations = []) (hq : s.engine.queue = []) : s.passJobs.engine.queue = [] := by
  have hj : joiningOrder s = [] := by
    rw [List.eq_nil_iff_forall_not_mem]
    intro st hst
    have := (mem_joiningOrder.1 hst).1
    rw [hs] at this
    cases this
  rw [State.passJobs, hj]
  show s.engine.queue.map _ = []
  rw [hq]
  rfl

theorem State.hasJob_queue {s : State} {n : Nat} (h : s.hasJob n = true) : s.engine.queue ≠ [] := by
  intro hq
  simp [State.hasJob, State.job?, hq] at h

/-- A pass with a station or a job carried has a job. -/
theorem passJobs_some {s : State} (hc : ∀ st ∈ s.stations, st.entry.restoreClass ≤ 3)
    (h : s.stations ≠ [] ∨ s.engine.queue ≠ []) : s.passJobs.engine.queue ≠ [] := by
  rcases h with h | h
  · obtain ⟨st, hst⟩ := List.exists_mem_of_ne_nil _ h
    exact State.hasJob_queue (passJobs_hasJob hst (hc st hst))
  · obtain ⟨j, hj⟩ := List.exists_mem_of_ne_nil _ h
    have hf : ((clearLost s).job? j.station).isSome = true :=
      List.find?_isSome.2 ⟨j, hj, by simp⟩
    obtain ⟨k, hk⟩ := Option.isSome_iff_exists.1 hf
    have hs := carryAll_job? (nextPass s.engine.pass) s.predictionOf (clearLost s) j.station
    rw [hk] at hs
    have hp := joinAll_kept hs (if s.engine.pass = 0 then .cold else .gap) (joiningOrder s)
    refine State.hasJob_queue (n := j.station) ?_
    rw [State.hasJob, State.passJobs, hp]
    rfl

/-- A sound station is in a class of R71. -/
theorem State.stationsSound.restoreClass {s : State} (h : s.stationsSound) :
    ∀ st ∈ s.stations, st.entry.restoreClass ≤ 3 := by
  intro st hst
  obtain ⟨⟨_, _, _, _, _, _, _, _, hc, _⟩, _⟩ := h st hst
  exact hc

theorem Job.core_eq_keeps {j k : Job} (h : j.core = k.core) :
    j.origin = k.origin ∧ j.prediction = k.prediction ∧ j.pass = k.pass :=
  ⟨congrArg (·.origin) h, congrArg (·.prediction) h, congrArg (·.pass) h⟩

/-- The state at the settle expiry in which a pass is built. -/
def State.settled (s : State) (left : Timebase) : State := (s.withTimebase left).gapClosed.notified s.gapEndPosted

/-- The settle expiry builds a pass, and the lanes go to work. -/
theorem exec_settleExpiry_loaded {s : State} {left : Timebase} {due : Time} (h : s.dueNow .settle left due)
    (hs : s.supply.state = .settle) (hl : s.loadingEnded = true) :
    exec .settleExpiry s = .next (lanesAct (setDeadlineIn .holdupSample 64 (buildPass (s.settled left)))) := by
  have hl' : (s.settled left).loadingEnded = true := hl
  rw [exec_settleExpiry h hs, closeGap_eq (s := s.withTimebase left) (n := s) ⟨rfl, rfl, rfl, rfl⟩ rfl]
  show Host.Outcome.next (lanesAct (setDeadlineIn .holdupSample 64 (engineSettled (s.settled left)))) = _
  rw [engineSettled, if_pos hl']

/-- The notices of the settle expiry: GAP ENDED, PASS STARTED, and PASS COMPLETE for a pass without a job. -/
theorem settled_passPosted (s : State) (left : Timebase) :
    let started :=
      postNotice (.passStarted (nextPass s.engine.pass) (joiningOrder s).length s.engine.queue.length) s.gapEndPosted
    (if (s.settled left).passJobs.engine.queue.isEmpty then
        postNotice (.passComplete (nextPass s.engine.pass) 0 0 0) started else started).noticesAlike
      (s.settled left).passPosted := by
  obtain ⟨ho, hs⟩ := gapEndPosted_keeps s
  have ha : s.gapEndPosted.noticesAlike (s.settled left) := ⟨rfl, rfl, ho.symm, hs.symm⟩
  have hb := postNotice_noticesAlike ha
    (.passStarted (nextPass s.engine.pass) (joiningOrder s).length s.engine.queue.length)
  unfold State.passPosted
  dsimp only
  split
  · exact postNotice_noticesAlike hb _
  · exact hb

/-- Settles O18. -/
theorem settleExpiryEndsSettle : Obligations.SettleExpiryEndsSettle := by
  refine ⟨fun s left due h hs hl hsound => ?_, fun s left due => settleExpiry_loading⟩
  let x := s.settled left
  have hclass : ∀ st ∈ x.stations, st.entry.restoreClass ≤ 3 := hsound.restoreClass
  obtain ⟨tb, hb, hcount, hlimits, hother⟩ := buildPass_eq x
  obtain ⟨bsupply, bstations, bcar, bsettings, bflash, bquery, bestimator, bloader, bstore, bpass⟩ := passBuilt_keeps x
  let u := setDeadlineIn .holdupSample 64 (State.notified { x.passBuilt with timebase := tb } x.passPosted)
  have he : exec .settleExpiry s = .next (lanesAct u) := by
    rw [exec_settleExpiry_loaded h hs hl, hb]
  have hjob : ∀ n, ((lanesAct u).job? n).map Job.core = (x.passJobs.job? n).map Job.core := lanesAct_job? u
  have hhas : ∀ n, (lanesAct u).hasJob n = x.passJobs.hasJob n := lanesAct_hasJob u
  obtain ⟨⟨pins, supply, count, estimator, stations, car, -, -, settings, phase, pass, -, restored, failed, runStart, queue,
    query, write, save, marks, loader, link, flash, -⟩, slots, due⟩ := lanesAct_worksFrom u
  obtain ⟨plink, ppins, -, -⟩ := settled_passPosted s left
  refine ⟨_, he, supply.trans bsupply, fun hne => ?_, fun hst hq => ?_, fun ho st hst hn => ?_, pass.trans bpass, restored,
    failed, ?_, ?_, ?_, fun st hst => ?_, stations.trans bstations, car.trans bcar, settings.trans bsettings,
    flash.trans bflash, query.trans bquery, estimator.trans bestimator, loader.trans bloader,
    slots.trans (congrArg (·.slots) bstore), write.trans (congrArg (·.imageWrite) bstore),
    save.trans (congrArg (·.configSave) bstore), marks.trans (congrArg (·.markList) bstore)⟩
  · have hq : x.passJobs.engine.queue.isEmpty = false := by
      simpa using passJobs_some (s := x) hclass hne
    rw [hq] at plink ppins
    refine ⟨link.trans plink, pins.trans ppins, phase.trans ?_⟩
    show (if x.passJobs.engine.queue.isEmpty = true then EnginePhase.idle else .active) = .active
    rw [hq]
    rfl
  · have hq : x.passJobs.engine.queue = [] := passJobs_none (s := x) hst hq
    have he : x.passJobs.engine.queue.isEmpty = true := by rw [hq]; rfl
    rw [he] at plink
    refine ⟨link.trans plink, phase.trans (if_pos he), ?_⟩
    have hu : u.engine.queue.map (·.station) = [] := congrArg (List.map (·.station)) hq
    exact List.map_eq_nil_iff.1 (queue.trans hu)
  · obtain ⟨id, hj⟩ := passJobs_joined (s := x) rfl ho hst (hclass st hst) hn
    have hk := hjob st.entry.number
    rw [hj] at hk
    obtain ⟨j, hj', hc⟩ := Option.map_eq_some_iff.1 hk
    obtain ⟨horigin, hprediction, hpass⟩ := Job.core_eq_keeps hc
    refine ⟨j, hj', horigin, hprediction, hpass, (due _ (by simp [Purpose.ofLanes])).trans ?_⟩
    refine (setDeadlineIn_dueOf_ne (by simp) ..).trans ((hlimits _ (List.mem_of_find?_eq_some hj)).trans ?_)
    rw [← h.count]
    rfl
  · exact runStart.trans h.count
  · refine (due _ (by simp [Purpose.ofLanes])).trans ((setDeadlineIn_dueOf_self ..).trans ?_)
    exact congrArg (fun c => some (c + 64)) (hcount.trans h.count)
  · exact count.trans (hcount.trans h.count)
  · rw [hhas]
    exact passJobs_hasJob (s := x) hst (hclass st hst)

end Sys2Proof.Machine
end

section
/-! PROOFS. The beginning of a park (spec/10, 10.1). -/

namespace Sys2Proof.Machine

/-! ### The image write abandoned (R152) -/

theorem State.setSlot_eq (s : State) (n : Nat) (x : Slot) :
    s.setSlot n x =
      { s with
        store := { s.store with slots := if n = 0 then s.store.slots else s.store.slots.set (n - 1) x } } := by
  unfold State.setSlot
  split <;> rfl

theorem State.slot_setSlot_empty (s : State) (m n : Nat) :
    (s.setSlot m .empty).slot n = if n = m then .empty else s.slot n := by
  unfold State.setSlot State.slot
  by_cases hm : m = 0
  · subst hm
    rw [if_pos rfl]
    split <;> rfl
  · rw [if_neg hm]
    by_cases hn : n = 0
    · simp [hn]
    · simp only [hn, if_false, List.getD_eq_getElem?_getD, List.getElem?_set]
      by_cases he : n = m
      · subst he
        by_cases hl : n - 1 < s.store.slots.length <;> simp [hl]
      · have h1 : m - 1 ≠ n - 1 := by omega
        simp [he, h1]

/-- The slot records without the slot of an image write that was under way. -/
def State.slotsUnwritten (s : State) : List Slot :=
  match s.store.imageWrite with
  | none => s.store.slots
  | some w => if w.slot = 0 then s.store.slots else s.store.slots.set (w.slot - 1) .empty

/-- The slot of an image write that was under way is EMPTY, and every other as it was. -/
theorem State.slot_unwritten {s t : State} {w : ImageWrite} (h : s.store.imageWrite = some w)
    (ht : t.store.slots = s.slotsUnwritten) (n : Nat) : t.slot n = if n = w.slot then .empty else s.slot n := by
  have he : t.slot n = (s.setSlot w.slot .empty).slot n := by
    rw [State.setSlot_eq]
    simp only [State.slot, ht, State.slotsUnwritten, h]
  rw [he, State.slot_setSlot_empty]

/-- The state without an image write. -/
def State.unwritten (s : State) : State :=
  { s with store := { s.store with slots := s.slotsUnwritten, imageWrite := none } }

theorem State.unwritten_none {s : State} (h : s.store.imageWrite = none) : s.unwritten = s := by
  have hs : s.slotsUnwritten = s.store.slots := by simp only [State.slotsUnwritten, h]
  rw [State.unwritten, hs, ← h]

/-- An image write abandoned, its requests withdrawn and its buffer given back, but for the grants that follow. -/
theorem abandonWrite_some {s : State} {w : ImageWrite} (h : s.store.imageWrite = some w) :
    abandonWrite s =
      grantBuffers
        (giveBackWriteBuffer (writeBufferBusy s) (withdrawRequest .imageWrite (withdrawOps .imageWrite s.unwritten))) := by
  have hu : s.unwritten = { s.setSlot w.slot .empty with
      store := { (s.setSlot w.slot .empty).store with imageWrite := none } } := by
    rw [State.setSlot_eq, State.unwritten]
    simp only [State.slotsUnwritten, h]
  rw [hu]
  simp only [abandonWrite, h]
  rfl

theorem abandonWrite_pool (s : State) : s.unwritten.poolBecomes (abandonWrite s) := by
  cases h : s.store.imageWrite with
  | none =>
    rw [State.unwritten_none h]
    simp only [abandonWrite, h]
    exact .refl s
  | some w =>
    rw [abandonWrite_some h]
    exact (((State.poolBecomes.withdrawOps _ _).trans (.withdrawRequest _ _)).trans (.giveBackWriteBuffer _ _)).trans
      (.grantBuffers _)

/-- Only an image write under way waits for a buffer. -/
def State.onlyWriteAsks (s : State) : Prop :=
  ∀ r ∈ s.store.waitList, r.who = .imageWrite ∧ s.store.imageWrite.isSome = true

/-- A buffer of the pool is FREE, or the image write under way gives it back at once (R144; log 54). -/
def State.freeAtPark (s : State) (i : Nat) : Prop :=
  (s.buffer i).state = .free ∨
    (s.store.imageWrite.isSome = true ∧ writeBuffer? s = some i ∧ writeBufferBusy s = false)

theorem writeBuffer?_owned {s : State} {i : Nat} (h : writeBuffer? s = some i) : i < s.store.buffers.length := by
  have hm := List.mem_of_mem_head? h
  simp only [State.ownedBy, List.mem_filter, decide_eq_true_eq] at hm
  exact State.buffer_owned (by rw [hm.2]; exact Option.some_ne_none _)

/-- Where no one else waits for a buffer, an image write abandoned leaves no request, and its buffer FREE unless its
running operation uses it. -/
theorem abandonWrite_quiet {s : State} (h : s.onlyWriteAsks) :
    ∃ b q, abandonWrite s = s.unwritten.withPool b [] q s.park.phase ∧ b.length = s.store.buffers.length ∧
      ∀ i, (b.getD i Buffer.unowned).state = .free ↔ s.freeAtPark i := by
  cases hw : s.store.imageWrite with
  | none =>
    have hl : s.store.waitList = [] := List.eq_nil_iff_forall_not_mem.2 fun r hr => by
      have := (h r hr).2
      rw [hw] at this
      cases this
    refine ⟨s.store.buffers, s.store.queue, ?_, rfl, fun i => ?_⟩
    · rw [State.unwritten_none hw, ← hl]
      simp only [abandonWrite, hw]
      rfl
    · simp [State.freeAtPark, hw, State.buffer]
  | some w =>
    let q := s.store.queue.filter (·.who ≠ .imageWrite)
    have hu : withdrawRequest .imageWrite (withdrawOps .imageWrite s.unwritten) =
        s.unwritten.withPool s.store.buffers [] q s.park.phase := by
      have hl : s.store.waitList.filter (·.who ≠ .imageWrite) = [] :=
        List.filter_eq_nil_iff.2 fun r hr => by simp [(h r hr).1]
      show s.unwritten.withPool s.store.buffers (s.store.waitList.filter (·.who ≠ .imageWrite)) q s.park.phase = _
      rw [hl]
    rw [abandonWrite_some hw, hu]
    have hb : writeBuffer? (s.unwritten.withPool s.store.buffers [] q s.park.phase) = writeBuffer? s := rfl
    unfold giveBackWriteBuffer
    rw [hb]
    cases hi : writeBuffer? s with
    | none =>
      refine ⟨s.store.buffers, q, grantBuffers_nil rfl, rfl, fun j => ?_⟩
      simp [State.freeAtPark, hi, State.buffer]
    | some i =>
      have hlt := writeBuffer?_owned hi
      cases hp : writeBufferBusy s with
      | true =>
        refine ⟨_, q, grantBuffers_nil rfl, List.length_set, fun j => ?_⟩
        show ((s.setBuffer i { s.buffer i with released := true }).buffer j).state = .free ↔ _
        rw [State.buffer_setBuffer]
        split
        · rename_i hj
          simp [State.freeAtPark, hp, hj.1]
        · simp [State.freeAtPark, hp]
      | false =>
        refine ⟨_, q, grantBuffers_nil rfl, List.length_set, fun j => ?_⟩
        show ((s.setBuffer i Buffer.unowned).buffer j).state = .free ↔ _
        rw [State.buffer_setBuffer]
        by_cases hj : j = i
        · subst hj
          simp [State.freeAtPark, hw, hi, hp, hlt, Buffer.unowned]
        · simp [State.freeAtPark, hi, hj, Ne.symm hj]

/-! ### The entry to PARKING (R13, R152, R159, R168) -/

/-- The state at the entry to PARKING as the park image is taken. -/
def State.parkTaken (s : State) : State := takeParkImage (enterParking s)

/-- What every block does at the entry to PARKING. -/
def State.parkEntry (s : State) : State :=
  discardHeld (withdrawOps .loader (abandonMarks (abandonSave (abandonWrite s.parkTaken))))

theorem beginPark_eq (s : State) :
    beginPark s =
      if s.parkEntry.store.prepared then
        issueFlash (grantBuffers (requestBuffers .parkWriter 1
          (postNotice (.parking s.parkEntry.supply.holdup .writing) s.parkEntry)))
      else endPark (postNotice (.parking s.parkEntry.supply.holdup .skipped) s.parkEntry) := rfl

/-- The outcome of a park, by park-area-prepared (R168). -/
def State.parkOutcome (s : State) : ParkOutcome := if s.store.prepared then .writing else .skipped

/-- The phase of the park writer as the park image is taken. -/
def State.parkFirstPhase (s : State) : ParkPhase := if s.store.prepared then .waiting else .none

/-- The state at the entry to PARKING, but for the buffer pool. -/
def State.parkEntered (s : State) : State :=
  { s with
    supply := { s.supply with state := .parking }
    timebase := s.timebase.remove .settle
    free := s.free + 1
    store := { s.unwritten.store with configSave := none, markList := [] }
    park := { phase := s.parkFirstPhase, image := parkImage s.free s.stations, outcome := some s.parkOutcome }
    link := { s.link with held := [] } }

theorem parkEntry_of {s : State} {b : List Buffer} {w : List BufferRequest} {q : List FlashOp} {p : ParkPhase}
    (h : abandonWrite s.parkTaken = s.parkTaken.unwritten.withPool b w q p) :
    ∃ q', s.parkEntry = s.parkEntered.withPool b w q' p := by
  unfold State.parkEntry
  rw [h]
  exact ⟨_, rfl⟩

theorem parkEntry_pool (s : State) : s.parkEntered.poolBecomes s.parkEntry := by
  obtain ⟨b, w, q, p, h⟩ := abandonWrite_pool s.parkTaken
  obtain ⟨q', h'⟩ := parkEntry_of h
  exact ⟨b, w, q', p, h'⟩

/-- At the entry to PARKING where only the image write waits for a buffer, no request is left. -/
theorem parkEntry_quiet {s : State} (h : s.onlyWriteAsks) :
    ∃ b q, s.parkEntry = s.parkEntered.withPool b [] q s.parkFirstPhase ∧ b.length = s.store.buffers.length ∧
      ∀ i, (b.getD i Buffer.unowned).state = .free ↔ s.freeAtPark i := by
  obtain ⟨b, q, he, hl, hf⟩ := abandonWrite_quiet (s := s.parkTaken) h
  obtain ⟨q', h'⟩ := parkEntry_of he
  exact ⟨b, q', h', hl, hf⟩

/-! ### The notice of a park -/

/-- A notice leaves the holding places. -/
theorem postNotice_discardHeld (b : NoticeBody) (s : State) :
    postNotice b (discardHeld s) = discardHeld (postNotice b s) := by
  have hc : (discardHeld s).link.create b = { s.link.create b with held := [] } := by
    by_cases hn : s.link.notices.length < Config.noticeCapacity <;> simp [Link.create, discardHeld, hn]
  by_cases h : (s.loadingEnded && noticeEnabled s.settings.noticeMask b.code) = true
  · have h1 : postNotice b (discardHeld s) =
        { discardHeld s with
          link := (discardHeld s).link.create b
          pins := { s.pins with attn := s.pins.attn || decide (s.link.notices.length < Config.noticeCapacity) } } :=
      if_pos h
    have h2 : postNotice b s =
        { s with
          link := s.link.create b
          pins := { s.pins with attn := s.pins.attn || decide (s.link.notices.length < Config.noticeCapacity) } } :=
      if_pos h
    rw [h1, h2, hc]
    rfl
  · have h1 : postNotice b (discardHeld s) = discardHeld s := if_neg h
    have h2 : postNotice b s = s := if_neg h
    rw [h1, h2]

/-- The notice of a park at its entry, where the holding places have been emptied (R159). -/
theorem parkEntry_posted (s : State) (b : NoticeBody) :
    postNotice b s.parkEntry = s.parkEntry.notified (discardHeld (postNotice b s)) := by
  obtain ⟨_, _, _, _, h⟩ := parkEntry_pool s
  have ha : (discardHeld s).noticesAlike s.parkEntry := by
    rw [h]
    exact ⟨rfl, rfl, rfl, rfl⟩
  rw [postNotice_notified ha, postNotice_discardHeld]

/-! ### The park writer's buffer (R143, R169) -/

theorem requestBuffers_park {s : State} (h : s.store.waitList = []) :
    requestBuffers .parkWriter 1 s =
      { s with store := { s.store with waitList := [{ who := .parkWriter, count := 1 }] } } := by
  simp [requestBuffers, h]

theorem grantBuffers_park_some {s : State} {i : Nat} (h : s.store.waitList = []) (hi : freeBuffer? s = some i) :
    grantBuffers (requestBuffers .parkWriter 1 s) = giveBuffer i .parkWriter s := by
  have hi' : freeBuffer? { s with store := { s.store with waitList := [{ who := .parkWriter, count := 1 }] } } =
      some i := hi
  have hs : { s with store := { s.store with waitList := takeTurn [{ who := .parkWriter, count := 1 }] } } = s := by
    show { s with store := { s.store with waitList := [] } } = s
    rw [← h]
  rw [requestBuffers_park h, grantBuffers, grantSome]
  simp only [hi', hs]
  exact grantSome_nil 5 ((giveBuffer_waitList ..).trans h)

theorem grantBuffers_park_none {s : State} (h : s.store.waitList = []) (hi : freeBuffer? s = none) :
    grantBuffers (requestBuffers .parkWriter 1 s) = requestBuffers .parkWriter 1 s := by
  have hi' : freeBuffer? { s with store := { s.store with waitList := [{ who := .parkWriter, count := 1 }] } } =
      none := hi
  rw [requestBuffers_park h, grantBuffers, grantSome]
  simp only [hi']

theorem freeBuffer?_some {s : State} {i : Nat} (h : freeBuffer? s = some i) : i < 4 ∧ (s.buffer i).state = .free := by
  refine ⟨?_, by simpa using List.find?_some h⟩
  have hm := List.mem_of_find?_eq_some h
  simp only [bufferIndices, List.mem_cons, List.not_mem_nil, or_false] at hm
  omega

theorem freeBuffer?_none {s : State} (h : freeBuffer? s = none) {i : Nat} (hi : i < 4) : (s.buffer i).state ≠ .free := by
  have hm : i ∈ bufferIndices := by
    simp only [bufferIndices, List.mem_cons, List.not_mem_nil, or_false]
    omega
  simpa using List.find?_eq_none.1 h i hm

/-! ### A park that writes (R168, R169) -/

/-- The state in which the park writer of a prepared park asks for its buffer. -/
def State.parkWrites (s : State) : State :=
  s.parkEntry.notified (discardHeld (postNotice (.parking s.supply.holdup .writing) s))

theorem parkEntry_keeps (s : State) :
    s.parkEntry.store.prepared = s.store.prepared ∧ s.parkEntry.supply = { s.supply with state := .parking } := by
  obtain ⟨_, _, _, _, h⟩ := parkEntry_pool s
  rw [h]
  exact ⟨rfl, rfl⟩

theorem beginPark_prepared {s : State} (h : s.store.prepared = true) :
    beginPark s = issueFlash (grantBuffers (requestBuffers .parkWriter 1 s.parkWrites)) := by
  obtain ⟨hp, hs⟩ := parkEntry_keeps s
  rw [beginPark_eq, if_pos (hp.trans h), hs, parkEntry_posted]
  rfl

/-- A PROGRAM at the head of the queue is issued where no operation runs, with its timeout (R138, R140). -/
theorem issueFlash_program {s : State} {op : FlashOp} {rest : List FlashOp} (hr : s.store.running = none)
    (hs : s.supply.state ≠ .parked) (hq : s.store.queue = op :: rest) (ht : op.timeout = some 50)
    (hw : op.who = .parkWriter) :
    issueFlash s =
      setDeadlineIn .storeOperation 50
        { s with
          store := { s.store with queue := rest, running := some op, chipSelect := .inUse, prepared := false } } := by
  unfold issueFlash
  rw [hr, hq]
  simp [hs, ht, hw]

/-- The park writer of a prepared park: where a buffer of the pool is FREE at once it has one, with page 1 of the park
image in it and its PROGRAM running or at the head of the queue; else its request stands in the wait list. -/
theorem beginPark_writer {s : State} (h : s.store.prepared = true) (hw : s.onlyWriteAsks)
    (hl : s.store.buffers.length = 4) :
    ((∃ i, i < 4 ∧ s.freeAtPark i) →
      (beginPark s).park.phase = .page1 ∧
        (∃ i, (i < 4 ∧ s.freeAtPark i) ∧ (beginPark s).buffer i = (beginPark s).parkPage1.1) ∧
        (s.store.running = none →
          (beginPark s).store.running = some (beginPark s).parkPage1.2 ∧ (beginPark s).store.prepared = false ∧
            (beginPark s).timebase.dueOf .storeOperation = some (s.timebase.count + 50)) ∧
        (s.store.running.isSome = true →
          (beginPark s).store.running = s.store.running ∧
            (beginPark s).store.queue.head? = some (beginPark s).parkPage1.2 ∧
            (beginPark s).store.prepared = true)) ∧
      ((∀ i, ¬(i < 4 ∧ s.freeAtPark i)) →
        (beginPark s).park.phase = .waiting ∧
          (beginPark s).store.waitList.head? = some { who := .parkWriter, count := 1 }) := by
  obtain ⟨b, q, he, hlen, hf⟩ := parkEntry_quiet hw
  have hp : s.parkFirstPhase = .waiting := if_pos h
  rw [beginPark_prepared h]
  have hy : s.parkWrites = (s.parkEntered.withPool b [] q .waiting).notified
      (discardHeld (postNotice (.parking s.supply.holdup .writing) s)) := by
    rw [State.parkWrites, he, hp]
  have hnil : s.parkWrites.store.waitList = [] := by rw [hy]; rfl
  have hfree : ∀ i, (s.parkWrites.buffer i).state = .free ↔ s.freeAtPark i := by rw [hy]; exact hf
  have hlen' : s.parkWrites.store.buffers.length = 4 := by rw [hy]; exact hlen.trans hl
  obtain ⟨hrun, hsupply, hprep, hcount⟩ : s.parkWrites.store.running = s.store.running ∧
      s.parkWrites.supply.state ≠ .parked ∧ s.parkWrites.store.prepared = s.store.prepared ∧
      s.parkWrites.timebase.count = s.timebase.count := by
    rw [hy]
    exact ⟨rfl, fun hc => (by cases hc), rfl, rfl⟩
  cases hi : freeBuffer? s.parkWrites with
  | none =>
    obtain ⟨tb, x, hx, -, -, hstore⟩ := issueFlash_eq (requestBuffers .parkWriter 1 s.parkWrites)
    rw [grantBuffers_park_none hnil hi]
    refine ⟨fun ⟨i, hi4, hfi⟩ => absurd ((hfree i).2 hfi) (freeBuffer?_none hi hi4), fun _ => ?_⟩
    have hphase : s.parkWrites.park.phase = .waiting := by rw [hy]; rfl
    rw [requestBuffers_park hnil] at hx hstore ⊢
    rw [hx]
    exact ⟨hphase, congrArg (·.waitList.head?) hstore⟩
  | some i =>
    obtain ⟨hi4, hfi⟩ := freeBuffer?_some hi
    rw [grantBuffers_park_some hnil hi]
    refine ⟨fun _ => ?_, fun hn => absurd ⟨hi4, (hfree i).1 hfi⟩ (hn i)⟩
    let z := giveBuffer i .parkWriter s.parkWrites
    have hbuf : z.buffer i = z.parkPage1.1 :=
      (State.buffer_setBuffer ..).trans (if_pos ⟨rfl, Nat.lt_of_lt_of_eq hi4 hlen'.symm⟩)
    have hq : z.store.queue = z.parkPage1.2 :: s.parkWrites.store.queue := rfl
    cases hr : s.store.running with
    | none =>
      rw [issueFlash_program (s := z) (hrun.trans hr) hsupply hq rfl rfl]
      refine ⟨rfl, ⟨i, ⟨hi4, (hfree i).1 hfi⟩, hbuf⟩, fun _ => ⟨rfl, rfl, ?_⟩, fun hn => (by cases hn)⟩
      rw [setDeadlineIn_dueOf_self, ← hcount]
      rfl
    | some op =>
      have hz : z.store.running = some op := hrun.trans hr
      rw [issueFlash_running (s := z) (by rw [hz]; rfl)]
      exact ⟨rfl, ⟨i, ⟨hi4, (hfree i).1 hfi⟩, hbuf⟩, fun hn => (by cases hn),
        fun _ => ⟨hz, congrArg List.head? hq, hprep.trans h⟩⟩

/-- A park that writes: the entry to PARKING, the buffer pool, and an operation that may have been issued. -/
theorem beginPark_writes {s : State} (h : s.store.prepared = true) :
    ∃ b w q p tb x,
      beginPark s =
        { (s.parkEntered.withPool b w q p).notified (discardHeld (postNotice (.parking s.supply.holdup .writing) s)) with
          timebase := tb, store := x } ∧
      tb.count = s.timebase.count ∧ (∀ r, r ≠ .storeOperation → tb.dueOf r = (s.timebase.remove .settle).dueOf r) ∧
      x = { (s.parkEntered.withPool b w q p).store with
            queue := x.queue, running := x.running, chipSelect := x.chipSelect, prepared := x.prepared } := by
  have hp : s.parkWrites.poolBecomes (grantBuffers (requestBuffers .parkWriter 1 s.parkWrites)) :=
    (State.poolBecomes.requestBuffers _ _ _).trans (.grantBuffers _)
  obtain ⟨_, _, _, _, he⟩ := parkEntry_pool s
  obtain ⟨b, w, q, p, hg⟩ := hp
  obtain ⟨tb, x, hi, hc, hd, hx⟩ := issueFlash_eq (s.parkWrites.withPool b w q p)
  rw [beginPark_prepared h, hg, hi]
  rw [State.parkWrites, he] at hc hd hx ⊢
  exact ⟨b, w, q, p, tb, x, rfl, hc, hd, hx⟩

/-- A park that is skipped: the entry to PARKING and the buffer pool, and PARKED at once, with no sample to come. -/
theorem beginPark_skips {s : State} (h : s.store.prepared = false) (hr : s.supply.heldRise = false) :
    ∃ b w q p,
      beginPark s =
        { (s.parkEntered.withPool b w q p).notified (discardHeld (postNotice (.parking s.supply.holdup .skipped) s)) with
          supply := { s.supply with state := .parked }
          timebase := (s.timebase.remove .settle).remove .holdupSample } := by
  obtain ⟨hp, hs⟩ := parkEntry_keeps s
  have hn : ¬s.parkEntry.store.prepared = true := by
    rw [hp, h]
    exact Bool.false_ne_true
  rw [beginPark_eq, if_neg hn, hs, parkEntry_posted]
  obtain ⟨_, _, _, _, he⟩ := parkEntry_pool s
  rw [he]
  obtain ⟨b, w, q, p, hf⟩ := endPark_parked (s := (s.parkEntered.withPool _ _ _ _).notified
    (discardHeld (postNotice (.parking s.supply.holdup .skipped) s))) rfl hr
  exact ⟨b, w, q, p, hf⟩

/-! ### The park decision (R11) -/

/-- The state in which the park decision is taken: the expiry delivered and the sample taken. -/
def State.sampled (s : State) (left : Timebase) (level : Nat) : State := takeSample level (s.withTimebase left)

theorem holdupSampled_parks {s : State} {left : Timebase} {mv : Nat} (hs : s.supply.state = .gap)
    (hl : holdupLevel mv ≤ s.settings.parkLevel) (due : Time) :
    holdupSampled mv due (s.withTimebase left) =
      if (beginPark (s.sampled left (holdupLevel mv))).supply.state = .parking then
        rescheduleSample due (beginPark (s.sampled left (holdupLevel mv)))
      else beginPark (s.sampled left (holdupLevel mv)) := by
  have hd : parkDecided (holdupLevel mv) (s.withTimebase left) = true := by
    simp [parkDecided, State.withTimebase, hs, hl]
  simp only [holdupSampled, hd, if_true]
  rfl

/-- What every park does as it begins, and what it leaves alone (R13, R152, R159, R168). -/
def State.parksTo (s : State) (level : Nat) (outcome : ParkOutcome) (t : State) : Prop :=
  t.park.outcome = some outcome ∧ t.store.imageWrite = none ∧ t.store.configSave = none ∧ t.store.markList = [] ∧
    (∀ w, s.store.imageWrite = some w → ∀ n, t.slot n = if n = w.slot then .empty else s.slot n) ∧
    (s.store.imageWrite = none → t.store.slots = s.store.slots) ∧
    t.link = { (postNotice (.parking (some level) outcome) s).link with held := [] } ∧
    t.pins = (postNotice (.parking (some level) outcome) s).pins ∧ t.timebase.dueOf .settle = none ∧
    t.timebase.count = s.timebase.count ∧ t.engine = s.engine ∧ t.stations = s.stations ∧ t.laneA = s.laneA ∧
    t.laneB = s.laneB ∧ t.query = s.query ∧ t.car = s.car ∧ t.pushA = s.pushA ∧ t.pushB = s.pushB ∧
    t.settings = s.settings ∧ t.estimator = s.estimator ∧ t.loader = s.loader ∧ t.flash = s.flash

/-- A state that differs from the entry to PARKING in the supply, the deadlines and the store, as a park has them. -/
theorem State.parksTo_of {s t : State} {left : Timebase} {level : Nat} {outcome : ParkOutcome} {b : List Buffer}
    {w : List BufferRequest} {q : List FlashOp} {p : ParkPhase}
    (ht : t =
      { ((s.sampled left level).parkEntered.withPool b w q p).notified
          (discardHeld (postNotice (.parking (some level) outcome) (s.sampled left level))) with
        supply := t.supply, timebase := t.timebase, store := t.store })
    (ho : s.parkOutcome = outcome) (hslots : t.store.slots = s.slotsUnwritten) (hwrite : t.store.imageWrite = none)
    (hsave : t.store.configSave = none) (hmarks : t.store.markList = []) (hd : t.timebase.dueOf .settle = none)
    (hc : t.timebase.count = s.timebase.count) : s.parksTo level outcome t := by
  obtain ⟨hlink, hpins, -, -⟩ := postNotice_noticesAlike (n := s) (s := s.sampled left level) ⟨rfl, rfl, rfl, rfl⟩
    (.parking (some level) outcome)
  refine ⟨(congrArg (·.park.outcome) ht).trans (congrArg some ho), hwrite, hsave, hmarks,
    fun w hw n => State.slot_unwritten hw hslots n, fun hw => hslots.trans ?_, (congrArg (·.link) ht).trans ?_,
    (congrArg (·.pins) ht).trans hpins, hd, hc, congrArg (·.engine) ht, congrArg (·.stations) ht, congrArg (·.laneA) ht,
    congrArg (·.laneB) ht, congrArg (·.query) ht, congrArg (·.car) ht, congrArg (·.pushA) ht, congrArg (·.pushB) ht,
    congrArg (·.settings) ht, congrArg (·.estimator) ht, congrArg (·.loader) ht, congrArg (·.flash) ht⟩
  · simp only [State.slotsUnwritten, hw]
  · exact congrArg (fun l : Link => { l with held := [] }) hlink

/-- The next holdup sample is no part of it. -/
theorem State.parksTo.setSample {s t : State} {level : Nat} {outcome : ParkOutcome} (h : s.parksTo level outcome t)
    (due : Time) : s.parksTo level outcome (setDeadline .holdupSample due t) := by
  obtain ⟨houtcome, hwrite, hsave, hmarks, hslot, hslots, hlink, hpins, hd, rest⟩ := h
  refine ⟨houtcome, hwrite, hsave, hmarks, hslot, hslots, hlink, hpins, ?_, rest⟩
  rw [setDeadline_timebase, Timebase.dueOf_set, if_neg (by simp)]
  exact hd

/-- While only the image write may wait for a buffer: in GAP the lanes have no load holder, and so no request. -/
theorem State.onlyWriteAsks_of {s : State} (hs : s.supply.state = .gap) (hl : s.lanesSilent) (hw : s.waitListSound)
    (hp : ∀ r ∈ s.store.waitList, r.who ≠ .parkWriter) : s.onlyWriteAsks := by
  obtain ⟨-, -, hw⟩ := hw
  intro r hr
  obtain ⟨-, -, hlane, hwrite⟩ := hw r hr
  cases hwho : r.who with
  | imageWrite => exact ⟨rfl, hwrite hwho⟩
  | parkWriter => exact absurd hwho (hp r hr)
  | lane l =>
    have hh := hlane l hwho
    rcases hl with ho | hn
    · simp [State.lanesOpen, hs] at ho
    · rw [(hn l).2] at hh
      cases hh

/-- The image write's buffer is in use by its running operation. -/
theorem writeBufferBusy_iff {s : State} {i : Nat} (h : writeBuffer? s = some i) :
    writeBufferBusy s = true ↔
      (∃ op, s.store.running = some op ∧ op.who = .imageWrite) ∧
        ((s.buffer i).state = .programming ∨ (s.buffer i).state = .filling) := by
  unfold writeBufferBusy writeRuns
  rw [h]
  cases s.store.running <;> simp

/-- A buffer of the pool that is FREE at the park, or given back by the image write whose running operation does not use
it. -/
theorem State.freeAtPark_iff (s : State) (i : Nat) :
    s.freeAtPark i ↔
      (s.buffer i).state = .free ∨
        (s.store.imageWrite.isSome = true ∧ writeBuffer? s = some i ∧
          ¬((∃ op, s.store.running = some op ∧ op.who = .imageWrite) ∧
            ((s.buffer i).state = .programming ∨ (s.buffer i).state = .filling))) := by
  refine or_congr Iff.rfl (and_congr_right fun _ => and_congr_right fun hi => ?_)
  rw [← writeBufferBusy_iff hi, Bool.not_eq_true]

theorem GapRecord.map_sampled (level : Nat) (g : Option GapRecord) :
    g.map (GapRecord.sampled level) =
      g.map fun g =>
        { g with
          minHoldup := some (match g.minHoldup with
            | none => level
            | some m => min m level) } :=
  congrArg (g.map ·) (funext (GapRecord.sampled_eq level))

/-- A park that writes, as the sample that decides it leaves it. -/
theorem beginPark_parksTo_writing {s : State} (h : s.store.prepared = true) {left : Timebase}
    (hc : left.count = s.timebase.count) (level : Nat) :
    s.parksTo level .writing (beginPark (s.sampled left level)) ∧
      (beginPark (s.sampled left level)).supply = { (s.sampled left level).supply with state := .parking } ∧
      (beginPark (s.sampled left level)).park.image = parkImage s.free s.stations := by
  obtain ⟨b, w, q, p, tb, y, he, hcount, hd, hy⟩ := beginPark_writes (s := s.sampled left level) h
  generalize beginPark (s.sampled left level) = t at he
  subst he
  refine ⟨State.parksTo_of rfl (if_pos h) (congrArg (·.slots) hy) (congrArg (·.imageWrite) hy)
    (congrArg (·.configSave) hy) (congrArg (·.markList) hy) ?_ (hcount.trans hc), rfl, rfl⟩
  refine (hd _ (by simp)).trans ?_
  simp

/-- A park that is skipped, as the sample that decides it leaves it. -/
theorem beginPark_parksTo_skipped {s : State} (h : s.store.prepared = false) (hr : s.supply.heldRise = false)
    {left : Timebase} (hc : left.count = s.timebase.count) (level : Nat) :
    s.parksTo level .skipped (beginPark (s.sampled left level)) ∧
      (beginPark (s.sampled left level)).supply = { (s.sampled left level).supply with state := .parked } ∧
      (beginPark (s.sampled left level)).timebase.dueOf .holdupSample = none := by
  have hn : ¬s.store.prepared = true := by rw [h]; exact Bool.false_ne_true
  obtain ⟨b, w, q, p, he⟩ := beginPark_skips (s := s.sampled left level) h hr
  generalize beginPark (s.sampled left level) = t at he
  subst he
  exact ⟨State.parksTo_of rfl (if_neg hn) rfl rfl rfl rfl (by simp) hc, rfl, by simp⟩

theorem rescheduleSample_parking {s : State} (hs : s.supply.state = .parking) (due : Time) :
    rescheduleSample due s = setDeadline .holdupSample (due + 2) s := by
  have hi : sampleInterval s.supply.state = some 2 := by rw [hs]; rfl
  simp only [rescheduleSample, hi]
  rfl

/-- What the park writer has where a buffer of the pool is FREE at once, and where none is (R143, R169). -/
def State.writerHas (s t : State) : Prop :=
  ((∃ i, i < 4 ∧ s.freeAtPark i) →
    t.park.phase = .page1 ∧ (∃ i, (i < 4 ∧ s.freeAtPark i) ∧ t.buffer i = t.parkPage1.1) ∧
      (s.store.running = none →
        t.store.running = some t.parkPage1.2 ∧ t.store.prepared = false ∧
          t.timebase.dueOf .storeOperation = some (s.timebase.count + 50)) ∧
      (s.store.running.isSome = true →
        t.store.running = s.store.running ∧ t.store.queue.head? = some t.parkPage1.2 ∧ t.store.prepared = true)) ∧
    ((∀ i, ¬(i < 4 ∧ s.freeAtPark i)) →
      t.park.phase = .waiting ∧ t.store.waitList.head? = some { who := .parkWriter, count := 1 })

theorem State.writerHas.setSample {s t : State} (h : s.writerHas t) (due : Time) :
    s.writerHas (setDeadline .holdupSample due t) := by
  obtain ⟨hsome, hnone⟩ := h
  refine ⟨fun hi => ?_, hnone⟩
  obtain ⟨hphase, hpage, hidle, hbusy⟩ := hsome hi
  refine ⟨hphase, hpage, fun hr => ?_, hbusy⟩
  obtain ⟨hrun, hprep, hd⟩ := hidle hr
  refine ⟨hrun, hprep, ?_⟩
  rw [setDeadline_timebase, Timebase.dueOf_set, if_neg (by simp)]
  exact hd

/-- Settles O20. -/
theorem parkBegins : Obligations.ParkBegins := by
  intro s left due mv h hs hl level entered parks
  have hentered (x : SupplyState) : { (s.sampled left level).supply with state := x } = entered x :=
    congrArg (fun g => { s.supply with state := x, holdup := some level, openGap := g })
      (GapRecord.map_sampled level s.supply.openGap)
  have hexec := exec_holdupSampleExpiry h mv
  rw [holdupSampled_parks hs hl] at hexec
  refine ⟨fun hp => ?_, fun hp hr => ?_⟩
  · obtain ⟨hparks, hsupply, himage⟩ := beginPark_parksTo_writing hp h.count level
    have hparking : (beginPark (s.sampled left level)).supply.state = .parking := by rw [hsupply]
    rw [if_pos hparking, rescheduleSample_parking hparking] at hexec
    have hsample (u : State) : (setDeadline .holdupSample (due + 2) u).timebase.dueOf .holdupSample = some (due + 2) := by
      rw [setDeadline_timebase, Timebase.dueOf_set, if_pos rfl]
    refine ⟨_, hexec, hparks.setSample _, hsupply.trans (hentered .parking), himage, hsample _, ?_⟩
    intro hbounded hsilent hwaits hwriter used available page
    obtain ⟨-, hbuffers, -, -⟩ := hbounded
    have hwrites : s.writerHas (beginPark (s.sampled left level)) := by
      have hw := beginPark_writer (s := s.sampled left level) hp (State.onlyWriteAsks_of (s := s) hs hsilent hwaits hwriter)
        hbuffers
      have hcount : (s.sampled left level).timebase.count = s.timebase.count := h.count
      rw [hcount] at hw
      exact hw
    have havailable : ∀ i, (i < 4 ∧ s.freeAtPark i) = available i := fun i =>
      propext (and_congr_right fun _ => s.freeAtPark_iff i)
    have hserved := hwrites.setSample (due + 2)
    rw [State.writerHas] at hserved
    simp only [havailable] at hserved
    exact hserved
  · obtain ⟨hparks, hsupply, hsample⟩ := beginPark_parksTo_skipped hp hr h.count level
    have hparked : (beginPark (s.sampled left level)).supply.state ≠ .parking := by
      rw [hsupply]
      exact fun hc => by cases hc
    rw [if_neg hparked] at hexec
    exact ⟨_, hexec, hparks, hsupply.trans (hentered .parked), hsample⟩

end Sys2Proof.Machine
end

section
/-! PROOFS. What a property that is read field by field must say of each field to be kept by every command; a time that is
due, deadlines by identity, and the completion of every command (spec/02). -/

namespace Sys2Proof.Machine

/-! ### When a time is due, and deadlines by identity (R21 to R24) -/

/-- Settles O11. -/
theorem dueWithinHalfTheCount : Obligations.DueWithinHalfTheCount := by
  intro count x
  have hc := count.isLt
  have hx := x.isLt
  refine ⟨?_, fun h => ?_⟩
  · simp only [isDue, BitVec.toNat_sub, decide_eq_true_eq]
    omega
  · simp only [remaining, h, Bool.false_eq_true, if_false, BitVec.toNat_sub]
    omega

theorem le_foldl_max (ns : List Nat) (m : Nat) : m ≤ ns.foldl max m ∧ ∀ n ∈ ns, n ≤ ns.foldl max m := by
  induction ns generalizing m with
  | nil => simp
  | cons n ns ih =>
    obtain ⟨hm, hn⟩ := ih (max m n)
    simp only [List.foldl_cons, List.mem_cons, forall_eq_or_imp]
    exact ⟨by omega, by omega, hn⟩

/-- The next position comes after that of every entry (R23). -/
theorem position_lt_nextPosition {d : Deadline} {ds : List Deadline} (h : d ∈ ds) : d.position < nextPosition ds :=
  Nat.lt_succ_of_le ((le_foldl_max _ 0).2 _ (List.mem_map_of_mem h))

theorem mem_insertDeadline {count : Time} {e d : Deadline} {ds : List Deadline} :
    d ∈ insertDeadline count e ds ↔ d = e ∨ d ∈ ds := by
  induction ds with
  | nil => simp [insertDeadline]
  | cons x ds ih =>
    unfold insertDeadline
    split
    · simp
    · simp only [List.mem_cons, ih]
      tauto

/-- Where no entry has an identity, there is none of it to leave out. -/
theorem Timebase.remove_absent {t : Timebase} {p : Purpose} (h : t.dueOf p = none) : t.remove p = t := by
  have hf : withoutPurpose p t.deadlines = t.deadlines := by
    rw [Timebase.dueOf, Option.map_eq_none_iff, List.find?_eq_none] at h
    exact List.filter_eq_self.2 fun d hd => by simpa using h d hd
  rw [Timebase.remove, hf]

/-- Settles O12. -/
theorem deadlinesByIdentity : Obligations.DeadlinesByIdentity := by
  intro t p q due
  refine ⟨by simp, by simp, fun hq => by simp [hq], Timebase.remove_absent, rfl, fun e he hp => ?_⟩
  rcases mem_insertDeadline.1 he with rfl | he
  · exact absurd rfl hp
  · exact position_lt_nextPosition he

/-! ### Properties read field by field -/

/-- A property of states, told by the fields that it reads: for each field, which replacements must keep it. A field that it
does not read asks for no proof. -/
structure FieldStable (P : State → Prop) : Prop where
  link : ∀ s l p, P s → P { s with link := l, pins := p } := by exact fun _ _ _ h => h
  flash : ∀ s f n, P s → P { s with flash := f, free := n } := by exact fun _ _ _ h => h
  park : ∀ s x, P s → P { s with park := x } := by exact fun _ _ h => h
  estimator : ∀ s x, P s → P { s with estimator := x } := by exact fun _ _ h => h
  settings : ∀ s x, P s → P { s with settings := x } := by exact fun _ _ h => h
  query : ∀ s x, P s → P { s with query := x } := by exact fun _ _ h => h
  supply : ∀ s x, SupplyMayBecome s x → P s → P { s with supply := x } := by exact fun _ _ _ h => h
  store : ∀ s x, x.within s.store → P s → P { s with store := x } := by exact fun _ _ _ h => h
  lane : ∀ s l x, (x.txn.isSome = true → (s.lane l).txn.isSome = true ∨ s.lanesOpen = true) →
    s.holderMayBecome (s.lane l) x → P s → P (s.setLane l x) := by exact fun _ l _ _ _ h => by cases l <;> exact h
  setDeadline : ∀ s p due, P s → P { s with timebase := s.timebase.set p due } := by exact fun _ _ _ h => h
  tick : ∀ s, P s → P { s with timebase := s.timebase.tick } := by exact fun _ h => h
  deadlines : ∀ s ds, ds.Sublist s.timebase.deadlines → P s →
    P { s with timebase := { s.timebase with deadlines := ds } } := by exact fun _ _ _ h => h
  engine : ∀ s e, (e.queue.map (·.station)).Sublist (s.engine.queue.map (·.station)) → P s → P { s with engine := e } := by
    exact fun _ _ _ h => h
  pushes : ∀ s a b, (∀ p ∈ a ++ b, s.hasJob p.station = false ∨ ∃ q ∈ s.pushA ++ s.pushB, q.station = p.station) → P s →
    P { s with pushA := a, pushB := b } := by exact fun _ _ _ _ h => h
  stations : ∀ s c x, (x.map (·.entry)).Sublist (s.stations.map (·.entry)) →
    (s.loadingEnded = true → s.keepsEntries x) → P s → P { s with car := c, stations := x } := by
    exact fun _ _ _ _ _ h => h
  insertStation : ∀ s e, (s.loadingEnded = true → s.hasJob e.number = false) → P s →
    P { s with stations := insertStation (Station.defined e) s.stations } := by exact fun _ _ _ h => h

namespace FieldStable

variable {P : State → Prop}

theorem postNotice (h : FieldStable P) {s : State} (hs : P s) (b : NoticeBody) : P (Machine.postNotice b s) := by
  rw [postNotice_notified (n := s) ⟨rfl, rfl, rfl, rfl⟩]
  exact h.link s _ _ hs

theorem takeNotice (h : FieldStable P) {s : State} (hs : P s) : P (Machine.takeNotice s).2 := by
  unfold Machine.takeNotice
  split
  · exact hs
  · exact h.link s _ _ hs

theorem settleDevice (h : FieldStable P) {s : State} (hs : P s) : P (Machine.settleDevice s) := by
  unfold Machine.settleDevice
  split
  · exact hs
  · exact h.flash s _ _ hs

theorem mem_joinPushes {n : Nat} {u : Bool} {p : Push} {ps : List Push} (h : p ∈ joinPushes n u ps) :
    p.station = n ∨ ∃ q ∈ ps, q.station = p.station := by
  unfold joinPushes at h
  split at h
  · obtain ⟨q, hq, rfl⟩ := List.mem_map.1 h
    exact .inr ⟨q, hq, by split <;> rfl⟩
  · rcases List.mem_append.1 h with h | h
    · exact .inr ⟨p, h, rfl⟩
    · exact .inl (by rw [List.mem_singleton.1 h])

theorem joinPush (h : FieldStable P) {s : State} (hs : P s) (n : Nat) (u : Bool) (hn : s.hasJob n = false) :
    P (Machine.joinPush n u s) := by
  unfold Machine.joinPush
  split
  · exact hs
  · rename_i st _
    have hp : ∀ l, ∀ p ∈ joinPushes n u (s.pushes l),
        s.hasJob p.station = false ∨ ∃ q ∈ s.pushes l, q.station = p.station := fun l p hp =>
      (mem_joinPushes hp).imp (fun he => by rw [he, hn]) id
    cases st.entry.lane
    · refine h.pushes s _ s.pushB (fun p hp' => ?_) hs
      have := hp .a p
      have e : s.pushes .a = s.pushA := rfl
      grind
    · refine h.pushes s s.pushA _ (fun p hp' => ?_) hs
      have := hp .b p
      have e : s.pushes .b = s.pushB := rfl
      grind

theorem under_entries (c : CarState) (xs : List Station) :
    (xs.map (Station.under c)).map (·.entry) = xs.map (·.entry) := by
  rw [List.map_map]
  refine List.map_congr_left fun st _ => ?_
  simp only [Function.comp, Station.under]
  split <;> rfl

/-- Such a property is kept by the primitive changes of every block. -/
theorem block (h : FieldStable P) : BlockStable P where
  park := h.park
  laneA s x ht hh _ := h.lane s .a x ht hh
  laneB s x ht hh _ := h.lane s .b x ht hh
  free s x := h.flash s s.flash x
  jobs s q hq := h.engine s { s.engine with queue := q } (subOfEq hq)
  store := h.store
  setDeadline := h.setDeadline
  supply := h.supply
  estimator := h.estimator
  carStations s c := h.stations s c _ (subOfEq (under_entries c _)) fun _ => State.keepsEntries_of (under_entries c _)
  settings s x _ := h.settings s x
  query := h.query
  tick := h.tick
  deadlines := h.deadlines
  engine := h.engine
  pushes s a b ha hb := h.pushes s a b fun p hp => by
    have hm : p.station ∈ (a ++ b).map (·.station) := List.mem_map_of_mem hp
    rw [List.map_append] at hm
    have hq := (ha.append hb).subset hm
    rw [← List.map_append] at hq
    exact .inr (List.mem_map.1 hq)
  joinPush s n u hn hs := h.joinPush hs n u hn
  stations s x hx _ _ hk := h.stations s s.car x hx hk
  insertStation s e _ _ hn := h.insertStation s e hn
  complete s op := h.flash s _ s.free
  settleDevice s hs := h.settleDevice hs
  leaveBusy s torn u := h.flash s _ s.free
  postNotice s b hs := h.postNotice hs b
  takeNotice s hs := h.takeNotice hs
  link s l _ _ := h.link s l s.pins
  hold s r _ := h.link s _ s.pins

/-- Such a property is kept by every command, if the creation of a job and a cold start keep it too. -/
theorem stable (h : FieldStable P)
    (hj : ∀ s n o p, s.hasJob n = false → (s.station? n).isSome = true → P s → P (addJob n o p s) := by
      exact fun _ _ _ _ _ _ h => h)
    (hl : ∀ s x, (s.loader.step = .ended → x.step = .ended) → P s → P { s with loader := x } := by
      exact fun _ _ _ h => h)
    (hc : ∀ s c l b, P s → P (coldBlocks c l b s)) (hs : ∀ s p r b, P s → P (stateless p r b s)) : Stable P where
  toBlockStable := h.block
  events s hP _ := ({ h.block with addJob := hj } : EventStable P).events s hP
  loader := hl
  coldBlocks := hc
  stateless := hs

end FieldStable

/-! ### Every command completes -/

/-- The queue of waiting commands stays. -/
theorem pendingStays_stable (q : List Instr) : Stable fun s => s.pending = q :=
  FieldStable.stable {} (hc := fun _ _ _ _ h => h) (hs := fun _ _ _ _ h => h)

theorem exec_next (i : Instr) (s : State) : ∃ t, exec i s = .next t := by cases i <;> exact ⟨_, rfl⟩

/-- Settles O2. -/
theorem everyCommandCompletes : Obligations.EveryCommandCompletes := by
  intro i s
  obtain ⟨t, ht⟩ := exec_next i s
  exact ⟨t, ht, (pendingStays_stable s.pending).exec i rfl ht⟩

end Sys2Proof.Machine
end

section
/-! PROOFS. What every step keeps distinct and in order (spec/02, spec/04, spec/05, spec/07, spec/08). -/

namespace Sys2Proof.Machine

/-- A step keeps a stable property that does not read the queue of waiting commands. -/
theorem Stable.step {P : State → Prop} (h : Stable P) (hp : ∀ s q, P s → P (s.withPending q)) {s t : State} (hs : P s)
    (ht : Machine.step s = .next t) : P t := by
  unfold Machine.step at ht
  split at ht
  · cases ht
    exact hs
  · exact h.exec _ (hp _ _ hs) ht

/-! ### The deadline list (R22, R23, R25) -/

theorem deadlinesDistinct_insert {count : Time} {e : Deadline} {ds : List Deadline} (h : (ds.map (·.purpose)).Nodup)
    (he : ∀ d ∈ ds, d.purpose ≠ e.purpose) : ((insertDeadline count e ds).map (·.purpose)).Nodup := by
  induction ds with
  | nil => simp [insertDeadline]
  | cons d ds ih =>
    simp only [List.map_cons, List.nodup_cons, List.mem_cons, forall_eq_or_imp, List.mem_map, not_exists, not_and] at h he
    obtain ⟨hd, hn⟩ := h
    unfold insertDeadline
    split
    · simp only [List.map_cons, List.nodup_cons, List.mem_cons, List.mem_map, not_or, not_exists, not_and]
      exact ⟨⟨Ne.symm he.1, he.2⟩, hd, hn⟩
    · simp only [List.map_cons, List.nodup_cons, List.mem_map, not_exists, not_and]
      refine ⟨fun x hx => ?_, ih hn he.2⟩
      rcases mem_insertDeadline.1 hx with rfl | hx
      · exact Ne.symm he.1
      · exact hd x hx

theorem ne_of_mem_withoutPurpose {p : Purpose} {d : Deadline} {ds : List Deadline} (h : d ∈ withoutPurpose p ds) :
    d.purpose ≠ p := by simpa using List.of_mem_filter h

theorem deadlinesDistinct_stable : Stable State.deadlinesDistinct :=
  FieldStable.stable
    { setDeadline := fun s p due h =>
        deadlinesDistinct_insert (h.sublist (List.filter_sublist.map _)) fun _ hd => ne_of_mem_withoutPurpose hd
      tick := fun s h => by
        unfold State.deadlinesDistinct Timebase.tick
        split <;> exact h
      deadlines := fun s ds hds h => h.sublist (hds.map _) }
    (hc := fun _ _ _ _ _ => List.nodup_nil) (hs := fun _ _ _ _ _ => List.nodup_nil)

/-- One entry stands before another: it has less time left, or as much and was set before it (R25). -/
def Deadline.before (count : Time) (d e : Deadline) : Prop :=
  remaining count d.due < remaining count e.due ∨
    (remaining count d.due = remaining count e.due ∧ d.position < e.position)

/-- A new entry in its place keeps the order, if it comes after every other among equals. -/
theorem deadlinesOrdered_insert {count : Time} {e : Deadline} {ds : List Deadline}
    (h : ds.Pairwise (Deadline.before count)) (he : ∀ d ∈ ds, d.position < e.position) :
    (insertDeadline count e ds).Pairwise (Deadline.before count) := by
  induction ds with
  | nil => simp [insertDeadline]
  | cons d ds ih =>
    obtain ⟨hd, hds⟩ := List.pairwise_cons.1 h
    unfold insertDeadline
    split
    · rename_i hlt
      refine List.pairwise_cons.2 ⟨fun x hx => .inl ?_, h⟩
      rcases List.mem_cons.1 hx with rfl | hx
      · exact hlt
      · rcases hd x hx with hx | ⟨hx, _⟩
        · exact hlt.trans hx
        · exact hx ▸ hlt
    · rename_i hle
      refine List.pairwise_cons.2 ⟨fun x hx => ?_, ih hds fun x hx => he x (List.mem_cons_of_mem _ hx)⟩
      rcases mem_insertDeadline.1 hx with rfl | hx
      · exact (lt_or_eq_of_le (not_lt.1 hle)).imp id fun hq => ⟨hq, he d (List.mem_cons_self ..)⟩
      · exact hd x hx

theorem remaining_ahead {count x : Time} (h : isDue count x = false) : remaining count x = ((x - count).toNat : Int) := by
  simp only [remaining, h, Bool.false_eq_true, if_false]

theorem remaining_due {count x : Time} (h : isDue count x = true) : remaining count x = -((count - x).toNat : Int) := by
  simp only [remaining, h, if_true]

theorem isDue_false_iff {count x : Time} : isDue count x = false ↔ 2147483648 ≤ (count - x).toNat := by
  simp [isDue]

theorem remaining_pos {count x : Time} (h : isDue count x = false) : 0 < remaining count x := by
  rw [remaining_ahead h]
  rw [isDue_false_iff] at h
  simp only [BitVec.toNat_sub] at h ⊢
  omega

theorem remaining_nonpos {count x : Time} (h : isDue count x = true) : remaining count x ≤ 0 := by
  rw [remaining_due h]
  omega

/-- A time that is ahead comes nearer by a millisecond. -/
theorem remaining_tick {count x : Time} (h : isDue count x = false) : remaining (count + 1) x = remaining count x - 1 := by
  have hc := count.isLt
  have hx := x.isLt
  have h1 : (1 : Time).toNat = 1 := rfl
  rw [remaining_ahead h]
  rw [isDue_false_iff, BitVec.toNat_sub] at h
  cases hd : isDue (count + 1) x with
  | true =>
    rw [remaining_due hd]
    have hd' : ¬2147483648 ≤ (count + 1 - x).toNat := fun hf => by rw [isDue_false_iff.2 hf] at hd; cases hd
    simp only [BitVec.toNat_sub, BitVec.toNat_add, h1] at hd' ⊢
    omega
  | false =>
    rw [remaining_ahead hd]
    simp only [BitVec.toNat_sub, BitVec.toNat_add, h1]
    rw [isDue_false_iff] at hd
    simp only [BitVec.toNat_sub, BitVec.toNat_add, h1] at hd
    omega

/-- While the head of a list in order is ahead, all of it is. -/
theorem deadlines_ahead {t : Timebase} (h : t.deadlines.Pairwise (Deadline.before t.count)) (he : t.expiryDue = false)
    {d : Deadline} (hd : d ∈ t.deadlines) : isDue t.count d.due = false := by
  unfold Timebase.expiryDue at he
  split at he
  · rename_i hn
    rw [hn] at hd
    cases hd
  · rename_i x ds hx
    rw [hx] at h hd
    have hp := remaining_pos he
    rcases List.mem_cons.1 hd with rfl | hd
    · exact he
    · by_contra hdue
      have hle := remaining_nonpos (Bool.not_eq_false _ ▸ hdue)
      rcases (List.pairwise_cons.1 h).1 d hd with hb | ⟨hb, _⟩ <;> omega

theorem deadlinesOrdered_tick {t : Timebase} (h : t.deadlines.Pairwise (Deadline.before t.count)) :
    t.tick.deadlines.Pairwise (Deadline.before t.tick.count) := by
  cases he : t.expiryDue with
  | true => rwa [Timebase.tick_due he]
  | false =>
    rw [Timebase.tick_early he]
    refine h.imp_of_mem fun {d e} hd hee hb => ?_
    simp only [Deadline.before, remaining_tick (deadlines_ahead h he hd), remaining_tick (deadlines_ahead h he hee)]
    rcases hb with hb | ⟨hb, hp⟩
    · exact .inl (by omega)
    · exact .inr ⟨by omega, hp⟩

theorem deadlinesOrdered_stable : Stable State.deadlinesOrdered :=
  FieldStable.stable
    { setDeadline := fun s p due h =>
        deadlinesOrdered_insert (List.Pairwise.sublist List.filter_sublist h) fun _ hd => position_lt_nextPosition hd
      tick := fun s h => deadlinesOrdered_tick h
      deadlines := fun s ds hds h => List.Pairwise.sublist hds h }
    (hc := fun _ _ _ _ _ => List.Pairwise.nil) (hs := fun _ _ _ _ _ => List.Pairwise.nil)

/-! ### The restore queue and the push lists (R64, R71) -/

theorem insertJob_perm (classOf : Nat → Nat) (j : Job) (js : List Job) : (insertJob classOf j js).Perm (j :: js) := by
  induction js with
  | nil => exact .refl _
  | cons x js ih =>
    unfold insertJob
    split
    · exact .refl _
    · exact (ih.cons x).trans (.swap ..)

theorem State.hasJob_iff (s : State) (n : Nat) : s.hasJob n = true ↔ n ∈ s.engine.queue.map (·.station) := by
  simp [State.hasJob, State.job?, List.find?_isSome]

theorem State.hasJob_false_iff (s : State) (n : Nat) : s.hasJob n = false ↔ n ∉ s.engine.queue.map (·.station) := by
  rw [← s.hasJob_iff, Bool.not_eq_true]

/-- The stations of the queue after a job has been created. -/
theorem addJob_stations (n : Nat) (o : Origin) (p : Prediction) (s : State) :
    ((addJob n o p s).engine.queue.map (·.station)).Perm (n :: s.engine.queue.map (·.station)) :=
  (insertJob_perm _ _ s.engine.queue).map (·.station)

theorem addJob_nodup {n : Nat} {s : State} (hn : s.hasJob n = false) (h : (s.engine.queue.map (·.station)).Nodup)
    (o : Origin) (p : Prediction) : ((addJob n o p s).engine.queue.map (·.station)).Nodup :=
  (addJob_stations n o p s).nodup_iff.2 (List.nodup_cons.2 ⟨(s.hasJob_false_iff n).1 hn, h⟩)

theorem queueDistinct_stable : Stable State.queueDistinct :=
  FieldStable.stable
    { engine := fun s e he ⟨hn, hp⟩ => ⟨hn.sublist he, fun p hm => by
        rw [State.hasJob_false_iff]
        exact fun hj => (s.hasJob_false_iff _).1 (hp p hm) (he.subset hj)⟩
      pushes := fun s a b hab ⟨hn, hp⟩ => ⟨hn, fun p hm => by
        rcases hab p hm with hj | ⟨q, hq, he⟩
        · exact hj
        · rw [← he]
          exact hp q hq⟩ }
    (hj := fun s n o p hn _ ⟨hd, hp⟩ => ⟨addJob_nodup hn hd o p, fun q hq => by
        rw [State.hasJob_false_iff, (addJob_stations n o p s).mem_iff, List.mem_cons, not_or]
        have hq' : q ∈ s.pushA ++ s.pushB ∧ q.station ≠ n := by
          have hq : q ∈ s.pushA.filter (·.station ≠ n) ++ s.pushB.filter (·.station ≠ n) := hq
          rw [← List.filter_append, List.mem_filter] at hq
          simpa using hq
        exact ⟨hq'.2, (s.hasJob_false_iff _).1 (hp q hq'.1)⟩⟩)
    (hc := fun _ _ _ _ _ => ⟨List.nodup_nil, fun _ h => by cases h⟩)
    (hs := fun _ _ _ _ _ => ⟨List.nodup_nil, fun _ h => by cases h⟩)

/-! ### The stations (R46) -/

theorem mem_insertStation {st x : Station} {xs : List Station} (h : x ∈ insertStation st xs) : x = st ∨ x ∈ xs := by
  induction xs with
  | nil => simpa [insertStation] using h
  | cons y ys ih =>
    unfold insertStation at h
    split at h
    · simpa using h
    · split at h
      · simp only [List.mem_cons] at h ⊢
        tauto
      · rcases List.mem_cons.1 h with rfl | h
        · exact .inr (List.mem_cons_self ..)
        · exact (ih h).imp id (List.mem_cons_of_mem _)

theorem stationsOrdered_insert {st : Station} {xs : List Station} (h : (xs.map (·.entry.number)).Pairwise (· < ·)) :
    ((insertStation st xs).map (·.entry.number)).Pairwise (· < ·) := by
  induction xs with
  | nil => simp [insertStation]
  | cons y ys ih =>
    have h' := h
    simp only [List.map_cons, List.pairwise_cons, List.mem_map, forall_exists_index, and_imp,
      forall_apply_eq_imp_iff₂] at h
    obtain ⟨hy, hys⟩ := h
    unfold insertStation
    split
    · rename_i hlt
      refine List.pairwise_cons.2 ⟨fun n hn => ?_, h'⟩
      rcases List.mem_cons.1 hn with rfl | hn
      · exact hlt
      · obtain ⟨x, hx, rfl⟩ := List.mem_map.1 hn
        exact hlt.trans (hy x hx)
    · split
      · rename_i heq
        simp only [List.map_cons, List.pairwise_cons, List.mem_map, forall_exists_index, and_imp,
          forall_apply_eq_imp_iff₂]
        exact ⟨fun x hx => heq ▸ hy x hx, hys⟩
      · simp only [List.map_cons, List.pairwise_cons, List.mem_map, forall_exists_index, and_imp,
          forall_apply_eq_imp_iff₂]
        refine ⟨fun x hx => ?_, ih hys⟩
        rcases mem_insertStation hx with rfl | hx
        · omega
        · exact hy x hx

theorem stationsOrdered_stable : Stable State.stationsOrdered :=
  FieldStable.stable
    { stations := fun s c x hx _ h => by
        have hn := hx.map (·.number)
        simp only [List.map_map] at hn
        exact List.Pairwise.sublist hn h
      insertStation := fun s e _ h => stationsOrdered_insert h }
    (hc := fun _ _ _ _ _ => List.Pairwise.nil) (hs := fun _ _ _ _ _ => List.Pairwise.nil)

/-! ### The load holders (R71, R119) -/

/-- Of a lane, the creation of a job withdraws a pending poll of its station (R113). -/
theorem addJob_lane (n : Nat) (o : Origin) (p : Prediction) (s : State) (l : Lane) :
    (addJob n o p s).lane l =
      if (s.lane l).pendingPoll = some n then { s.lane l with pendingPoll := none } else s.lane l := by
  cases l <;> rfl

theorem holdersDistinct_stable :
    Stable fun s => (s.engine.queue.map (·.station)).Nodup ∧ s.holdersDistinct :=
  FieldStable.stable
    { lane := fun s l x _ hx ⟨hn, hh⟩ => ⟨by cases l <;> exact hn, fun m => by
        by_cases hm : m = l
        · subst hm
          rw [State.lane_setLane]
          exact hx hn (hh m)
        · rw [State.lane_setLane_ne _ _ _ _ hm]
          exact hh m⟩
      engine := fun s e he ⟨hn, hh⟩ => ⟨hn.sublist he, hh⟩ }
    (hj := fun s n o p hn _ ⟨hd, hh⟩ => ⟨addJob_nodup hn hd o p, fun m => by
        unfold LaneState.holderDistinct
        rw [addJob_lane]
        split <;> exact hh m⟩)
    (hc := fun _ _ _ _ _ => ⟨List.nodup_nil, fun m => by cases m <;> exact fun _ h => by cases h⟩)
    (hs := fun _ _ _ _ _ => ⟨List.nodup_nil, fun m => by cases m <;> exact fun _ h => by cases h⟩)

/-! ### The store (R134, R143, R144) -/

theorem storeBounded_of_within {s : State} {x : Store} (hx : x.within s.store) (h : s.storeBounded) :
    ({ s with store := x } : State).storeBounded := by
  obtain ⟨hslots, hbuffers, howns, hfree, _⟩ := hx
  obtain ⟨hs, hb, ho, hf⟩ := h
  exact ⟨hslots.trans hs, hbuffers.trans hb, fun l => (howns l).trans (max_le (le_refl 2) (ho l)), hfree hf⟩

theorem storeBounded_stable : Stable State.storeBounded :=
  FieldStable.stable { store := fun s x hx h => storeBounded_of_within hx h }
    (hc := fun _ _ _ _ _ => reset_store.1) (hs := fun _ _ _ _ _ => reset_store.1)

end Sys2Proof.Machine
end

section
/-! PROOFS. The order of the restore queue (spec/05, 5.2). -/

namespace Sys2Proof.Machine

/-! ### Jobs in class order, of defined stations (R71, R74, R97) -/

/-- The restore queue is in order, and no lane has a transaction but where the lanes are open; and loading has ended, where
that is given. -/
def State.queueStands (ended : Prop) (s : State) : Prop :=
  (s.lanesOpen = true ∨ ∀ l, (s.lane l).txn = none) ∧ s.queueOrdered ∧ (ended → s.loadingEnded = true)

theorem State.lanesOpen_loaded {s : State} (h : s.lanesOpen = true) : s.loadingEnded = true := by
  simp only [State.lanesOpen, Bool.and_eq_true] at h
  exact h.2

/-- A queue of which only some jobs are left, the jobs' stations with the entries that they had. -/
theorem queueOrdered_of {s t : State} (h : s.queueOrdered)
    (hq : (t.engine.queue.map (·.station)).Sublist (s.engine.queue.map (·.station)))
    (he : ∀ j ∈ s.engine.queue, (t.station? j.station).map (·.entry) = (s.station? j.station).map (·.entry))
    (hl : t.loadingEnded = false → s.loadingEnded = false) : t.queueOrdered := by
  obtain ⟨ho, hd, hn⟩ := h
  have hc : ∀ n ∈ s.engine.queue.map (·.station), t.classOf n = s.classOf n := fun n hm => by
    obtain ⟨j, hj, rfl⟩ := List.mem_map.1 hm
    have hj := he j hj
    unfold State.classOf
    cases ht : t.station? j.station <;> cases hs : s.station? j.station <;> simp_all
  refine ⟨?_, fun j hj => ?_, fun ht => ?_⟩
  · have ho' : ((s.engine.queue.map (·.station)).map s.classOf).Pairwise (· ≤ ·) := by
      rw [List.map_map]
      exact ho
    have ht := List.Pairwise.sublist (hq.map s.classOf) ho'
    rw [← List.map_congr_left fun n hm => hc n (hq.subset hm), List.map_map] at ht
    exact ht
  · obtain ⟨k, hk, hs⟩ := List.mem_map.1 (hq.subset (List.mem_map_of_mem hj))
    rw [← hs, ← Option.isSome_map, he k hk, Option.isSome_map]
    exact hd k hk
  · rw [hn (hl ht)] at hq
    simpa using hq

/-- The station of a number in a table that takes a station. -/
theorem find_insertStation (st : Station) (xs : List Station) (n : Nat) :
    (insertStation st xs).find? (·.entry.number = n) =
      if n = st.entry.number then some st else xs.find? (·.entry.number = n) := by
  induction xs with
  | nil => by_cases h : n = st.entry.number <;> simp [insertStation, h, eq_comm]
  | cons x xs ih =>
    unfold insertStation
    split
    · by_cases h : n = st.entry.number <;> simp [List.find?_cons, h, eq_comm]
    · split
      · by_cases h : n = st.entry.number <;> simp_all [eq_comm]
      · rw [List.find?_cons, ih, List.find?_cons]
        by_cases h : n = st.entry.number <;> by_cases hx : x.entry.number = n <;> simp_all

/-- A job at the tail of its class keeps the class order. -/
theorem insertJob_ordered {classOf : Nat → Nat} {j : Job} {js : List Job}
    (h : (js.map fun j => classOf j.station).Pairwise (· ≤ ·)) :
    ((insertJob classOf j js).map fun j => classOf j.station).Pairwise (· ≤ ·) := by
  induction js with
  | nil => simp [insertJob]
  | cons x js ih =>
    obtain ⟨hx, hjs⟩ := List.pairwise_cons.1 h
    unfold insertJob
    split
    · rename_i hlt
      refine List.pairwise_cons.2 ⟨fun c hc => ?_, h⟩
      rcases List.mem_cons.1 hc with rfl | hc
      · exact hlt.le
      · exact hlt.le.trans (hx c hc)
    · rename_i hle
      refine List.pairwise_cons.2 ⟨fun c hc => ?_, ih hjs⟩
      rcases List.mem_cons.1 (((insertJob_perm classOf j js).map _).mem_iff.1 hc) with rfl | hc
      · exact not_lt.1 hle
      · exact hx c hc

theorem queueStands_fields (ended : Prop) : FieldStable (State.queueStands ended) where
  supply s x hx h := by
    obtain ⟨ht, hq, he⟩ := h
    refine ⟨?_, hq, he⟩
    simp only [State.lanesOpen, Bool.and_eq_true, decide_eq_true_eq] at ht ⊢
    rcases ht with ⟨hl, hload⟩ | ht
    · rcases hx with hx | hx | hx | ⟨ha, hb⟩
      · exact .inl ⟨hx.trans hl, hload⟩
      · exact .inl ⟨hx, hload⟩
      · exact absurd hl hx
      · exact .inr fun l => by cases l; exacts [ha, hb]
    · exact .inr ht
  lane s l x hx _ h := by
    obtain ⟨ht, hq, he⟩ := h
    have ho : (s.setLane l x).lanesOpen = s.lanesOpen := by cases l <;> rfl
    refine ⟨?_, by cases l <;> exact hq, by cases l <;> exact he⟩
    rw [ho]
    by_cases hopen : s.lanesOpen = true
    · exact .inl hopen
    · refine .inr fun m => ?_
      have ht := ht.resolve_left hopen
      by_cases hm : m = l
      · rw [hm, State.lane_setLane, ← Option.not_isSome_iff_eq_none]
        exact fun hs => (hx hs).elim (by simp [ht l]) hopen
      · rw [State.lane_setLane_ne _ _ _ _ hm]
        exact ht m
  engine s e he h := ⟨h.1, queueOrdered_of h.2.1 he (fun _ _ => rfl) id, h.2.2⟩
  stations s c x _ hk h := by
    refine ⟨h.1, queueOrdered_of h.2.1 (.refl _) (fun j hj => ?_) id, h.2.2⟩
    have hl : s.loadingEnded = true := by
      by_contra hl
      rw [h.2.1.2.2 (by simpa using hl)] at hj
      cases hj
    exact hk hl _ ((s.hasJob_iff _).2 (List.mem_map_of_mem hj))
  insertStation s e hn h := by
    refine ⟨h.1, queueOrdered_of h.2.1 (.refl _) (fun j hj => ?_) id, h.2.2⟩
    have hne : j.station ≠ e.number := fun he => by
      have hl : s.loadingEnded = true := by
        by_contra hl
        rw [h.2.1.2.2 (by simpa using hl)] at hj
        cases hj
      exact (s.hasJob_false_iff _).1 (hn hl) (he ▸ List.mem_map_of_mem hj)
    exact congrArg (Option.map (·.entry)) 
      ((find_insertStation (Station.defined e) s.stations j.station).trans (if_neg hne))

theorem queueStands_addJob {n : Nat} {s : State} (hst : (s.station? n).isSome = true) (h : s.queueStands True) (o : Origin)
    (p : Prediction) : (addJob n o p s).queueStands True := by
  obtain ⟨ht, ⟨ho, hd, hn⟩, hl⟩ := h
  refine ⟨ht.imp id fun ht l => ?_, ⟨insertJob_ordered ho, fun j hj => ?_, fun hf => ?_⟩, hl⟩
  · rw [addJob_lane]
    split <;> exact ht l
  · rcases List.mem_cons.1 ((insertJob_perm _ _ s.engine.queue).mem_iff.1 hj) with rfl | hj
    · exact hst
    · exact hd j hj
  · have hf : s.loadingEnded = false := hf
    rw [hl trivial] at hf
    cases hf

/-- Where jobs may be created loading has ended, so that the queue need not be empty. -/
theorem queueStands_stable : Stable (State.queueStands False) where
  toBlockStable := (queueStands_fields False).block
  events s h hj := by
    obtain ⟨ht, hq, _⟩ := h
    have hl : s.loadingEnded = true := by
      rcases hj with hl | ⟨l, hl⟩
      · exact hl
      · rcases ht with ho | ht
        · exact State.lanesOpen_loaded ho
        · rw [ht l] at hl
          cases hl
    exact ⟨State.queueStands True,
      { (queueStands_fields True).block with addJob := fun _ _ o p _ hst h => queueStands_addJob hst h o p },
      ⟨ht, hq, fun _ => hl⟩, fun t h => ⟨h.1, h.2.1, False.elim⟩⟩
  loader s x hx h := by
    obtain ⟨ht, hq, _⟩ := h
    simp only [State.queueStands, State.lanesOpen, Bool.and_eq_true] at ht ⊢
    have hl : s.loadingEnded = true → ({ s with loader := x } : State).loadingEnded = true := fun hs => by
      simp only [State.loadingEnded, decide_eq_true_eq] at hs ⊢
      exact hx hs
    refine ⟨ht.imp (fun h => ⟨h.1, hl h.2⟩) id, queueOrdered_of hq (.refl _) (fun _ _ => rfl) fun hf => ?_, False.elim⟩
    by_contra hs
    rw [hl (by simpa using hs)] at hf
    cases hf
  coldBlocks s c l b _ := ⟨.inr fun m => by cases m <;> rfl, ⟨.nil, fun _ h => (by cases h), fun _ => rfl⟩, False.elim⟩
  stateless s p r b _ := ⟨.inr fun m => by cases m <;> rfl, ⟨.nil, fun _ h => (by cases h), fun _ => rfl⟩, False.elim⟩

theorem State.lanesSilent.queueStands {s : State} (h : s.lanesSilent) (hq : s.queueOrdered) : s.queueStands False :=
  ⟨h.imp id fun h l => (h l).1, hq, False.elim⟩

end Sys2Proof.Machine
end

section
/-! PROOFS. The buffer wait list (spec/08, 8.4): what each operation does to the requests and to the load holders and the image
write that they lean on. -/

namespace Sys2Proof.Machine

/-! ### The requests and what they lean on -/

/-- What the soundness of the wait list reads: the list, whether there is an image write, and which lanes have a load
holder. -/
structure Asks where
  waits : List BufferRequest
  write : Bool
  holds : Lane → Bool

def State.asks (s : State) : Asks where
  waits := s.store.waitList
  write := s.store.imageWrite.isSome
  holds l := (s.lane l).holder.isSome

/-- The wait list is sound (R121, R134, R143, R148). -/
def Asks.sound (x : Asks) : Prop :=
  (x.waits.map (·.who)).Nodup ∧ (∀ r ∈ x.waits.tail, r.who ≠ .parkWriter) ∧
    ∀ r ∈ x.waits, 1 ≤ r.count ∧ r.count ≤ r.who.mostAsked ∧ (∀ l, r.who = .lane l → x.holds l = true) ∧
      (r.who = .imageWrite → x.write = true)

theorem State.waitListSound_iff (s : State) : s.waitListSound ↔ s.asks.sound := Iff.rfl

/-- The same with a lane taken to have a load holder, so that its request is not looked at. -/
def Asks.holding (l : Lane) (x : Asks) : Asks := { x with holds := fun m => m = l || x.holds m }

/-- The same without the requests of one requester. -/
def Asks.without (who : BufferOwner) (x : Asks) : Asks := { x with waits := x.waits.filter (·.who ≠ who) }

namespace Asks

/-- Requests may go, and holders and an image write may come. -/
theorem sound.mono {x y : Asks} (h : x.sound) (hw : y.waits.Sublist x.waits) (hi : x.write = true → y.write = true)
    (hh : ∀ l, x.holds l = true → y.holds l = true) : y.sound := by
  obtain ⟨hn, hp, hr⟩ := h
  refine ⟨hn.sublist (hw.map _), fun r hm => hp r (hw.tail.subset hm), fun r hm => ?_⟩
  obtain ⟨h1, hc, hl, hwr⟩ := hr r (hw.subset hm)
  exact ⟨h1, hc, fun l e => hh l (hl l e), fun e => hi (hwr e)⟩

theorem sound.holding {x : Asks} (h : x.sound) (l : Lane) : (x.holding l).sound :=
  h.mono (.refl _) id fun m hm => by simp [Asks.holding, hm]

theorem sound.without {x : Asks} (h : x.sound) (who : BufferOwner) : (x.without who).sound :=
  h.mono List.filter_sublist id fun _ => id

/-- Without its request, it does not matter whether a lane has a holder. -/
theorem sound.withoutLane {x : Asks} {l : Lane} (h : (x.holding l).sound) : (x.without (.lane l)).sound := by
  obtain ⟨hn, hp, hr⟩ := h.without (.lane l)
  refine ⟨hn, hp, fun r hm => ?_⟩
  obtain ⟨h1, hc, hl, hwr⟩ := hr r hm
  refine ⟨h1, hc, fun m e => ?_, hwr⟩
  have hne : m ≠ l := fun he => by
    have := List.of_mem_filter hm
    simp [e, he] at this
  simpa [Asks.holding, Asks.without, hne] using hl m e

/-- Without its request, it does not matter whether there is an image write. -/
theorem sound.withoutWrite {x : Asks} (h : x.sound) (b : Bool) : ({ x.without .imageWrite with write := b } : Asks).sound := by
  obtain ⟨hn, hp, hr⟩ := h.without .imageWrite
  refine ⟨hn, hp, fun r hm => ?_⟩
  obtain ⟨h1, hc, hl, -⟩ := hr r hm
  exact ⟨h1, hc, hl, fun e => by simpa [e] using List.of_mem_filter hm⟩

/-- The request at the head is granted a buffer. -/
def granted (x : Asks) : Asks := { x with waits := takeTurn x.waits }

theorem sound.granted {x : Asks} (h : x.sound) : x.granted.sound := by
  unfold Asks.granted takeTurn
  split
  · exact h.mono (List.nil_sublist _) id fun _ => id
  · rename_i r rest hw
    split
    · exact h.mono (by rw [hw]; exact List.sublist_cons_self _ _) id fun _ => id
    · obtain ⟨hn, hp, hr⟩ := h
      rw [hw] at hn hp hr
      refine ⟨hn, hp, fun q hq => ?_⟩
      rcases List.mem_cons.1 hq with rfl | hq
      · obtain ⟨h1, hc, hl⟩ := hr r (List.mem_cons_self ..)
        exact ⟨by show 1 ≤ r.count - 1; omega, (Nat.sub_le ..).trans hc, hl⟩
      · exact hr q (List.mem_cons_of_mem _ hq)

/-- One requester's request entered, or its count changed (R143). -/
def request (who : BufferOwner) (count : Nat) (x : Asks) : Asks :=
  { x with
    waits :=
      if x.waits.any (·.who = who) then x.waits.map fun r => if r.who = who then { r with count := count } else r
      else if who = .parkWriter then { who := who, count := count } :: x.waits
      else x.waits ++ [{ who := who, count := count }] }

theorem sound.request {x : Asks} (h : x.sound) {who : BufferOwner} {count : Nat} (h1 : 1 ≤ count)
    (hc : count ≤ who.mostAsked) (hl : ∀ l, who = .lane l → x.holds l = true) (hw : who = .imageWrite → x.write = true) :
    (x.request who count).sound := by
  obtain ⟨hn, hp, hr⟩ := h
  unfold Asks.request
  split
  · have hmap : (x.waits.map fun r => if r.who = who then { r with count := count } else r).map (·.who) =
        x.waits.map (·.who) := by
      rw [List.map_map]
      refine List.map_congr_left fun r _ => ?_
      simp only [Function.comp]
      split <;> rfl
    refine ⟨by rw [hmap]; exact hn, fun r hm => ?_, fun r hm => ?_⟩
    · rw [← List.map_tail] at hm
      obtain ⟨q, hq, rfl⟩ := List.mem_map.1 hm
      have := hp q hq
      split <;> exact this
    · obtain ⟨q, hq, rfl⟩ := List.mem_map.1 hm
      split
      · rename_i he
        subst he
        exact ⟨h1, hc, hl, hw⟩
      · exact hr q hq
  · rename_i hnone
    have hfresh : ∀ r ∈ x.waits, r.who ≠ who := fun r hm he => hnone (List.any_eq_true.2 ⟨r, hm, by simpa using he⟩)
    have hnew : ∀ r ∈ x.waits ++ [{ who := who, count := count }], 1 ≤ r.count ∧ r.count ≤ r.who.mostAsked ∧
        (∀ l, r.who = .lane l → x.holds l = true) ∧ (r.who = .imageWrite → x.write = true) := fun r hm => by
      rcases List.mem_append.1 hm with hm | hm
      · exact hr r hm
      · rw [List.mem_singleton.1 hm]
        exact ⟨h1, hc, hl, hw⟩
    split
    · rename_i hpark
      subst hpark
      refine ⟨List.nodup_cons.2 ⟨fun hm => ?_, hn⟩, hfresh, fun r hm => hnew r ?_⟩
      · obtain ⟨r, hm, he⟩ := List.mem_map.1 hm
        exact hfresh r hm he
      · exact (List.perm_append_singleton _ _).mem_iff.2 hm
    · rename_i hpark
      refine ⟨?_, fun r hm => ?_, hnew⟩
      · rw [List.map_append, List.nodup_append]
        refine ⟨hn, List.nodup_singleton _, fun a ha b hb he => ?_⟩
        obtain ⟨r, hm, rfl⟩ := List.mem_map.1 ha
        exact hfresh r hm (he.trans (List.mem_singleton.1 hb))
      · cases hx : x.waits with
        | nil =>
          rw [hx] at hm
          cases hm
        | cons y ys =>
          rw [hx] at hm hp
          rcases List.mem_append.1 hm with hm | hm
          · exact hp r hm
          · rw [List.mem_singleton.1 hm]
            exact hpark

end Asks

/-! ### What the operations leave of the requests -/

/-- The work of the buffer pool changes no holder and no image write. -/
theorem State.poolBecomes.asks {s t : State} (h : s.poolBecomes t) : t.asks = { s.asks with waits := t.store.waitList } := by
  obtain ⟨_, _, _, _, rfl⟩ := h
  simp only [State.asks, Asks.mk.injEq, true_and]
  refine ⟨rfl, funext fun l => ?_⟩
  cases l <;> rfl

theorem State.asks_updLane (s : State) (l : Lane) {f : LaneState → LaneState}
    (hf : (f (s.lane l)).holder.isSome = (s.lane l).holder.isSome) : (s.updLane l f).asks = s.asks := by
  simp only [State.asks, Asks.mk.injEq]
  refine ⟨by cases l <;> rfl, by cases l <;> rfl, funext fun m => ?_⟩
  by_cases hm : m = l
  · rw [hm, State.lane_updLane, hf]
  · rw [State.lane_updLane_ne _ _ _ _ hm]

/-- Whatever becomes of a lane, the requests of the others stand as they did. -/
theorem State.asks_updLane_holding (s : State) (l : Lane) (f : LaneState → LaneState) :
    (s.updLane l f).asks.holding l = s.asks.holding l := by
  simp only [State.asks, Asks.holding, Asks.mk.injEq]
  refine ⟨by cases l <;> rfl, by cases l <;> rfl, funext fun m => ?_⟩
  by_cases hm : m = l
  · simp [hm]
  · rw [State.lane_updLane_ne _ _ _ _ hm]

theorem grantSome_asks (k : Nat) (s : State) : ∃ j, (grantSome k s).asks = Asks.granted^[j] s.asks := by
  induction k generalizing s with
  | zero => exact ⟨0, rfl⟩
  | succ k ih =>
    unfold grantSome
    split
    · rename_i r rest i hw hi
      obtain ⟨j, hj⟩ :=
        ih (giveBuffer i r.who { s with store := { s.store with waitList := takeTurn s.store.waitList } })
      refine ⟨j + 1, ?_⟩
      rw [hj, Function.iterate_succ_apply, (State.poolBecomes.giveBuffer _ _ _).asks, giveBuffer_waitList]
      rfl
    · exact ⟨0, rfl⟩

theorem Asks.sound.iterate {x : Asks} (h : x.sound) (j : Nat) : (Asks.granted^[j] x).sound := by
  induction j generalizing x with
  | zero => exact h
  | succ j ih => exact ih h.granted

theorem Asks.holding_iterate (l : Lane) (x : Asks) (j : Nat) :
    (Asks.granted^[j] x).holding l = Asks.granted^[j] (x.holding l) := by
  induction j generalizing x with
  | zero => rfl
  | succ j ih => exact ih x.granted

theorem grantBuffers_asks {s : State} (h : s.asks.sound) : (grantBuffers s).asks.sound := by
  obtain ⟨j, hj⟩ := grantSome_asks 6 s
  exact hj ▸ h.iterate j

theorem grantBuffers_asks_holding {s : State} {l : Lane} (h : (s.asks.holding l).sound) :
    ((grantBuffers s).asks.holding l).sound := by
  obtain ⟨j, hj⟩ := grantSome_asks 6 s
  rw [grantBuffers, hj, Asks.holding_iterate]
  exact h.iterate j

theorem requestBuffers_asks (who : BufferOwner) (n : Nat) (s : State) :
    (requestBuffers who n s).asks = s.asks.request who n := (State.poolBecomes.requestBuffers who n s).asks

theorem withdrawRequest_asks (who : BufferOwner) (s : State) : (withdrawRequest who s).asks = s.asks.without who :=
  (State.poolBecomes.withdrawRequest who s).asks

theorem giveBack_asks (i : Nat) (b : Bool) (s : State) : (giveBack i b s).asks = s.asks := by
  unfold giveBack
  split <;> exact (State.poolBecomes.setBuffer ..).asks

theorem releaseUnneeded_asks (l : Lane) (s : State) : (releaseUnneeded l s).asks = s.asks := by
  have key : ∀ (f : State → Nat → State), (∀ s i, (f s i).asks = s.asks) → ∀ (is : List Nat) (s : State),
      (is.foldl f s).asks = s.asks := fun f hf is => by
    induction is with
    | nil => exact fun _ => rfl
    | cons i is ih => exact fun s => (ih _).trans (hf s i)
  refine key _ (fun s i => ?_) _ s
  dsimp only
  split
  · rfl
  · exact giveBack_asks ..

/-- A lane asks only for blocks that its load holder needs. -/
theorem holder_of_wantedBuffers {l : Lane} {s : State} (h : wantedBuffers l s ≠ 0) : s.asks.holds l = true := by
  cases hh : (s.lane l).holder with
  | none => exact absurd (by simp [wantedBuffers, missingBlocks, neededBlocks, holderNext, hh]) h
  | some x => simp [State.asks, hh]

theorem Asks.holding_self {x : Asks} {l : Lane} (h : x.holds l = true) : x.holding l = x := by
  cases x
  simp only [Asks.holding, Asks.mk.injEq, true_and]
  funext m
  by_cases hm : m = l
  · simp_all
  · simp [hm]

/-- A lane plans: it asks for what its load holder misses, and without one it asks for nothing (R134). -/
theorem planBuffers_asks {l : Lane} {s : State} (h : (s.asks.holding l).sound) : (planBuffers l s).asks.sound := by
  have h1 : ((grantBuffers (releaseUnneeded l s)).asks.holding l).sound :=
    grantBuffers_asks_holding (by rw [releaseUnneeded_asks]; exact h)
  unfold planBuffers
  dsimp only
  split
  · rw [withdrawRequest_asks]
    exact h1.withoutLane
  · rename_i hw
    have hl := holder_of_wantedBuffers hw
    rw [Asks.holding_self hl] at h1
    refine grantBuffers_asks ?_
    rw [requestBuffers_asks]
    refine h1.request (Nat.one_le_iff_ne_zero.2 hw) ?_ (fun m hm => ?_) fun hm => by cases hm
    · exact (Nat.min_le_left ..).trans (Nat.sub_le ..)
    · cases hm
      exact hl

theorem freeBuffer_asks {s : State} (i : Nat) (h : s.asks.sound) : (freeBuffer i s).asks.sound :=
  grantBuffers_asks (by rw [(State.poolBecomes.setBuffer ..).asks]; exact h)

end Sys2Proof.Machine
end

section
/-! PROOFS. The operations that leave the requests of the wait list, the load holders and the image write alone. -/

namespace Sys2Proof.Machine

/-! ### What leaves the requests alone -/

theorem foldl_asks {α : Type} {f : State → α → State} (hf : ∀ s a, (f s a).asks = s.asks) (xs : List α) (s : State) :
    (xs.foldl f s).asks = s.asks := by
  induction xs generalizing s with
  | nil => rfl
  | cons x xs ih => exact (ih _).trans (hf s x)

@[simp] theorem postNotice_asks (b : NoticeBody) (s : State) : (postNotice b s).asks = s.asks := by
  unfold postNotice
  split <;> rfl

@[simp] theorem queueOp_asks (op : FlashOp) (s : State) : (queueOp op s).asks = s.asks := rfl

@[simp] theorem queueOpFirst_asks (op : FlashOp) (s : State) : (queueOpFirst op s).asks = s.asks := rfl

@[simp] theorem withdrawOps_asks (who : Requester) (s : State) : (withdrawOps who s).asks = s.asks := rfl

@[simp] theorem setBuffer_asks (i : Nat) (b : Buffer) (s : State) : (s.setBuffer i b).asks = s.asks := rfl

@[simp] theorem setSlot_asks (n : Nat) (x : Slot) (s : State) : (s.setSlot n x).asks = s.asks := by
  unfold State.setSlot
  split <;> rfl

@[simp] theorem updJob_asks (n : Nat) (f : Job → Job) (s : State) : (s.updJob n f).asks = s.asks := rfl

@[simp] theorem updStation_asks (n : Nat) (f : Station → Station) (s : State) : (s.updStation n f).asks = s.asks := rfl

@[simp] theorem updSupply_asks (f : SupplyWatch → SupplyWatch) (s : State) : (s.updSupply f).asks = s.asks := rfl

@[simp] theorem updLoader_asks (f : Loader → Loader) (s : State) : (s.updLoader f).asks = s.asks := rfl

@[simp] theorem drawn_asks (s : State) : s.drawn.asks = s.asks := rfl

@[simp] theorem setDeadline_asks (p : Purpose) (due : Time) (s : State) : (setDeadline p due s).asks = s.asks := rfl

@[simp] theorem setDeadlineIn_asks (p : Purpose) (n : Nat) (s : State) : (setDeadlineIn p n s).asks = s.asks := rfl

@[simp] theorem removeDeadline_asks (p : Purpose) (s : State) : (removeDeadline p s).asks = s.asks := rfl

@[simp] theorem startRun_asks (s : State) : (startRun s).asks = s.asks := rfl

@[simp] theorem removePush_asks (n : Nat) (s : State) : (removePush n s).asks = s.asks := rfl

@[simp] theorem loaderRead_asks (r b : Nat) (s : State) : (loaderRead r b s).asks = s.asks := rfl

@[simp] theorem joinPush_asks (n : Nat) (u : Bool) (s : State) : (joinPush n u s).asks = s.asks := by
  unfold joinPush
  split
  · rfl
  · rename_i st _
    cases st.entry.lane <;> rfl

@[simp] theorem makePending_asks (n : Nat) (u : Bool) (s : State) : (makePending n u s).asks = s.asks := by
  unfold makePending
  split
  · rfl
  · exact joinPush_asks ..

@[simp] theorem withdrawPoll_asks (n : Nat) (s : State) : (withdrawPoll n s).asks = s.asks := by
  unfold withdrawPoll State.bothLanes
  rw [State.asks_updLane, State.asks_updLane]
  all_goals split <;> rfl

@[simp] theorem setPresence_asks (n : Nat) (p : Presence) (s : State) : (setPresence n p s).asks = s.asks := by
  unfold setPresence
  split
  · rfl
  · split
    · rfl
    · dsimp only
      split
      · exact postNotice_asks ..
      · rfl

@[simp] theorem presenceReply_asks (n : Nat) (s : State) : (presenceReply n s).asks = s.asks := by
  unfold presenceReply
  split
  · rfl
  · split
    · exact setPresence_asks ..
    · rfl

@[simp] theorem passCompleteIfEmpty_asks (s : State) : (passCompleteIfEmpty s).asks = s.asks := by
  unfold passCompleteIfEmpty
  split
  · exact postNotice_asks ..
  · rfl

@[simp] theorem addJob_asks (n : Nat) (o : Origin) (p : Prediction) (s : State) : (addJob n o p s).asks = s.asks :=
  withdrawPoll_asks n (removePush n s)

@[simp] theorem joinJob_asks (n : Nat) (o : Origin) (p : Prediction) (s : State) : (joinJob n o p s).asks = s.asks := by
  unfold joinJob
  split
  · rfl
  · exact addJob_asks ..

@[simp] theorem createJob_asks (n : Nat) (o : Origin) (s : State) : (createJob n o s).asks = s.asks := by
  have h := addJob_asks n o .none s
  unfold createJob
  split
  · rfl
  · dsimp only
    split
    · split <;> exact h
    · exact h

@[simp] theorem buildPass_asks (s : State) : (buildPass s).asks = s.asks := by
  have hjoin (o : Origin) (xs : List Station) (x : State) : (joinAll o xs x).asks = x.asks :=
    foldl_asks (fun _ _ => joinJob_asks ..) xs x
  have harm (x : State) : (armAll x).asks = x.asks :=
    foldl_asks (f := fun (y : State) (j : Job) => armLimit j.station y) (fun _ _ => rfl) x.engine.queue x
  have hopen (p : Nat) (x : State) : (openPass p x).asks = x.asks := by
    unfold openPass
    split
    · exact postNotice_asks ..
    · rfl
  unfold buildPass
  dsimp only
  rw [hopen, startRun_asks, harm, postNotice_asks, hjoin]
  rfl

@[simp] theorem engineGapBegin_asks (s : State) : (engineGapBegin s).asks = s.asks := rfl

@[simp] theorem engineRestart_asks (s : State) : (engineRestart s).asks = s.asks := rfl

@[simp] theorem kickMarkWriter_asks (s : State) : (kickMarkWriter s).asks = s.asks := by
  unfold kickMarkWriter
  split
  · rfl
  · split <;> rfl

@[simp] theorem markDone_asks (n : Nat) (s : State) : (markDone n s).asks = s.asks := kickMarkWriter_asks _

@[simp] theorem issueFlash_asks (s : State) : (issueFlash s).asks = s.asks := by
  unfold issueFlash
  split
  · rfl
  · split
    · rfl
    · dsimp only
      split <;> rfl

@[simp] theorem settleDevice_asks (s : State) : (settleDevice s).asks = s.asks := by
  unfold settleDevice
  split <;> rfl

@[simp] theorem takePlaces_asks (k : Nat) (b : List Byte) (s : State) : (takePlaces k b s).asks = s.asks := by
  induction k generalizing b s with
  | zero => rfl
  | succ k ih =>
    unfold takePlaces
    rw [ih]
    unfold takePlace
    dsimp only
    split
    · rfl
    · split
      · rfl
      · split <;> rfl

@[simp] theorem updWriteBuffer_asks (f : Buffer → Buffer) (s : State) : (updWriteBuffer f s).asks = s.asks := by
  unfold updWriteBuffer
  split <;> rfl

/-! ### The lanes' frames -/

@[simp] theorem countBlocks_asks (l : Lane) (t : Txn) (s : State) : (countBlocks l t s).asks = s.asks := by
  unfold countBlocks
  split
  · rfl
  · split
    · rfl
    · exact foldl_asks (fun x n => updJob_asks n _ x) _ s
    · rfl

@[simp] theorem markSending_asks (t : Txn) (s : State) : (markSending t s).asks = s.asks := by
  unfold markSending
  split <;> rfl

@[simp] theorem beginAttempt_asks (l : Lane) (t : Txn) (s : State) : (beginAttempt l t s).asks = s.asks := by
  unfold beginAttempt
  dsimp only
  split
  · rw [markSending_asks, countBlocks_asks]
    exact s.asks_updLane l rfl
  · rw [setDeadlineIn_asks, markSending_asks, countBlocks_asks]
    exact s.asks_updLane l rfl

@[simp] theorem arbitrate_asks (l : Lane) (s : State) : (arbitrate l s).asks = s.asks := by
  unfold arbitrate
  split
  · split
    · rfl
    · unfold beginStep
      rw [beginAttempt_asks, State.asks_updLane _ _ rfl]
      split
      · rfl
      · exact s.asks_updLane l rfl
      · rfl
  · rfl

@[simp] theorem endStep_asks (l : Lane) (t : Txn) (s : State) : (endStep l t s).asks = s.asks := by
  unfold endStep
  dsimp only
  split <;> exact s.asks_updLane l rfl

@[simp] theorem countRetry_asks (t : Txn) (s : State) : (countRetry t s).asks = s.asks := by
  unfold countRetry
  split <;> rfl

@[simp] theorem checkPrediction_asks (n : Nat) (r : Report) (tag : Word) (s : State) :
    (checkPrediction n r tag s).asks = s.asks := by
  unfold checkPrediction
  split
  · split
    · dsimp only
      split <;> rfl
    · rfl
  · rfl

@[simp] theorem presencePoll_asks (n : Nat) (r : Report) (s : State) : (presencePoll n r s).asks = s.asks := by
  unfold presencePoll
  split
  · rfl
  · split
    · exact presenceReply_asks ..
    · exact setPresence_asks ..

@[simp] theorem presenceOfReply_asks (n : Nat) (r : LaneReply) (gone : Bool) (s : State) :
    (presenceOfReply n r gone s).asks = s.asks := by
  unfold presenceOfReply
  split
  · split
    · exact presencePoll_asks ..
    · rfl
  · exact presenceReply_asks ..

@[simp] theorem pollHandedOn_asks (n : Nat) (r : Report) (x : LiveStatus) (s : State) :
    (pollHandedOn n r x s).asks = s.asks := by
  have hleaf : ∀ u : State, (observeLeaf n x u).asks = u.asks := fun u => by
    unfold observeLeaf
    dsimp only
    split <;> rfl
  unfold pollHandedOn
  split
  · rfl
  · dsimp only
    split
    · rw [hleaf, presencePoll_asks]
    · rw [createJob_asks, hleaf, presencePoll_asks]

@[simp] theorem pollReply_asks (n : Nat) (r : LaneReply) (s : State) : (pollReply n r s).asks = s.asks := by
  unfold pollReply
  split
  · exact pollHandedOn_asks ..
  · rfl

@[simp] theorem queryReply_asks (n : Nat) (r : LaneReply) (s : State) : (queryReply n r s).asks = s.asks := by
  unfold queryReply
  split
  · rw [postNotice_asks]
    exact pollHandedOn_asks ..
  · rfl

@[simp] theorem pushReply_asks (n : Nat) (r : LaneReply) (s : State) : (pushReply n r s).asks = s.asks := by
  unfold pushReply
  split
  · split
    · rfl
    · split <;> rfl
  · exact createJob_asks n .link (removePush n s)
  · rfl

@[simp] theorem markStale_asks (l : Lane) (t : Txn) (s : State) : (markStale l t s).asks = s.asks := s.asks_updLane l rfl

end Sys2Proof.Machine
end

section
/-! PROOFS. The wait list stays sound through every command (spec/08, 8.4). -/

namespace Sys2Proof.Machine

/-! ### Load holders (R119 to R121, R132) -/

theorem planBuffers_asks_of {s : State} (h : s.asks.sound) (l : Lane) : (planBuffers l s).asks.sound :=
  planBuffers_asks (h.holding l)

/-- A lane whose holder changes plans its buffers. -/
theorem planBuffers_updLane_asks {s : State} (h : s.asks.sound) (l : Lane) (f : LaneState → LaneState) :
    (planBuffers l (s.updLane l f)).asks.sound :=
  planBuffers_asks (by rw [State.asks_updLane_holding]; exact h.holding l)

/-- A lane that has a load holder afterwards, whatever it had. -/
theorem updLane_holder_asks {s : State} (h : s.asks.sound) (l : Lane) {f : LaneState → LaneState}
    (hf : (f (s.lane l)).holder.isSome = true) : (s.updLane l f).asks.sound := by
  have hl : (s.updLane l f).asks.holds l = true := by simpa [State.asks] using hf
  rw [← Asks.holding_self hl, State.asks_updLane_holding]
  exact h.holding l

theorem settleGroup_asks {s : State} (h : s.asks.sound) (l : Lane) (m : List Nat) (c : Nat) (r : Option (List Nat)) :
    (settleGroup l m c r s).asks.sound := by
  unfold settleGroup
  dsimp only
  split
  · exact planBuffers_updLane_asks h l _
  · exact planBuffers_updLane_asks h l _
  · exact updLane_holder_asks h l rfl

theorem leaveHolder_asks {s : State} (h : s.asks.sound) (l : Lane) (n : Nat) : (leaveHolder l n s).asks.sound := by
  unfold leaveHolder
  split
  · exact h
  · split
    · exact planBuffers_updLane_asks h l _
    · exact h
  · split
    · exact settleGroup_asks h ..
    · exact h

theorem leaveLoad_asks {s : State} (h : s.asks.sound) (n : Nat) : (leaveLoad n s).asks.sound := by
  unfold leaveLoad
  split
  · exact h
  · exact leaveHolder_asks h ..

theorem selectHolder_asks {s : State} (h : s.asks.sound) (l : Lane) : (selectHolder l s).asks.sound := by
  unfold selectHolder
  split
  · exact h
  · split
    · exact h
    · dsimp only
      split
      · exact planBuffers_updLane_asks (by rwa [updJob_asks]) l _
      · exact planBuffers_updLane_asks (by rw [foldl_asks fun x n => updJob_asks n _ x]; exact h) l _

theorem lanesAct_asks {s : State} (h : s.asks.sound) : (lanesAct s).asks.sound := by
  unfold lanesAct
  simp only [arbitrate_asks, issueFlash_asks]
  exact selectHolder_asks (selectHolder_asks h _) _

/-! ### Jobs that leave the queue (R88, R89) -/

theorem departJob_asks {s : State} (h : s.asks.sound) (n : Nat) : (departJob n s).asks.sound :=
  leaveLoad_asks (s := removeDeadline (.restoreLimit n) s) h n

theorem completeJob_asks {s : State} (h : s.asks.sound) (n : Nat) (o : RestoreOutcome) :
    (completeJob n o s).asks.sound := by
  unfold completeJob
  split
  · exact h
  · rename_i j _
    rw [passCompleteIfEmpty_asks]
    show (postNotice _ (setPresence n .ready (departJob n s))).asks.sound
    rw [postNotice_asks, setPresence_asks]
    exact departJob_asks h n

theorem failJob_asks {s : State} (h : s.asks.sound) (n : Nat) (r : Reason) : (failJob n r s).asks.sound := by
  unfold failJob
  split
  · exact h
  · rename_i j _
    rw [passCompleteIfEmpty_asks]
    show (postNotice _ (setPresence n .absent (departJob n s))).asks.sound
    rw [postNotice_asks, setPresence_asks]
    exact departJob_asks h n

theorem slotLeftValid_asks {s : State} (h : s.asks.sound) (n : Nat) : (slotLeftValid n s).asks.sound :=
  Stable.fold (P := fun s => s.asks.sound) (fun _ j hs => failJob_asks hs j.station .noImage) _ h

theorem restartOpen_asks {s : State} (h : s.asks.sound) (n : Nat) (r : Reason) : (restartOpen n r s).asks.sound := by
  unfold restartOpen
  split
  · exact h
  · split
    · exact failJob_asks h ..
    · exact leaveLoad_asks (by rwa [updJob_asks]) n

theorem wrongState_asks {s : State} (h : s.asks.sound) (n : Nat) : (wrongState n s).asks.sound := by
  unfold wrongState
  split
  · exact h
  · split
    · exact failJob_asks h ..
    · exact leaveLoad_asks (by rwa [updJob_asks]) n

/-! ### The ends of attempts and steps (R99 to R103) -/

theorem strictError_asks {s : State} (h : s.asks.sound) (l : Lane) : (strictError l s).asks.sound := by
  unfold strictError
  split
  · exact h
  · exact Stable.fold (P := fun s => s.asks.sound) (fun _ n hs => restartOpen_asks hs n .link) _
      (planBuffers_updLane_asks h l _)

theorem exhausted_asks {s : State} (h : s.asks.sound) (t : Txn) (e : List Ending) : (exhausted t e s).asks.sound := by
  unfold exhausted
  split
  · exact failJob_asks h ..
  · rwa [createJob_asks, setPresence_asks, removePush_asks]
  · rwa [createJob_asks, setPresence_asks]
  · rename_i n _
    rw [postNotice_asks]
    show (createJob n .link (setPresence n .absent s)).asks.sound
    rwa [createJob_asks, setPresence_asks]
  · exact h

theorem errorEnding_asks {s : State} (h : s.asks.sound) (l : Lane) (t : Txn) (e : Ending) :
    (errorEnding l t e s).asks.sound := by
  have hend : (endStep l t (removeDeadline (.responseWindow l) s)).asks.sound := by rwa [endStep_asks, removeDeadline_asks]
  unfold errorEnding
  dsimp only
  split
  · exact hend
  · split
    · exact strictError_asks hend l
    · split
      · rwa [beginAttempt_asks, countRetry_asks, removeDeadline_asks]
      · exact exhausted_asks hend ..

theorem probeOutcome_asks {s : State} (h : s.asks.sound) (n : Nat) (r : Report) : (probeOutcome n r s).asks.sound := by
  have h1 : (s.updJob n fun j => { j with finding := some r }).asks.sound := h
  unfold probeOutcome
  dsimp only
  split
  · split
    · exact failJob_asks h1 ..
    · split
      · exact failJob_asks h1 ..
      · split
        · exact completeJob_asks (by rwa [checkPrediction_asks]) ..
        · rwa [updJob_asks, checkPrediction_asks]
  · exact failJob_asks h1 ..

theorem fillJudged_asks {s : State} (h : s.asks.sound) (l : Lane) (n f : Nat) : (fillJudged l n f s).asks.sound := by
  unfold fillJudged
  split
  · split
    · exact settleGroup_asks (by rwa [updJob_asks]) ..
    · split
      · exact leaveHolder_asks (by rwa [updJob_asks]) ..
      · exact leaveHolder_asks (by rwa [updJob_asks]) ..
  · exact h

theorem slotChecked_asks {s : State} (h : s.asks.sound) (n : Nat) (e : Bool) : (slotChecked n e s).asks.sound := by
  unfold slotChecked
  split
  · split
    · rwa [setSlot_asks]
    · split
      · rwa [setSlot_asks]
      · refine slotLeftValid_asks ?_ n
        rename_i image _ _ _ _
        rw [kickMarkWriter_asks]
        show (s.setSlot n (.suspect image 3)).asks.sound
        rwa [setSlot_asks]
  · exact h

theorem closeResult_asks {s : State} (h : s.asks.sound) (n : Nat) (e : Bool) : (closeResult n e s).asks.sound := by
  unfold closeResult
  split
  · exact h
  · refine slotChecked_asks ?_ ..
    split
    · exact leaveLoad_asks (by rwa [updJob_asks]) n
    · dsimp only
      split
      · exact failJob_asks (by rwa [updJob_asks]) ..
      · exact leaveLoad_asks (by rwa [updJob_asks, updJob_asks]) n

theorem replayAcknowledged_asks {s : State} (h : s.asks.sound) (n e : Nat) : (replayAcknowledged n e s).asks.sound := by
  unfold replayAcknowledged
  split
  · split
    · exact completeJob_asks h ..
    · exact h
  · exact h

theorem badIndexOnBlock_asks {s : State} (h : s.asks.sound) (l : Lane) (t : Txn) (n f : Nat) :
    (badIndexOnBlock l t n f s).asks.sound := by
  unfold badIndexOnBlock
  split
  · exact restartOpen_asks h ..
  · split
    · refine planBuffers_asks_of ?_ l
      split <;> exact h
    · exact wrongState_asks h n

theorem jobRefused_asks {s : State} (h : s.asks.sound) (l : Lane) (t : Txn) (n : Nat) (r : NakReason) (f : Nat) :
    (jobRefused l t n r f s).asks.sound := by
  unfold jobRefused
  split
  · exact h
  · exact failJob_asks h ..
  · split
    · exact failJob_asks h ..
    · exact wrongState_asks h n
  · split
    · exact failJob_asks h ..
    · exact badIndexOnBlock_asks h ..
    · exact restartOpen_asks h ..
    · exact wrongState_asks h n

theorem jobReply_asks {s : State} (h : s.asks.sound) (l : Lane) (t : Txn) (n : Nat) (r : LaneReply) :
    (jobReply l t n r s).asks.sound := by
  unfold jobReply
  split
  · exact jobRefused_asks h ..
  · exact probeOutcome_asks h ..
  · exact planBuffers_asks_of (by rwa [updJob_asks]) l
  · exact planBuffers_asks_of (freeBuffer_asks _ (by rwa [updJob_asks])) l
  · exact fillJudged_asks h ..
  · exact closeResult_asks h ..
  · exact h
  · exact replayAcknowledged_asks h ..
  · exact h

theorem takeReply_asks {s : State} (h : s.asks.sound) (l : Lane) (t : Txn) (r : LaneReply) :
    (takeReply l t r s).asks.sound := by
  unfold takeReply
  dsimp only
  split
  · exact errorEnding_asks (by rwa [presenceOfReply_asks, removeDeadline_asks]) ..
  · have hend : ∀ gone, (endStep l t (presenceOfReply (t.station.getD 0) r gone
        (removeDeadline (.responseWindow l) s))).asks.sound := fun gone => by
      rwa [endStep_asks, presenceOfReply_asks, removeDeadline_asks]
    split
    · exact hend _
    · split
      · exact jobReply_asks (hend _) ..
      · rw [pushReply_asks]
        exact hend _
      · rw [pollReply_asks]
        exact hend _
      · rw [queryReply_asks]
        exact hend _
      · exact hend _

theorem laneReply_asks {s : State} (h : s.asks.sound) (l : Lane) (f : List Byte) : (laneReply l f s).asks.sound := by
  have hstale : ∀ t, (markStale l t s).asks.sound := fun t => by rwa [markStale_asks]
  unfold laneReply
  split
  · exact h
  · split
    · exact h
    · split
      · exact lanesAct_asks (errorEnding_asks h ..)
      · split
        · unfold unmatchedReply
          split
          · exact h
          · exact hstale _
        · split
          · exact hstale _
          · exact lanesAct_asks (errorEnding_asks h ..)
          · exact lanesAct_asks (takeReply_asks h ..)

theorem windowExpired_asks {s : State} (h : s.asks.sound) (l : Lane) : (windowExpired l s).asks.sound := by
  unfold windowExpired
  split
  · exact h
  · exact lanesAct_asks (errorEnding_asks h ..)

theorem groupFrameEnded_asks {s : State} (h : s.asks.sound) (l : Lane) : (groupFrameEnded l s).asks.sound := by
  have hfreed : (s.updLane l LaneState.freed).asks.sound := by rwa [s.asks_updLane l rfl]
  unfold groupFrameEnded
  split
  · exact h
  · dsimp only
    split
    · exact lanesAct_asks (planBuffers_asks_of (freeBuffer_asks _ (updLane_holder_asks hfreed l rfl)) l)
    · split
      · exact lanesAct_asks (planBuffers_asks_of (freeBuffer_asks _ hfreed) l)
      · exact lanesAct_asks hfreed
    · exact h

theorem pollExpired_asks {s : State} (h : s.asks.sound) (l : Lane) (due : Time) : (pollExpired l due s).asks.sound := by
  refine lanesAct_asks ?_
  unfold makePollPending
  split
  · exact h
  · split
    · exact h
    · rw [State.asks_updLane _ _ rfl]
      exact h

/-! ### Gap begin and restart (R116, R117) -/

/-- Once the lanes' requests are withdrawn, it does not matter that they have no holder. -/
theorem lanesAbandoned_asks {s : State} (h : s.asks.sound) :
    ((s.lanesAbandoned.asks.without (.lane .a)).without (.lane .b)).sound := by
  refine Asks.sound.withoutLane (l := .b) ?_
  show ((s.lanesAbandoned.asks.holding .b).without (.lane .a)).sound
  refine Asks.sound.withoutLane (l := .a) ?_
  refine h.mono (.refl _) id fun l _ => ?_
  cases l <;> rfl

theorem abandonLanes_asks {s : State} (h : s.asks.sound) : (abandonLanes s).asks.sound := by
  have he : abandonLanes s =
      planBuffers .b (planBuffers .a (withdrawRequest (.lane .b) (withdrawRequest (.lane .a) s.lanesAbandoned))) := rfl
  rw [he]
  refine planBuffers_asks_of (planBuffers_asks_of ?_ .a) .b
  rw [withdrawRequest_asks, withdrawRequest_asks]
  exact lanesAbandoned_asks h

theorem bothLanes_asks (s : State) {f : LaneState → LaneState} (hf : ∀ x, (f x).holder = x.holder) :
    (s.bothLanes f).asks = s.asks := by
  unfold State.bothLanes
  rw [State.asks_updLane _ _ (by rw [hf]), State.asks_updLane _ _ (by rw [hf])]

theorem lanesGapBegin_asks {s : State} (h : s.asks.sound) : (lanesGapBegin s).asks.sound := by
  have h1 : ((abandonLanes s).bothLanes fun x => { x with pendingPoll := none }).asks.sound := by
    rw [bothLanes_asks _ (by intro _; rfl)]
    exact abandonLanes_asks h
  unfold lanesGapBegin
  generalize (abandonLanes s).bothLanes (fun x => { x with pendingPoll := none }) = x at h1
  dsimp only
  split
  · exact h1
  · rw [postNotice_asks]
    exact h1

theorem lanesRestart_asks {s : State} (h : s.asks.sound) : (lanesRestart s).asks.sound := by
  have h1 : ((abandonLanes s).bothLanes fun x => { x with injection := none }).asks.sound := by
    rw [bothLanes_asks _ (by intro _; rfl)]
    exact abandonLanes_asks h
  unfold lanesRestart
  generalize (abandonLanes s).bothLanes (fun x => { x with injection := none }) = x at h1
  exact h1

/-! ### Power and the park (R168 to R171) -/

theorem Asks.sound_nil {x : Asks} (h : x.waits = []) : x.sound := by
  obtain ⟨waits, write, holds⟩ := x
  cases h
  exact ⟨.nil, fun _ h => (by cases h), fun _ h => (by cases h)⟩

theorem coldStart_asks (c : Cause) (l : LineLevel) (b : Bool) (s : State) : (coldStart c l b s).asks.sound := by
  unfold coldStart
  rw [issueFlash_asks]
  refine Asks.sound_nil ?_
  cases l <;> rfl

theorem stateless_asks (p r b : Bool) (s : State) : (stateless p r b s).asks.sound := Asks.sound_nil rfl

theorem powerRises_asks (l : LineLevel) (b : Bool) (s : State) : (powerRises l b s).asks.sound := by
  unfold powerRises
  split
  · exact stateless_asks ..
  · exact coldStart_asks ..

theorem resetLineFalls_asks {s : State} (h : s.asks.sound) : (resetLineFalls s).asks.sound := by
  unfold resetLineFalls
  split
  · exact h
  · exact stateless_asks ..

theorem resetLineRises_asks {s : State} (h : s.asks.sound) (l : LineLevel) (b : Bool) :
    (resetLineRises l b s).asks.sound := by
  unfold resetLineRises
  split
  · exact h
  · split
    · exact coldStart_asks ..
    · exact stateless_asks ..

theorem endPark_asks {s : State} (h : s.asks.sound) : (endPark s).asks.sound := by
  have h1 : (freeParkBuffer { s with park := { s.park with phase := .ended } }).asks.sound := by
    unfold freeParkBuffer
    split
    · exact h
    · exact freeBuffer_asks _ h
  unfold endPark
  dsimp only
  split
  · exact h1
  · split
    · exact coldStart_asks ..
    · exact h1

/-- The image write ends: its request is withdrawn (R148, R149). -/
theorem endWrite_asks {s : State} (h : s.asks.sound) (b : Bool) : (endWrite b s).asks.sound := by
  unfold endWrite
  refine grantBuffers_asks ?_
  have h1 : ({ withdrawRequest .imageWrite (withdrawOps .imageWrite s) with
      store := { (withdrawRequest .imageWrite (withdrawOps .imageWrite s)).store with imageWrite := none } } : State).asks.sound :=
    h.withoutWrite false
  unfold giveBackWriteBuffer
  split
  · exact h1
  · rw [giveBack_asks]
    exact h1

theorem abandonWrite_asks {s : State} (h : s.asks.sound) : (abandonWrite s).asks.sound := by
  unfold abandonWrite
  split
  · exact h
  · exact endWrite_asks (by rwa [setSlot_asks]) _

theorem enterParking_asks (s : State) : (enterParking s).asks = s.asks := rfl

theorem takeParkImage_asks (s : State) : (takeParkImage s).asks = s.asks := rfl

theorem abandonSave_asks (s : State) : (abandonSave s).asks = s.asks := rfl

theorem abandonMarks_asks (s : State) : (abandonMarks s).asks = s.asks := rfl

theorem discardHeld_asks (s : State) : (discardHeld s).asks = s.asks := rfl

theorem beginPark_asks {s : State} (h : s.asks.sound) : (beginPark s).asks.sound := by
  have h1 : (discardHeld (withdrawOps .loader (abandonMarks (abandonSave (abandonWrite (takeParkImage
      (enterParking s))))))).asks.sound := by
    rw [discardHeld_asks, withdrawOps_asks, abandonMarks_asks, abandonSave_asks]
    exact abandonWrite_asks (by rwa [takeParkImage_asks, enterParking_asks])
  unfold beginPark
  dsimp only
  split
  · rw [issueFlash_asks]
    refine grantBuffers_asks ?_
    rw [requestBuffers_asks, postNotice_asks]
    exact h1.request (le_refl 1) (le_refl 1) (fun _ e => by cases e) fun e => by cases e
  · exact endPark_asks (by rwa [postNotice_asks])

theorem parkProgrammed_asks {s : State} (h : s.asks.sound) : (parkProgrammed s).asks.sound := by
  unfold parkProgrammed
  split
  · unfold programPage2
    dsimp only
    split <;> exact h
  · exact endPark_asks h
  · exact h

/-! ### The Supply Watch -/

theorem rawChange_asks {s : State} (h : s.asks.sound) (l : LineLevel) : (rawChange l s).asks.sound := by
  unfold rawChange
  split
  · exact h
  · split <;> exact h

theorem rearmHorizon_asks (r : Time) (s : State) : (rearmHorizon r s).asks = s.asks := rfl

theorem estimatorFall_asks (r : Time) (o m : Bool) (s : State) : (estimatorFall r o m s).asks = s.asks := rfl

theorem estimatorRise_asks (r : Time) (m : Bool) (s : State) : (estimatorRise r m s).asks = s.asks := rfl

theorem openGapAt_asks {s : State} (h : s.asks.sound) (r : Time) : (openGapAt r s).asks.sound := by
  unfold openGapAt
  dsimp only
  rw [rearmHorizon_asks, postNotice_asks, updSupply_asks]
  exact lanesGapBegin_asks (by rwa [engineGapBegin_asks, estimatorFall_asks])

theorem confirmedFall_asks {s : State} (h : s.asks.sound) (r : Time) : (confirmedFall r s).asks.sound := by
  unfold confirmedFall
  split
  · unfold gapFromLine
    rw [setDeadlineIn_asks]
    exact openGapAt_asks h r
  · split
    · exact openGapAt_asks (by rwa [removeDeadline_asks]) r
    · unfold rebound
      dsimp only
      rwa [rearmHorizon_asks, estimatorFall_asks, removeDeadline_asks, updSupply_asks]
  all_goals exact h

theorem confirmedRise_asks {s : State} (h : s.asks.sound) (r : Time) : (confirmedRise r s).asks.sound := by
  unfold confirmedRise
  split
  · exact h
  · exact h
  · unfold riseInGap
    dsimp only
    rwa [rearmHorizon_asks, setDeadline_asks, estimatorRise_asks, updSupply_asks]
  · exact h
  · exact coldStart_asks ..

theorem confirmFilter_asks {s : State} (h : s.asks.sound) : (confirmFilter s).asks.sound := by
  unfold confirmFilter
  split
  · exact h
  · dsimp only
    split
    · exact confirmedFall_asks (by rwa [updSupply_asks]) _
    · exact confirmedRise_asks (by rwa [updSupply_asks]) _

theorem settleExpired_asks {s : State} (h : s.asks.sound) : (settleExpired s).asks.sound := by
  have hc : (closeGap s).asks.sound := by
    unfold closeGap
    dsimp only
    split
    · exact h
    · rwa [postNotice_asks, updSupply_asks]
  unfold settleExpired
  split
  · refine lanesAct_asks ?_
    rw [setDeadlineIn_asks]
    unfold engineSettled
    split
    · rwa [buildPass_asks]
    · exact hc
  · exact h

theorem rescheduleSample_asks (due : Time) (s : State) : (rescheduleSample due s).asks = s.asks := by
  unfold rescheduleSample
  split <;> rfl

theorem holdupSampled_asks {s : State} (h : s.asks.sound) (mv : Nat) (due : Time) :
    (holdupSampled mv due s).asks.sound := by
  unfold holdupSampled
  dsimp only
  split
  · have h1 := beginPark_asks (s := takeSample (holdupLevel mv) s) h
    split
    · rwa [rescheduleSample_asks]
    · exact h1
  · split
    · exact h
    · rwa [rescheduleSample_asks]

/-! ### The ends of flash operations (R138, R140) -/

theorem freeReleasedWriteBuffer_asks {s : State} (h : s.asks.sound) : (freeReleasedWriteBuffer s).asks.sound := by
  unfold freeReleasedWriteBuffer
  split
  · exact h
  · split
    · exact freeBuffer_asks _ h
    · exact h

theorem laneReadDone_asks {s : State} (h : s.asks.sound) (l : Lane) (i : Nat) (d : List Byte) :
    (laneReadDone l i d s).asks.sound := by
  unfold laneReadDone
  dsimp only
  split
  · exact planBuffers_asks_of (freeBuffer_asks _ h) l
  · exact h

theorem setWrite_asks {s : State} (h : s.asks.sound) (w : ImageWrite) : (setWrite w s).asks.sound :=
  h.mono (.refl _) (fun _ => rfl) fun _ => id

theorem queueReadback_asks {s : State} (h : s.asks.sound) (w : ImageWrite) (i : Nat) :
    (queueReadback w i s).asks.sound := by
  unfold queueReadback
  rw [queueOp_asks, updWriteBuffer_asks]
  exact setWrite_asks h _

theorem imageWriteDone_asks {s : State} (h : s.asks.sound) (d : List Byte) : (imageWriteDone d s).asks.sound := by
  unfold imageWriteDone
  split
  · exact freeReleasedWriteBuffer_asks h
  · rename_i w _
    split
    · unfold sectorErased
      dsimp only
      split <;> exact setWrite_asks h _
    · exact (updWriteBuffer_asks _ s).symm ▸ h
    · unfold blockReadBack
      have h1 := (updWriteBuffer_asks (fun b => { b with state := .full, data := d, crc := crc16 d })
        (setWrite { w with crcSoFar := crc32Feed w.crcSoFar d } s)).symm ▸
          setWrite_asks h { w with crcSoFar := crc32Feed w.crcSoFar d }
      dsimp only
      split
      · exact queueReadback_asks h1 ..
      · unfold readbackDone
        split
        · exact setWrite_asks h1 _
        · unfold imageResult
          rw [postNotice_asks]
          exact endWrite_asks (by rwa [setSlot_asks]) _
    · unfold headerProgrammed imageResult
      rw [postNotice_asks]
      exact endWrite_asks (by rwa [setSlot_asks]) _

theorem endSave_asks (o : StoreOutcome) (s : State) : (endSave o s).asks = s.asks := by
  unfold endSave
  rw [postNotice_asks]
  rfl

theorem configSaveDone_asks (d : List Byte) (s : State) : (configSaveDone d s).asks = s.asks := by
  unfold configSaveDone
  split
  · rfl
  · split
    · rfl
    · split <;> rfl
    · split
      · exact endSave_asks ..
      · split
        · rfl
        · exact endSave_asks ..

theorem configRead_asks (r : Option (Settings × List Entry)) (s : State) : (configRead r s).asks = s.asks := by
  unfold configRead
  split <;> rfl

theorem loadConfig_asks (d : List Byte) (s : State) : (loadConfig d s).asks = s.asks := by
  unfold loadConfig
  split
  · split
    · exact configRead_asks ..
    · split
      · exact configRead_asks ..
      · split
        · exact configRead_asks ..
        · rfl
  · exact configRead_asks ..

theorem loadHeader_asks (d : List Byte) (s : State) : (loadHeader d s).asks = s.asks := by
  unfold loadHeader
  dsimp only
  split <;> rw [loaderRead_asks, updLoader_asks, setSlot_asks]

theorem beginErase_asks (s : State) : (beginErase s).asks = s.asks := rfl

theorem loadPark_asks (d : List Byte) (s : State) : (loadPark d s).asks = s.asks := by
  unfold loadPark
  split
  · rfl
  · dsimp only
    split
    · rw [beginErase_asks, updLoader_asks, takePlaces_asks]
    · exact beginErase_asks s

theorem loaderDone_asks (d : List Byte) (s : State) : (loaderDone d s).asks = s.asks := by
  unfold loaderDone
  split
  · rfl
  · split
    · rfl
    · split
      · rfl
      · exact loadConfig_asks ..
      · exact loadHeader_asks ..
      · exact loadPark_asks ..
      · rfl

theorem issueNext_asks (s : State) : (issueNext s).asks = s.asks := by
  unfold issueNext
  dsimp only
  split
  · unfold endLoading
    dsimp only
    split
    · rw [buildPass_asks, setDeadlineIn_asks, setDeadlineIn_asks, postNotice_asks, updLoader_asks, issueFlash_asks]
    · rw [setDeadlineIn_asks, setDeadlineIn_asks, postNotice_asks, updLoader_asks, issueFlash_asks]
  · exact issueFlash_asks s

theorem requesterDone_asks {s : State} (h : s.asks.sound) (op : FlashOp) (d : List Byte) :
    (requesterDone op d s).asks.sound := by
  unfold requesterDone
  split
  · exact laneReadDone_asks h ..
  · exact imageWriteDone_asks h d
  · rwa [configSaveDone_asks]
  · rwa [markDone_asks]
  · rwa [loaderDone_asks]
  · exact parkProgrammed_asks h
  · exact freeReleasedWriteBuffer_asks h

theorem flashCompleted_asks {s : State} (h : s.asks.sound) (g : Option (List Byte)) : (flashCompleted g s).asks.sound := by
  unfold flashCompleted
  split
  · rwa [settleDevice_asks]
  · rename_i op _
    refine lanesAct_asks ?_
    rw [issueNext_asks]
    refine requesterDone_asks ?_ ..
    unfold deviceDone
    split
    · rw [settleDevice_asks]
      exact h
    · exact h

theorem requesterFailed_asks {s : State} (h : s.asks.sound) (op : FlashOp) : (requesterFailed op s).asks.sound := by
  unfold requesterFailed
  split
  · unfold imageWriteFailed
    split
    · exact freeReleasedWriteBuffer_asks h
    · unfold imageResult
      rw [postNotice_asks]
      exact endWrite_asks (by rwa [setSlot_asks]) _
  · split
    · rwa [endSave_asks]
    · exact h
  · rwa [markDone_asks]
  · exact endPark_asks h
  all_goals exact h

theorem storeTimedOut_asks {s : State} (h : s.asks.sound) : (storeTimedOut s).asks.sound := by
  unfold storeTimedOut
  split
  · exact h
  · rename_i op _
    refine lanesAct_asks ?_
    rw [issueNext_asks]
    unfold settleFailure
    split
    · exact requesterFailed_asks (s := queueRecovery (failRunning op s)) h op
    · unfold queueRecovery
      rw [queueOpFirst_asks]
      exact requesterFailed_asks (s := failRunning op s) h op

/-! ### Requests -/

theorem taken_state (p : List Byte) (s : State) : (taken p s).state = s := rfl

theorem takeNotice_asks (s : State) : (takeNotice s).2.asks = s.asks := by
  unfold takeNotice
  split <;> rfl

theorem serveRestoreNow_asks {s : State} (h : s.asks.sound) (p : List Byte) : (serveRestoreNow p s).state.asks.sound := by
  unfold serveRestoreNow
  split
  · exact h
  · split
    · exact h
    · dsimp only
      rw [taken_state]
      refine lanesAct_asks ?_
      rwa [foldl_asks fun x n => createJob_asks n .host x]

theorem serveEngineRestart_asks {s : State} (h : s.asks.sound) (p : List Byte) :
    (serveEngineRestart p s).state.asks.sound := by
  unfold serveEngineRestart
  split
  · exact h
  · rw [taken_state]
    refine lanesAct_asks ?_
    unfold restartEngine postRestarted
    rw [postNotice_asks]
    exact lanesRestart_asks (by rwa [engineRestart_asks])

theorem serveNodeDefine_asks (p : List Byte) (s : State) : (serveNodeDefine p s).state.asks = s.asks := by
  unfold serveNodeDefine
  split
  · rfl
  · split
    · rfl
    · split
      · rfl
      · split
        · rfl
        · split
          · rfl
          · split
            · rfl
            · rename_i e _ _ _ _ _
              show (withdrawPoll e.number (removePush e.number (setPresence e.number .absent s))).asks = _
              rw [withdrawPoll_asks, removePush_asks, setPresence_asks]

theorem serveNodeRemove_asks (p : List Byte) (s : State) : (serveNodeRemove p s).state.asks = s.asks := by
  unfold serveNodeRemove
  split
  · dsimp only
    split
    · rfl
    · split
      · rfl
      · split
        · rfl
        · split
          · rfl
          · rename_i b _ _ _ _
            exact withdrawPoll_asks b.toNat (removePush b.toNat s)
  · rfl

theorem serveNodeQuery_asks {s : State} (h : s.asks.sound) (p : List Byte) : (serveNodeQuery p s).state.asks.sound := by
  unfold serveNodeQuery
  split
  · split
    · exact h
    · split
      · exact h
      · split
        · exact h
        · rename_i st _ _ _
          exact lanesAct_asks (s := { s with query := some st.entry.number }) h
  · exact h

theorem serveContextSet_asks {s : State} (h : s.asks.sound) (p : List Byte) : (serveContextSet p s).state.asks.sound := by
  unfold serveContextSet
  split
  · exact h
  · split
    · exact h
    · dsimp only
      split
      · exact h
      · split
        · exact h
        · rw [taken_state]
          refine lanesAct_asks ?_
          unfold setContext
          rwa [drawn_asks, makePending_asks, updStation_asks]

theorem serveCarStateSet_asks {s : State} (h : s.asks.sound) (p : List Byte) : (serveCarStateSet p s).state.asks.sound := by
  unfold serveCarStateSet
  split
  · split
    · dsimp only
      rw [taken_state]
      refine lanesAct_asks ?_
      unfold setCar
      rw [foldl_asks fun x st => makePending_asks ..]
      exact h
    · exact h
  · exact h

theorem openImage_asks {s : State} (h : s.asks.sound) (n : Nat) (im : Image) : (openImage n im s).asks.sound := by
  unfold openImage
  dsimp only
  rw [issueFlash_asks, queueOp_asks]
  refine grantBuffers_asks ?_
  rw [requestBuffers_asks]
  refine (setWrite_asks (slotLeftValid_asks ?_ n) _).request (le_refl 1) (le_refl 1) (fun _ e => by cases e) fun _ => rfl
  unfold leaveMarkList
  rwa [markDone_asks, withdrawOps_asks, setSlot_asks]

theorem serveImageOpen_asks {s : State} (h : s.asks.sound) (p : List Byte) : (serveImageOpen p s).state.asks.sound := by
  unfold serveImageOpen
  split
  · exact h
  · split
    · exact h
    · split
      · exact h
      · split
        · exact h
        · split
          · exact h
          · exact openImage_asks h ..

theorem serveImageBlock_asks {s : State} (h : s.asks.sound) (p : List Byte) : (serveImageBlock p s).state.asks.sound := by
  unfold serveImageBlock
  split
  · exact h
  · split
    · exact h
    · split
      · exact h
      · split
        · exact h
        · split
          · exact h
          · split
            · exact h
            · split
              · exact h
              · unfold takeBlock taken
                dsimp only
                rw [issueFlash_asks, queueOp_asks, setBuffer_asks]
                exact setWrite_asks h _

theorem serveImageClose_asks {s : State} (h : s.asks.sound) (p : List Byte) : (serveImageClose p s).state.asks.sound := by
  unfold serveImageClose
  split
  · split
    · exact h
    · split
      · exact h
      · split
        · exact h
        · split
          · exact h
          · unfold taken
            dsimp only
            rw [issueFlash_asks]
            exact queueReadback_asks h ..
  · exact h

theorem serveImageAbort_asks {s : State} (h : s.asks.sound) (p : List Byte) : (serveImageAbort p s).state.asks.sound := by
  unfold serveImageAbort
  split
  · split
    · exact h
    · split
      · exact h
      · unfold taken
        dsimp only
        rw [issueFlash_asks]
        exact abandonWrite_asks h
  · exact h

theorem serveConfigSave_asks (p : List Byte) (s : State) : (serveConfigSave p s).state.asks = s.asks := by
  unfold serveConfigSave
  split
  · rfl
  · split
    · rfl
    · exact issueFlash_asks _

theorem serveLaneInject_asks (p : List Byte) (s : State) : (serveLaneInject p s).state.asks = s.asks := by
  unfold serveLaneInject
  split
  · split
    · split
      · exact s.asks_updLane _ rfl
      · rfl
    · rfl
  · rfl

theorem serveNoticeFetch_asks (p : List Byte) (s : State) : (serveNoticeFetch p s).state.asks = s.asks := by
  unfold serveNoticeFetch
  split
  · exact takeNotice_asks s
  all_goals rfl

theorem serveKind_asks {s : State} (h : s.asks.sound) (r : Request) : (serveKind r s).state.asks.sound := by
  have stays : ∀ {x : Served}, x.state.asks = s.asks → x.state.asks.sound := fun e => e ▸ h
  unfold serveKind
  split
  · unfold serveStatus
    split <;> exact h
  · exact stays (serveNoticeFetch_asks ..)
  · unfold serveSettingsSet
    split
    · exact h
    · dsimp only
      split <;> exact h
  · unfold serveSettingsRead
    split <;> exact h
  · exact stays (serveConfigSave_asks ..)
  · exact stays (serveNodeDefine_asks ..)
  · exact stays (serveNodeRemove_asks ..)
  · unfold serveNodeRead
    repeat' split
    all_goals exact h
  · exact serveNodeQuery_asks h _
  · exact serveContextSet_asks h _
  · unfold serveContextRead
    repeat' split
    all_goals exact h
  · exact serveCarStateSet_asks h _
  · exact serveRestoreNow_asks h _
  · exact serveEngineRestart_asks h _
  · unfold serveGapRead
    split <;> exact h
  · exact serveImageOpen_asks h _
  · exact serveImageBlock_asks h _
  · exact serveImageClose_asks h _
  · exact serveImageAbort_asks h _
  · unfold serveImageList
    split <;> exact h
  · exact stays (serveLaneInject_asks ..)
  · exact h

theorem serveOldest_asks {s : State} (h : s.asks.sound) : (serveOldest s).asks.sound := by
  unfold serveOldest
  split
  · exact h
  · split
    · exact h
    · rename_i r rest _
      show (answerRequest r { s with link := { s.link with held := rest } }).state.asks.sound
      unfold answerRequest
      split
      · exact serveKind_asks (s := { s with link := { s.link with held := rest } }) h r
      · exact h

theorem arrive_asks {s : State} (h : s.asks.sound) (r : Request) : (arrive r s).asks.sound := by
  unfold arrive
  split
  · exact h
  · split
    · exact h
    · exact serveOldest_asks (s := { s with link := { s.link with held := s.link.held ++ [r] } }) h

theorem replyDone_asks {s : State} (h : s.asks.sound) : (replyDone s).asks.sound := by
  unfold replyDone
  split
  · exact h
  · exact serveOldest_asks (s := { s with link := { s.link with reply := none } }) h

theorem receiveByte_asks {s : State} (h : s.asks.sound) (b : Byte) : (receiveByte b s).asks.sound := by
  have hextend : ∀ frame, (extendFrame frame s).asks.sound := fun frame => by
    unfold extendFrame
    dsimp only
    split
    · exact h
    · split
      · exact h
      · split
        · exact h
        · unfold checkFrame
          split
          · exact arrive_asks (s := setReceiver .idle (removeDeadline .interByte s)) h _
          · exact h
  unfold receiveByte
  split
  · exact hextend _
  · exact hextend _
  · exact h

theorem lineQuiet_asks (s : State) : (lineQuiet s).asks = s.asks := by
  unfold lineQuiet
  split <;> rfl

/-! ### Commands -/

theorem onExpiry_asks {s : State} (h : s.asks.sound) (p : Purpose) {act : Time → State → State}
    (hact : ∀ due (x : State), x.asks.sound → (act due x).asks.sound) : (onExpiry p act s).asks.sound := by
  unfold onExpiry
  split
  · exact h
  · exact hact _ _ h

theorem whileRunning_asks {f : State → State} {s t : State} (hf : s.asks.sound → (f s).asks.sound) (h : s.asks.sound)
    (ht : whileRunning f s = .next t) : t.asks.sound := Stable.whileRunning (P := fun s => s.asks.sound) hf h ht

/-- Every command keeps the wait list sound. -/
theorem exec_asks {i : Instr} {s t : State} (h : s.asks.sound) (ht : exec i s = .next t) : t.asks.sound := by
  cases i with
  | powerOn l b => cases ht; exact powerRises_asks ..
  | resetLineAssert => cases ht; exact resetLineFalls_asks h
  | resetLineRelease l b => cases ht; exact resetLineRises_asks h ..
  | supplyLoss => cases ht; exact stateless_asks ..
  | millisecondTick => exact whileRunning_asks (f := fun s => { s with timebase := s.timebase.tick }) id h ht
  | rawLineChange l => exact whileRunning_asks (fun h => rawChange_asks h l) h ht
  | filterConfirmExpiry => exact whileRunning_asks (fun h => onExpiry_asks h _ fun _ _ h => confirmFilter_asks h) h ht
  | settleExpiry => exact whileRunning_asks (fun h => onExpiry_asks h _ fun _ _ h => settleExpired_asks h) h ht
  | spanHorizonExpiry => exact whileRunning_asks (fun h => onExpiry_asks (act := fun _ s => horizonExpired s) h _ fun _ _ h => h) h ht
  | holdupSampleExpiry mv =>
    exact whileRunning_asks (fun h => onExpiry_asks h _ fun d _ h => holdupSampled_asks h mv d) h ht
  | responseWindowExpiry l => exact whileRunning_asks (fun h => onExpiry_asks h _ fun _ _ h => windowExpired_asks h l) h ht
  | pollIntervalExpiry l => exact whileRunning_asks (fun h => onExpiry_asks h _ fun d _ h => pollExpired_asks h l d) h ht
  | restoreLimitExpiry n =>
    exact whileRunning_asks (fun h => onExpiry_asks h _ fun _ _ h => lanesAct_asks (failJob_asks h n .time)) h ht
  | interByteTimeoutExpiry =>
    exact whileRunning_asks (fun h => onExpiry_asks h _ fun _ x h => (lineQuiet_asks x).symm ▸ h) h ht
  | storeOperationTimeoutExpiry =>
    exact whileRunning_asks (fun h => onExpiry_asks h _ fun _ _ h => storeTimedOut_asks h) h ht
  | laneReplyReceived l f => exact whileRunning_asks (fun h => laneReply_asks h l f) h ht
  | groupFrameEnd l => exact whileRunning_asks (fun h => groupFrameEnded_asks h l) h ht
  | flashOpComplete g => exact whileRunning_asks (fun h => flashCompleted_asks h g) h ht
  | controlByteReceived b => exact whileRunning_asks (fun h => receiveByte_asks h b) h ht
  | replySent => exact whileRunning_asks (fun h => replyDone_asks h) h ht
  | _ => exact whileRunning_asks (fun h => arrive_asks h _) h ht

theorem waitListSound_step {s t : State} (h : s.waitListSound) (ht : step s = .next t) : t.waitListSound := by
  unfold step at ht
  split at ht
  · cases ht
    exact h
  · rename_i c rest _
    exact t.waitListSound_iff.2 (exec_asks (s := s.withPending rest) (s.waitListSound_iff.1 h) ht)

/-- Settles O5. -/
theorem identitiesStayDistinct : Obligations.IdentitiesStayDistinct := by
  refine ⟨fun s t ⟨hd, hq, ho⟩ ht => ?_, fun s t h ht => ?_, fun s t hq hh ht => ?_, fun s t hl hq ht => ?_,
    fun s t h ht => ?_, fun s t h ht => waitListSound_step h ht⟩
  · exact ⟨deadlinesDistinct_stable.step (fun _ _ h => h) hd ht, queueDistinct_stable.step (fun _ _ h => h) hq ht,
      stationsOrdered_stable.step (fun _ _ h => h) ho ht⟩
  · exact deadlinesOrdered_stable.step (fun _ _ h => h) h ht
  · exact (holdersDistinct_stable.step (fun _ _ h => h) ⟨hq.1, hh⟩ ht).2
  · exact (queueStands_stable.step (fun _ _ h => h) (hl.queueStands hq) ht).2.1
  · exact storeBounded_stable.step (fun _ _ h => h) h ht

end Sys2Proof.Machine
end

section
/-! PROOFS. ENGINE RESTART (spec/05, 5.6; spec/06, 6.7). -/

namespace Sys2Proof.Machine

/-- The part after ENGINE RESTART, but for the buffer pool and the notices: the queue empty, the lanes' work abandoned, and
neither a query nor an injection pending (R94, R117). -/
def State.restarted (s : State) : State :=
  { (removeLimits s).lanesAbandoned with
    engine := { s.engine with queue := [], phase := if s.supply.state = .line then .idle else .held }
    laneA := { s.laneA.abandonWork with injection := none }
    laneB := { s.laneB.abandonWork with injection := none }
    query := none }

/-- ENGINE RESTART: the lanes give back their buffers, and STARTED is the one notice. -/
theorem restartEngine_eq (s : State) :
    ∃ b w q p, s.lanesGaveBack (s.restarted.withPool b w q p) ∧
      restartEngine s = (s.restarted.withPool b w q p).notified (postRestarted s) := by
  obtain ⟨b, w, q, p, ha, hg⟩ := abandonLanes_eq (engineRestart s)
  rw [ha] at hg
  have hr : lanesRestart (engineRestart s) = s.restarted.withPool b w q p := by
    unfold lanesRestart
    rw [ha]
    rfl
  refine ⟨b, w, q, p, hg.congr rfl rfl, ?_⟩
  unfold restartEngine
  rw [hr]
  exact postNotice_notified (n := s) (s := s.restarted.withPool b w q p) ⟨rfl, rfl, rfl, rfl⟩ _

/-- Of the deadlines, ENGINE RESTART removes the response windows and the restore limits (R29, R117). -/
theorem restarted_dueOf (s : State) :
    (∀ l, s.restarted.timebase.dueOf (.responseWindow l) = none) ∧
      (∀ n, s.restarted.timebase.dueOf (.restoreLimit n) = none) ∧
      ∀ p, (∀ l, p ≠ .responseWindow l) → (∀ n, p ≠ .restoreLimit n) →
        s.restarted.timebase.dueOf p = s.timebase.dueOf p := by
  refine ⟨fun l => ?_, fun n => ?_, fun p hw hl => ?_⟩
  · cases l <;> simp [State.restarted, State.lanesAbandoned]
  · simp [State.restarted, State.lanesAbandoned, removeLimits_dueOf_limit]
  · simp [State.restarted, State.lanesAbandoned, hw, removeLimits_dueOf hl]

/-- A request that the part takes is answered OK in the state that it leaves. -/
theorem exec_takes {s t : State} {i : Instr} (r : Request) {payload : List Byte} (hs : s.serves)
    (hr : requestOfCommand i = some r) (hk : serveKind r s = taken payload t) :
    exec i s = .next (t.replying r.kind r.tag .ok payload) := by
  rw [exec_request hr, whileRunning_runs hs.1, arrive_serves hs, hk]
  rfl

theorem serveEngineRestart_nil (s : State) :
    serveEngineRestart [] s = taken [byte (restartEngine s).link.notices.length] (lanesAct (restartEngine s)) := by
  unfold serveEngineRestart
  rw [if_neg (fun hn => hn rfl)]

/-- Settles O34. -/
theorem engineRestartEmptiesQueue : Obligations.EngineRestartEmptiesQueue := by
  intro s tag h started
  obtain ⟨b, w, q, p, hg, he⟩ := restartEngine_eq s
  obtain ⟨hw, hl, hd⟩ := restarted_dueOf s
  have hexec := exec_takes (requestOf 0x0E tag []) h (i := .engineRestart tag []) rfl (serveEngineRestart_nil s)
  rw [he] at hexec
  exact ⟨_, hexec, rfl, rfl, rfl, rfl, hw, hl, hd, rfl, hg.congr rfl rfl, rfl, rfl, rfl, rfl, rfl, rfl, rfl, rfl, rfl, rfl,
    rfl, rfl, rfl, rfl, rfl, rfl, rfl, rfl, rfl⟩

end Sys2Proof.Machine
end

section
/-! PROOFS. The poll interval (spec/06, 6.6): the poll that its expiry makes pending, through the work of the lanes. -/

namespace Sys2Proof.Machine

/-! ### A pending poll, and the work of the lanes (R105, R112) -/

/-- A lane's search has stopped at a station, whose poll is pending or has begun. -/
def LaneState.polls (n : Nat) (x : LaneState) : Prop :=
  x.cursor = some n ∧ (x.pendingPoll = some n ∨ x.txn.map (·.owner) = some (.poll n))

/-- A lane that is the same to the eye of its polls. -/
def LaneState.pollsAlike (x y : LaneState) : Prop :=
  y.cursor = x.cursor ∧ y.pendingPoll = x.pendingPoll ∧ y.txn.map (·.owner) = x.txn.map (·.owner)

theorem LaneState.polls.alike {n : Nat} {x y : LaneState} (h : x.polls n) (ha : x.pollsAlike y) : y.polls n := by
  obtain ⟨hc, hp, ht⟩ := ha
  exact ⟨hc.trans h.1, by rw [hp, ht]; exact h.2⟩

theorem LaneState.pollsAlike.refl (x : LaneState) : x.pollsAlike x := ⟨rfl, rfl, rfl⟩

theorem LaneState.pollsAlike.trans {x y z : LaneState} (h : x.pollsAlike y) (h' : y.pollsAlike z) : x.pollsAlike z := by
  obtain ⟨hc, hp, ht⟩ := h
  obtain ⟨hc', hp', ht'⟩ := h'
  exact ⟨hc'.trans hc, hp'.trans hp, ht'.trans ht⟩

theorem State.poolBecomes.lane {s t : State} (h : s.poolBecomes t) (l : Lane) : t.lane l = s.lane l := by
  obtain ⟨_, _, _, _, rfl⟩ := h
  cases l <;> rfl

theorem State.updLane_pollsAlike (s : State) (l m : Lane) {f : LaneState → LaneState}
    (hf : (s.lane l).pollsAlike (f (s.lane l))) : (s.lane m).pollsAlike ((s.updLane l f).lane m) := by
  by_cases hm : m = l
  · rw [hm, State.lane_updLane]
    exact hf
  · rw [State.lane_updLane_ne _ _ _ _ hm]
    exact .refl _

theorem updJob_lane (n : Nat) (f : Job → Job) (s : State) (l : Lane) : (s.updJob n f).lane l = s.lane l := by
  cases l <;> rfl

theorem updJobs_lane (f : Job → Job) (ns : List Nat) (s : State) (l : Lane) :
    (ns.foldl (fun x n => x.updJob n f) s).lane l = s.lane l := by
  induction ns generalizing s with
  | nil => rfl
  | cons n ns ih => rw [List.foldl_cons, ih, updJob_lane]

theorem selectHolder_pollsAlike (m : Lane) (s : State) (l : Lane) : (s.lane l).pollsAlike ((selectHolder m s).lane l) := by
  unfold selectHolder
  split
  · exact .refl _
  · split
    · exact .refl _
    · dsimp only
      split
      · rw [(State.poolBecomes.planBuffers _ _).lane, ← updJob_lane _ _ s l]
        exact State.updLane_pollsAlike _ _ _ ⟨rfl, rfl, rfl⟩
      · rw [(State.poolBecomes.planBuffers _ _).lane, ← updJobs_lane (fun j => { j with state := .opn }) _ s l]
        exact State.updLane_pollsAlike _ _ _ ⟨rfl, rfl, rfl⟩

theorem issueFlash_lane (s : State) (l : Lane) : (issueFlash s).lane l = s.lane l := by
  obtain ⟨_, _, he, _⟩ := issueFlash_eq s
  rw [he]
  cases l <;> rfl

theorem countBlocks_lane (m : Lane) (t : Txn) (s : State) (l : Lane) : (countBlocks m t s).lane l = s.lane l := by
  unfold countBlocks
  split
  · rfl
  · split
    · exact updJob_lane ..
    · exact updJobs_lane (fun j => if j.state = .load then j.countBlock else j) _ s l
    · rfl

theorem markSending_lane (t : Txn) (s : State) (l : Lane) : (markSending t s).lane l = s.lane l := by
  unfold markSending
  split
  · cases l <;> rfl
  · rfl

/-- A frame begun leaves the other lane, and of its own the cursor and the pending poll; its transaction keeps its owner. -/
theorem beginAttempt_lane (m : Lane) (t : Txn) (s : State) :
    (∀ l, l ≠ m → (beginAttempt m t s).lane l = s.lane l) ∧ ((beginAttempt m t s).lane m).cursor = (s.lane m).cursor ∧
      ((beginAttempt m t s).lane m).pendingPoll = (s.lane m).pendingPoll ∧
      ((beginAttempt m t s).lane m).txn.map (·.owner) = some t.owner := by
  have hw : ∀ (x : State) (l : Lane) p d, (setDeadlineIn p d x).lane l = x.lane l := fun x l p d => by cases l <;> rfl
  have hfree : ∀ (x : State) (l : Lane) k, ({ x with free := k } : State).lane l = x.lane l := fun x l k => by cases l <;> rfl
  have key : ∀ l, ∃ f : LaneState → LaneState, (f (s.lane m)).cursor = (s.lane m).cursor ∧
      (f (s.lane m)).pendingPoll = (s.lane m).pendingPoll ∧ (f (s.lane m)).txn.map (·.owner) = some t.owner ∧
      (beginAttempt m t s).lane l = (s.updLane m f).lane l := fun l => by
    unfold beginAttempt
    dsimp only
    split
    · rw [markSending_lane, countBlocks_lane, hfree]
      exact ⟨_, rfl, rfl, rfl, rfl⟩
    · rw [hw, markSending_lane, countBlocks_lane, hfree]
      exact ⟨_, rfl, rfl, rfl, rfl⟩
  refine ⟨fun l hl => ?_, ?_⟩
  · obtain ⟨f, -, -, -, he⟩ := key l
    rw [he, State.lane_updLane_ne _ _ _ _ hl]
  · obtain ⟨f, hc, hp, ht, he⟩ := key m
    rw [he, State.lane_updLane]
    exact ⟨hc, hp, ht⟩

/-- No turn of a load holder or of a job in another step is a poll. -/
theorem restoreTurn_owner {l : Lane} {s : State} {turn : Turn} {kind : TurnKind} (h : restoreTurn l s = some (turn, kind))
    (k : Nat) : turn.owner ≠ .poll k := by
  have hother : ∀ x, otherTurn l s = some x → x.owner ≠ .poll k := fun x hx => by
    unfold otherTurn at hx
    split at hx
    · cases hx
    · obtain ⟨_, _, rfl⟩ := Option.map_eq_some_iff.1 hx
      exact fun e => by cases e
  have hholder : ∀ x, holderTurn l s = some x → x.owner ≠ .poll k := fun x hx => by
    unfold holderTurn at hx
    repeat' split at hx
    all_goals first
      | cases hx
      | (obtain ⟨_, _, rfl⟩ := Option.map_eq_some_iff.1 hx)
    all_goals exact fun e => by cases e
  unfold restoreTurn at h
  split at h
  all_goals cases h
  · exact hother _ ‹_›
  · exact hholder _ ‹_›
  · exact hother _ ‹_›

/-- A poll that the arbiter chooses is the one that is pending (R105). -/
theorem arbiterChoice_poll {l : Lane} {s : State} {turn : Turn} {kind : TurnKind} {k : Nat}
    (h : arbiterChoice l s = some (turn, kind)) (hk : turn.owner = .poll k) : (s.lane l).pendingPoll = some k := by
  simp only [arbiterChoice, Option.or_eq_some_iff, Option.map_eq_some_iff, Prod.mk.injEq] at h
  have hpush : ∀ {u : Bool} {x : Turn}, pushTurn l u s = some x → x = turn → False := fun hx he => by
    obtain ⟨_, _, rfl⟩ := Option.map_eq_some_iff.1 hx
    rw [← he] at hk
    cases hk
  rcases h with ⟨x, hx, he, -⟩ | ⟨-, h | ⟨-, ⟨x, hx, he, -⟩ | ⟨-, ⟨x, hx, he, -⟩ | ⟨-, x, hx, he, -⟩⟩⟩⟩
  · exact (hpush hx he).elim
  · exact absurd hk (restoreTurn_owner h k)
  · exact (hpush hx he).elim
  · unfold queryTurn at hx
    split at hx
    · cases hx
    · split at hx
      · cases hx
      · split at hx
        · cases hx
          rw [← he] at hk
          cases hk
        · cases hx
  · obtain ⟨n, hn, rfl⟩ := Option.map_eq_some_iff.1 hx
    rw [← he] at hk
    cases hk
    exact hn

/-- A step begun leaves the other lane. -/
theorem beginStep_lane_ne {l m : Lane} (h : l ≠ m) (turn : Turn) (kind : TurnKind) (s : State) :
    (beginStep m turn kind s).lane l = s.lane l := by
  unfold beginStep
  rw [(beginAttempt_lane m _ _).1 l h, State.lane_updLane_ne _ _ _ _ h]
  split
  · exact updJob_lane ..
  · exact State.lane_updLane_ne _ _ _ _ h
  · rfl

theorem beginAttempt_polls {n : Nat} {l : Lane} {t : Txn} {s : State} (hc : (s.lane l).cursor = some n)
    (hp : (s.lane l).pendingPoll = some n ∨ t.owner = .poll n) : ((beginAttempt l t s).lane l).polls n := by
  obtain ⟨-, hcur, hpend, htxn⟩ := beginAttempt_lane l t s
  exact ⟨hcur.trans hc, hp.imp (fun hp => hpend.trans hp) fun ht => by rw [htxn, ht]⟩

/-- A free lane begins its pending poll, or leaves it pending. -/
theorem beginStep_polls {n : Nat} {l : Lane} {s : State} {turn : Turn} {kind : TurnKind} (h : (s.lane l).cursor = some n)
    (hp : (s.lane l).pendingPoll = some n) (hc : arbiterChoice l s = some (turn, kind)) :
    ((beginStep l turn kind s).lane l).polls n := by
  unfold beginStep
  refine beginAttempt_polls ?_ ?_
  · rw [State.lane_updLane]
    dsimp only
    split
    · rwa [updJob_lane]
    · rwa [State.lane_updLane]
    · exact h
  · rw [State.lane_updLane]
    dsimp only
    split
    · rw [updJob_lane]
      exact .inl hp
    · rename_i k hk
      have hkn := arbiterChoice_poll hc hk
      rw [hp] at hkn
      cases hkn
      exact .inr hk
    · exact .inl hp

theorem arbitrate_polls {n : Nat} {l : Lane} {s : State} (h : (s.lane l).polls n) (m : Lane) :
    ((arbitrate m s).lane l).polls n := by
  unfold arbitrate
  split
  · rename_i hfree
    split
    · exact h
    · rename_i turn kind hc
      by_cases hm : l = m
      · subst hm
        have ht : (s.lane l).txn = none := by
          simp only [State.laneFree, Bool.and_eq_true, Option.isNone_iff_eq_none] at hfree
          exact hfree.1
        refine beginStep_polls h.1 (h.2.resolve_right ?_) hc
        rw [ht]
        exact fun e => by cases e
      · rw [beginStep_lane_ne hm]
        exact h
  · exact h

theorem lanesAct_polls {n : Nat} {l : Lane} {s : State} (h : (s.lane l).polls n) : ((lanesAct s).lane l).polls n := by
  unfold lanesAct
  refine arbitrate_polls (arbitrate_polls ?_ .a) .b
  rw [issueFlash_lane]
  exact h.alike ((selectHolder_pollsAlike .a s l).trans (selectHolder_pollsAlike .b _ l))

/-! ### The expiry of the poll interval (R26, R112) -/

/-- What the expiry of a poll interval leaves before the lanes act: the interval set again, and the search. -/
def State.pollSet (s : State) (l : Lane) (left : Timebase) (due : Time) : State :=
  setDeadline (.pollInterval l) (due + ms s.settings.pollInterval) (s.withTimebase left)

theorem exec_pollIntervalExpiry {s : State} {left : Timebase} {due : Time} {l : Lane}
    (h : s.dueNow (.pollInterval l) left due) :
    exec (.pollIntervalExpiry l) s = .next (lanesAct (makePollPending l (s.pollSet l left due))) :=
  whileRunning_onExpiry h (pollExpired l)

theorem pollOrder_pollSet (s : State) (l m : Lane) (left : Timebase) (due : Time) :
    pollOrder m (s.pollSet l left due) = pollOrder m s := by
  cases m <;> rfl

/-- In LINE the search finds a station, and its poll becomes pending. -/
theorem makePollPending_found {s : State} {l : Lane} {n : Nat} (hl : s.supply.state = .line)
    (hp : (s.lane l).pendingPoll = none) (hn : ((pollOrder l s).find? fun m => !(s.hasJob m)) = some n) :
    makePollPending l s = s.updLane l fun x => { x with pendingPoll := some n, cursor := some n } := by
  simp [makePollPending, hl, hp, hn]

/-- Outside LINE no poll is made. -/
theorem makePollPending_outside {s : State} (l : Lane) (hl : s.supply.state ≠ .line) : makePollPending l s = s := by
  simp [makePollPending, hl]

theorem pollInterval_expires_line {s : State} {left : Timebase} {due : Time} {l : Lane} {n : Nat}
    (h : s.dueNow (.pollInterval l) left due) (hl : s.supply.state = .line) (hp : (s.lane l).pendingPoll = none)
    (hn : ((pollOrder l s).find? fun m => !(s.hasJob m)) = some n) :
    ∃ u : State, exec (.pollIntervalExpiry l) s = .next u ∧
      (s.withTimebase left).alikeOutsideLanes u ∧ u.store.slots = s.store.slots ∧
      u.timebase.dueOf (.pollInterval l) = some (due + ms s.settings.pollInterval) ∧ (u.lane l).polls n := by
  let x := (s.pollSet l left due).updLane l fun x => { x with pendingPoll := some n, cursor := some n }
  have hx : makePollPending l (s.pollSet l left due) = x :=
    makePollPending_found hl (by cases l <;> exact hp) (by rw [pollOrder_pollSet]; exact hn)
  obtain ⟨ha, hs, hd⟩ := lanesAct_worksFrom x
  have hpolls : (x.lane l).polls n := by
    simp only [x, State.lane_updLane]
    exact ⟨rfl, .inl rfl⟩
  refine ⟨lanesAct x, by rw [exec_pollIntervalExpiry h, hx], ?_, hs.trans (by cases l <;> rfl), ?_, lanesAct_polls hpolls⟩
  · unfold State.alikeOutsideLanes at ha ⊢
    cases l <;> exact ha
  · rw [hd _ (by rintro (hq | ⟨m, hq⟩) <;> cases hq)]
    cases l <;> simp [x, State.pollSet, State.updLane, State.setLane]

theorem pollInterval_expires_outside {s : State} {left : Timebase} {due : Time} {l : Lane}
    (h : s.dueNow (.pollInterval l) left due) (hl : s.supply.state ≠ .line) :
    ∃ (tb : Timebase) (x : Store),
      exec (.pollIntervalExpiry l) s = .next { s with timebase := tb, store := x } ∧
      tb.dueOf (.pollInterval l) = some (due + ms s.settings.pollInterval) ∧ tb.count = s.timebase.count ∧
      x = { s.store with queue := x.queue, running := x.running, chipSelect := x.chipSelect, prepared := x.prepared } := by
  obtain ⟨tb, x, he, hc, hd, hx⟩ := issueFlash_eq (s.pollSet l left due)
  have hclosed : (s.pollSet l left due).lanesOpen = false := by
    have hs : (s.pollSet l left due).supply.state ≠ .line := hl
    simp [State.lanesOpen, hs]
  refine ⟨tb, x, ?_, ?_, hc.trans h.count, hx⟩
  · have hs : (s.pollSet l left due).supply.state ≠ .line := hl
    rw [exec_pollIntervalExpiry h, makePollPending_outside l hs, lanesAct_closed hclosed, he]
    rfl
  · rw [hd _ (by simp)]
    simp [State.pollSet]

end Sys2Proof.Machine
end

section
/-! PROOFS. How an attempt ends, and what it leaves of presence and of the queue (spec/04, 4.2; spec/05, 5.2; spec/06, 6.2 and
6.3). -/

namespace Sys2Proof.Machine

/-! ### Presence (R51, R52) -/

theorem updStation_station? (s : State) (n m : Nat) {f : Station → Station} (hf : ∀ st, (f st).entry = st.entry) :
    (s.updStation n f).station? m = if m = n then (s.station? n).map f else s.station? m := by
  unfold State.station?
  rw [State.updStation_stations, List.find?_map]
  have hp : ((fun st : Station => decide (st.entry.number = m)) ∘ fun st => if st.entry.number = n then f st else st) =
      fun st => decide (st.entry.number = m) := funext fun st => by
    simp only [Function.comp]
    split <;> simp [hf]
  rw [hp]
  split
  · rename_i hm
    subst hm
    cases hs : s.stations.find? fun st => decide (st.entry.number = m) with
    | none => rfl
    | some st =>
      have hn : st.entry.number = m := by simpa using List.find?_some hs
      simp [hn]
  · rename_i hm
    cases hs : s.stations.find? fun st => decide (st.entry.number = m) with
    | none => rfl
    | some st =>
      have hn : st.entry.number = m := by simpa using List.find?_some hs
      simp [hn, hm]

theorem postNotice_station? (b : NoticeBody) (s : State) (m : Nat) : (postNotice b s).station? m = s.station? m := by
  unfold postNotice
  split <;> rfl

theorem setPresence_station? (n : Nat) (p : Presence) (s : State) (m : Nat) :
    (setPresence n p s).station? m =
      if m = n then (s.station? n).map fun st => { st with presence := p } else s.station? m := by
  cases hs : s.station? n with
  | none =>
    rw [setPresence_undefined hs]
    split
    · rename_i hm
      rw [hm, hs]
      rfl
    · rfl
  | some st =>
    have hupd := updStation_station? s n m (f := fun x => { x with presence := p }) fun _ => rfl
    rw [hs] at hupd
    simp only [setPresence, hs]
    split
    · rename_i hp
      split
      · rename_i hm
        rw [hm, hs, ← hp]
        rfl
      · rfl
    · split
      · rw [postNotice_station?, hupd]
      · exact hupd

/-- A presence set changes the stations and the notices, as it would in any state with the same stations that posts
alike. -/
theorem setPresence_notified {s x : State} (h : s.noticesAlike x) (hs : x.stations = s.stations) (n : Nat) (p : Presence) :
    setPresence n p x =
      { x with
        stations := (setPresence n p s).stations, link := (setPresence n p s).link, pins := (setPresence n p s).pins } := by
  obtain ⟨hl, hp, ho, hset⟩ := h
  have hx : x = { x with stations := s.stations, link := s.link, pins := s.pins } := by rw [← hs, ← hl, ← hp]
  have hst : x.station? n = s.station? n := by simp only [State.station?, hs]
  cases hn : s.station? n with
  | none => rwa [setPresence_undefined hn, setPresence_undefined (hst.trans hn)]
  | some st =>
    simp only [setPresence, hst, hn]
    split
    · exact hx
    · have hmode : presenceReported x.settings.presenceMode st.presence p =
          presenceReported s.settings.presenceMode st.presence p := by rw [hset]
      rw [hmode]
      have hu : (x.updStation n fun y => { y with presence := p }) =
          { x with
            stations := (s.updStation n fun y => { y with presence := p }).stations
            link := s.link, pins := s.pins } := by
        simp only [State.updStation, hs, ← hl, ← hp]
      have ha : (s.updStation n fun y => { y with presence := p }).noticesAlike
          (x.updStation n fun y => { y with presence := p }) := ⟨hl, hp, ho, hset⟩
      split
      · have hself := postNotice_notified (n := s.updStation n fun y => { y with presence := p })
          (s := s.updStation n fun y => { y with presence := p }) ⟨rfl, rfl, rfl, rfl⟩ (.presence n p)
        have hstations : (postNotice (.presence n p) (s.updStation n fun y => { y with presence := p })).stations =
            (s.updStation n fun y => { y with presence := p }).stations := by
          rw [hself]
          rfl
        rw [postNotice_notified ha, hstations, hu]
        rfl
      · exact hu

theorem setPresence_self {n : Nat} {s : State} {st : Station} (h : s.station? n = some st) :
    setPresence n st.presence s = s := by
  simp [setPresence, h]

/-- The presence of a station after a reply that shows no image state (Figure 4-2). -/
def Presence.replied (p : Presence) : Presence := if p = .absent then .seen else p

theorem presenceReply_eq {n : Nat} {s : State} {st : Station} (h : s.station? n = some st) :
    presenceReply n s = setPresence n st.presence.replied s := by
  simp only [presenceReply, h, Presence.replied]
  split
  · rfl
  · exact (setPresence_self h).symm

theorem presenceReply_undefined {n : Nat} {s : State} (h : s.station? n = none) : presenceReply n s = s := by
  simp [presenceReply, h]

theorem presencePoll_eq {n : Nat} {s : State} {st : Station} (h : s.station? n = some st) (r : Report) :
    presencePoll n r s =
      setPresence n
        (if s.hasJob n then st.presence.replied else if pollCurrent r st.context.epoch then .ready else .seen) s := by
  simp only [presencePoll, h]
  split
  · exact presenceReply_eq h
  · rfl

/-- A reply taken for presence changes the stations and the notices only. -/
theorem presenceReply_notified {s x : State} (h : s.noticesAlike x) (hs : x.stations = s.stations) (n : Nat) :
    presenceReply n x =
      { x with
        stations := (presenceReply n s).stations, link := (presenceReply n s).link, pins := (presenceReply n s).pins } := by
  have hst : x.station? n = s.station? n := by simp only [State.station?, hs]
  cases hn : s.station? n with
  | none =>
    rw [presenceReply_undefined hn, presenceReply_undefined (hst.trans hn)]
    obtain ⟨hl, hp, -, -⟩ := h
    rw [← hs, ← hl, ← hp]
  | some st =>
    rw [presenceReply_eq hn, presenceReply_eq (hst.trans hn)]
    exact setPresence_notified h hs n _

/-! ### The end of an attempt with an error (R99 to R101) -/

theorem removeDeadline_twice (p : Purpose) (s : State) : removeDeadline p (removeDeadline p s) = removeDeadline p s := by
  have h : (s.timebase.remove p).remove p = s.timebase.remove p := Timebase.remove_absent (by simp)
  simp only [removeDeadline, h]

theorem presenceReply_removeDeadline (n : Nat) (p : Purpose) (s : State) :
    presenceReply n (removeDeadline p s) = removeDeadline p (presenceReply n s) := by
  rw [presenceReply_notified (s := s) (x := removeDeadline p s) ⟨rfl, rfl, rfl, rfl⟩ rfl,
    presenceReply_notified (s := s) (x := s) ⟨rfl, rfl, rfl, rfl⟩ rfl]
  rfl

/-- The end of an attempt removes the response window itself. -/
theorem errorEnding_removeDeadline (l : Lane) (t : Txn) (e : Ending) (s : State) :
    errorEnding l t e (removeDeadline (.responseWindow l) s) = errorEnding l t e s := by
  unfold errorEnding
  rw [removeDeadline_twice]

/-- What a frame received does, by how it answers the attempt in flight. -/
theorem laneReply_answer {s : State} {l : Lane} {t : Txn} (ht : (s.lane l).txn = some t) (hst : t.station.isSome = true)
    (frame : List Byte) :
    (t.answer frame = .malformed → laneReply l frame s = lanesAct (errorEnding l t .crc s)) ∧
      ∀ r, t.answer frame = .reply r → laneReply l frame s = lanesAct (takeReply l t r s) := by
  have hn : t.station.isNone = false := by rw [← Option.not_isSome, hst]; rfl
  unfold laneReply Txn.answer
  simp only [ht, hn, Bool.false_eq_true, if_false]
  cases readReplyFrame frame with
  | none => exact ⟨fun _ => rfl, fun r h => (by cases h)⟩
  | some raw =>
    dsimp only
    by_cases hm : raw.sequence = t.sequence ∧ raw.address = t.address
    · rw [if_pos hm, if_neg (by simp [hm.1, hm.2])]
      cases readAnswer t.step raw.kind raw.payload with
      | unpaired => exact ⟨fun h => (by cases h), fun r h => (by cases h)⟩
      | malformed => exact ⟨fun _ => rfl, fun r h => (by cases h)⟩
      | reply x => exact ⟨fun h => (by cases h), fun r h => (by cases h; rfl)⟩
    · rw [if_neg hm]
      exact ⟨fun h => (by cases h), fun r h => (by cases h)⟩

/-- A reply that is no poll report and makes an error ends the attempt once it has counted for presence. -/
theorem takeReply_error {l : Lane} {t : Txn} {r : LaneReply} {s : State} {e : Ending} (hr : ∀ p x, r ≠ .pollReport p x)
    (he : ∀ x : State, x.store = s.store → replyError t r x = some e) :
    takeReply l t r s = errorEnding l t e (presenceReply (t.station.getD 0) s) := by
  have hpres : presenceOfReply (t.station.getD 0) r (ownerGone t s) (removeDeadline (.responseWindow l) s) =
      removeDeadline (.responseWindow l) (presenceReply (t.station.getD 0) s) := by
    rw [← presenceReply_removeDeadline]
    unfold presenceOfReply
    split
    · exact absurd rfl (hr _ _)
    · rfl
  have hstore : (presenceReply (t.station.getD 0) s).store = s.store := by
    rw [presenceReply_notified (s := s) (x := s) ⟨rfl, rfl, rfl, rfl⟩ rfl]
  unfold takeReply
  dsimp only
  rw [hpres, he (removeDeadline (.responseWindow l) (presenceReply (t.station.getD 0) s)) hstore]
  exact errorEnding_removeDeadline ..

/-- A command that ends an attempt with an error does so once presence has been told, and then the lanes act. -/
theorem State.attemptEnds.exec_eq {s told : State} {l : Lane} {t : Txn} {c : Instr} {e : Ending}
    (h : s.attemptEnds l t c e told) : exec c s = .next (lanesAct (errorEnding l t e told)) := by
  obtain ⟨hr, ht, hst, ⟨left, due, hd, rfl, rfl, rfl⟩ | ⟨frame, rfl, he, rfl⟩⟩ := h
  · have hx : exec (.responseWindowExpiry l) s = .next (windowExpired l (s.withTimebase left)) :=
      whileRunning_onExpiry hd fun _ s => windowExpired l s
    have ht' : ((s.withTimebase left).lane l).txn = some t := by cases l <;> exact ht
    rw [hx]
    unfold windowExpired
    simp only [ht']
  · have hx : exec (.laneReplyReceived l frame) s = .next (laneReply l frame s) := whileRunning_runs hr _
    obtain ⟨hmal, hrep⟩ := laneReply_answer ht hst frame
    have taken : ∀ r, t.answer frame = .reply r → (∀ p x, r ≠ .pollReport p x) →
        (∀ x : State, x.store = s.store → replyError t r x = some e) →
        laneReply l frame s = lanesAct (errorEnding l t e
          (if t.answer frame = .malformed then s else presenceReply (t.station.getD 0) s)) := fun r ha hp herr => by
      rw [hrep r ha, takeReply_error hp herr, if_neg (by rw [ha]; exact fun h => by cases h)]
    rw [hx]
    refine congrArg _ ?_
    cases e with
    | crc =>
      rcases he with hm | ⟨hpoll, reason, fill, hb, ha⟩
      · rw [hmal hm, if_pos hm]
      · refine taken _ ha (fun _ _ h => by cases h) fun _ _ => ?_
        cases reason
        · exact absurd rfl hb
        all_goals simp [replyError, hpoll]
    | busy =>
      obtain ⟨fill, ha⟩ := he
      exact taken _ ha (fun _ _ h => by cases h) fun _ _ => rfl
    | echo =>
      obtain ⟨index, crc, ha, hne⟩ := he
      refine taken _ ha (fun _ _ h => by cases h) fun x hx => ?_
      have hb : x.buffer t.buffer = s.buffer t.buffer := by simp only [State.buffer, hx]
      simp only [replyError, hb]
      rw [if_neg]
      simpa using hne
    | noReply => exact he.elim
    | sequenceFault => exact he.elim

end Sys2Proof.Machine
end

section
/-! PROOFS. The outcome of a poll: the end of its step, and the job that its reply or its failure creates (spec/05, 5.2;
spec/06, 6.6). -/

namespace Sys2Proof.Machine

/-! ### The end of a step (R72, R76, R87) -/

/-- A lane's step has ended, no job's: its response window is removed and its driver released. -/
def State.stepFreed (s : State) (l : Lane) : State := (removeDeadline (.responseWindow l) s).updLane l LaneState.freed

theorem endStep_stepFreed {t : Txn} (h : ∀ n id, t.owner ≠ .job n id) (l : Lane) (s : State) :
    endStep l t (removeDeadline (.responseWindow l) s) = s.stepFreed l := by
  unfold endStep
  dsimp only
  split
  · exact absurd ‹_› (h _ _)
  · rfl

/-- A step of a lane has ended since a state, and nothing else has changed but the lanes, the stations, the notices and
the draws. -/
def State.toldFrom (base : State) (l : Lane) (x : State) : Prop :=
  x.lane l = (base.lane l).freed ∧
    ∃ a b sts link pins free,
      x =
        { base with
          timebase := base.timebase.remove (.responseWindow l), laneA := a, laneB := b, stations := sts, link := link
          pins := pins, free := free }

theorem State.stepFreed_toldFrom (s : State) (l : Lane) : s.toldFrom l (s.stepFreed l) := by
  refine ⟨State.lane_updLane .., ?_⟩
  cases l <;> exact ⟨_, _, _, _, _, _, rfl⟩

theorem State.toldFrom.told {base x : State} {l : Lane} (h : base.toldFrom l x) (sts : List Station) (link : Link)
    (pins : Pins) (free : Nat) :
    base.toldFrom l { x with stations := sts, link := link, pins := pins, free := free } := by
  obtain ⟨hl, _, _, _, _, _, _, rfl⟩ := h
  exact ⟨by cases l <;> exact hl, _, _, _, _, _, _, rfl⟩

theorem State.toldFrom.outcomeTold {base x : State} {l : Lane} (h : base.toldFrom l x) : base.outcomeTold l x := by
  obtain ⟨hl, _, _, _, _, _, _, rfl⟩ := h
  unfold State.outcomeTold
  rw [hl]
  exact ⟨rfl, rfl, rfl, rfl, by simp, by simp, rfl, rfl, rfl, rfl, rfl, rfl, rfl, rfl, rfl⟩

/-! ### A job created after it (R72, R76, R87) -/

/-- The run that a job created in LINE belongs to: a new one where the Engine is IDLE (R76). -/
def Engine.joined (e : Engine) (now : Time) : Engine :=
  if e.phase = .idle then { e with phase := .active, restored := 0, failed := 0, runStart := now } else e

theorem Engine.joined_queue (e : Engine) (now : Time) : (e.joined now).queue = e.queue := by
  unfold Engine.joined
  split <;> rfl

theorem Engine.joined_pass (e : Engine) (now : Time) : (e.joined now).pass = e.pass := by
  unfold Engine.joined
  split <;> rfl

theorem Engine.joined_idle {e : Engine} (h : e.phase = .idle) (now : Time) :
    (e.joined now).phase = .active ∧ (e.joined now).restored = 0 ∧ (e.joined now).failed = 0 ∧
      (e.joined now).runStart = now := by
  unfold Engine.joined
  rw [if_pos h]
  exact ⟨rfl, rfl, rfl, rfl⟩

theorem Engine.joined_running {e : Engine} (h : e.phase ≠ .idle) (now : Time) :
    (e.joined now).phase = e.phase ∧ (e.joined now).restored = e.restored ∧ (e.joined now).failed = e.failed ∧
      (e.joined now).runStart = e.runStart := by
  unfold Engine.joined
  rw [if_neg h]
  exact ⟨rfl, rfl, rfl, rfl⟩

/-- In LINE, a job created for a station without one. -/
theorem createJob_line {n : Nat} {s : State} (hj : s.hasJob n = false) (hs : (s.station? n).isSome = true)
    (hl : s.supply.state = .line) (o : Origin) :
    createJob n o s =
      { addJob n o .none s with
        timebase := s.timebase.set (.restoreLimit n) (s.timebase.count + ms s.settings.restoreLimit)
        engine := (addJob n o .none s).engine.joined s.timebase.count } := by
  have hn : (s.station? n).isNone = false := by rw [← Option.not_isSome, hs]; rfl
  have hp : (addJob n o .none s).engine.phase = s.engine.phase := rfl
  unfold createJob Engine.joined
  simp only [hj, hn, hl, hp, Bool.or_self, Bool.false_eq_true, if_false, if_true]
  split <;> rfl

theorem createJob_hasJob {n : Nat} {s : State} (h : s.hasJob n = true) (o : Origin) : createJob n o s = s := by
  simp [createJob, h]

theorem createJob_line_lane {n : Nat} {s : State} (hj : s.hasJob n = false) (hs : (s.station? n).isSome = true)
    (hl : s.supply.state = .line) (o : Origin) (l : Lane) :
    (createJob n o s).lane l =
      if (s.lane l).pendingPoll = some n then { s.lane l with pendingPoll := none } else s.lane l := by
  rw [createJob_line hj hs hl, ← addJob_lane n o .none]
  cases l <;> rfl

/-- No push entry is left of a station, and every other stays. -/
theorem removePush_push? (s : State) (n m : Nat) : (removePush n s).push? m = if m = n then none else s.push? m := by
  unfold State.push? removePush
  dsimp only
  rw [← List.filter_append, List.find?_filter]
  split
  · rename_i hm
    rw [List.find?_eq_none]
    intro p _
    simp [hm]
  · rename_i hm
    refine congrArg (List.find? · (s.pushA ++ s.pushB)) (funext fun p => ?_)
    by_cases hp : p.station = m <;> simp [hp, hm]

theorem State.outcomeTold_createJob {base x : State} {l : Lane} {n : Nat} (h : base.outcomeTold l x)
    (hj : x.hasJob n = false) (hs : (x.station? n).isSome = true) (hl : x.supply.state = .line) (o : Origin) :
    base.outcomeTold l (createJob n o x) := by
  obtain ⟨htxn, hdrv, hseq, haban, hwindow, hcount, hrest⟩ := h
  have hlane := createJob_line_lane hj hs hl o l
  have hlane : ((createJob n o x).lane l).txn = (x.lane l).txn ∧ ((createJob n o x).lane l).driver = (x.lane l).driver ∧
      ((createJob n o x).lane l).seq = (x.lane l).seq ∧
      ((createJob n o x).lane l).abandoned = (x.lane l).abandoned := by
    rw [hlane]
    split <;> exact ⟨rfl, rfl, rfl, rfl⟩
  obtain ⟨htxn', hdrv', hseq', haban'⟩ := hlane
  refine ⟨htxn'.trans htxn, hdrv'.trans hdrv, hseq'.trans hseq, haban'.trans haban, ?_⟩
  rw [createJob_line hj hs hl]
  exact ⟨by simpa using hwindow, hcount, hrest⟩

/-- The job created is its station's, and every other station's is as it was. -/
theorem createJob_line_job? {n : Nat} {s : State} (hj : s.hasJob n = false) (hs : (s.station? n).isSome = true)
    (hl : s.supply.state = .line) (o : Origin) (m : Nat) :
    (createJob n o s).job? m =
      if m = n then some (Job.create n s.engine.nextJob o .none s.joinPass) else s.job? m := by
  rw [← addJob_job? hj, createJob_line hj hs hl]
  unfold State.job?
  rw [Engine.joined_queue]

theorem createJob_line_push? {n : Nat} {s : State} (hj : s.hasJob n = false) (hs : (s.station? n).isSome = true)
    (hl : s.supply.state = .line) (o : Origin) (m : Nat) :
    (createJob n o s).push? m = if m = n then none else s.push? m := by
  rw [createJob_line hj hs hl]
  exact removePush_push? s n m

/-- The pass and the run of a job created in LINE. -/
theorem createJob_line_engine {n : Nat} {s : State} (hj : s.hasJob n = false) (hs : (s.station? n).isSome = true)
    (hl : s.supply.state = .line) (o : Origin) :
    (createJob n o s).engine.pass = s.engine.pass ∧
      (s.engine.phase = .idle →
        (createJob n o s).engine.phase = .active ∧ (createJob n o s).engine.restored = 0 ∧
          (createJob n o s).engine.failed = 0 ∧ (createJob n o s).engine.runStart = s.timebase.count) ∧
      (s.engine.phase ≠ .idle →
        (createJob n o s).engine.phase = s.engine.phase ∧ (createJob n o s).engine.restored = s.engine.restored ∧
          (createJob n o s).engine.failed = s.engine.failed ∧
          (createJob n o s).engine.runStart = s.engine.runStart) := by
  have he : (createJob n o s).engine = (addJob n o .none s).engine.joined s.timebase.count := by
    rw [createJob_line hj hs hl]
  have hp : (addJob n o .none s).engine.phase = s.engine.phase := rfl
  rw [he]
  exact ⟨Engine.joined_pass _ _, fun hi => Engine.joined_idle (hp.trans hi) _,
    fun hi => Engine.joined_running (fun h => hi (hp.symm.trans h)) _⟩

theorem State.toldFrom.jobCreated {base x : State} {l : Lane} {n : Nat} (h : base.toldFrom l x)
    (hj : base.hasJob n = false) (hs : (x.station? n).isSome = true) (hl : base.supply.state = .line) (o : Origin) :
    base.jobCreated n o (createJob n o x) := by
  obtain ⟨-, _, _, _, _, _, _, hx⟩ := h
  have hj : x.hasJob n = false := by rw [hx]; exact hj
  have hl : x.supply.state = .line := by rw [hx]; exact hl
  have hlane := createJob_line_lane hj hs hl o
  have hjob := createJob_line_job? hj hs hl o
  have hpush := createJob_line_push? hj hs hl o
  have heq := createJob_line hj hs hl o
  have hpoll : ∀ m, ((createJob n o x).lane m).pendingPoll ≠ some n := fun m => by
    rw [hlane m]
    split
    · exact fun h => by cases h
    · assumption
  subst hx
  refine ⟨⟨_, (hjob n).trans (if_pos rfl), rfl, rfl, rfl, rfl, if_pos hl⟩, fun m hm => (hjob m).trans (if_neg hm), ?_, ?_,
    (hpush n).trans (if_pos rfl), fun m hm => (hpush m).trans (if_neg hm), hpoll, ?_⟩
  · rw [heq]
    simp
  · intro p hp hw
    rw [heq]
    simp [hp, hw]
  · exact createJob_line_engine hj hs hl o

end Sys2Proof.Machine
end

section
/-! PROOFS. Polls made, answered and failed, and the poll of a NODE QUERY (spec/06, 6.6): the proof of O37. -/

namespace Sys2Proof.Machine

/-! ### A job, where an origin is given -/

/-- A job created, where an origin is given. -/
def State.jobMade (n : Nat) (origin : Option Origin) (s : State) : State :=
  match origin with
  | none => s
  | some o => createJob n o s

/-- The creation of a job leaves the stations, the query and the notices. -/
theorem State.jobMade_eq (n : Nat) (origin : Option Origin) (s : State) :
    ∃ tb e pa pb a b,
      s.jobMade n origin =
        { s with timebase := tb, engine := e, pushA := pa, pushB := pb, laneA := a, laneB := b } := by
  cases origin with
  | none => exact ⟨_, _, _, _, _, _, rfl⟩
  | some o =>
    have hadd : s.jobsJoin (addJob n o .none s) := ⟨_, _, _, _, _, _, rfl⟩
    obtain ⟨_, _, _, _, _, _, hadd⟩ := hadd
    unfold State.jobMade createJob
    dsimp only
    rw [hadd]
    split
    · exact ⟨_, _, _, _, _, _, rfl⟩
    · split
      · split <;> exact ⟨_, _, _, _, _, _, rfl⟩
      · exact ⟨_, _, _, _, _, _, rfl⟩

theorem State.toldFrom.hasJob {base x : State} {l : Lane} (h : base.toldFrom l x) (n : Nat) :
    x.hasJob n = base.hasJob n := by
  obtain ⟨-, _, _, _, _, _, _, rfl⟩ := h
  rfl

theorem State.toldFrom.line {base x : State} {l : Lane} (h : base.toldFrom l x) (hl : base.supply.state = .line) :
    x.supply.state = .line := by
  obtain ⟨-, _, _, _, _, _, _, rfl⟩ := h
  exact hl

/-- The outcome of a poll for the Engine: a job created where there is an origin and the station had none, and nothing
otherwise. -/
theorem State.toldFrom.jobMade {base x : State} {l : Lane} {n : Nat} (h : base.toldFrom l x)
    (hs : (x.station? n).isSome = true) (hl : base.supply.state = .line) (origin : Option Origin) :
    base.outcomeTold l (x.jobMade n origin) ∧
      (∀ o, origin = some o → base.hasJob n = false → base.jobCreated n o (x.jobMade n origin)) ∧
      (origin = none ∨ base.hasJob n = true →
        (x.jobMade n origin).engine = base.engine ∧ (x.jobMade n origin).pushA = base.pushA ∧
          (x.jobMade n origin).pushB = base.pushB ∧
          (x.jobMade n origin).timebase = base.timebase.remove (.responseWindow l)) := by
  have still : x.engine = base.engine ∧ x.pushA = base.pushA ∧ x.pushB = base.pushB ∧
      x.timebase = base.timebase.remove (.responseWindow l) := by
    obtain ⟨-, _, _, _, _, _, _, rfl⟩ := h
    exact ⟨rfl, rfl, rfl, rfl⟩
  cases origin with
  | none => exact ⟨h.outcomeTold, fun o ho => (by cases ho), fun _ => still⟩
  | some o =>
    unfold State.jobMade
    dsimp only
    by_cases hj : base.hasJob n = true
    · rw [createJob_hasJob ((h.hasJob n).trans hj)]
      exact ⟨h.outcomeTold, fun _ _ hn => absurd (hj.symm.trans hn) (by decide), fun _ => still⟩
    · have hj : base.hasJob n = false := Bool.eq_false_iff.2 hj
      refine ⟨State.outcomeTold_createJob h.outcomeTold ((h.hasJob n).trans hj) hs (h.line hl) o, ?_, ?_⟩
      · rintro _ ⟨⟩ _
        exact h.jobCreated hj hs hl o
      · rintro (ho | ho)
        · cases ho
        · rw [hj] at ho
          cases ho

/-! ### The owner of a poll -/

/-- A transaction is a round-robin poll of a station, or the poll of the pending NODE QUERY for it. -/
def Txn.polls (t : Txn) (n : Nat) (s : State) : Prop := t.owner = .poll n ∨ t.owner = .query n ∧ s.query = some n

theorem Txn.polls.not_gone {t : Txn} {n : Nat} {s x : State} (h : t.polls n s) (hq : x.query = s.query) :
    ownerGone t x = false := by
  unfold ownerGone
  rcases h with h | ⟨h, hs⟩
  · simp [h]
  · simp [h, hq, hs]

theorem Txn.polls.no_job {t : Txn} {n : Nat} {s : State} (h : t.polls n s) (m id : Nat) : t.owner ≠ .job m id := by
  rcases h with h | ⟨h, -⟩ <;> rw [h] <;> exact fun e => by cases e

/-- The poll of the NODE QUERY posts its result, and the query is no longer pending (R114). -/
def Txn.resultPosted (t : Txn) (n : Nat) (result : NoticeBody) (s : State) : State :=
  if t.owner = .query n then postNotice result { s with query := none } else s

/-- What posting the result changes: the notices and the pending query. -/
theorem Txn.resultPosted_eq {t : Txn} {n : Nat} {p s : State} (h : p.noticesAlike s) (result : NoticeBody) :
    t.resultPosted n result s =
      { s with
        link := (if t.owner = .query n then postNotice result p else p).link
        pins := (if t.owner = .query n then postNotice result p else p).pins
        query := if t.owner = .query n then none else s.query } := by
  unfold Txn.resultPosted
  split
  · rw [postNotice_notified (n := p) (s := { s with query := none }) h]
    rfl
  · obtain ⟨hl, hp, -, -⟩ := h
    rw [← hl, ← hp]

/-- The retries of a poll exhausted (R90, R112, R114). -/
theorem Txn.polls.exhausted {t : Txn} {n : Nat} {s : State} (h : t.polls n s) (endings : List Ending) (x : State) :
    exhausted t endings x = t.resultPosted n (.queryNoReply n) ((setPresence n .absent x).jobMade n (some .link)) := by
  unfold Machine.exhausted Txn.resultPosted State.jobMade
  rcases h with h | ⟨h, -⟩ <;> simp [h]

/-- A poll's last attempt ends with an error (R101). -/
theorem Txn.polls.errorEnding {t : Txn} {n : Nat} {s x : State} {l : Lane} (h : t.polls n s) (hq : x.query = s.query)
    (hstep : t.step = .poll) (hlim : t.limit < t.attempt) (e : Ending) :
    errorEnding l t e x =
      t.resultPosted n (.queryNoReply n) ((setPresence n .absent (x.stepFreed l)).jobMade n (some .link)) := by
  have hg : ownerGone t (removeDeadline (.responseWindow l) x) = false := h.not_gone hq
  have hload : t.step.loading = false := by rw [hstep]; rfl
  unfold Machine.errorEnding
  simp only [hg, hload, Bool.and_false, Bool.false_eq_true, if_false, if_neg (Nat.not_le_of_lt hlim)]
  rw [endStep_stepFreed h.no_job, h.exhausted]

/-! ### The reply to a poll -/

theorem observeLeaf_eq (n : Nat) (live : LiveStatus) (s : State) :
    ∃ k, observeLeaf n live s =
      { s with stations := (s.updStation n (Station.observing (live.leafState s.free))).stations, free := k } := by
  unfold observeLeaf
  dsimp only
  split <;> exact ⟨_, rfl⟩

/-- The time has advanced, or presence has been told: what a poll's end starts from. -/
def State.presenceTold (s base : State) : Prop :=
  ∃ tb sts link pins, base = { s with timebase := tb, stations := sts, link := link, pins := pins }

/-- The end of a poll: its step has ended, presence has been told, the job that its outcome gives an origin to has been
created, and the result of a NODE QUERY has been posted. -/
theorem State.toldFrom.pollOutcome {s base x : State} {l : Lane} {n : Nat} {pr : Presence} (hx : base.toldFrom l x)
    (hb : s.presenceTold base) (hlink : x.link = (setPresence n pr base).link)
    (hpins : x.pins = (setPresence n pr base).pins) (hl : s.supply.state = .line) (hs : (x.station? n).isSome = true)
    (hne : ∀ m, m ≠ n → x.station? m = s.station? m) (t : Txn) (origin : Option Origin) (result : NoticeBody) :
    let posted :=
      if t.owner = .query n then postNotice result (setPresence n pr base) else setPresence n pr base
    let u := t.resultPosted n result (x.jobMade n origin)
    u.link = posted.link ∧ u.pins = posted.pins ∧ u.query = (if t.owner = .query n then none else s.query) ∧
      base.outcomeTold l u ∧ (∀ m, m ≠ n → u.station? m = s.station? m) ∧
      (∀ o, origin = some o → s.hasJob n = false → base.jobCreated n o u) ∧
      (origin = none ∨ s.hasJob n = true →
        u.engine = s.engine ∧ u.pushA = s.pushA ∧ u.pushB = s.pushB ∧
          u.timebase = base.timebase.remove (.responseWindow l)) ∧
      u.stations = x.stations := by
  intro posted u
  obtain ⟨tb, sts, link, pins, rfl⟩ := hb
  obtain ⟨htold, hcreated, hnone⟩ := hx.jobMade hs hl origin
  obtain ⟨_, _, _, _, _, _, hjob⟩ := State.jobMade_eq n origin x
  have hsame : x.loader = s.loader ∧ x.settings = s.settings ∧ x.query = s.query := by
    obtain ⟨-, _, _, _, _, _, _, hx⟩ := hx
    rw [hx]
    exact ⟨rfl, rfl, rfl⟩
  obtain ⟨hloader, hsettings, hquery⟩ := hsame
  have halike : (setPresence n pr { s with timebase := tb, stations := sts, link := link, pins := pins }).noticesAlike
      (x.jobMade n origin) := by
    rw [hjob]
    refine ⟨hlink, hpins, hloader.trans ?_, hsettings.trans ?_⟩ <;>
      rw [setPresence_notified (s := { s with timebase := tb, stations := sts, link := link, pins := pins })
        ⟨rfl, rfl, rfl, rfl⟩ rfl]
  have hu : u = _ := Txn.resultPosted_eq halike result
  have hv : (x.jobMade n origin).stations = x.stations ∧ (x.jobMade n origin).query = s.query := by
    rw [hjob]
    exact ⟨rfl, hquery⟩
  obtain ⟨hstations, hvquery⟩ := hv
  generalize x.jobMade n origin = v at *
  rw [hu]
  refine ⟨rfl, rfl, by rw [← hvquery], htold, fun m hm => ?_, hcreated, hnone, hstations⟩
  rw [← hne m hm]
  simp only [State.station?, hstations]

/-! ### The reply, and the end of the last attempt -/

/-- A reply taken for a poll. -/
theorem Txn.polls.takeReply {t : Txn} {n : Nat} {s : State} {l : Lane} {st : Station} (h : t.polls n s)
    (hn : s.station? n = some st) (p : Report) (live : LiveStatus) :
    takeReply l t (.pollReport p live) s =
      t.resultPosted n (.queryReport n p live)
        ((observeLeaf n live (presencePoll n p (s.stepFreed l))).jobMade n
          (if pollCurrent p st.context.epoch then none else some .poll)) := by
  have hst : (s.stepFreed l).station? n = some st := by
    obtain ⟨-, _, _, _, _, _, _, he⟩ := s.stepFreed_toldFrom l
    cases l <;> exact hn
  have hhand : pollHandedOn n p live (s.stepFreed l) =
      (observeLeaf n live (presencePoll n p (s.stepFreed l))).jobMade n
        (if pollCurrent p st.context.epoch then none else some .poll) := by
    unfold pollHandedOn
    rw [hst]
    dsimp only
    split <;> rfl
  have hg : ownerGone t s = false := h.not_gone rfl
  unfold Machine.takeReply presenceOfReply replyError
  simp only [hg, Bool.false_eq_true, if_false]
  rw [endStep_stepFreed h.no_job, ← hhand]
  unfold Txn.resultPosted
  rcases h with h | ⟨h, -⟩ <;> simp [h, pollReply, queryReply]

/-- Where the command that ends an attempt has told presence: of its station only. -/
theorem State.attemptEnds.presence {s told : State} {l : Lane} {t : Txn} {c : Instr} {e : Ending} {n : Nat} {st : Station}
    (h : s.attemptEnds l t c e told) (ht : t.station = some n) (hn : s.station? n = some st) :
    s.presenceTold told ∧ (∃ p, told.station? n = some { st with presence := p }) ∧
      ∀ m, m ≠ n → told.station? m = s.station? m := by
  have hself : s.presenceTold s ∧ (∃ p, s.station? n = some { st with presence := p }) ∧
      ∀ m, m ≠ n → s.station? m = s.station? m := ⟨⟨_, _, _, _, rfl⟩, ⟨_, hn⟩, fun _ _ => rfl⟩
  obtain ⟨-, -, -, ⟨left, _, -, -, -, rfl⟩ | ⟨_, -, -, rfl⟩⟩ := h
  · exact ⟨⟨_, _, _, _, rfl⟩, ⟨_, hn⟩, fun _ _ => rfl⟩
  · split
    · exact hself
    · rw [ht, Option.getD_some, presenceReply_eq hn]
      refine ⟨?_, ⟨st.presence.replied, ?_⟩, fun m hm => ?_⟩
      · rw [setPresence_notified (s := s) (x := s) ⟨rfl, rfl, rfl, rfl⟩ rfl]
        exact ⟨_, _, _, _, rfl⟩
      · rw [setPresence_station?, if_pos rfl, hn]
        rfl
      · rw [setPresence_station?, if_neg hm]

/-- Presence set once a step has ended changes the notices as it would before. -/
theorem State.stepFreed_setPresence (s : State) (l : Lane) (n : Nat) (pr : Presence) :
    s.toldFrom l (setPresence n pr (s.stepFreed l)) ∧
      (setPresence n pr (s.stepFreed l)).link = (setPresence n pr s).link ∧
      (setPresence n pr (s.stepFreed l)).pins = (setPresence n pr s).pins := by
  have ha : s.noticesAlike (s.stepFreed l) ∧ (s.stepFreed l).stations = s.stations := by
    cases l <;> exact ⟨⟨rfl, rfl, rfl, rfl⟩, rfl⟩
  rw [setPresence_notified ha.1 ha.2]
  exact ⟨(s.stepFreed_toldFrom l).told _ _ _ _, rfl, rfl⟩

theorem State.stepFreed_station? (s : State) (l : Lane) (m : Nat) : (s.stepFreed l).station? m = s.station? m := by
  cases l <;> rfl

theorem setPresence_stepFreed_station? {s : State} {n : Nat} {st : Station} (hn : s.station? n = some st) (l : Lane)
    (pr : Presence) (m : Nat) :
    (setPresence n pr (s.stepFreed l)).station? m = if m = n then some { st with presence := pr } else s.station? m := by
  rw [setPresence_station?, State.stepFreed_station?, State.stepFreed_station?, hn]
  rfl

/-- The state that the reply to a poll leaves before its owner is told. -/
theorem observed_toldFrom {s : State} {l : Lane} {n : Nat} {st : Station} (hn : s.station? n = some st) (pr : Presence)
    (live : LiveStatus) :
    let x := observeLeaf n live (setPresence n pr (s.stepFreed l))
    s.toldFrom l x ∧ x.link = (setPresence n pr s).link ∧ x.pins = (setPresence n pr s).pins ∧
      (∀ m, m ≠ n → x.station? m = s.station? m) ∧
      ∃ leaf : Option LiveStatus,
        x.station? n = some { st with presence := pr, context := { st.context with leaf := leaf } } ∧
        (st.entry.kind ≠ .entrance → leaf = st.context.leaf) ∧
        (st.entry.kind = .entrance → live ≠ .ok → leaf = some live) := by
  obtain ⟨htold, hlink, hpins⟩ := s.stepFreed_setPresence l n pr
  have hst := setPresence_stepFreed_station? hn l pr
  generalize setPresence n pr (s.stepFreed l) = y at *
  obtain ⟨k, hk⟩ := observeLeaf_eq n live y
  have hobs : ∀ leaf (a : Station), (Station.observing leaf a).entry = a.entry := fun leaf a => by
    unfold Station.observing
    split <;> rfl
  have hx : ∀ m, (observeLeaf n live y).station? m =
      if m = n then some (Station.observing (live.leafState y.free) { st with presence := pr }) else s.station? m :=
    fun m => by
      rw [hk]
      refine (updStation_station? y n m (hobs _)).trans ?_
      rw [hst m, hst n, if_pos rfl]
      split <;> rfl
  intro x
  refine ⟨?_, ?_, ?_, fun m hm => (hx m).trans (if_neg hm), ?_⟩
  · simp only [x, hk]
    exact htold.told _ _ _ _
  · simp only [x, hk, hlink]
  · simp only [x, hk, hpins]
  · by_cases he : st.entry.kind = .entrance
    · refine ⟨live.leafState y.free, ?_, fun h => absurd he h, fun _ hlive => ?_⟩
      · rw [hx n, if_pos rfl, Station.observing, if_pos he]
      · cases live with
        | ok => exact absurd rfl hlive
        | _ => rfl
    · refine ⟨st.context.leaf, ?_, fun _ => rfl, fun h => absurd h he⟩
      rw [hx n, if_pos rfl, Station.observing, if_neg he]

theorem pollCurrent_iff (r : Report) (epoch : Nat) :
    pollCurrent r epoch = true ↔ r.state = .running ∧ r.epoch = epoch := by
  simp [pollCurrent]

/-- Settles O37. -/
theorem pollsMadeAndAnswered : Obligations.PollsMadeAndAnswered := by
  refine ⟨fun s left due l h => ⟨fun n hl hp hn => ?_, pollInterval_expires_outside h⟩, ?_⟩
  · obtain ⟨u, he, ha, hslots, hdue, hcursor, hpoll⟩ := pollInterval_expires_line h hl hp hn
    obtain ⟨hpins, hsupply, -, -, hstations, hcar, hpushA, hpushB, hsettings, -, -, -, -, -, -, hqueue, hquery, -, -, -, -,
      hlink, hflash, -⟩ := ha
    exact ⟨u, he, hdue, hcursor, hpoll, hsupply, hstations, hlink, hpins, hcar, hpushA, hpushB, hsettings, hquery, hqueue,
      hslots, hflash⟩
  · intro s l t n st ht hstep hstation hn hl howner told
    have hp : t.polls n s := howner
    refine ⟨?_, fun c e base h hlim => ?_⟩
    · intro frame p live hr ha current presence
      have hcur : pollCurrent p st.context.epoch = true ↔ current := pollCurrent_iff p st.context.epoch
      have hpres : presencePoll n p (s.stepFreed l) = setPresence n presence (s.stepFreed l) := by
        rw [presencePoll_eq ((State.stepFreed_station? s l n).trans hn), (s.stepFreed_toldFrom l).hasJob n]
        simp only [hcur]
        rfl
      obtain ⟨hx, hlink, hpins, hne, leaf, hleaf⟩ := observed_toldFrom (l := l) hn presence live
      obtain ⟨hself, hkept, hseen⟩ := hleaf
      obtain ⟨hul, hup, huq, hout, hum, hjc, hno, hus⟩ := hx.pollOutcome ⟨_, _, _, _, rfl⟩ hlink hpins hl
        (by rw [hself]; rfl) hne t (if current then none else some .poll) (.queryReport n p live)
      refine ⟨_, ?_, hul, hup, huq, hout, hum, hjc, hno, leaf, ?_, hkept, hseen⟩
      · have hexec : exec (.laneReplyReceived l frame) s = .next (laneReply l frame s) := whileRunning_runs hr _
        rw [hexec, (laneReply_answer ht (by rw [hstation]; rfl) frame).2 _ ha, hp.takeReply hn, hpres,
          if_congr hcur rfl rfl]
      · simp only [State.station?, hus]
        exact hself
    · obtain ⟨hb, ⟨pr, hst⟩, hne⟩ := h.presence hstation hn
      obtain ⟨hx, hlink, hpins⟩ := base.stepFreed_setPresence l n .absent
      have hxs := setPresence_stepFreed_station? hst l .absent
      have hq : base.query = s.query := by
        obtain ⟨_, _, _, _, rfl⟩ := hb
        rfl
      obtain ⟨hul, hup, huq, hout, hum, hjc, hno, hus⟩ := hx.pollOutcome hb hlink hpins hl (by rw [hxs, if_pos rfl]; rfl)
        (fun m hm => ((hxs m).trans (if_neg hm)).trans (hne m hm)) t (some .link) (.queryNoReply n)
      refine ⟨_, ?_, hul, hup, huq, hout, hum, hjc, hno, ?_⟩
      · rw [h.exec_eq, hp.errorEnding hq hstep hlim]
      · simp only [State.station?, hus]
        exact (hxs n).trans (if_pos rfl)

end Sys2Proof.Machine
end

section
/-! PROOFS. Every step keeps the stations, the settings and the directory sound (spec/03, 3.2; spec/04, 4.1 to 4.4; spec/09,
9.6). -/

namespace Sys2Proof.Machine

/-! ### Properties of the car state, the stations and the settings -/

/-- Two states have the same car state, stations and settings. -/
def State.sameTables (s t : State) : Prop := t.car = s.car ∧ t.stations = s.stations ∧ t.settings = s.settings

theorem postNotice_sameTables (b : NoticeBody) (s : State) : s.sameTables (postNotice b s) := by
  rw [postNotice_notified (n := s) ⟨rfl, rfl, rfl, rfl⟩]
  exact ⟨rfl, rfl, rfl⟩

theorem takeNotice_sameTables (s : State) : s.sameTables (takeNotice s).2 := by
  unfold takeNotice
  split <;> exact ⟨rfl, rfl, rfl⟩

theorem settleDevice_sameTables (s : State) : s.sameTables (settleDevice s) := by
  unfold settleDevice
  split <;> exact ⟨rfl, rfl, rfl⟩

theorem joinPush_sameTables (n : Nat) (u : Bool) (s : State) : s.sameTables (joinPush n u s) := by
  unfold joinPush
  split
  · exact ⟨rfl, rfl, rfl⟩
  · exact ⟨State.setPushes_car .., State.setPushes_stations .., State.setPushes_settings ..⟩

/-- A property that reads no more than the car state, the stations and the settings: which of their changes must keep it. A
change that does not touch what it reads asks for no proof. -/
structure TableStable (P : State → Prop) : Prop where
  reads : ∀ s t : State, s.sameTables t → P s → P t
  carTaken : ∀ s c, P s → P { s with car := c, stations := s.stations.map (Station.under c) } := by exact fun _ _ h => h
  settings : ∀ s x, (s.settings.inRange → x.inRange) → P s → P { s with settings := x } := by exact fun _ _ _ h => h
  stations : ∀ s x, (x.map (·.entry)).Sublist (s.stations.map (·.entry)) →
    (s.stationsSound → ∀ st ∈ x, st.sound s.car) → (s.directorySound → ∀ st ∈ x, st.ofItsKind) → P s →
    P { s with stations := x } := by exact fun _ _ _ _ _ h => h
  insertStation : ∀ s e, e.wellMade → e.fits (s.stations.map (·.entry)) → P s →
    P { s with stations := insertStation (Station.defined e) s.stations } := by exact fun _ _ _ _ h => h

namespace TableStable

variable {P : State → Prop}

/-- Such a property is kept by the primitive changes of every block. -/
theorem block (h : TableStable P) : BlockStable P where
  park s _ := h.reads s _ ⟨rfl, rfl, rfl⟩
  laneA s _ _ _ _ := h.reads s _ ⟨rfl, rfl, rfl⟩
  laneB s _ _ _ _ := h.reads s _ ⟨rfl, rfl, rfl⟩
  free s _ := h.reads s _ ⟨rfl, rfl, rfl⟩
  jobs s _ _ := h.reads s _ ⟨rfl, rfl, rfl⟩
  store s _ _ := h.reads s _ ⟨rfl, rfl, rfl⟩
  setDeadline s _ _ := h.reads s _ ⟨rfl, rfl, rfl⟩
  supply s _ _ := h.reads s _ ⟨rfl, rfl, rfl⟩
  estimator s _ := h.reads s _ ⟨rfl, rfl, rfl⟩
  carStations := h.carTaken
  settings := h.settings
  query s _ := h.reads s _ ⟨rfl, rfl, rfl⟩
  tick s := h.reads s _ ⟨rfl, rfl, rfl⟩
  deadlines s _ _ := h.reads s _ ⟨rfl, rfl, rfl⟩
  engine s _ _ := h.reads s _ ⟨rfl, rfl, rfl⟩
  pushes s _ _ _ _ := h.reads s _ ⟨rfl, rfl, rfl⟩
  joinPush s n u _ := h.reads s _ (joinPush_sameTables n u s)
  stations s x hx hs hk _ := h.stations s x hx hs hk
  insertStation s e he hf _ := h.insertStation s e he hf
  complete s _ := h.reads s _ ⟨rfl, rfl, rfl⟩
  settleDevice s := h.reads s _ (settleDevice_sameTables s)
  leaveBusy s _ _ := h.reads s _ ⟨rfl, rfl, rfl⟩
  postNotice s b := h.reads s _ (postNotice_sameTables b s)
  takeNotice s := h.reads s _ (takeNotice_sameTables s)
  link s _ _ _ := h.reads s _ ⟨rfl, rfl, rfl⟩
  hold s _ _ := h.reads s _ ⟨rfl, rfl, rfl⟩

/-- Such a property is kept by every command, if the state right after reset has it. -/
theorem stable (h : TableStable P) (hr : P State.reset) : Stable P where
  toBlockStable := h.block
  events s hP _ :=
    ({ h.block with addJob := fun s _ _ _ _ _ => h.reads s _ ⟨rfl, rfl, rfl⟩ } : EventStable P).events s hP
  loader s _ _ := h.reads s _ ⟨rfl, rfl, rfl⟩
  coldBlocks _ _ _ _ _ := h.reads State.reset _ ⟨rfl, rfl, rfl⟩ hr
  stateless _ _ _ _ _ := h.reads State.reset _ ⟨rfl, rfl, rfl⟩ hr

end TableStable

/-! ### The stations (R30, R54, R55, R60) -/

theorem stationsSound_insert {s : State} {e : Entry} (he : e.inRange) (h : s.stationsSound) :
    State.stationsSound { s with stations := insertStation (Station.defined e) s.stations } := fun st hst => by
  rcases mem_insertStation hst with rfl | hst
  · exact Station.defined_sound he s.car
  · exact h st hst

theorem stationsSound_stable : Stable State.stationsSound :=
  TableStable.stable
    { reads := fun s t ⟨hc, hs, _⟩ h st hst => hc ▸ h st (hs ▸ hst)
      carTaken := fun s c h st hst => by
        obtain ⟨x, hx, rfl⟩ := List.mem_map.1 hst
        exact (h x hx).under
      stations := fun s x _ hx _ h => hx h
      insertStation := fun s e ⟨he, _⟩ _ h => stationsSound_insert he h }
    reset_stations.2.1

/-! ### The settings (R162, R165) -/

theorem settingsSound_stable : Stable State.settingsSound :=
  TableStable.stable
    { reads := fun s t ⟨_, _, hs⟩ h => (congrArg Settings.inRange hs).mpr h
      settings := fun _ _ hx h => hx h }
    Settings.default_inRange

/-! ### The directory (R46, R47, R53, R58) -/

theorem directorySound_stable : Stable State.directorySound :=
  TableStable.stable
    { reads := fun s t ⟨_, hs, _⟩ h => h.sublist (subOfEq (congrArg _ hs)) (hs ▸ h.2.1)
      carTaken := fun s c h => h.sublist (subOfEq (FieldStable.under_entries c s.stations)) fun st hst => by
        obtain ⟨x, hx, rfl⟩ := List.mem_map.1 hst
        exact (h.2.1 x hx).under c
      stations := fun s x hx _ hk h => h.sublist hx (hk h)
      insertStation := fun s e he hf h => h.insert he hf }
    reset_stations.2.2

/-- Settles O6. -/
theorem stationsAndSettingsStaySound : Obligations.StationsAndSettingsStaySound :=
  ⟨fun _ _ h ht => stationsSound_stable.step (fun _ _ h => h) h ht,
    fun _ _ h ht => settingsSound_stable.step (fun _ _ h => h) h ht,
    fun _ _ h ht => directorySound_stable.step (fun _ _ h => h) h ht⟩

end Sys2Proof.Machine
end

section
/-! PROOFS. The Retention Estimator: refill and drain, the check of a prediction and the adaptation at a miss (spec/03). -/

namespace Sys2Proof.Machine

/-! ### Refill and drain (R32 to R36) -/

theorem spanOf_le (mark : Bool) (later earlier : Time) : spanOf mark later earlier ≤ 65535 := by
  unfold spanOf
  split
  · exact Nat.le_refl _
  · exact Nat.min_le_left _ _

/-- Settles O21. -/
theorem refillArithmetic : Obligations.RefillArithmetic := by
  refine ⟨fun e q p _ hq hk hp => ?_, fun raw opens mark s => ⟨spanOf_le .., rfl⟩⟩
  have bound : e.carry + p ≤ 63 + 65535 := by omega
  exact ⟨rfl, rfl, rfl, rfl, rfl, bound, (Nat.div_le_self _ _).trans bound⟩

theorem Estimate.drain_kept {e : Estimate} {d : Nat} (h : d < e.reserve) :
    e.drain d = { e with reserve := e.reserve - d } := if_pos h

theorem Estimate.drain_spent {e : Estimate} {d : Nat} (h : e.reserve ≤ d) :
    e.drain d =
      { e with overdraw := min Config.spanLimit (e.overdraw + (d - e.reserve)), reserve := 0, lost := true } :=
  if_neg (Nat.not_lt_of_le h)

/-- Settles O22. -/
theorem drainArithmetic : Obligations.DrainArithmetic := by
  refine fun e d => ⟨Estimate.drain_kept, Estimate.drain_spent, fun hl => ?_⟩
  rcases Nat.lt_or_ge d e.reserve with h | h
  · rw [Estimate.drain_kept h]
    exact hl
  · rw [Estimate.drain_spent h]

/-! ### A change of one job -/

theorem updJob_job? (s : State) (n m : Nat) {f : Job → Job} (hf : ∀ j, (f j).station = j.station) :
    (s.updJob n f).job? m = if m = n then (s.job? n).map f else s.job? m := by
  have hp : ((fun j : Job => decide (j.station = m)) ∘ fun j => if j.station = n then f j else j) =
      fun j => decide (j.station = m) := funext fun j => by
    simp only [Function.comp]
    split <;> simp [hf]
  have hmap : (s.updJob n f).job? m = (s.job? m).map fun j => if j.station = n then f j else j := by
    unfold State.job?
    rw [State.updJob_engine, List.find?_map, hp]
  rw [hmap]
  cases hj : s.job? m with
  | none =>
    split
    · rename_i hm
      rw [← hm, hj]
      rfl
    · rfl
  | some j =>
    have hjm : j.station = m := by simpa using List.find?_some hj
    split
    · rename_i hm
      rw [← hm, hj]
      simp [hjm]
    · rename_i hm
      simp [hjm, hm]

/-! ### The check of a prediction (R39, R40) -/

theorem findingIntact_iff (r : Report) (tag : Word) :
    findingIntact r tag = decide (r.state ≠ .blank ∧ r.tag = tag) := by
  simp only [findingIntact, Bool.decide_and]

/-- The check at the first outcome: the job's result set, and its station's working capacity adapted where a GAP job misses
with adaptation on. -/
theorem checkPrediction_first {n : Nat} {j : Job} {s : State} (h : s.job? n = some j) (hr : j.result = .none) (r : Report)
    (tag : Word) :
    checkPrediction n r tag s =
      let result := predictionResult j.prediction (findingIntact r tag)
      let checked := s.updJob n fun j => { j with result := result }
      if result = .miss ∧ j.origin = .gap ∧ s.settings.adaptation = true then
        checked.updStation n fun x => { x with estimate := x.estimate.adapt x.entry.capacity j.prediction }
      else checked := by
  unfold checkPrediction
  simp only [h, hr, if_true, Bool.and_eq_true, decide_eq_true_eq, and_assoc]

/-- A later outcome changes nothing. -/
theorem checkPrediction_later {n : Nat} {j : Job} {s : State} (h : s.job? n = some j) (hr : j.result ≠ .none) (r : Report)
    (tag : Word) : checkPrediction n r tag s = s := by
  simp only [checkPrediction, h, if_neg hr]

theorem checkPrediction_job? {n : Nat} {j : Job} {s : State} (h : s.job? n = some j) (hr : j.result = .none) (r : Report)
    (tag : Word) (m : Nat) :
    (checkPrediction n r tag s).job? m =
      if m = n then some { j with result := predictionResult j.prediction (findingIntact r tag) } else s.job? m := by
  have hu := updJob_job? s n m
    (f := fun j' => { j' with result := predictionResult j.prediction (findingIntact r tag) }) fun _ => rfl
  rw [h] at hu
  rw [checkPrediction_first h hr]
  dsimp only
  split <;> exact hu

/-- What the check leaves: all but the queue and the stations. -/
theorem checkPrediction_frame {n : Nat} {j : Job} {s : State} (h : s.job? n = some j) (hr : j.result = .none) (r : Report)
    (tag : Word) :
    checkPrediction n r tag s =
      { s with
        engine := { s.engine with queue := (checkPrediction n r tag s).engine.queue }
        stations := (checkPrediction n r tag s).stations } := by
  rw [checkPrediction_first h hr]
  dsimp only
  split <;> rfl

theorem checkPrediction_stations {n : Nat} {j : Job} {s : State} (h : s.job? n = some j) (hr : j.result = .none) (r : Report)
    (tag : Word) :
    (checkPrediction n r tag s).stations =
      if predictionResult j.prediction (findingIntact r tag) = .miss ∧ j.origin = .gap ∧ s.settings.adaptation = true then
        s.stations.map fun st =>
          if st.entry.number = n then { st with estimate := st.estimate.adapt st.entry.capacity j.prediction } else st
      else s.stations := by
  rw [checkPrediction_first h hr]
  dsimp only
  split <;> rfl

/-- Settles O24. -/
theorem predictionChecked : Obligations.PredictionChecked := by
  intro s n r tag j _ hj intact result
  have hres : predictionResult j.prediction (findingIntact r tag) = result := by
    rw [findingIntact_iff]
    change predictionResult j.prediction intact = result
    unfold predictionResult result
    cases j.prediction <;> cases intact <;> rfl
  refine ⟨fun hn => checkPrediction_later hj hn r tag, fun hn => ⟨checkPrediction_frame hj hn r tag, ?_, fun m hm => ?_, ?_⟩⟩
  · rw [checkPrediction_job? hj hn, if_pos rfl, hres]
  · rw [checkPrediction_job? hj hn, if_neg hm]
  · rw [checkPrediction_stations hj hn, hres]

/-! ### The adaptation at a miss (R41, R42) -/

/-- A miss of a GAP job with adaptation on adapts its station's values. -/
theorem checkPrediction_adapts {n : Nat} {j : Job} {st : Station} {s : State} (hj : s.job? n = some j)
    (hs : s.station? n = some st) (hr : j.result = .none) (ho : j.origin = .gap) (ha : s.settings.adaptation = true)
    {r : Report} {tag : Word} (hm : predictionResult j.prediction (findingIntact r tag) = .miss) :
    ((checkPrediction n r tag s).station? n).map (·.estimate) =
      some (st.estimate.adapt st.entry.capacity j.prediction) := by
  have hu := updStation_station? (s.updJob n fun j' => { j' with result := predictionResult j.prediction (findingIntact r tag) })
    n n (f := fun x => { x with estimate := x.estimate.adapt x.entry.capacity j.prediction }) fun _ => rfl
  have hst : (s.updJob n fun j' => { j' with result := predictionResult j.prediction (findingIntact r tag) }).station? n =
      some st := hs
  rw [if_pos rfl, hst] at hu
  rw [checkPrediction_first hj hr]
  dsimp only
  rw [if_pos ⟨hm, ho, ha⟩, hu]
  rfl

/-- Settles O23. -/
theorem adaptationAtMiss : Obligations.AdaptationAtMiss := by
  intro s n r tag j st hj hs ho ha hr after
  refine ⟨fun hp hf => ?_, fun hp hb ht => ?_⟩
  · have hi : findingIntact r tag = false := by
      rw [findingIntact_iff, decide_eq_false_iff_not]
      tauto
    rw [show after = _ from checkPrediction_adapts hj hs hr ho ha (by rw [hp, hi]; rfl), hp]
    rfl
  · have hi : findingIntact r tag = true := by
      rw [findingIntact_iff, decide_eq_true_iff]
      exact ⟨hb, ht⟩
    have hafter : after = some (st.estimate.adapt st.entry.capacity .lost) := by
      rw [← hp]
      exact checkPrediction_adapts hj hs hr ho ha (by rw [hp, hi]; rfl)
    refine ⟨hafter, fun hc => ?_⟩
    rw [hafter, hc]
    simp [Estimate.adapt]

end Sys2Proof.Machine
end

section
/-! PROOFS. An accepted NODE DEFINE (spec/04, 4.1). -/

namespace Sys2Proof.Machine

/-! ### The notice of a presence that is set (R52) -/

/-- The state once the notice of a presence that is set has been posted, where R52 calls for one. -/
def State.presencePosted (n : Nat) (p : Presence) (s : State) : State :=
  match s.station? n with
  | none => s
  | some st =>
    if st.presence ≠ p ∧ presenceReported s.settings.presenceMode st.presence p = true then postNotice (.presence n p) s
    else s

/-- A presence set changes the stations, and posts its notice. -/
theorem setPresence_posted (n : Nat) (p : Presence) (s : State) :
    setPresence n p s =
      { s with
        stations := (setPresence n p s).stations
        link := (s.presencePosted n p).link, pins := (s.presencePosted n p).pins } := by
  cases hs : s.station? n with
  | none => simp only [setPresence, State.presencePosted, hs]
  | some st =>
    simp only [setPresence, State.presencePosted, hs]
    by_cases hp : st.presence = p
    · simp only [hp, if_true, ne_eq, not_true_eq_false, false_and, if_false]
    · simp only [hp, if_false, ne_eq, not_false_eq_true, true_and]
      split
      · have hn := postNotice_notified (n := s) (s := s.updStation n fun x => { x with presence := p })
          ⟨rfl, rfl, rfl, rfl⟩ (.presence n p)
        rw [hn]
        rfl
      · rfl

/-! ### An entry written (R48) -/

theorem defineStation_station? (e : Entry) (s : State) (m : Nat) :
    (defineStation e s).station? m = if m = e.number then some (Station.defined e) else s.station? m := by
  have hs : (defineStation e s).stations = insertStation (Station.defined e) (setPresence e.number .absent s).stations := rfl
  rw [State.station?, hs, find_insertStation]
  by_cases hm : m = e.number
  · exact (if_pos hm).trans (if_pos hm).symm
  · refine (if_neg hm).trans (Eq.trans ?_ (if_neg hm).symm)
    exact (setPresence_station? e.number .absent s m).trans (if_neg hm)

/-- What an entry written changes: the stations, the push entry and the pending poll of its station, and the notices. -/
theorem defineStation_frame (e : Entry) (s : State) :
    defineStation e s =
      { s with
        stations := (defineStation e s).stations
        pushA := s.pushA.filter (·.station ≠ e.number)
        pushB := s.pushB.filter (·.station ≠ e.number)
        laneA :=
          { s.laneA with pendingPoll := if s.laneA.pendingPoll = some e.number then none else s.laneA.pendingPoll }
        laneB :=
          { s.laneB with pendingPoll := if s.laneB.pendingPoll = some e.number then none else s.laneB.pendingPoll }
        link := (s.presencePosted e.number .absent).link
        pins := (s.presencePosted e.number .absent).pins } := by
  have hl : ∀ x : LaneState, (if x.pendingPoll = some e.number then { x with pendingPoll := none } else x) =
      { x with pendingPoll := if x.pendingPoll = some e.number then none else x.pendingPoll } := fun x => by
    split <;> rfl
  have hp := setPresence_posted e.number .absent s
  unfold defineStation
  rw [hp, ← hl, ← hl]
  rfl

/-! ### The request (R47) -/

theorem serveNodeDefine_taken {payload : List Byte} {e : Entry} {s : State} (hlen : payload.length = 11)
    (hside : sideAgrees payload = true) (he : readEntry payload = some e) (hl : laneFull e s = false)
    (hj : s.hasJob e.number = false) (hb : stationBusy e.number s = false) (hc : entryConflicts e s = false) :
    serveNodeDefine payload s = taken [] (defineStation e s) := by
  simp only [serveNodeDefine, hlen, hside, he, hl, hj, hb, hc, ne_eq, not_true_eq_false, decide_false, Bool.not_true,
    Bool.or_self, Bool.false_eq_true, if_false]

/-- Settles O25. -/
theorem nodeDefineTaken : Obligations.NodeDefineTaken := by
  intro s tag payload e h hlen hside he hl hj hb hc reported
  have hk : serveKind (requestOf 0x06 tag payload) s = taken [] (defineStation e s) :=
    serveNodeDefine_taken hlen hside he hl hj hb hc
  exact ⟨defineStation e s, exec_takes (requestOf 0x06 tag payload) h rfl hk, defineStation_frame e s,
    (defineStation_station? e s e.number).trans (if_pos rfl),
    fun m hm => (defineStation_station? e s m).trans (if_neg hm)⟩

end Sys2Proof.Machine
end

section
/-! PROOFS. The park record: its check, and what a place gives back (spec/10, 10.1; spec/11, 11.5). -/

namespace Sys2Proof.Machine

/-! ### Little-endian fields at an index (11.1) -/

theorem byteAt_append (xs ys : List Byte) (i : Nat) : byteAt (xs ++ ys) (xs.length + i) = byteAt ys i := by
  simp [byteAt, List.getD_eq_getElem?_getD, List.getElem?_append_right]

theorem word32_le32 (w : Word) :
    word32 (byte w.toNat) (byte (w.toNat / 256)) (byte (w.toNat / 65536)) (byte (w.toNat / 16777216)) = w := by
  have hw := w.isLt
  refine BitVec.eq_of_toNat_eq ?_
  simp only [word32, byte, BitVec.toNat_ofNat]
  omega

theorem wordAt_le32 (xs ys : List Byte) (w : Word) : wordAt (xs ++ (le32 w ++ ys)) xs.length = w := by
  rw [wordAt, byteAt_append xs _ 1, byteAt_append xs _ 2, byteAt_append xs _ 3, ← Nat.add_zero xs.length,
    byteAt_append xs _ 0]
  exact word32_le32 w

/-! ### The record (R168, R169, R172) -/

theorem parkPlace_length (st : Station) : (parkPlace st).length = 20 := by
  simp [parkPlace, le16, ones]

theorem emptyPlace_length (draw place : Nat) : (emptyPlace draw place).length = 20 := by
  simp [emptyPlace]

/-- The place of an index: that of a station, or an empty one. -/
def placeAt (draw : Nat) (stations : List Station) (i : Nat) : List Byte :=
  match stations[i]? with
  | some st => parkPlace st
  | none => emptyPlace draw i

theorem placeAt_length (draw : Nat) (stations : List Station) (i : Nat) : (placeAt draw stations i).length = 20 := by
  unfold placeAt
  split
  · exact parkPlace_length _
  · exact emptyPlace_length draw i

theorem parkPlaces_length (draw : Nat) (stations : List Station) : (parkPlaces draw stations).length = 480 := by
  have h : parkPlaces draw stations = (List.range 24).flatMap (placeAt draw stations) := rfl
  simp only [h, List.length_flatMap, placeAt_length, List.map_const', List.length_range, List.sum_replicate, smul_eq_mul]

theorem parkBody_length (draw : Nat) (stations : List Station) : (parkBody draw stations).length = 492 := by
  simp [parkBody, parkMarker, le16, parkPlaces_length]

/-- The two pages of a park record hold it whole, with 16 bytes of all ones after it. -/
theorem parkPages_eq (draw : Nat) (stations : List Station) :
    (parkImage draw stations).take 256 ++ parkPage2 (parkImage draw stations) =
      parkBody draw stations ++ (le32 (crc32 (parkBody draw stations)) ++ ones 16) := by
  have hlen : (parkImage draw stations).length = 496 := by simp [parkImage, parkBody_length, le32]
  have hrest : ((parkImage draw stations).drop 256).take 240 = (parkImage draw stations).drop 256 :=
    List.take_of_length_le (by simp [hlen])
  rw [parkPage2, hrest, ← List.append_assoc, List.take_append_drop, parkImage, List.append_assoc]

theorem parkValid_pages (draw : Nat) {stations : List Station} (h : stations.length ≤ 24) :
    parkValid ((parkImage draw stations).take 256 ++ parkPage2 (parkImage draw stations)) = true := by
  have hcount : num16At (parkBody draw stations ++ (le32 (crc32 (parkBody draw stations)) ++ ones 16)) 10 =
      stations.length := nat16_le16 _ (by omega)
  have hword := wordAt_le32 (parkBody draw stations) (ones 16) (crc32 (parkBody draw stations))
  have hbody := List.take_left (l₁ := parkBody draw stations) (l₂ := le32 (crc32 (parkBody draw stations)) ++ ones 16)
  rw [parkBody_length] at hword hbody
  rw [parkPages_eq]
  simp only [parkValid, hcount, hword, hbody, h, decide_true, Bool.and_true, Bool.and_eq_true, decide_eq_true_eq]
  exact ⟨rfl, rfl⟩

/-! ### The fields of a place (Figure 11-7, R178) -/

/-- A fold that adds powers of two adds those of the numbers that it takes. -/
theorem foldl_addPowers (p : Nat → Bool) (ks : List Nat) (m : Nat) :
    ks.foldl (fun m k => if p k = true then m + 2 ^ k else m) m = m + (ks.map fun k => (p k).toNat * 2 ^ k).sum := by
  induction ks generalizing m with
  | nil => rfl
  | cons k ks ih =>
    rw [List.foldl_cons, ih, List.map_cons, List.sum_cons]
    cases p k <;> simp [Nat.add_assoc]

theorem Fields.mask_sum (f : Fields) : f.mask = (fieldCodes.map fun k => (f.get k).isSome.toNat * 2 ^ k).sum :=
  (foldl_addPowers (fun k => (f.get k).isSome) fieldCodes 0).trans (Nat.zero_add _)

/-- A bit of the field mask is set where the field is present. -/
theorem Fields.mask_bit (f : Fields) {k : Nat} (hk : k ∈ fieldCodes) : f.mask / 2 ^ k % 2 = (f.get k).isSome.toNat := by
  have bit : ∀ c, (f.get c).isSome.toNat ≤ 1 := fun c => Bool.toNat_le _
  have b0 := bit 0
  have b1 := bit 1
  have b2 := bit 2
  have b3 := bit 3
  have b4 := bit 4
  have b5 := bit 5
  have b6 := bit 6
  have b7 := bit 7
  have b8 := bit 8
  rw [f.mask_sum]
  simp only [fieldCodes, List.map_cons, List.map_nil, List.sum_cons, List.sum_nil]
  simp only [fieldCodes, List.mem_cons, List.not_mem_nil, or_false] at hk
  rcases hk with rfl | rfl | rfl | rfl | rfl | rfl | rfl | rfl | rfl <;> omega

theorem Fields.mask_lt (f : Fields) : f.mask < 65536 := by
  have h : ∀ k, (f.get k).isSome.toNat * 2 ^ k ≤ 1 * 2 ^ k := fun k => Nat.mul_le_mul_right _ (Bool.toNat_le _)
  refine Nat.lt_of_le_of_lt (f.mask_sum ▸ List.sum_le_sum fun k _ => h k) (by decide)

theorem le_of_mem_fieldCodes : ∀ {k : Nat}, k ∈ fieldCodes → k ≤ 8 := by
  decide

/-- The bytes of a field, none where it is absent. -/
def Fields.bytesOf (f : Fields) (k : Nat) : List Byte :=
  match f.get k with
  | none => []
  | some v => valueBytes k v

theorem Fields.values_eq (f : Fields) : f.values = fieldCodes.flatMap f.bytesOf := rfl

theorem valueBytes_length (k v : Nat) : (valueBytes k v).length = fieldWidth k := by
  unfold valueBytes fieldWidth
  split <;> rfl

theorem Fields.bytesOf_length (f : Fields) (k : Nat) : (f.bytesOf k).length ≤ fieldWidth k := by
  unfold Fields.bytesOf
  split
  · exact Nat.zero_le _
  · exact (valueBytes_length ..).le

/-- The values of a record fill at most 11 bytes. -/
theorem Fields.values_length (f : Fields) : f.values.length ≤ 11 := by
  rw [f.values_eq, List.length_flatMap]
  exact (List.sum_le_sum fun k _ => f.bytesOf_length k).trans (by decide)

/-- A value that is taken unchanged fits the bytes of its field. -/
theorem judgeField_fits {k v : Nat} (h : judgeField k v = some v) : v < if fieldWidth k = 2 then 65536 else 256 := by
  unfold judgeField at h
  split at h
  all_goals simp [fieldWidth] at h ⊢
  all_goals omega

/-- The value of a field is read back from its bytes. -/
theorem valueBytes_read {k v : Nat} (h : judgeField k v = some v) (rest : List Byte) :
    (if fieldWidth k = 2 then num16At (valueBytes k v ++ rest) 0 else numAt (valueBytes k v ++ rest) 0) = v := by
  have hv := judgeField_fits h
  unfold valueBytes
  split
  · rename_i hw
    rw [if_pos hw] at hv
    exact nat16_le16 v hv
  · rename_i hw
    rw [if_neg hw] at hv
    exact Nat.mod_eq_of_lt hv

/-- The fields read from their own values, in code order: those of the codes listed that are present. -/
theorem readFields_values {kind : Kind} {f : Fields} (hr : f.inRange) (hb : f.belongTo kind) {ks : List Nat}
    (hks : ∀ k ∈ ks, k ∈ fieldCodes) (rest : List Byte) (g : Fields) (c : Nat) :
    (readFields kind f.mask ks (ks.flatMap f.bytesOf ++ rest) g).get c =
      if c ∈ ks then (f.get c).or (g.get c) else g.get c := by
  induction ks generalizing g with
  | nil => simp [readFields]
  | cons k ks ih =>
    have ih := ih fun x hx => hks x (List.mem_cons_of_mem _ hx)
    have hk : k ∈ fieldCodes := hks k (List.mem_cons_self ..)
    have hbit := f.mask_bit hk
    unfold readFields
    cases hv : f.get k with
    | none =>
      have he : (k :: ks).flatMap f.bytesOf = ks.flatMap f.bytesOf := by
        simp [List.flatMap_cons, Fields.bytesOf, hv]
      rw [hv] at hbit
      rw [if_pos (show f.mask / 2 ^ k % 2 = 0 from hbit), he, ih]
      by_cases hc : c = k
      · simp [hc, hv]
      · simp [hc]
    | some v =>
      have hj := hr k hk v hv
      have he : (k :: ks).flatMap f.bytesOf ++ rest = valueBytes k v ++ (ks.flatMap f.bytesOf ++ rest) := by
        simp [List.flatMap_cons, Fields.bytesOf, hv]
      have hlen : ¬(valueBytes k v ++ (ks.flatMap f.bytesOf ++ rest)).length < fieldWidth k := by
        rw [List.length_append, valueBytes_length]
        omega
      have hdrop : (valueBytes k v ++ (ks.flatMap f.bytesOf ++ rest)).drop (fieldWidth k) = ks.flatMap f.bytesOf ++ rest :=
        List.drop_left' (valueBytes_length k v)
      have hk8 : k ≤ 8 := le_of_mem_fieldCodes hk
      have hset : ¬f.mask / 2 ^ k % 2 = 0 := by simp [hbit, hv]
      rw [if_neg hset, he, if_neg hlen]
      dsimp only
      rw [valueBytes_read hj, hdrop, if_pos (hb k v hv), hj]
      dsimp only
      rw [ih, Fields.get_put g c k (some v) hk8]
      by_cases hc : c = k
      · simp [hc, hv]
      · simp [hc]

theorem Fields.ext_get {f g : Fields} (h : ∀ c ∈ fieldCodes, f.get c = g.get c) : f = g := by
  obtain ⟨_, _, _, _, _, _, _, _, _⟩ := f
  obtain ⟨_, _, _, _, _, _, _, _, _⟩ := g
  simpa [fieldCodes, Fields.get] using h

/-- A record is read back from its mask and its values, whatever bytes follow them. -/
theorem readFields_whole {kind : Kind} {f : Fields} (hr : f.inRange) (hb : f.belongTo kind) (rest : List Byte) :
    readFields kind f.mask fieldCodes (f.values ++ rest) Fields.blank = f := by
  refine Fields.ext_get fun c hc => ?_
  rw [f.values_eq, readFields_values hr hb (fun _ h => h), if_pos hc, Fields.blank_get, Option.or_none]

/-! ### A place (R43, R66, R178) -/

/-- What the bytes of a filled place say: the field mask, the epoch, the working capacity and the values. -/
theorem parkPlace_read {st : Station} (he : st.context.epoch < 65536) (hw : st.estimate.working < 65536) :
    num16At (parkPlace st) 2 = st.context.fields.mask ∧ num16At (parkPlace st) 4 = st.context.epoch ∧
      num16At (parkPlace st) 6 = st.estimate.working ∧
      ((parkPlace st).drop 8).take 12 = (st.context.fields.values ++ ones 12).take 12 :=
  ⟨nat16_le16 _ st.context.fields.mask_lt, nat16_le16 _ he, nat16_le16 _ hw,
    List.take_of_length_le (List.length_take_le ..)⟩

/-- Settles O59. -/
theorem parkReadsBack : Obligations.ParkReadsBack := by
  refine ⟨fun draw stations h => parkValid_pages draw h, fun car st hs hb => ?_⟩
  intro fresh
  obtain ⟨hentry, ⟨-, hcap, -, -⟩, hepoch, hepoch', hfields, hrelease⟩ := hs
  have hcap' : st.entry.capacity ≤ 2000 := by
    unfold Entry.inRange at hentry
    omega
  obtain ⟨hmask, hep, hwork, harea⟩ := parkPlace_read (st := st) (by omega) (by omega)
  have hread : fresh.context.fields = st.context.fields := by
    have h12 : (st.context.fields.values ++ ones 12).take 12 =
        st.context.fields.values ++ (ones 12).take (12 - st.context.fields.values.length) := by
      rw [List.take_append, List.take_of_length_le (st.context.fields.values_length.trans (by decide))]
    show readFields st.entry.kind (num16At (parkPlace st) 2) fieldCodes (((parkPlace st).drop 8).take 12) Fields.blank = _
    rw [hmask, harea, h12]
    exact readFields_whole hfields hb _
  refine ⟨parkPlace_length st, hread, ?_, ?_, ?_⟩
  · show (if num16At (parkPlace st) 4 = 0 then 1 else num16At (parkPlace st) 4) = _
    rw [hep, if_neg (by omega)]
  · show min st.entry.capacity (num16At (parkPlace st) 6) = _
    rw [hwork, Nat.min_eq_right hcap]
  · rw [hrelease, ← hread]
    rfl

end Sys2Proof.Machine
end

section
/-! PROOFS. A pass built in LINE: the order in which stations join, and what becomes of carried jobs (spec/05, 5.3; spec/03,
3.5). -/

namespace Sys2Proof.Machine

/-! ### The order of those that join (R71) -/

/-- The stations without a job of a class, predicted LOST or KEPT, in station order. -/
def State.joiners (s : State) (c : Nat) (lost : Bool) : List Station :=
  s.stations.filter fun st =>
    decide (s.hasJob st.entry.number = false ∧ st.entry.restoreClass = c ∧ st.estimate.lost = lost)

theorem joiningOrder_eq (s : State) :
    joiningOrder s = [0, 1, 2, 3].flatMap fun c => s.joiners c true ++ s.joiners c false := by
  have h : ∀ (c : Nat) (lost : Bool) (p : Station → Bool),
      (∀ st, p st = decide (st.entry.restoreClass = c ∧ st.estimate.lost = lost)) →
      (s.stations.filter fun st => !(s.hasJob st.entry.number)).filter p = s.joiners c lost := fun c lost p hp => by
    rw [List.filter_filter, State.joiners]
    refine List.filter_congr fun st _ => ?_
    rw [hp]
    cases s.hasJob st.entry.number <;> simp
  unfold joiningOrder
  refine congrArg (List.flatMap · [0, 1, 2, 3]) (funext fun c => congrArg₂ _ (h c true _ fun st => ?_) (h c false _ fun st => ?_))
  · cases st.estimate.lost <;> simp
  · cases st.estimate.lost <;> simp

theorem mem_joiners {s : State} {c : Nat} {lost : Bool} {st : Station} (h : st ∈ s.joiners c lost) :
    st ∈ s.stations ∧ s.hasJob st.entry.number = false ∧ st.entry.restoreClass = c ∧ st.estimate.lost = lost := by
  simpa [State.joiners] using h

/-- Of those that join, the ones of a class: those predicted LOST first. -/
theorem joiningOrder_class (s : State) {c : Nat} (hc : c ≤ 3) :
    (joiningOrder s).filter (fun st => st.entry.restoreClass = c) = s.joiners c true ++ s.joiners c false := by
  have h : ∀ d lost, (s.joiners d lost).filter (fun st => st.entry.restoreClass = c) =
      if d = c then s.joiners d lost else [] := fun d lost => by
    split
    · rename_i hd
      exact List.filter_eq_self.2 fun st hst => by simp [(mem_joiners hst).2.2.1, hd]
    · rename_i hd
      exact List.filter_eq_nil_iff.2 fun st hst => by simp [(mem_joiners hst).2.2.1, hd]
  have hcases : c = 0 ∨ c = 1 ∨ c = 2 ∨ c = 3 := by omega
  rw [joiningOrder_eq]
  simp only [List.flatMap_cons, List.flatMap_nil, List.filter_append, h]
  rcases hcases with rfl | rfl | rfl | rfl <;> simp

/-- No station joins twice. -/
theorem joiningOrder_nodup {s : State} (h : s.stationsOrdered) : ((joiningOrder s).map (·.entry.number)).Nodup := by
  have hst : s.stations.Nodup := List.Nodup.of_map _ (List.Pairwise.imp (fun hlt => Nat.ne_of_lt hlt) h)
  have hnodup : (joiningOrder s).Nodup := by
    rw [joiningOrder_eq, List.nodup_flatMap]
    refine ⟨fun c _ => List.nodup_append'.2 ⟨hst.filter _, hst.filter _, fun st h1 h2 => ?_⟩, ?_⟩
    · exact absurd ((mem_joiners h1).2.2.2.symm.trans (mem_joiners h2).2.2.2) (by decide)
    · refine List.Pairwise.imp (R := (· ≠ ·)) (fun {c d} hne st h1 h2 => hne ?_) (by decide)
      have hclass : ∀ {c}, st ∈ s.joiners c true ++ s.joiners c false → st.entry.restoreClass = c := fun hm =>
        (List.mem_append.1 hm).elim (fun h => (mem_joiners h).2.2.1) fun h => (mem_joiners h).2.2.1
      exact (hclass h1).symm.trans (hclass h2)
  exact hnodup.map_on fun x hx y hy he => h.sameNumber (mem_joiningOrder.1 hx).1 (mem_joiningOrder.1 hy).1 he

theorem State.stationsOrdered.classOf {s : State} (h : s.stationsOrdered) {st : Station} (hst : st ∈ s.stations) :
    s.classOf st.entry.number = st.entry.restoreClass := by
  have hf : (s.station? st.entry.number).isSome = true := List.find?_isSome.2 ⟨st, hst, by simp⟩
  obtain ⟨x, hx⟩ := Option.isSome_iff_exists.1 hf
  have he : x = st := h.sameNumber (List.mem_of_find?_eq_some hx) hst (by simpa using List.find?_some hx)
  simp only [State.classOf, hx, he]

/-! ### The queue as jobs join (R71) -/

/-- The stations of the jobs of a class, in queue order. -/
def stationsInClass (classOf : Nat → Nat) (c : Nat) (js : List Job) : List Nat :=
  (js.filter fun j => classOf j.station = c).map (·.station)

/-- A job that joins stands at the tail of its class. -/
theorem stationsInClass_insertJob {classOf : Nat → Nat} {j : Job} {js : List Job}
    (h : (js.map fun j => classOf j.station).Pairwise (· ≤ ·)) (c : Nat) :
    stationsInClass classOf c (insertJob classOf j js) =
      stationsInClass classOf c js ++ if classOf j.station = c then [j.station] else [] := by
  unfold stationsInClass
  induction js with
  | nil =>
    by_cases hc : classOf j.station = c <;> simp [insertJob, hc]
  | cons x js ih =>
    obtain ⟨hx, hjs⟩ := List.pairwise_cons.1 h
    unfold insertJob
    split
    · rename_i hlt
      have hnone : classOf j.station = c → (x :: js).filter (fun j => classOf j.station = c) = [] := fun hc => by
        refine List.filter_eq_nil_iff.2 fun y hy => ?_
        have hle : classOf x.station ≤ classOf y.station := by
          rcases List.mem_cons.1 hy with rfl | hy
          · exact Nat.le_refl _
          · exact hx _ (List.mem_map_of_mem hy)
        simp only [decide_eq_true_eq]
        omega
      by_cases hc : classOf j.station = c
      · rw [List.filter_cons_of_pos (by simpa using hc), hnone hc]
        simp [hc]
      · rw [List.filter_cons_of_neg (by simpa using hc)]
        simp [hc]
    · have ih := ih hjs
      by_cases hc : classOf x.station = c <;> simp [hc, ih]

theorem joinJob_free {n : Nat} {s : State} (h : s.hasJob n = false) (o : Origin) (p : Prediction) :
    joinJob n o p s = addJob n o p s := by
  simp [joinJob, h]

/-- Stations without a job join in the order given, each at the tail of its class. -/
theorem joinAll_classes (o : Origin) {xs : List Station} {s : State}
    (hfree : ∀ st ∈ xs, s.hasJob st.entry.number = false) (hnodup : (xs.map (·.entry.number)).Nodup)
    (h : (s.engine.queue.map fun j => s.classOf j.station).Pairwise (· ≤ ·)) :
    ((joinAll o xs s).engine.queue.map fun j => s.classOf j.station).Pairwise (· ≤ ·) ∧
      ∀ c, stationsInClass s.classOf c (joinAll o xs s).engine.queue =
        stationsInClass s.classOf c s.engine.queue ++
          (xs.filter fun st => s.classOf st.entry.number = c).map (·.entry.number) := by
  induction xs generalizing s with
  | nil => exact ⟨h, fun c => by simp [joinAll]⟩
  | cons st xs ih =>
    obtain ⟨hst, hxs⟩ := List.nodup_cons.1 hnodup
    have hf := hfree st (List.mem_cons_self ..)
    have hjoin : joinAll o (st :: xs) s = joinAll o xs (addJob st.entry.number o st.estimate.prediction s) := by
      rw [← joinJob_free hf]
      rfl
    have hfree' : ∀ x ∈ xs, (addJob st.entry.number o st.estimate.prediction s).hasJob x.entry.number = false :=
      fun x hx => by
        have hne : x.entry.number ≠ st.entry.number := fun he => hst (List.mem_map.2 ⟨x, hx, he⟩)
        rw [State.hasJob, addJob_job? hf, if_neg hne]
        exact hfree x (List.mem_cons_of_mem _ hx)
    obtain ⟨hord, hcls⟩ := ih (s := addJob st.entry.number o st.estimate.prediction s) hfree' hxs (insertJob_ordered h)
    rw [hjoin]
    refine ⟨hord, fun c => (hcls c).trans ?_⟩
    have hq : stationsInClass s.classOf c (addJob st.entry.number o st.estimate.prediction s).engine.queue =
        stationsInClass s.classOf c s.engine.queue ++ if s.classOf st.entry.number = c then [st.entry.number] else [] :=
      stationsInClass_insertJob h c
    refine (congrArg (· ++ _) hq).trans ?_
    show _ ++ (xs.filter fun st => s.classOf st.entry.number = c).map (·.entry.number) = _
    by_cases hc : s.classOf st.entry.number = c <;> simp [hc]

/-- What every job of the queue has, and every job that joins, all have once the stations have joined. -/
theorem joinAll_forall {Q : Job → Prop} (o : Origin) (xs : List Station) {s : State} (h : ∀ j ∈ s.engine.queue, Q j)
    (hnew : ∀ n id p, Q (Job.create n id o p s.joinPass)) : ∀ j ∈ (joinAll o xs s).engine.queue, Q j := by
  induction xs generalizing s with
  | nil => exact h
  | cons st xs ih =>
    refine ih (s := joinJob st.entry.number o st.estimate.prediction s) ?_ fun n id p => by
      rw [(jobsJoin_joinJob ..).joinPass]
      exact hnew n id p
    unfold joinJob
    split
    · exact h
    · intro j hj
      rcases List.mem_cons.1 ((insertJob_perm _ _ s.engine.queue).mem_iff.1 hj) with rfl | hj
      · exact hnew ..
      · exact h j hj

/-- Of a lane, stations that join withdraw a pending poll at most. -/
theorem joinAll_lane (o : Origin) (xs : List Station) (s : State) (l : Lane) :
    (joinAll o xs s).lane l = { s.lane l with pendingPoll := ((joinAll o xs s).lane l).pendingPoll } := by
  induction xs generalizing s with
  | nil => rfl
  | cons st xs ih =>
    have hj : ∃ p, (joinJob st.entry.number o st.estimate.prediction s).lane l = { s.lane l with pendingPoll := p } := by
      unfold joinJob
      split
      · exact ⟨_, rfl⟩
      · rw [addJob_lane]
        split <;> exact ⟨_, rfl⟩
    obtain ⟨p, hp⟩ := hj
    have hx := ih (joinJob st.entry.number o st.estimate.prediction s)
    rw [hp] at hx
    exact hx

/-! ### The jobs carried (R37, R73) -/

/-- The state in which every job is carried into the new pass, and every lost flag is clear. -/
def State.carried (s : State) : State := carryAll (nextPass s.engine.pass) s.predictionOf (clearLost s)

theorem State.carried_classOf (s : State) : s.carried.classOf = s.classOf := by
  have he : (clearLost s).stations.map (·.entry) = s.stations.map (·.entry) := by
    rw [clearLost, State.eachStation, List.map_map]
    exact List.map_congr_left fun _ _ => rfl
  funext n
  have hf := find_entry he n
  show (clearLost s).classOf n = s.classOf n
  unfold State.classOf State.station?
  cases h1 : (clearLost s).stations.find? fun st => decide (st.entry.number = n) <;>
    cases h2 : s.stations.find? fun st => decide (st.entry.number = n) <;> simp_all

theorem State.carried_queue (s : State) :
    s.carried.engine.queue = s.engine.queue.map (carryJob (nextPass s.engine.pass) s.predictionOf) := rfl

theorem State.carried_hasJob (s : State) (n : Nat) : s.carried.hasJob n = s.hasJob n := by
  have h : s.carried.job? n = ((clearLost s).job? n).map (carryJob (nextPass s.engine.pass) s.predictionOf) :=
    carryAll_job? ..
  rw [State.hasJob, h, Option.isSome_map]
  rfl

/-- A job carried: it takes the new pass number and, from origin GAP or COLD, its station's new prediction. -/
theorem carryJob_eq {j : Job} {st : Station} {s : State} (hs : s.station? j.station = some st) (pass : Nat) :
    carryJob pass s.predictionOf j =
      { j with
        pass := some pass, result := .none, loaded := false, blocksSent := 0
        prediction :=
          if j.origin = .gap ∨ j.origin = .cold then (if st.estimate.lost then .lost else .kept) else .none } := by
  have hp : s.predictionOf j.station = if st.estimate.lost then .lost else .kept := by
    rw [State.predictionOf, hs]
    rfl
  unfold carryJob
  rw [hp]
  cases j.origin <;> rfl

/-- The queue of a pass: those carried in their places, those that join at the tails of their classes. -/
theorem passJobs_classes {s : State} (ho : s.stationsOrdered)
    (h : (s.engine.queue.map fun j => s.classOf j.station).Pairwise (· ≤ ·)) :
    (s.passJobs.engine.queue.map fun j => s.classOf j.station).Pairwise (· ≤ ·) ∧
      ∀ c, c ≤ 3 →
        stationsInClass s.classOf c s.passJobs.engine.queue =
          stationsInClass s.classOf c s.engine.queue ++ (s.joiners c true).map (·.entry.number) ++
            (s.joiners c false).map (·.entry.number) := by
  have hfree : ∀ st ∈ joiningOrder s, s.carried.hasJob st.entry.number = false := fun st hst => by
    rw [s.carried_hasJob]
    exact (mem_joiningOrder.1 hst).2.1
  have hq : ∀ c, stationsInClass s.classOf c s.carried.engine.queue = stationsInClass s.classOf c s.engine.queue := fun c => by
    unfold stationsInClass
    rw [s.carried_queue, List.filter_map, List.map_map]
    rfl
  have hcarried : (s.carried.engine.queue.map fun j => s.carried.classOf j.station).Pairwise (· ≤ ·) := by
    rw [s.carried_classOf, s.carried_queue, List.map_map]
    exact h
  obtain ⟨hord, hcls⟩ := joinAll_classes (if s.engine.pass = 0 then .cold else .gap) hfree (joiningOrder_nodup ho) hcarried
  rw [s.carried_classOf] at hord hcls
  refine ⟨hord, fun c hc => (hcls c).trans ?_⟩
  have hclass : (joiningOrder s).filter (fun st => s.classOf st.entry.number = c) =
      s.joiners c true ++ s.joiners c false := by
    rw [← joiningOrder_class s hc]
    exact List.filter_congr fun st hst => by rw [ho.classOf (mem_joiningOrder.1 hst).1]
  rw [hq, hclass, List.map_append, List.append_assoc]

/-- What the building of a pass leaves alone. -/
theorem passBuilt_frame (s : State) :
    s.passBuilt =
      { s with
        stations := s.passBuilt.stations, pushA := s.passBuilt.pushA, pushB := s.passBuilt.pushB
        engine := s.passBuilt.engine
        laneA := { s.laneA with pendingPoll := s.passBuilt.laneA.pendingPoll }
        laneB := { s.laneB with pendingPoll := s.passBuilt.laneB.pendingPoll } } := by
  have hlane : ∀ l, s.passJobs.lane l = { s.lane l with pendingPoll := (s.passJobs.lane l).pendingPoll } := fun l =>
    joinAll_lane _ _ s.carried l
  have hA := hlane .a
  have hB := hlane .b
  have hjoin : s.carried.jobsJoin s.passJobs := jobsJoin_joinAll ..
  obtain ⟨_, _, _, _, _, _, hj⟩ := hjoin
  unfold State.passBuilt
  rw [hj] at hA hB ⊢
  simp only [State.lane] at hA hB
  rw [hA, hB]
  rfl

/-- Settles O31. -/
theorem passBuilt : Obligations.PassBuilt := by
  intro s hl hd ho hs hdef hord t joining
  obtain ⟨tb, hb, -, hlimits, -⟩ := buildPass_eq s
  have ht : t = State.notified { s.passBuilt with timebase := tb } s.passPosted := hb
  obtain ⟨-, hstations, -, -, -, -, -, -, -, hpass⟩ := passBuilt_keeps s
  obtain ⟨hsorted, hclasses⟩ := passJobs_classes ho hord
  have hjoinPass : s.carried.joinPass = some (nextPass s.engine.pass) := if_pos hl
  rw [ht]
  refine ⟨?_, hpass, ?_, fun j st hj hst => ?_, hclasses, hsorted, fun st hst => ?_, hlimits, ?_⟩
  · rw [passBuilt_frame]
    rfl
  · refine joinAll_forall _ (joiningOrder s) (s := s.carried) (fun j hj => ?_) fun n id p => hjoinPass
    rw [s.carried_queue] at hj
    obtain ⟨k, -, rfl⟩ := List.mem_map.1 hj
    rfl
  · have hk : s.carried.job? j.station = some (carryJob (nextPass s.engine.pass) s.predictionOf j) := by
      refine (carryAll_job? ..).trans ?_
      rw [show (clearLost s).job? j.station = some j from hj]
      rfl
    rw [carryJob_eq hst] at hk
    exact joinAll_kept hk _ _
  · have hst : st ∈ s.passBuilt.stations := hst
    rw [hstations] at hst
    obtain ⟨x, -, rfl⟩ := List.mem_map.1 hst
    rfl
  · show (if s.passJobs.engine.queue.isEmpty then EnginePhase.idle else .active) = .active ↔ _
    by_cases hn : s.stations = []
    · have hq : s.engine.queue = [] := List.eq_nil_iff_forall_not_mem.2 fun j hj => by
        have := hdef j hj
        simp [State.station?, hn] at this
      simp [passJobs_none hn hq, hn]
    · have hq := passJobs_some hs.restoreClass (.inl hn)
      simp [hq, hn]

end Sys2Proof.Machine
end

section
/-! PROOFS. What the buffer pool keeps of the frames being sent and of the operations queued, and how a job leaves its lane's
load holder (spec/07, 7.1 and 7.4; spec/08, 8.2 and 8.4). -/

namespace Sys2Proof.Machine

/-! ### Buffers being sent and operations queued -/

/-- No buffer has begun to be sent, no operation has left the queue, and the mark writer has queued none. -/
def State.poolKeeps (s t : State) : Prop :=
  (∀ i, (t.buffer i).state = .sending → (s.buffer i).state = .sending) ∧
    (∀ op ∈ s.store.queue, op ∈ t.store.queue) ∧
    ∀ op ∈ t.store.queue, op.who.isMarkWriter = true → op ∈ s.store.queue

namespace State.poolKeeps

theorem refl (s : State) : s.poolKeeps s := ⟨fun _ h => h, fun _ h => h, fun _ h _ => h⟩

theorem trans {s t u : State} (h : s.poolKeeps t) (h' : t.poolKeeps u) : s.poolKeeps u :=
  ⟨fun i hi => h.1 i (h'.1 i hi), fun op ho => h'.2.1 op (h.2.1 op ho),
    fun op ho hm => h.2.2 op (h'.2.2 op ho hm) hm⟩

theorem foldl {α : Type} {f : State → α → State} (hf : ∀ (s : State) (a : α), s.poolKeeps (f s a)) (xs : List α)
    (s : State) : s.poolKeeps (xs.foldl f s) := by
  induction xs generalizing s with
  | nil => exact refl s
  | cons x xs ih => exact (hf s x).trans (ih _)

/-- A buffer that changes, and is SENDING only if it was. -/
theorem setBuffer (s : State) (i : Nat) (b : Buffer) (hb : b.state = .sending → (s.buffer i).state = .sending) :
    s.poolKeeps (s.setBuffer i b) := by
  refine ⟨fun k hk => ?_, fun _ h => h, fun _ h _ => h⟩
  rw [State.buffer_setBuffer] at hk
  split at hk
  · rename_i hki
    rw [hki.1]
    exact hb hk
  · exact hk

theorem queueOp {op : FlashOp} (h : op.who.isMarkWriter = false) (s : State) : s.poolKeeps (Machine.queueOp op s) := by
  refine ⟨fun _ h => h, fun _ ho => List.mem_append_left _ ho, fun x hx hm => ?_⟩
  rcases List.mem_append.1 hx with hx | hx
  · exact hx
  · rw [List.mem_singleton.1 hx, h] at hm
    cases hm

theorem queueOpFirst {op : FlashOp} (h : op.who.isMarkWriter = false) (s : State) :
    s.poolKeeps (Machine.queueOpFirst op s) := by
  refine ⟨fun _ h => h, fun _ ho => List.mem_cons_of_mem _ ho, fun x hx hm => ?_⟩
  rcases List.mem_cons.1 hx with rfl | hx
  · rw [h] at hm
    cases hm
  · exact hx

/-- Changes of the wait list and of the park writer. -/
theorem of_same {s t : State} (hb : t.store.buffers = s.store.buffers) (hq : t.store.queue = s.store.queue) :
    s.poolKeeps t := by
  refine ⟨fun i h => ?_, fun _ h => hq.symm ▸ h, fun _ h _ => hq ▸ h⟩
  rwa [State.buffer, hb] at h

theorem giveBuffer (i : Nat) (who : BufferOwner) (s : State) : s.poolKeeps (Machine.giveBuffer i who s) := by
  unfold Machine.giveBuffer
  split
  · split
    · exact refl s
    · split
      · exact refl s
      · exact (setBuffer s _ _ fun h => by cases h).trans (queueOp rfl _)
  · split
    · exact refl s
    · exact setBuffer s _ _ fun h => by cases h
  · exact ((of_same rfl rfl).trans (setBuffer _ _ _ fun h => by cases h)).trans (queueOpFirst rfl _)

theorem grantSome (k : Nat) (s : State) : s.poolKeeps (Machine.grantSome k s) := by
  induction k generalizing s with
  | zero => exact refl s
  | succ k ih =>
    unfold Machine.grantSome
    split
    · rename_i r _ i _ _
      have hturn : s.poolKeeps { s with store := { s.store with waitList := takeTurn s.store.waitList } } := of_same rfl rfl
      exact (hturn.trans (giveBuffer i r.who _)).trans (ih _)
    · exact refl s

theorem grantBuffers (s : State) : s.poolKeeps (Machine.grantBuffers s) := grantSome 6 s

theorem freeBuffer (i : Nat) (s : State) : s.poolKeeps (Machine.freeBuffer i s) :=
  (setBuffer s i _ fun h => by cases h).trans (grantBuffers _)

theorem giveBack (i : Nat) (pending : Bool) (s : State) : s.poolKeeps (Machine.giveBack i pending s) := by
  unfold Machine.giveBack
  split
  · exact setBuffer s i _ id
  · exact setBuffer s i _ fun h => by cases h

theorem planBuffers (l : Lane) (s : State) : s.poolKeeps (Machine.planBuffers l s) := by
  have hrelease : s.poolKeeps (releaseUnneeded l s) := by
    refine foldl (fun s i => ?_) _ s
    dsimp only
    split
    · exact refl s
    · exact giveBack _ _ s
  have h := hrelease.trans (grantBuffers _)
  unfold Machine.planBuffers
  dsimp only
  split
  · exact h.trans (of_same rfl rfl)
  · exact (h.trans (of_same rfl rfl)).trans (grantBuffers _)

end State.poolKeeps

/-- The buffer pool has worked: nothing else has changed, no buffer has begun to be sent, and the operations of others stay. -/
def State.poolWorks (s t : State) : Prop := s.poolBecomes t ∧ s.poolKeeps t

theorem State.poolWorks.refl (s : State) : s.poolWorks s := ⟨.refl s, .refl s⟩

theorem State.poolWorks.planBuffers (l : Lane) (s : State) : s.poolWorks (Machine.planBuffers l s) :=
  ⟨.planBuffers l s, .planBuffers l s⟩

/-! ### Leaving a load holder (R121, R131, R132) -/

theorem State.setLane_self (s : State) (l : Lane) : s.setLane l (s.lane l) = s := by
  cases l <;> rfl

/-- A lane has changed but in its holder and, where it had a transaction, in that. -/
def LaneState.reheld (x y : LaneState) : Prop :=
  y = { x with holder := y.holder, txn := y.txn } ∧ (x.txn = none → y.txn = none)

theorem LaneState.reheld_orphanFrame (x : LaneState) (h : Option Holder) :
    x.reheld (LaneState.orphanFrame { x with holder := h }) := by
  unfold LaneState.orphanFrame LaneState.reheld
  dsimp only
  split
  · exact ⟨rfl, id⟩
  · rename_i t ht
    split
    · exact ⟨rfl, fun hn => by rw [ht] at hn; cases hn⟩
    · exact ⟨rfl, id⟩

/-- A group settled has its members still, or has given way to the last of them, or has ended with none. -/
theorem settleGroup_works (l : Lane) (members : List Nat) (count : Nat) (round : Option (List Nat)) (s : State) :
    ∃ x, (s.lane l).reheld x ∧ (∀ h, x.holder = some h → h.stations = members) ∧
      (s.setLane l x).poolWorks (settleGroup l members count round s) := by
  unfold settleGroup
  dsimp only
  split
  · refine ⟨_, LaneState.reheld_orphanFrame _ none, fun h hh => ?_, .planBuffers l _⟩
    rw [orphanFrame_holder] at hh
    cases hh
  · refine ⟨_, LaneState.reheld_orphanFrame _ _, fun h hh => ?_, .planBuffers l _⟩
    rw [orphanFrame_holder] at hh
    cases hh
    rfl
  · refine ⟨{ s.lane l with holder := some (.group _ _ _) }, ⟨rfl, id⟩, fun h hh => ?_, .refl _⟩
    cases hh
    rfl

/-- A lane's holder names no other station than before. -/
def LaneState.shrinks (x y : LaneState) : Prop :=
  x.reheld y ∧ ∀ h, y.holder = some h → ∃ h', x.holder = some h' ∧ ∀ m ∈ h.stations, m ∈ h'.stations

theorem LaneState.shrinks.refl (x : LaneState) : x.shrinks x := ⟨⟨rfl, id⟩, fun h hh => ⟨h, hh, fun _ hm => hm⟩⟩

/-- A station is no part of a lane's holder. -/
def LaneState.without (n : Nat) (x : LaneState) : Prop := ∀ h, x.holder = some h → n ∉ h.stations

theorem leaveHolder_works (l : Lane) (n : Nat) (s : State) :
    ∃ x, (s.lane l).shrinks x ∧ x.without n ∧ (s.setLane l x).poolWorks (leaveHolder l n s) := by
  have stays : (s.lane l).without n →
      ∃ x, (s.lane l).shrinks x ∧ x.without n ∧ (s.setLane l x).poolWorks s := fun hn =>
    ⟨s.lane l, .refl _, hn, by rw [s.setLane_self]; exact .refl s⟩
  unfold leaveHolder
  split
  · rename_i hnone
    exact stays fun h hh => by rw [hnone] at hh; cases hh
  · rename_i m hm
    split
    · refine ⟨_, ⟨LaneState.reheld_orphanFrame _ none, fun h hh => ?_⟩, fun h hh => ?_, .planBuffers l _⟩ <;>
        · rw [orphanFrame_holder] at hh
          cases hh
    · rename_i hne
      refine stays fun h hh => ?_
      rw [hm] at hh
      cases hh
      simpa [Holder.stations, eq_comm] using hne
  · rename_i members count round hg
    split
    · obtain ⟨x, hx, hmem, hw⟩ := settleGroup_works l (members.filter (· ≠ n)) count (round.map fun r => r.filter (· ≠ n)) s
      refine ⟨x, ⟨hx, fun h hh => ⟨_, hg, fun m hm => ?_⟩⟩, fun h hh hn => ?_, hw⟩
      · rw [hmem h hh] at hm
        exact List.mem_of_mem_filter hm
      · rw [hmem h hh] at hn
        simp at hn
    · rename_i hne
      refine stays fun h hh => ?_
      rw [hg] at hh
      cases hh
      simpa [Holder.stations] using hne

/-- A job leaves the holder of its station's lane. -/
theorem leaveLoad_works (n : Nat) (s : State) :
    ∃ k x, (s.lane k).shrinks x ∧ (∀ st, s.station? n = some st → st.entry.lane = k ∧ x.without n) ∧
      (s.setLane k x).poolWorks (leaveLoad n s) := by
  unfold leaveLoad
  cases hst : s.station? n with
  | none => exact ⟨.a, s.lane .a, .refl _, fun st h => (by cases h), .refl s⟩
  | some st =>
    obtain ⟨x, hx, hn, hw⟩ := leaveHolder_works st.entry.lane n s
    exact ⟨_, x, hx, fun st' h => (by cases h; exact ⟨rfl, hn⟩), hw⟩

end Sys2Proof.Machine
end

section
/-! PROOFS. Jobs that leave the queue, completed or failed, one or several, and the end of their run (spec/05, 5.4). -/

namespace Sys2Proof.Machine

/-! ### A job that departs (R76, R88, R89) -/

/-- A job leaves the queue; its station's presence is set, a notice posted, and the counters set; and the run ends where the
queue is left empty. -/
def State.jobGone (n : Nat) (p : Presence) (note : NoticeBody) (restored failed : Nat) (s : State) : State :=
  let x := postNotice note (setPresence n p (departJob n s))
  passCompleteIfEmpty { x with engine := { x.engine with restored := restored, failed := failed } }

/-- The departure of a station's job leaves the queue of an ACTIVE Engine empty. -/
def State.lastJob (n : Nat) (s : State) : Bool :=
  (s.engine.queue.filter (·.station ≠ n)).isEmpty && s.engine.phase = .active

/-- The notices of a departure: the presence, its own, and PASS COMPLETE where the run ends. -/
def State.gonePosted (n : Nat) (p : Presence) (note : NoticeBody) (restored failed : Nat) (s : State) : State :=
  let x := postNotice note (setPresence n p s)
  if s.lastJob n then
    postNotice (.passComplete s.engine.pass restored failed (min 65535 (elapsed s.timebase.count s.engine.runStart))) x
  else x

/-- The state that a departure leaves, but for the lane's holder and the buffers. -/
def State.withoutJob (n : Nat) (p : Presence) (note : NoticeBody) (restored failed : Nat) (s : State) : State :=
  { s with
    timebase := s.timebase.remove (.restoreLimit n)
    stations := (setPresence n p s).stations
    link := (s.gonePosted n p note restored failed).link
    pins := (s.gonePosted n p note restored failed).pins
    engine :=
      { s.engine with
        queue := s.engine.queue.filter (·.station ≠ n), restored := restored, failed := failed
        phase := if s.lastJob n then .idle else s.engine.phase } }

theorem setPresence_self_notified (n : Nat) (p : Presence) (s : State) :
    setPresence n p s =
      { s with
        stations := (setPresence n p s).stations, link := (setPresence n p s).link, pins := (setPresence n p s).pins } :=
  setPresence_notified (s := s) ⟨rfl, rfl, rfl, rfl⟩ rfl n p

/-- The lanes and the buffer pool change alike before and after a departure's record is taken out. -/
theorem departJob_works (n : Nat) (s : State) :
    ∃ k x, (s.lane k).shrinks x ∧ (∀ st, s.station? n = some st → st.entry.lane = k ∧ x.without n) ∧
      (State.setLane
        { s with
          timebase := s.timebase.remove (.restoreLimit n)
          engine := { s.engine with queue := s.engine.queue.filter (·.station ≠ n) } } k x).poolWorks (departJob n s) := by
  obtain ⟨k, x, hx, hn, ⟨b, w, q, ph, he⟩, hk⟩ := leaveLoad_works n (removeDeadline (.restoreLimit n) s)
  have hl : ∀ k, (removeDeadline (.restoreLimit n) s).lane k = s.lane k := fun k => by cases k <;> rfl
  rw [hl] at hx
  refine ⟨k, x, hx, hn, ?_⟩
  unfold departJob
  rw [he] at hk ⊢
  cases k <;> exact ⟨⟨b, w, q, ph, rfl⟩, hk⟩

/-- PASS COMPLETE where the queue is empty in ACTIVE, posted as in a state that posts alike. -/
theorem passCompleteIfEmpty_eq {s n : State} (h : n.noticesAlike s) :
    passCompleteIfEmpty s =
      let ends := s.engine.queue.isEmpty && s.engine.phase = .active
      (setPhase (if ends then .idle else s.engine.phase) s).notified
        (if ends then
          postNotice
            (.passComplete s.engine.pass s.engine.restored s.engine.failed
              (min 65535 (elapsed s.timebase.count s.engine.runStart))) n
        else n) := by
  unfold passCompleteIfEmpty
  dsimp only
  split
  · rw [postNotice_notified h]
    rfl
  · obtain ⟨hlink, hpins, _, _⟩ := h
    rw [State.notified, ← hlink, ← hpins]
    rfl

theorem jobGone_works (n : Nat) (p : Presence) (note : NoticeBody) (restored failed : Nat) (s : State) :
    ∃ k x, (s.lane k).shrinks x ∧ (∀ st, s.station? n = some st → st.entry.lane = k ∧ x.without n) ∧
      ((s.withoutJob n p note restored failed).setLane k x).poolWorks (s.jobGone n p note restored failed) := by
  obtain ⟨k, x, hx, hn, ⟨b, w, q, ph, he⟩, hk⟩ := departJob_works n s
  refine ⟨k, x, hx, hn, ?_⟩
  unfold State.jobGone
  generalize departJob n s = d at *
  have halike : s.noticesAlike d ∧ d.stations = s.stations := by
    subst he
    cases k <;> exact ⟨⟨rfl, rfl, rfl, rfl⟩, rfl⟩
  have hpres := setPresence_notified halike.1 halike.2 n p
  have hkeeps : (setPresence n p s).loader = s.loader ∧ (setPresence n p s).settings = s.settings := by
    rw [setPresence_self_notified n p s]
    exact ⟨rfl, rfl⟩
  have hposted : postNotice note (setPresence n p d) =
      { d with
        stations := (setPresence n p s).stations
        link := (postNotice note (setPresence n p s)).link, pins := (postNotice note (setPresence n p s)).pins } := by
    have ha : (setPresence n p s).noticesAlike
        { d with
          stations := (setPresence n p s).stations, link := (setPresence n p s).link, pins := (setPresence n p s).pins } :=
      ⟨rfl, rfl, halike.1.2.2.1.trans hkeeps.1.symm, halike.1.2.2.2.trans hkeeps.2.symm⟩
    rw [hpres]
    exact postNotice_notified ha note
  have halike' : (postNotice note (setPresence n p s)).noticesAlike
      { d with
        stations := (setPresence n p s).stations
        link := (postNotice note (setPresence n p s)).link, pins := (postNotice note (setPresence n p s)).pins
        engine := { d.engine with restored := restored, failed := failed } } := by
    refine ⟨rfl, rfl, ?_, ?_⟩
    · rw [postNotice_loader, hkeeps.1]
      exact halike.1.2.2.1
    · rw [postNotice_settings, hkeeps.2]
      exact halike.1.2.2.2
  have hpass := passCompleteIfEmpty_eq halike'
  rw [hposted]
  dsimp only at hpass ⊢
  rw [hpass]
  subst he
  cases k <;> exact ⟨⟨b, w, q, ph, rfl⟩, hk⟩

/-- The departure of jobs keeps what neither the jobs nor the lanes share. -/
def State.departKeeps (s u : State) : Prop :=
  u.car = s.car ∧ u.pushA = s.pushA ∧ u.pushB = s.pushB ∧ u.supply = s.supply ∧ u.settings = s.settings ∧
    u.estimator = s.estimator ∧ u.query = s.query ∧ u.loader = s.loader ∧ u.store.imageWrite = s.store.imageWrite ∧
    u.store.configSave = s.store.configSave ∧ u.flash = s.flash

theorem jobGone_fields (n : Nat) (p : Presence) (note : NoticeBody) (restored failed : Nat) (s : State) :
    let u := s.jobGone n p note restored failed
    let posted := s.gonePosted n p note restored failed
    u.stations = (setPresence n p s).stations ∧ u.link = posted.link ∧ u.pins = posted.pins ∧
      u.engine =
        { s.engine with
          queue := s.engine.queue.filter (·.station ≠ n), restored := restored, failed := failed
          phase := if s.lastJob n then .idle else s.engine.phase } ∧
      u.timebase = s.timebase.remove (.restoreLimit n) ∧ s.departKeeps u := by
  obtain ⟨k, x, -, -, ⟨b, w, q, ph, he⟩, -⟩ := jobGone_works n p note restored failed s
  dsimp only
  rw [he]
  cases k <;> exact ⟨rfl, rfl, rfl, rfl, rfl, rfl, rfl, rfl, rfl, rfl, rfl, rfl, rfl, rfl, rfl, rfl⟩

/-- A departed job is gone, and every other station's is as it was. -/
theorem jobGone_job? (n : Nat) (p : Presence) (note : NoticeBody) (restored failed : Nat) (s : State) (m : Nat) :
    (s.jobGone n p note restored failed).job? m = if m = n then none else s.job? m := by
  obtain ⟨-, -, -, he, -⟩ := jobGone_fields n p note restored failed s
  unfold State.job?
  rw [he, List.find?_filter]
  split
  · rename_i hm
    rw [List.find?_eq_none]
    intro j _
    simp [hm]
  · rename_i hm
    refine congrArg (List.find? · s.engine.queue) (funext fun j => ?_)
    by_cases hj : j.station = m <;> simp [hj, hm]

/-! ### Jobs departed, one after another -/

/-- Some jobs have left since presence was told, their notices have been posted, and the run has ended if they were the
last. -/
def State.departed (told : State) (gone : List Nat) (notes y : State) : Prop :=
  let posted := told.runEnded gone y.engine.restored y.engine.failed notes
  told.jobsLeft gone y ∧ y.stations = notes.stations ∧ y.link = posted.link ∧ y.pins = posted.pins ∧
    notes.loader = told.loader ∧ notes.settings = told.settings

theorem State.jobsLeft.queue_empty {told y : State} {gone : List Nat} (h : told.jobsLeft gone y) (m : Nat) :
    (y.engine.queue.filter (·.station ≠ m)).isEmpty = told.engine.queue.all fun j => (gone ++ [m]).contains j.station := by
  obtain ⟨-, hq, -⟩ := h
  have hmem : ∀ n, n ∈ y.engine.queue.map (·.station) ↔ n ∈ told.engine.queue.map (·.station) ∧ n ∉ gone := fun n => by
    rw [hq]
    simp
  rw [Bool.eq_iff_iff]
  simp only [List.isEmpty_iff, List.filter_eq_nil_iff, List.all_eq_true, List.contains_eq_mem, decide_eq_true_eq,
    not_not, List.mem_append, List.mem_singleton, ne_eq]
  constructor
  · intro h j hj
    by_contra hn
    obtain ⟨hg, hne⟩ := not_or.1 hn
    obtain ⟨k, hk, he⟩ := List.mem_map.1 ((hmem j.station).2 ⟨List.mem_map_of_mem hj, hg⟩)
    exact hne (he ▸ h k hk)
  · intro h k hk
    obtain ⟨ht, hg⟩ := (hmem k.station).1 (List.mem_map_of_mem hk)
    obtain ⟨j, hj, he⟩ := List.mem_map.1 ht
    exact he ▸ (h j hj).resolve_left (by rwa [he])

/-- While a job is left, the run has not ended. -/
theorem State.jobsLeft.running {told y : State} {gone : List Nat} {m : Nat} (h : told.jobsLeft gone y)
    (hm : y.hasJob m = true) : m ∉ gone ∧ told.endsRun gone = false := by
  obtain ⟨hgone, hq, -⟩ := h
  have hmg : m ∉ gone := fun hg => by
    rw [hgone m hg] at hm
    cases hm
  have ht : m ∈ told.engine.queue.map (·.station) := by
    have := (y.hasJob_iff m).1 hm
    rw [hq] at this
    exact List.mem_of_mem_filter this
  obtain ⟨j, hj, he⟩ := List.mem_map.1 ht
  refine ⟨hmg, ?_⟩
  rw [State.endsRun, Bool.and_eq_false_iff]
  refine .inr (List.all_eq_false.2 ⟨j, hj, ?_⟩)
  simpa [he] using hmg

/-- The departure of a job that is left ends the run where it is the last. -/
theorem State.jobsLeft.lastJob_eq {told y : State} {gone : List Nat} {m : Nat} (h : told.jobsLeft gone y)
    (hm : y.hasJob m = true) : y.engine.phase = told.engine.phase ∧ y.lastJob m = told.endsRun (gone ++ [m]) := by
  have hlast := h.queue_empty m
  obtain ⟨-, hruns⟩ := h.running hm
  obtain ⟨-, -, hphase, -⟩ := h
  replace hphase : y.engine.phase = told.engine.phase := by simpa [hruns] using hphase
  refine ⟨hphase, ?_⟩
  rw [State.lastJob, hlast, hphase, State.endsRun, Bool.and_comm]

/-- One more job has left. -/
theorem State.jobsLeft.next {told y : State} {gone : List Nat} {m : Nat} (h : told.jobsLeft gone y)
    (hm : y.hasJob m = true) (p : Presence) (note : NoticeBody) (restored failed : Nat) :
    told.jobsLeft (gone ++ [m]) (y.jobGone m p note restored failed) := by
  obtain ⟨hphase, hends⟩ := h.lastJob_eq hm
  obtain ⟨hgone, hq, -, hpass, hnext, hstart, hstation, hcount, hdue, hcar, hpushA, hpushB, hsupply, hset, hest, hquery,
    hload, hwrite, hsave, hflash⟩ := h
  obtain ⟨ust, -, -, ueng, utime, ucar, upushA, upushB, usupply, uset, uest, uquery, uload, uwrite, usave, uflash⟩ :=
    jobGone_fields m p note restored failed y
  have ujob := jobGone_job? m p note restored failed y
  generalize y.jobGone m p note restored failed = u at *
  refine ⟨fun n hn => ?_, ?_, ?_, ?_, ?_, ?_, fun n hn => ?_, ?_, fun n hn => ?_, ucar.trans hcar, upushA.trans hpushA,
    upushB.trans hpushB, usupply.trans hsupply, uset.trans hset, uest.trans hest, uquery.trans hquery, uload.trans hload,
    uwrite.trans hwrite, usave.trans hsave, uflash.trans hflash⟩
  · rw [State.hasJob, ujob]
    split
    · rfl
    · rename_i hne
      exact hgone n (by simpa [hne] using hn)
  · have hmap : (y.engine.queue.filter (·.station ≠ m)).map (·.station) = (y.engine.queue.map (·.station)).filter (· ≠ m) := by
      rw [List.filter_map]
      rfl
    rw [ueng]
    dsimp only
    rw [hmap, hq, List.filter_filter]
    refine List.filter_congr fun n _ => ?_
    simp [Bool.and_comm]
  · rw [ueng, ← hends, ← hphase]
  · rw [ueng]
    exact hpass
  · rw [ueng]
    exact hnext
  · rw [ueng]
    exact hstart
  · obtain ⟨hn, hne⟩ : n ∉ gone ∧ n ≠ m := by simpa using hn
    rw [← hstation n hn, State.station?, ust]
    exact (setPresence_station? m p y n).trans (if_neg hne)
  · rw [utime]
    exact hcount
  · rw [utime, Timebase.dueOf_remove]
    split
    · rfl
    · rename_i hne
      have hnm : n ≠ m := fun he => hne (by rw [he])
      exact hdue n (by simpa [hnm] using hn)

/-- One more job departs, and its notices follow those before. -/
theorem State.departed.next {told notes y : State} {gone : List Nat} {m : Nat} (h : told.departed gone notes y)
    (hm : y.hasJob m = true) (p : Presence) (note : NoticeBody) (restored failed : Nat) :
    told.departed (gone ++ [m]) (postNotice note (setPresence m p notes)) (y.jobGone m p note restored failed) := by
  obtain ⟨hleft, hst, hlink, hpins, hloader, hsettings⟩ := h
  obtain ⟨-, hends⟩ := hleft.lastJob_eq hm
  obtain ⟨-, hruns⟩ := hleft.running hm
  have hnext := hleft.next hm p note restored failed
  obtain ⟨-, -, -, hpass, -, hstart, -, hcount, -, -, -, -, -, hset, -, -, hload, -⟩ := hleft
  replace hlink : y.link = notes.link := by simpa [State.runEnded, hruns] using hlink
  replace hpins : y.pins = notes.pins := by simpa [State.runEnded, hruns] using hpins
  have halike : notes.noticesAlike y := ⟨hlink, hpins, hload.trans hloader.symm, hset.trans hsettings.symm⟩
  have hpres := setPresence_notified halike hst m p
  have hself := setPresence_self_notified m p notes
  have hposted : (postNotice note (setPresence m p notes)).noticesAlike (postNotice note (setPresence m p y)) := by
    refine postNotice_noticesAlike ?_ note
    rw [hpres, hself]
    exact ⟨rfl, rfl, halike.2.2.1, halike.2.2.2⟩
  have hended : (told.runEnded (gone ++ [m]) restored failed (postNotice note (setPresence m p notes))).noticesAlike
      (y.gonePosted m p note restored failed) := by
    unfold State.runEnded State.gonePosted
    dsimp only
    rw [hends, hpass, hstart, hcount]
    split
    · exact postNotice_noticesAlike hposted _
    · exact hposted
  obtain ⟨ust, ulink, upins, ueng, -⟩ := jobGone_fields m p note restored failed y
  generalize y.jobGone m p note restored failed = u at *
  refine ⟨hnext, ?_, ?_, ?_, ?_, ?_⟩
  · rw [ust, hpres, postNotice_notified (n := setPresence m p notes) ⟨rfl, rfl, rfl, rfl⟩]
    rfl
  · rw [ulink, ueng]
    exact hended.1
  · rw [upins, ueng]
    exact hended.2.1
  · rw [postNotice_loader, hself]
    exact hloader
  · rw [postNotice_settings, hself]
    exact hsettings

end Sys2Proof.Machine
end

section
/-! PROOFS. The job whose step has ended: it goes on, leaves its holder, completes or fails (spec/05, 5.4). -/

namespace Sys2Proof.Machine

/-! ### What departures leave of the lanes, the buffers and the slots -/

theorem LaneState.shrinks.trans {x y z : LaneState} (h : x.shrinks y) (h' : y.shrinks z) : x.shrinks z := by
  obtain ⟨⟨he, ht⟩, hm⟩ := h
  obtain ⟨⟨he', ht'⟩, hm'⟩ := h'
  refine ⟨⟨?_, fun hx => ht' (ht hx)⟩, fun k hk => ?_⟩
  · rw [he', he]
  · obtain ⟨k', hk', hs⟩ := hm' k hk
    obtain ⟨k'', hk'', hs'⟩ := hm k' hk'
    exact ⟨k'', hk'', fun m hm => hs' m (hs m hm)⟩

/-- A station that is no part of a holder is none of one that names no others. -/
theorem LaneState.without.shrinks {n : Nat} {x y : LaneState} (h : x.without n) (hs : x.shrinks y) : y.without n :=
  fun k hk hn => by
    obtain ⟨k', hk', hm⟩ := hs.2 k hk
    exact h k' hk' (hm n hn)

/-- Jobs have departed: the lanes' holders name no others than before, the buffer pool has worked, and the slots, the
response windows and the operation that runs stay. -/
def State.departStays (s u : State) : Prop :=
  (∀ k, (s.lane k).shrinks (u.lane k)) ∧ s.poolKeeps u ∧ s.recordsStay u ∧
    (∀ k, u.timebase.dueOf (.responseWindow k) = s.timebase.dueOf (.responseWindow k)) ∧
    u.store.running = s.store.running

theorem State.departStays.refl (s : State) : s.departStays s :=
  ⟨fun _ => .refl _, .refl s, ⟨rfl, rfl⟩, fun _ => rfl, rfl⟩

theorem State.departStays.trans {s t u : State} (h : s.departStays t) (h' : t.departStays u) : s.departStays u := by
  obtain ⟨hl, hp, ⟨hs, hm⟩, hd, hr⟩ := h
  obtain ⟨hl', hp', ⟨hs', hm'⟩, hd', hr'⟩ := h'
  exact ⟨fun k => (hl k).trans (hl' k), hp.trans hp', ⟨hs'.trans hs, hm'.trans hm⟩, fun k => (hd' k).trans (hd k),
    hr'.trans hr⟩

theorem State.departStays.updJob (s : State) (n : Nat) (f : Job → Job) : s.departStays (s.updJob n f) :=
  ⟨fun k => by rw [updJob_lane]; exact .refl _, .of_same rfl rfl, ⟨rfl, rfl⟩, fun _ => rfl, rfl⟩

theorem State.departStays.leaveHolder (l : Lane) (n : Nat) (s : State) : s.departStays (Machine.leaveHolder l n s) := by
  obtain ⟨x, hx, -, ⟨b, w, q, ph, he⟩, hk⟩ := leaveHolder_works l n s
  have hlane : ∀ m, (Machine.leaveHolder l n s).lane m = if m = l then x else s.lane m := fun m => by
    rw [he]
    cases m <;> cases l <;> rfl
  refine ⟨fun m => ?_, by cases l <;> exact hk, ?_⟩
  · rw [hlane]
    split
    · rename_i hm
      rw [hm]
      exact hx
    · exact .refl _
  · rw [he]
    cases l <;> exact ⟨⟨rfl, rfl⟩, fun _ => rfl, rfl⟩

/-- A departure changes one lane's holder, that of its station's lane, which is then without it. -/
theorem jobGone_lane (n : Nat) (p : Presence) (note : NoticeBody) (restored failed : Nat) (s : State) :
    let u := s.jobGone n p note restored failed
    s.departStays u ∧
      ∀ st, s.station? n = some st → (u.lane st.entry.lane).without n ∧ ∀ k, k ≠ st.entry.lane → u.lane k = s.lane k := by
  obtain ⟨k, x, hx, hn, ⟨b, w, q, ph, he⟩, hk⟩ := jobGone_works n p note restored failed s
  have hlane : ∀ m, (s.jobGone n p note restored failed).lane m = if m = k then x else s.lane m := fun m => by
    rw [he]
    cases m <;> cases k <;> rfl
  have hrecords : s.recordsStay (s.jobGone n p note restored failed) := by
    rw [he]
    cases k <;> exact ⟨rfl, rfl⟩
  have hpool : s.poolKeeps (s.jobGone n p note restored failed) := by
    cases k <;> exact hk
  have hrunning : (s.jobGone n p note restored failed).store.running = s.store.running := by
    rw [he]
    cases k <;> rfl
  refine ⟨⟨fun m => ?_, hpool, hrecords, fun m => ?_, hrunning⟩, fun st hst => ?_⟩
  · rw [hlane]
    split
    · rename_i hm
      rw [hm]
      exact hx
    · exact .refl _
  · obtain ⟨-, -, -, -, ht, -⟩ := jobGone_fields n p note restored failed s
    rw [ht]
    simp
  · obtain ⟨rfl, hw⟩ := hn st hst
    exact ⟨by rw [hlane, if_pos rfl]; exact hw, fun m hm => by rw [hlane, if_neg hm]⟩

/-! ### A job that goes on (R77, R99) -/

/-- A job of a lane goes on since presence was told, and the slots stay. -/
def State.jobSteps (told : State) (l : Lane) (j : Job) (u : State) : Prop :=
  told.jobGoesOn l j u ∧ told.recordsStay u ∧ ∃ st, told.station? j.station = some st ∧ st.entry.lane = l

namespace State.jobSteps

variable {told u v : State} {l : Lane} {j : Job}

/-- The buffer pool works. -/
theorem pool (h : told.jobSteps l j u) (hp : u.poolBecomes v) : told.jobSteps l j v := by
  obtain ⟨_, _, _, _, rfl⟩ := hp
  exact h

/-- The lane has another holder. -/
theorem setLane (h : told.jobSteps l j u) {x : LaneState} (hx : (u.lane l).reheld x) :
    told.jobSteps l j (u.setLane l x) := by
  obtain ⟨⟨hout, hjob, hjobs, ⟨htxn, hdriver, hseq, habandoned, hother⟩, htime⟩, hrecords, hst⟩ := h
  obtain ⟨he, ht⟩ := hx
  have hlane : told.laneFreed l (u.setLane l x) := by
    refine ⟨?_, ?_, ?_, ?_, fun k hk => ?_⟩
    · rw [State.lane_setLane]
      exact ht htxn
    · rw [State.lane_setLane, he]
      exact hdriver
    · rw [State.lane_setLane, he]
      exact hseq
    · rw [State.lane_setLane, he]
      exact habandoned
    · rw [State.lane_setLane_ne _ _ _ _ hk]
      exact hother k hk
  refine ⟨⟨?_, ?_, ?_, hlane, ?_⟩, ?_, hst⟩ <;> cases l <;> assumption

/-- The job's record changes. -/
theorem updJob (h : told.jobSteps l j u) {f : Job → Job} {j' : Job} (hf : ∀ x, (f x).station = x.station)
    (hj : f { j with inFlight := false } = { j' with inFlight := false }) :
    told.jobSteps l j' (u.updJob j.station f) := by
  obtain ⟨⟨hout, hjob, hjobs, hlane, htime⟩, hrecords, hst⟩ := h
  have hstation : j'.station = j.station := by
    have := congrArg (·.station) hj
    rw [hf] at this
    exact this.symm
  have hq : (u.updJob j.station f).engine.queue.map (·.station) = u.engine.queue.map (·.station) :=
    updJobs_stations f hf [j.station] u
  have hu := updJob_job? u j.station (f := f)
  refine ⟨⟨?_, ?_, fun m hm => ?_, hlane, htime⟩, hrecords, by rw [hstation]; exact hst⟩
  · obtain ⟨h1, h2, h3, h4, h5, h6, h7, h8, h9, h10, h11, h12, h13, h14, h15, h16, h17⟩ := hout
    exact ⟨h1, h2, h3, h4, h5, h6, h7, h8, h9, h10, h11, h12, h13, h14, h15, hq.trans h16, h17⟩
  · have hself := hu j.station hf
    rw [if_pos rfl, hjob] at hself
    exact ((congrArg _ hstation).trans hself).trans (congrArg some hj)
  · rw [hstation] at hm
    rw [hu _ hf, if_neg hm]
    exact hjobs m hm

/-- The job leaves its lane's holder. -/
theorem leaveHolder (h : told.jobSteps l j u) :
    told.jobSteps l j (Machine.leaveHolder l j.station u) ∧ (Machine.leaveHolder l j.station u).outOfHolder l j.station := by
  obtain ⟨x, hx, hn, hp, -⟩ := leaveHolder_works l j.station u
  refine ⟨(h.setLane hx.1).pool hp, ?_⟩
  have hlane : (Machine.leaveHolder l j.station u).lane l = x := by
    rw [hp.lane, State.lane_setLane]
  unfold State.outOfHolder
  rw [hlane]
  exact hn

theorem leaveLoad_eq (h : told.jobSteps l j u) : Machine.leaveLoad j.station u = Machine.leaveHolder l j.station u := by
  obtain ⟨⟨⟨-, -, -, -, hs, -⟩, -⟩, -, st, hst, hl⟩ := h
  have hust : u.station? j.station = some st := by
    rw [State.station?, hs]
    exact hst
  simp only [Machine.leaveLoad, hust, hl]

/-- No job has left yet. -/
theorem departed (h : told.jobSteps l j u) : told.departed [] told u := by
  obtain ⟨⟨hout, hjob, -, -, htime⟩, -⟩ := h
  obtain ⟨hpins, hsupply, hcount, hest, hst, hcar, hpushA, hpushB, hset, hphase, hpass, hnext, hrestored, hfailed, hstart,
    hq, hquery, hwrite, hsave, -, hload, hlink, hflash, -⟩ := hout
  have hruns : told.endsRun [] = false := by
    have hm : j.station ∈ told.engine.queue.map (·.station) := by
      rw [← hq, ← State.hasJob_iff, State.hasJob, hjob]
      rfl
    obtain ⟨k, hk, -⟩ := List.mem_map.1 hm
    rw [State.endsRun, Bool.and_eq_false_iff]
    exact .inr (List.all_eq_false.2 ⟨k, hk, by simp⟩)
  refine ⟨⟨fun n hn => (by cases hn), ?_, ?_, hpass, hnext, hstart, fun m _ => ?_, hcount, fun n hn => (by cases hn), hcar,
    hpushA, hpushB, hsupply, hset, hest, hquery, hload, hwrite, hsave, hflash⟩, hst, ?_, ?_, rfl, rfl⟩
  · rw [hq]
    simp
  · rw [hruns]
    exact hphase
  · rw [State.station?, hst]
    rfl
  · rw [State.runEnded, hruns]
    exact hlink
  · rw [State.runEnded, hruns]
    exact hpins

theorem hasJob (h : told.jobSteps l j u) : u.hasJob j.station = true := by
  rw [State.hasJob, h.1.2.1]
  rfl

/-- The job departs. -/
theorem jobLeft (h : told.jobSteps l j u) (p : Presence) (note : NoticeBody) (restored failed : Nat) :
    told.departed [j.station] (postNotice note (setPresence j.station p told))
        (u.jobGone j.station p note restored failed) ∧
      told.jobLeft l j.station (u.jobGone j.station p note restored failed) ∧
      told.recordsStay (u.jobGone j.station p note restored failed) := by
  have hdep := h.departed.next h.hasJob p note restored failed
  obtain ⟨⟨hout, hjob, hjobs, ⟨htxn, hdriver, hseq, habandoned, hother⟩, htime⟩, hrecords, st, hst, hl⟩ := h
  have hust : u.station? j.station = some st := by
    obtain ⟨-, -, -, -, hs, -⟩ := hout
    rw [State.station?, hs]
    exact hst
  obtain ⟨⟨hshrinks, -, ⟨hslots, hmarks⟩, -⟩, hlane⟩ := jobGone_lane j.station p note restored failed u
  obtain ⟨hwithout, hsame⟩ := hlane st hust
  obtain ⟨-, -, -, -, ht, -⟩ := jobGone_fields j.station p note restored failed u
  have hgone := jobGone_job? j.station p note restored failed u
  rw [hl] at hwithout hsame
  obtain ⟨⟨he, hnone⟩, -⟩ := hshrinks l
  generalize u.jobGone j.station p note restored failed = v at *
  refine ⟨hdep, ⟨hdep.1, fun m hm => ?_, hwithout, ⟨hnone htxn, ?_, ?_, ?_, fun k hk => ?_⟩, ?_⟩,
    hslots.trans hrecords.1, hmarks.trans hrecords.2⟩
  · rw [hgone, if_neg hm]
    exact hjobs m hm
  · rw [he]
    exact hdriver
  · rw [he]
    exact hseq
  · rw [he]
    exact habandoned
  · rw [hsame k hk]
    exact hother k hk
  · rw [ht, htime]

end State.jobSteps

/-! ### Completed and failed (R88, R89) -/

theorem departJob_engine (n : Nat) (s : State) :
    (departJob n s).engine = { s.engine with queue := s.engine.queue.filter (·.station ≠ n) } := by
  obtain ⟨k, _, -, -, ⟨_, _, _, _, he⟩, -⟩ := departJob_works n s
  rw [he]
  cases k <;> rfl

theorem postNotice_engine (b : NoticeBody) (s : State) : (postNotice b s).engine = s.engine := by
  rw [postNotice_notified (n := s) ⟨rfl, rfl, rfl, rfl⟩]
  rfl

theorem setPresence_engine (n : Nat) (p : Presence) (s : State) : (setPresence n p s).engine = s.engine := by
  rw [setPresence_self_notified]

theorem completeJob_eq {n : Nat} {j : Job} {s : State} (h : s.job? n = some j) (o : RestoreOutcome) :
    completeJob n o s =
      s.jobGone n .ready (.nodeRestored n (j.pass.getD 0) o j.result j.blocksSent) (s.engine.restored + 1)
        s.engine.failed := by
  unfold completeJob State.jobGone
  simp only [h, postNotice_engine, setPresence_engine, departJob_engine]

theorem failJob_eq {n : Nat} {j : Job} {s : State} (h : s.job? n = some j) (r : Reason) :
    failJob n r s =
      s.jobGone n .absent (.nodeFailed n (j.pass.getD 0) r j.state) s.engine.restored (s.engine.failed + 1) := by
  unfold failJob State.jobGone
  simp only [h, postNotice_engine, setPresence_engine, departJob_engine]

theorem postNotice_stations (b : NoticeBody) (s : State) : (postNotice b s).stations = s.stations := by
  rw [postNotice_notified (n := s) ⟨rfl, rfl, rfl, rfl⟩]
  rfl

/-- The presence that a departure gives its station. -/
theorem State.departed.presence {told notes u : State} {gone : List Nat} {n : Nat} {st : Station}
    (h : told.departed gone notes u) {note : NoticeBody} {p : Presence}
    (hn : notes = postNotice note (setPresence n p told)) (hst : told.station? n = some st) :
    u.stations = (setPresence n p told).stations ∧ (u.station? n).map (·.presence) = some p := by
  obtain ⟨-, hs, -⟩ := h
  have hs' : u.stations = (setPresence n p told).stations := by rw [hs, hn, postNotice_stations]
  refine ⟨hs', ?_⟩
  have := setPresence_station? n p told n
  rw [if_pos rfl, hst] at this
  rw [State.station?, hs']
  exact congrArg (Option.map (·.presence)) this

theorem State.jobSteps.completes {told u : State} {l : Lane} {j : Job} (h : told.jobSteps l j u) (o : RestoreOutcome) :
    told.jobCompletes l j o j.result (completeJob j.station o u) := by
  obtain ⟨hdep, hleft, hrecords⟩ := h.jobLeft .ready (.nodeRestored j.station (j.pass.getD 0) o j.result j.blocksSent)
    (u.engine.restored + 1) u.engine.failed
  obtain ⟨-, -, -, ueng, -⟩ := jobGone_fields j.station .ready
    (.nodeRestored j.station (j.pass.getD 0) o j.result j.blocksSent) (u.engine.restored + 1) u.engine.failed u
  obtain ⟨⟨hout, hjob, -⟩, -, st, hst, -⟩ := h
  obtain ⟨-, -, -, -, -, -, -, -, -, -, -, -, hrestored, hfailed, -⟩ := hout
  have he : completeJob j.station o u = u.jobGone j.station .ready
      (.nodeRestored j.station (j.pass.getD 0) o j.result j.blocksSent) (u.engine.restored + 1) u.engine.failed :=
    completeJob_eq hjob o
  obtain ⟨hstations, hpresence⟩ := hdep.presence rfl hst
  obtain ⟨-, -, hlink, hpins, -⟩ := hdep
  rw [← he] at hleft hrecords ueng hstations hpresence hlink hpins
  have erestored : (completeJob j.station o u).engine.restored = told.engine.restored + 1 := by rw [ueng, hrestored]
  have efailed : (completeJob j.station o u).engine.failed = told.engine.failed := by rw [ueng, hfailed]
  rw [erestored, efailed] at hlink hpins
  exact ⟨hleft, hstations, hpresence, erestored, efailed, hlink, hpins, hrecords⟩

theorem State.jobSteps.fails {told u : State} {l : Lane} {j : Job} (h : told.jobSteps l j u) (r : Reason) :
    told.jobFails l j r (failJob j.station r u) ∧ told.recordsStay (failJob j.station r u) := by
  obtain ⟨hdep, hleft, hrecords⟩ := h.jobLeft .absent (.nodeFailed j.station (j.pass.getD 0) r j.state)
    u.engine.restored (u.engine.failed + 1)
  obtain ⟨-, -, -, ueng, -⟩ := jobGone_fields j.station .absent (.nodeFailed j.station (j.pass.getD 0) r j.state)
    u.engine.restored (u.engine.failed + 1) u
  obtain ⟨⟨hout, hjob, -⟩, -, st, hst, -⟩ := h
  obtain ⟨-, -, -, -, -, -, -, -, -, -, -, -, hrestored, hfailed, -⟩ := hout
  have he : failJob j.station r u = u.jobGone j.station .absent (.nodeFailed j.station (j.pass.getD 0) r j.state)
      u.engine.restored (u.engine.failed + 1) := failJob_eq hjob r
  obtain ⟨hstations, hpresence⟩ := hdep.presence rfl hst
  obtain ⟨-, -, hlink, hpins, -⟩ := hdep
  rw [← he] at hleft hrecords ueng hstations hpresence hlink hpins
  have erestored : (failJob j.station r u).engine.restored = told.engine.restored := by rw [ueng, hrestored]
  have efailed : (failJob j.station r u).engine.failed = told.engine.failed + 1 := by rw [ueng, hfailed]
  rw [erestored, efailed] at hlink hpins
  exact ⟨⟨hleft, hstations, hpresence, efailed, erestored, hlink, hpins⟩, hrecords⟩

end Sys2Proof.Machine
end

section
/-! PROOFS. The reply to a step of a job, and what a job that goes on does with it (spec/05, 5.3; spec/07). -/

namespace Sys2Proof.Machine

/-! ### The end of the step (R77, R99) -/

/-- A reply has counted for the presence of a job's station, and the job's step has ended. -/
def State.stepTold (s : State) (l : Lane) (t : Txn) (n : Nat) : State :=
  endStep l t (removeDeadline (.responseWindow l) (presenceReply n s))

/-- A reply that makes no error is taken for the job. -/
theorem State.jobAnswered.exec_eq {s : State} {l : Lane} {frame : List Byte} {t : Txn} {j : Job} {st : Station}
    {r : LaneReply} (h : s.jobAnswered l frame t j st r) (hr : ∀ p x, r ≠ .pollReport p x)
    (he : ∀ x : State, x.store = s.store → replyError t r x = none) :
    exec (.laneReplyReceived l frame) s = .next (lanesAct (jobReply l t j.station r (s.stepTold l t j.station))) := by
  obtain ⟨hruns, ht, howner, hstation, hjob, -, -, ha⟩ := h
  have hx : exec (.laneReplyReceived l frame) s = .next (laneReply l frame s) := whileRunning_runs hruns _
  have hsome : t.station.isSome = true := by rw [hstation]; rfl
  have hgone : ownerGone t s = false := by simp [ownerGone, howner, hjob]
  have hpres : presenceOfReply j.station r false (removeDeadline (.responseWindow l) s) =
      removeDeadline (.responseWindow l) (presenceReply j.station s) := by
    rw [← presenceReply_removeDeadline]
    unfold presenceOfReply
    split
    · exact absurd rfl (hr _ _)
    · rfl
  have hstore : (removeDeadline (.responseWindow l) (presenceReply j.station s)).store = s.store := by
    rw [presenceReply_notified (s := s) (x := s) ⟨rfl, rfl, rfl, rfl⟩ rfl]
    rfl
  rw [hx, (laneReply_answer ht hsome frame).2 r ha]
  unfold takeReply
  simp only [hstation, Option.getD_some, hgone, hpres, he _ hstore, howner, Bool.false_eq_true, if_false]
  rfl

/-- A reply has counted for the presence of a station, and its lane is free. -/
def State.replyTold (s : State) (l : Lane) (n : Nat) : State :=
  State.setLane
    { s with
      timebase := s.timebase.remove (.responseWindow l)
      stations := (presenceReply n s).stations, link := (presenceReply n s).link, pins := (presenceReply n s).pins }
    l (s.lane l).freed

theorem State.stepTold_eq {s : State} {t : Txn} {n id : Nat} (ht : t.owner = .job n id) (l : Lane) :
    s.stepTold l t n = (s.replyTold l n).updJob n fun j => if j.id = id then { j with inFlight := false } else j := by
  unfold State.stepTold endStep
  simp only [ht]
  rw [presenceReply_notified (s := s) (x := s) ⟨rfl, rfl, rfl, rfl⟩ rfl]
  cases l <;> rfl

/-- What a step that has ended leaves as it was. -/
def State.toldKeeps (s y : State) (l : Lane) : Prop :=
  y.store = s.store ∧ (y.lane l).holder = (s.lane l).holder ∧ y.settings = s.settings ∧
    ∀ m, (y.station? m).map (·.entry) = (s.station? m).map (·.entry)

theorem presenceReply_station? {n : Nat} {s : State} {st : Station} (h : s.station? n = some st) (m : Nat) :
    (presenceReply n s).station? m = if m = n then some { st with presence := st.presence.replied } else s.station? m := by
  rw [presenceReply_eq h, setPresence_station?, h]
  rfl

theorem State.jobAnswered.steps {s : State} {l : Lane} {frame : List Byte} {t : Txn} {j : Job} {st : Station}
    {r : LaneReply} (h : s.jobAnswered l frame t j st r) :
    (presenceReply j.station s).jobSteps l j (s.stepTold l t j.station) ∧ s.toldKeeps (s.stepTold l t j.station) l := by
  obtain ⟨-, -, howner, -, hjob, hst, hl, -⟩ := h
  have hf : ∀ x : Job, (if x.id = j.id then { x with inFlight := false } else x).station = x.station := fun x => by
    split <;> rfl
  have hstation := presenceReply_station? hst
  have hx : (s.replyTold l j.station).job? = s.job? ∧ (s.replyTold l j.station).lane l = (s.lane l).freed ∧
      (∀ k, k ≠ l → (s.replyTold l j.station).lane k = s.lane k) ∧
      (s.replyTold l j.station).station? = (presenceReply j.station s).station? := by
    refine ⟨?_, State.lane_setLane .., fun k hk => ?_, ?_⟩
    · cases l <;> rfl
    · exact (State.lane_setLane_ne _ _ _ _ hk).trans (by cases k <;> rfl)
    · cases l <;> rfl
  obtain ⟨hjobs, hlane, hother, hstations⟩ := hx
  have hu := updJob_job? (s.replyTold l j.station) j.station (f := fun x => if x.id = j.id then { x with inFlight := false } else x)
  have hq := updJobs_stations _ hf [j.station] (s.replyTold l j.station)
  rw [State.stepTold_eq howner]
  have htold := presenceReply_notified (s := s) (x := s) ⟨rfl, rfl, rfl, rfl⟩ rfl j.station
  have hlanes : ∀ k, (presenceReply j.station s).lane k = s.lane k := fun k => by
    rw [htold]
    cases k <;> rfl
  have hheld : (presenceReply j.station s).job? = s.job? := by
    rw [htold]
    rfl
  refine ⟨⟨⟨?_, ?_, fun m hm => ?_, ?_, ?_⟩, ?_, ?_⟩, ?_, ?_, ?_, fun m => ?_⟩
  · rw [htold]
    refine ⟨?_, ?_, ?_, ?_, ?_, ?_, ?_, ?_, ?_, ?_, ?_, ?_, ?_, ?_, ?_, ?_, ?_, ?_, ?_, ?_, ?_, ?_, ?_, ?_⟩
    case refine_16 => exact hq.trans (by cases l <;> rfl)
    all_goals cases l <;> rfl
  · rw [hu _ hf, if_pos rfl, hjobs, hjob]
    exact congrArg some (if_pos rfl)
  · rw [hu _ hf, if_neg hm, hjobs, hheld]
  · unfold State.laneFreed
    rw [updJob_lane, hlane, hlanes]
    refine ⟨rfl, rfl, rfl, rfl, fun k hk => ?_⟩
    rw [updJob_lane, hother k hk, hlanes]
  · rw [htold]
    cases l <;> rfl
  · rw [htold]
    cases l <;> exact ⟨rfl, rfl⟩
  · exact ⟨_, (hstation _).trans (if_pos rfl), hl⟩
  · cases l <;> rfl
  · rw [updJob_lane, hlane]
    rfl
  · cases l <;> rfl
  · have hm : ((s.replyTold l j.station).updJob j.station
        fun x => if x.id = j.id then { x with inFlight := false } else x).station? m =
        (presenceReply j.station s).station? m := congrFun hstations m
    rw [hm, hstation]
    split
    · rename_i he
      rw [he, hst]
      rfl
    · rfl

/-- The slot and the image length of a station follow from its entry and the slots. -/
theorem State.slotOf_eq_of_entries {s y : State}
    (h : ∀ m, (y.station? m).map (·.entry) = (s.station? m).map (·.entry)) (m : Nat) : y.slotOf m = s.slotOf m := by
  have he : ∀ x : State, x.slotOf m = ((x.station? m).map (·.entry)).elim 0 (·.slot) := fun x => by
    unfold State.slotOf
    cases x.station? m <;> rfl
  rw [he, he, h]

theorem State.lengthOf_eq_of_entries {s y : State}
    (h : ∀ m, (y.station? m).map (·.entry) = (s.station? m).map (·.entry)) (hs : y.store.slots = s.store.slots)
    (m : Nat) : y.lengthOf m = s.lengthOf m := by
  simp only [State.lengthOf, State.validImage?, State.slot, hs, State.slotOf_eq_of_entries h]

/-! ### Outcomes with which the job goes on (R79, R82, R83, R126, R131) -/

theorem freeBuffer_notSending (i : Nat) (s : State) : ((freeBuffer i s).buffer i).state ≠ .sending := fun hs => by
  have hfree := (State.poolKeeps.grantBuffers _).1 i hs
  rw [State.buffer_setBuffer] at hfree
  split at hfree
  · cases hfree
  · rename_i hi
    have hlen : s.store.buffers.length ≤ i := by simpa using hi
    rw [State.buffer, List.getD_eq_default _ _ hlen] at hfree
    cases hfree

namespace State.jobSteps

variable {told u : State} {l : Lane} {j : Job}

theorem openAcknowledged (h : told.jobSteps l j u) :
    told.jobSteps l { j with needsOpen := false, fill := 0, state := .load } (Machine.openAcknowledged l j.station u) :=
  (h.updJob (f := fun x => { x with needsOpen := false, fill := 0, state := .load }) (fun _ => rfl) rfl).pool
    (.planBuffers l _)

theorem startAcknowledged (h : told.jobSteps l j u) :
    told.jobSteps l { j with state := .replay } (Machine.startAcknowledged j.station u) :=
  h.updJob (fun _ => rfl) rfl

/-- The fill mark is taken. -/
theorem fillTo (h : told.jobSteps l j u) (length fill : Nat) :
    told.jobSteps l { j with fill := fill, state := if fill = length then .close else .load }
      (u.updJob j.station (Job.fillTo length fill)) :=
  h.updJob (fun _ => rfl) rfl

theorem blockDelivered (h : told.jobSteps l j u) (i : Nat) :
    told.jobSteps l { j with fill := j.fill + 1, state := if j.fill + 1 = u.lengthOf j.station then .close else .load }
        (Machine.blockDelivered l j.station i u) ∧
      ((Machine.blockDelivered l j.station i u).buffer i).state ≠ .sending := by
  have hfill := h.updJob (f := fun x => x.fillTo (u.lengthOf j.station) (x.fill + 1))
    (j' := { j with fill := j.fill + 1, state := if j.fill + 1 = u.lengthOf j.station then .close else .load })
    (fun _ => rfl) rfl
  exact ⟨(hfill.pool (.freeBuffer i _)).pool (.planBuffers l _),
    fun hs => freeBuffer_notSending i _ ((State.poolKeeps.planBuffers l _).1 i hs)⟩

/-- The group's count is reached: the job has left the round. -/
theorem settleGroup (h : told.jobSteps l j u) (members : List Nat) (count : Nat) (round : Option (List Nat)) :
    told.jobSteps l j (Machine.settleGroup l members count round u) ∧
      (2 ≤ members.length →
        ((Machine.settleGroup l members count round u).lane l).holder =
          some (.group members count (round.filter (· ≠ [])))) := by
  obtain ⟨x, hx, -, hp, -⟩ := settleGroup_works l members count round u
  refine ⟨(h.setLane hx).pool hp, fun hlen => ?_⟩
  have hround : (if round = some [] then none else round) = round.filter (· ≠ []) := by
    cases round with
    | none => rfl
    | some r => cases r <;> simp [Option.filter]
  obtain ⟨m, m', ms, rfl⟩ : ∃ m m' ms, members = m :: m' :: ms := by
    match members, hlen with
    | m :: m' :: ms, _ => exact ⟨m, m', ms, rfl⟩
  simp only [Machine.settleGroup, hround, State.lane_updLane]

end State.jobSteps

end Sys2Proof.Machine
end

section
/-! PROOFS. The outcomes of a PROBE step, and the refusals of a job's step (spec/05, 5.3). -/

namespace Sys2Proof.Machine

namespace State.jobSteps

variable {told u : State} {l : Lane} {j : Job}

theorem station?_eq (h : told.jobSteps l j u) (m : Nat) : u.station? m = told.station? m := by
  obtain ⟨-, -, -, -, hs, -⟩ := h.1.1
  rw [State.station?, hs]
  rfl

/-! ### Refusals (Figure 5-5, R84, R127) -/

/-- A refusal that is not followed by a restart. -/
theorem restart_fails (h : told.jobSteps l j u) (hr : ¬j.restarts < 4) :
    (told.jobFails l j .refused (Machine.wrongState j.station u) ∧
        told.recordsStay (Machine.wrongState j.station u)) ∧
      told.jobFails l j .refused (Machine.restartOpen j.station .refused u) ∧
        told.recordsStay (Machine.restartOpen j.station .refused u) := by
  have hwrong : Machine.wrongState j.station u = failJob j.station .refused u := by
    simp only [Machine.wrongState, h.1.2.1, Nat.not_lt.1 hr, if_true]
  have hopen : Machine.restartOpen j.station .refused u = failJob j.station .refused u := by
    simp only [Machine.restartOpen, h.1.2.1, Nat.not_lt.1 hr, if_true]
  rw [hwrong, hopen]
  exact ⟨h.fails _, h.fails _⟩

/-- The job returns to PROBE. -/
theorem wrongState (h : told.jobSteps l j u) (hr : j.restarts < 4) :
    told.jobSteps l { j with state := .probe, restarts := j.restarts + 1 } (Machine.wrongState j.station u) ∧
      (Machine.wrongState j.station u).outOfHolder l j.station := by
  have hstep := h.updJob (f := fun x => { x with state := .probe, restarts := x.restarts + 1 })
    (j' := { j with state := .probe, restarts := j.restarts + 1 }) (fun _ => rfl) rfl
  have he : Machine.wrongState j.station u = Machine.leaveHolder l j.station
      (u.updJob j.station fun x => { x with state := .probe, restarts := x.restarts + 1 }) := by
    simp only [Machine.wrongState, h.1.2.1, Nat.not_le.2 hr, if_false]
    exact hstep.leaveLoad_eq
  rw [he]
  exact hstep.leaveHolder

/-- The job returns to LOADWAIT for a new OPEN. -/
theorem restartOpen (h : told.jobSteps l j u) (hr : j.restarts < 4) :
    told.jobSteps l { j with state := .loadwait, needsOpen := true, fill := 0, restarts := j.restarts + 1 }
        (Machine.restartOpen j.station .refused u) ∧
      (Machine.restartOpen j.station .refused u).outOfHolder l j.station := by
  have hstep := h.updJob (f := fun x => { x.reopened with restarts := x.restarts + 1 })
    (j' := { j with state := .loadwait, needsOpen := true, fill := 0, restarts := j.restarts + 1 }) (fun _ => rfl) rfl
  have he : Machine.restartOpen j.station .refused u = Machine.leaveHolder l j.station
      (u.updJob j.station fun x => { x.reopened with restarts := x.restarts + 1 }) := by
    simp only [Machine.restartOpen, h.1.2.1, Nat.not_le.2 hr, if_false]
    exact hstep.leaveLoad_eq
  rw [he]
  exact hstep.leaveHolder

/-- A BLOCK refused with another fill mark, which the job takes. -/
theorem badIndexOnBlock (h : told.jobSteps l j u) {t : Txn} {f : Nat} (hf : f ≠ t.index) (hlen : f ≤ u.lengthOf j.station) :
    told.jobSteps l { j with fill := f, state := if f = u.lengthOf j.station then .close else .load }
      (Machine.badIndexOnBlock l t j.station f u) := by
  have hfill := h.fillTo (u.lengthOf j.station) f
  simp only [Machine.badIndexOnBlock, if_neg hf, if_pos hlen]
  generalize u.updJob j.station (Job.fillTo (u.lengthOf j.station) f) = v at *
  refine hfill.pool (State.poolBecomes.trans ?_ (.planBuffers l _))
  split
  · exact .setBuffer v t.buffer _
  · exact .refl v

/-! ### Probed (Figure 5-4, R39, R40, R78) -/

/-- A station changes alike before and after. -/
theorem updStation (h : told.jobSteps l j u) (n : Nat) {f : Station → Station} (hf : ∀ x, (f x).entry = x.entry) :
    (told.updStation n f).jobSteps l j (u.updStation n f) := by
  obtain ⟨⟨hout, hjob, hjobs, hlane, htime⟩, hrecords, st, hst, hl⟩ := h
  obtain ⟨h1, h2, h3, h4, h5, h6⟩ := hout
  have hlanes : ∀ (x : State) (k : Lane), (x.updStation n f).lane k = x.lane k := fun x k => by cases k <;> rfl
  have hfind := updStation_station? told n j.station (f := f) fun x => by rw [hf]
  refine ⟨⟨⟨h1, h2, h3, h4, ?_, h6⟩, hjob, hjobs, ?_, htime⟩, hrecords, ?_⟩
  · simp only [State.updStation, h5]
  · unfold State.laneFreed
    simp only [hlanes]
    exact hlane
  · rw [hfind]
    split
    · rename_i he
      rw [← he, hst]
      exact ⟨_, rfl, by rw [hf, hl]⟩
    · exact ⟨st, hst, hl⟩

end State.jobSteps

/-- What a reply has told, with the working capacity of a job's station adapted where its prediction has missed. -/
def State.learnt (told : State) (j : Job) (adapts : Prop) [Decidable adapts] : State :=
  { told with
    stations := told.stations.map fun x =>
      if x.entry.number = j.station ∧ adapts then
        { x with estimate := x.estimate.adapt x.entry.capacity j.prediction } else x }

theorem State.learnt_of {told : State} {j : Job} {adapts : Prop} [Decidable adapts] (h : adapts) :
    told.learnt j adapts =
      told.updStation j.station fun x => { x with estimate := x.estimate.adapt x.entry.capacity j.prediction } := by
  simp [State.learnt, State.updStation, h]

theorem State.learnt_of_not {told : State} {j : Job} {adapts : Prop} [Decidable adapts] (h : ¬adapts) :
    told.learnt j adapts = told := by
  simp [State.learnt, h]

namespace State.jobSteps

variable {told u : State} {l : Lane} {j : Job} {p : Report}

/-- The check of the prediction. -/
theorem checked (h : told.jobSteps l j u) (tag : Word) {adapts : Prop} [Decidable adapts] {result : PredictionResult}
    (hres : result =
      if j.result = .none then predictionResult j.prediction (decide (p.state ≠ .blank ∧ p.tag = tag)) else j.result)
    (ha : adapts ↔ j.result = .none ∧ result = .miss ∧ j.origin = .gap ∧ u.settings.adaptation = true) :
    (told.learnt j adapts).jobSteps l { j with result := result } (checkPrediction j.station p tag u) := by
  have hjob := h.1.2.1
  by_cases hr : j.result = .none
  · rw [if_pos hr, ← findingIntact_iff] at hres
    have hstep := h.updJob (f := fun x => { x with result := result }) (j' := { j with result := result })
      (fun _ => rfl) rfl
    have he := checkPrediction_first hjob hr p tag
    dsimp only at he
    rw [← hres] at he
    rw [he]
    by_cases hadapts : adapts
    · rw [if_pos (ha.1 hadapts).2, State.learnt_of hadapts]
      exact hstep.updStation j.station fun _ => rfl
    · rw [State.learnt_of_not hadapts, if_neg fun hn => hadapts (ha.2 ⟨hr, hn⟩)]
      exact hstep
  · rw [if_neg hr] at hres
    rw [checkPrediction_later hjob hr, State.learnt_of_not fun hn => hr (ha.1 hn).1, hres]
    exact h

/-- An outcome with no image of the station's kind. -/
theorem probed_noImage (h : told.jobSteps l j u)
    (hk : ∀ st, told.station? j.station = some st → ∀ image, u.validImage? (u.slotOf j.station) = some image →
      image.kind ≠ st.entry.kind) :
    told.jobFails l j .noImage (probeOutcome j.station p u) ∧ told.recordsStay (probeOutcome j.station p u) := by
  have hfound := h.updJob (f := fun x => { x with finding := some p }) (j' := { j with finding := some p })
    (fun _ => rfl) rfl
  have hfails := hfound.fails .noImage
  have he : probeOutcome j.station p u =
      failJob j.station .noImage (u.updJob j.station fun x => { x with finding := some p }) := by
    unfold probeOutcome
    dsimp only
    split
    · rename_i st image hst him
      rw [if_pos (hk st ((h.station?_eq _).symm.trans hst) image him)]
    · rfl
  rw [he]
  exact hfails

theorem probed_wrongKind (h : told.jobSteps l j u) {st : Station} (hst : told.station? j.station = some st) {image : Image}
    (him : u.validImage? (u.slotOf j.station) = some image) (hk : image.kind = st.entry.kind)
    (hp : p.kind ≠ st.entry.kind) :
    told.jobFails l j .wrongKind (probeOutcome j.station p u) ∧ told.recordsStay (probeOutcome j.station p u) := by
  have hfound := h.updJob (f := fun x => { x with finding := some p }) (j' := { j with finding := some p })
    (fun _ => rfl) rfl
  have hust : (u.updJob j.station fun x => { x with finding := some p }).station? j.station = some st :=
    (h.station?_eq _).trans hst
  have huim : State.validImage? (u.updJob j.station fun x => { x with finding := some p })
      ((u.updJob j.station fun x => { x with finding := some p }).slotOf j.station) = some image := him
  have he : probeOutcome j.station p u =
      failJob j.station .wrongKind (u.updJob j.station fun x => { x with finding := some p }) := by
    unfold probeOutcome
    simp only [hust, huim, hk, hp, ne_eq, not_true_eq_false, not_false_eq_true, if_false, if_true]
  rw [he]
  exact hfound.fails .wrongKind

/-- An outcome of a unit of the slot's kind, judged by Figure 5-4. -/
theorem probed_judged (h : told.jobSteps l j u) {st : Station} (hst : told.station? j.station = some st) {image : Image}
    (him : u.validImage? (u.slotOf j.station) = some image) (hk : image.kind = st.entry.kind)
    (hp : p.kind = st.entry.kind) {adapts : Prop} [Decidable adapts] {result : PredictionResult}
    (hres : result =
      if j.result = .none then predictionResult j.prediction (decide (p.state ≠ .blank ∧ p.tag = image.tag)) else j.result)
    (ha : adapts ↔ j.result = .none ∧ result = .miss ∧ j.origin = .gap ∧ u.settings.adaptation = true) :
    (probeVerdict p image st.context.epoch = .complete →
        (told.learnt j adapts).jobCompletes l j .kept result (probeOutcome j.station p u)) ∧
      ∀ state fill needsOpen, probeVerdict p image st.context.epoch = .to state fill needsOpen →
        (told.learnt j adapts).jobSteps l
          { j with
            finding := some p, result := result, state := state, fill := fill.getD j.fill
            needsOpen := needsOpen.getD j.needsOpen }
          (probeOutcome j.station p u) := by
  have hfound := h.updJob (f := fun x => { x with finding := some p }) (j' := { j with finding := some p })
    (fun _ => rfl) rfl
  have hust : (u.updJob j.station fun x => { x with finding := some p }).station? j.station = some st :=
    (h.station?_eq _).trans hst
  have huim : State.validImage? (u.updJob j.station fun x => { x with finding := some p })
      ((u.updJob j.station fun x => { x with finding := some p }).slotOf j.station) = some image := him
  have hchecked := hfound.checked (p := p) image.tag (adapts := adapts) (result := result) hres ha
  refine ⟨fun hv => ?_, fun state fill needsOpen hv => ?_⟩
  · have he : probeOutcome j.station p u = completeJob j.station .kept
        (checkPrediction j.station p image.tag (u.updJob j.station fun x => { x with finding := some p })) := by
      unfold probeOutcome
      simp only [hust, huim, hk, hp, hv, ne_eq, not_true_eq_false, if_false]
    rw [he]
    exact hchecked.completes .kept
  · have he : probeOutcome j.station p u = State.updJob
        (checkPrediction j.station p image.tag (u.updJob j.station fun x => { x with finding := some p })) j.station
        fun x => { x with state := state, fill := fill.getD x.fill, needsOpen := needsOpen.getD x.needsOpen } := by
      unfold probeOutcome
      simp only [hust, huim, hk, hp, hv, ne_eq, not_true_eq_false, if_false]
    rw [he]
    exact hchecked.updJob (fun _ => rfl) rfl

end State.jobSteps

end Sys2Proof.Machine
end

section
/-! PROOFS. The result of a CLOSE step, counted for its slot (spec/07, 7.4; spec/08, 8.3). -/

namespace Sys2Proof.Machine

/-! ### The record of a slot -/

/-- A slot that is not EMPTY has a record, which is set as it is given. -/
theorem State.slot_setSlot {s : State} {n : Nat} (h : s.slot n ≠ .empty) (x : Slot) (m : Nat) :
    (s.setSlot n x).slot m = if m = n then x else s.slot m := by
  have hn : n ≠ 0 := fun hn => h (if_pos hn)
  have hlen : n - 1 < s.store.slots.length := by
    by_contra hge
    rw [State.slot, if_neg hn, List.getD_eq_default _ _ (Nat.le_of_not_lt hge)] at h
    exact h rfl
  rw [State.setSlot_eq]
  unfold State.slot
  by_cases hm : m = n
  · subst hm
    simp [hn, hlen]
  · by_cases h0 : m = 0
    · simp [h0, Ne.symm hn]
    · have hne : n - 1 ≠ m - 1 := by omega
      simp [hn, h0, hm, hne]

/-- The records of the slots are others. -/
def State.withSlots (s : State) (slots : List Slot) : State := { s with store := { s.store with slots := slots } }

theorem State.setSlot_withSlots (s : State) (n : Nat) (x : Slot) :
    s.setSlot n x = s.withSlots (s.setSlot n x).store.slots := by
  unfold State.setSlot
  split <;> rfl

/-- A VALID slot with another count of mismatches in a row. -/
def Slot.counted (count : Nat → Nat) : Slot → Slot
  | .valid image c => .valid image (count c)
  | x => x

/-- A slot has counted, and the others and the mark list stay. -/
def State.slotCounted (s : State) (slot : Nat) (count : Nat → Nat) (u : State) : Prop :=
  u.store.markList = s.store.markList ∧ (∀ x, x ≠ slot → u.slot x = s.slot x) ∧ u.slot slot = (s.slot slot).counted count

/-- A MATCH, and a MISMATCH that is not the third in a row. -/
theorem slotChecked_counts {told u : State} (hr : told.recordsStay u) {slot : Nat} {equal : Bool}
    (h : equal = true ∨ ∀ image c, told.slot slot = .valid image c → c < 2) :
    ∃ slots, slotChecked slot equal u = u.withSlots slots ∧
      told.slotCounted slot (if equal then fun _ => 0 else (· + 1)) (u.withSlots slots) := by
  obtain ⟨hslots, hmarks⟩ := hr
  have hslot : ∀ m, u.slot m = told.slot m := fun m => by rw [State.slot, State.slot, hslots]
  cases hs : told.slot slot with
  | valid image c =>
    have hu : u.slot slot = .valid image c := (hslot slot).trans hs
    have hset := State.slot_setSlot (s := u) (n := slot) (by rw [hu]; exact fun h => by cases h)
    have counts : ∀ x, slotChecked slot equal u = u.setSlot slot x →
        (Slot.valid image c).counted (if equal then fun _ => 0 else (· + 1)) = x →
        ∃ slots, slotChecked slot equal u = u.withSlots slots ∧
          told.slotCounted slot (if equal then fun _ => 0 else (· + 1)) (u.withSlots slots) := fun x he hx => by
      refine ⟨_, he.trans (State.setSlot_withSlots ..), hmarks, ?_⟩
      rw [← State.setSlot_withSlots, hs]
      refine ⟨fun m hm => ?_, ?_⟩
      · rw [hset, if_neg hm, hslot]
      · rw [hset, if_pos rfl, hx]
    cases equal with
    | true => exact counts (.valid image 0) (by simp only [slotChecked, hu, if_true]) rfl
    | false =>
      have hc : c + 1 < 3 := by
        have := h.resolve_left Bool.false_ne_true image c hs
        omega
      exact counts (.valid image (c + 1))
        (by simp only [slotChecked, hu, Bool.false_eq_true, if_false, if_pos hc]) rfl
  | _ =>
    have hu := (hslot slot).trans hs
    exact ⟨u.store.slots, by simp only [slotChecked, hu]; rfl, hmarks, fun x _ => hslot x, by rw [hs]; exact hu⟩

/-! ### The job of the CLOSE step (R80, R133) -/

namespace State.jobSteps

variable {told u : State} {l : Lane} {j : Job}

/-- A job that goes on, whose slot counts. -/
theorem counted (h : told.jobSteps l j u) {slot : Nat} {equal : Bool}
    (hc : equal = true ∨ ∀ image c, told.slot slot = .valid image c → c < 2) :
    told.jobGoesOn l j (slotChecked slot equal u) ∧
      (u.outOfHolder l j.station → (slotChecked slot equal u).outOfHolder l j.station) ∧
      told.slotCounted slot (if equal then fun _ => 0 else (· + 1)) (slotChecked slot equal u) := by
  obtain ⟨slots, he, hcounts⟩ := slotChecked_counts h.2.1 hc
  rw [he]
  exact ⟨h.1, fun hout => hout, hcounts⟩

/-- A CLOSE MATCH. -/
theorem closeResult_match (h : told.jobSteps l j u) :
    told.jobGoesOn l { j with loaded := true, state := .start } (Machine.closeResult j.station true u) ∧
      (Machine.closeResult j.station true u).outOfHolder l j.station ∧
      told.slotCounted (u.slotOf j.station) (fun _ => 0) (Machine.closeResult j.station true u) := by
  have hstep := h.updJob (f := fun x => { x with loaded := true, state := .start })
    (j' := { j with loaded := true, state := .start }) (fun _ => rfl) rfl
  obtain ⟨hleft, hout⟩ := hstep.leaveHolder
  obtain ⟨hgoes, hout', hcounts⟩ := hleft.counted (slot := u.slotOf j.station) (equal := true) (.inl rfl)
  have he : Machine.closeResult j.station true u = slotChecked (u.slotOf j.station) true
      (Machine.leaveHolder l j.station (u.updJob j.station fun x => { x with loaded := true, state := .start })) := by
    simp only [Machine.closeResult, h.1.2.1, if_true]
    exact congrArg _ hstep.leaveLoad_eq
  rw [he]
  exact ⟨hgoes, hout' hout, hcounts⟩

/-- The settlement of a job by a first MISMATCH. -/
theorem closeResult_first (h : told.jobSteps l j u) (hm : j.mismatches = 0) :
    ∃ v, Machine.closeResult j.station false u = slotChecked (u.slotOf j.station) false v ∧
      told.jobSteps l { j with state := .loadwait, needsOpen := true, fill := 0, mismatches := 1 } v ∧
      v.outOfHolder l j.station ∧ u.departStays v := by
  have hstep := (h.updJob (f := fun x => { x with mismatches := x.mismatches + 1 })
    (j' := { j with mismatches := j.mismatches + 1 }) (fun _ => rfl) rfl).updJob (f := Job.reopened)
      (j' := { j with state := .loadwait, needsOpen := true, fill := 0, mismatches := j.mismatches + 1 }) (fun _ => rfl) rfl
  have hle : ¬1 ≤ j.mismatches := by omega
  obtain ⟨hleave, hout⟩ := hstep.leaveHolder
  rw [hm] at hleave
  refine ⟨_, ?_, hleave, hout, ((State.departStays.updJob ..).trans (.updJob ..)).trans (.leaveHolder ..)⟩
  simp only [Machine.closeResult, h.1.2.1, Bool.false_eq_true, if_false, if_neg hle]
  exact congrArg _ hstep.leaveLoad_eq

/-- The settlement of a job by a MISMATCH after one. -/
theorem closeResult_again (h : told.jobSteps l j u) (hm : 1 ≤ j.mismatches) :
    ∃ v, Machine.closeResult j.station false u = slotChecked (u.slotOf j.station) false (failJob j.station .check v) ∧
      told.jobSteps l { j with mismatches := j.mismatches + 1 } v ∧ u.departStays v := by
  have hstep := h.updJob (f := fun x => { x with mismatches := x.mismatches + 1 })
    (j' := { j with mismatches := j.mismatches + 1 }) (fun _ => rfl) rfl
  refine ⟨_, ?_, hstep, .updJob ..⟩
  simp only [Machine.closeResult, h.1.2.1, Bool.false_eq_true, if_false, if_pos hm]

/-- A first MISMATCH that is not the slot's third in a row. -/
theorem closeResult_reopened (h : told.jobSteps l j u) (hm : j.mismatches = 0)
    (hc : ∀ image c, told.slot (u.slotOf j.station) = .valid image c → c < 2) :
    told.jobGoesOn l { j with state := .loadwait, needsOpen := true, fill := 0, mismatches := 1 }
        (Machine.closeResult j.station false u) ∧
      (Machine.closeResult j.station false u).outOfHolder l j.station ∧
      told.slotCounted (u.slotOf j.station) (· + 1) (Machine.closeResult j.station false u) := by
  obtain ⟨v, he, hv, hout, -⟩ := h.closeResult_first hm
  obtain ⟨hgoes, hout', hcounts⟩ := hv.counted (equal := false) (.inr hc)
  rw [he]
  exact ⟨hgoes, hout' hout, hcounts⟩

/-- A second MISMATCH that is not the slot's third in a row. -/
theorem closeResult_failed (h : told.jobSteps l j u) (hm : 1 ≤ j.mismatches)
    (hc : ∀ image c, told.slot (u.slotOf j.station) = .valid image c → c < 2) :
    told.jobFails l j .check (Machine.closeResult j.station false u) ∧
      told.slotCounted (u.slotOf j.station) (· + 1) (Machine.closeResult j.station false u) := by
  obtain ⟨v, he, hv, -⟩ := h.closeResult_again hm
  obtain ⟨hfails, hrecords⟩ := hv.fails .check
  obtain ⟨slots, hs, hcounts⟩ := slotChecked_counts hrecords (equal := false) (.inr hc)
  rw [he, hs]
  exact ⟨hfails, hcounts⟩

end State.jobSteps

end Sys2Proof.Machine
end

section
/-! PROOFS. The third mismatch in a row: the slot becomes SUSPECT and its jobs fail (spec/05, 5.4; spec/08, 8.3). -/

namespace Sys2Proof.Machine

/-! ### Jobs that fail one after another (R81, R89) -/

theorem job?_of_mem {queue : List Job} (h : (queue.map (·.station)).Nodup) {j : Job} (hj : j ∈ queue) :
    queue.find? (·.station = j.station) = some j := by
  induction queue with
  | nil => cases hj
  | cons x xs ih =>
    obtain ⟨hx, hxs⟩ := List.nodup_cons.1 h
    rcases List.mem_cons.1 hj with rfl | hj
    · simp
    · have hne : x.station ≠ j.station := fun he => hx (List.mem_map.2 ⟨j, hj, he.symm⟩)
      simp [hne, ih hxs hj]

/-- The jobs fail one after another, each as it stood. -/
theorem failJobs_departed {told notes y : State} {gone : List Nat} (r : Reason) (js : List Job)
    (h : told.departed gone notes y) (hj : ∀ j ∈ js, y.job? j.station = some j) (hn : (js.map (·.station)).Nodup) :
    let u := js.foldl (fun x j => failJob j.station r x) y
    told.departed (gone ++ js.map (·.station)) (notes.failuresPosted r js) u ∧ y.departStays u ∧
      (∀ m, m ∉ js.map (·.station) → u.job? m = y.job? m) ∧ u.engine.failed = y.engine.failed + js.length ∧
      u.engine.restored = y.engine.restored := by
  induction js generalizing notes y gone with
  | nil => exact ⟨by rw [List.map_nil, List.append_nil]; exact h, .refl y, fun _ _ => rfl, rfl, rfl⟩
  | cons j js ih =>
    obtain ⟨hjs, hnodup⟩ := List.nodup_cons.1 hn
    have hself := hj j List.mem_cons_self
    have hhas : y.hasJob j.station = true := by
      rw [State.hasJob, hself]
      rfl
    have hnext := h.next hhas .absent (.nodeFailed j.station (j.pass.getD 0) r j.state) y.engine.restored
      (y.engine.failed + 1)
    obtain ⟨hstays, -⟩ := jobGone_lane j.station .absent (.nodeFailed j.station (j.pass.getD 0) r j.state)
      y.engine.restored (y.engine.failed + 1) y
    obtain ⟨-, -, -, ueng, -⟩ := jobGone_fields j.station .absent (.nodeFailed j.station (j.pass.getD 0) r j.state)
      y.engine.restored (y.engine.failed + 1) y
    have hjob := jobGone_job? j.station .absent (.nodeFailed j.station (j.pass.getD 0) r j.state)
      y.engine.restored (y.engine.failed + 1) y
    rw [← failJob_eq hself r] at hnext hstays ueng hjob
    have hothers : ∀ k ∈ js, (failJob j.station r y).job? k.station = some k := fun k hk => by
      have hne : k.station ≠ j.station := fun he => hjs (List.mem_map.2 ⟨k, hk, he⟩)
      rw [hjob, if_neg hne]
      exact hj k (List.mem_cons_of_mem _ hk)
    obtain ⟨hdep, hstays', hjobs, hfailed, hrestored⟩ := ih hnext hothers hnodup
    rw [ueng] at hfailed hrestored
    refine ⟨?_, hstays.trans hstays', fun m hm => ?_, ?_, hrestored⟩
    · rw [List.append_assoc] at hdep
      exact hdep
    · obtain ⟨hmj, hmjs⟩ : m ≠ j.station ∧ m ∉ js.map (·.station) := by simpa using hm
      rw [List.foldl_cons, hjobs m hmjs, hjob, if_neg hmj]
    · rw [List.foldl_cons, hfailed, List.length_cons]
      simp only
      omega

/-! ### What the notices of failures tell -/

/-- What a failure tells of a job: its station, its pass and the state that it held. -/
def Job.told (j : Job) : Nat × Option Nat × JobState := (j.station, j.pass, j.state)

theorem failuresPosted_told {js js' : List Job} (h : js.map Job.told = js'.map Job.told) (told : State) (r : Reason) :
    told.failuresPosted r js = told.failuresPosted r js' := by
  have hfold : ∀ js : List Job, told.failuresPosted r js =
      (js.map Job.told).foldl
        (fun x k => postNotice (.nodeFailed k.1 (k.2.1.getD 0) r k.2.2) (setPresence k.1 .absent x)) told := fun js => by
    rw [List.foldl_map]
    rfl
  rw [hfold, hfold, h]

/-- The stations of jobs that fail are ABSENT, and every station has its entry still. -/
theorem failuresPosted_station? (told : State) (r : Reason) (js : List Job) (m : Nat) :
    (told.failuresPosted r js).station? m =
      (told.station? m).map fun st => if m ∈ js.map (·.station) then { st with presence := .absent } else st := by
  induction js generalizing told with
  | nil => simp [State.failuresPosted]
  | cons j js ih =>
    have hstep : told.failuresPosted r (j :: js) = State.failuresPosted
        (postNotice (.nodeFailed j.station (j.pass.getD 0) r j.state) (setPresence j.station .absent told)) r js := rfl
    have hpost : ∀ x : State, (postNotice (.nodeFailed j.station (j.pass.getD 0) r j.state) x).station? m = x.station? m :=
      fun x => by rw [State.station?, postNotice_stations, State.station?]
    rw [hstep, ih, hpost, setPresence_station?]
    by_cases hm : m = j.station
    · subst hm
      cases told.station? j.station <;> simp
    · cases told.station? m <;> simp [hm]

/-- Queues of the same stations tell the same where every station's job does. -/
theorem queue_told_eq {q q' : List Job} (hq : q.map (·.station) = q'.map (·.station)) (hn : (q'.map (·.station)).Nodup)
    (hj : ∀ m, (q.find? (·.station = m)).map Job.told = (q'.find? (·.station = m)).map Job.told) :
    q.map Job.told = q'.map Job.told := by
  have hfind : ∀ x : List Job, (x.map (·.station)).Nodup →
      (x.map Job.told).map some = (x.map (·.station)).map fun m => (x.find? (·.station = m)).map Job.told := fun x hx => by
    simp only [List.map_map]
    refine List.map_congr_left fun j hj => ?_
    simp only [Function.comp, job?_of_mem hx hj, Option.map_some]
  refine List.map_injective_iff.2 (Option.some_injective _) ?_
  rw [hfind q (hq ▸ hn), hfind q' hn, hq]
  exact congrArg (List.map · _) (funext hj)

/-- A job of a slot is in a state that needs its image (R81). -/
def doomedKey (slotOf : Nat → Nat) (slot : Nat) (k : Nat × Option Nat × JobState) : Bool :=
  decide (slotOf k.1 = slot ∧ (k.2.2 = .loadwait ∨ k.2.2 = .opn ∨ k.2.2 = .load ∨ k.2.2 = .close))

theorem doomedJobs_eq (slot : Nat) (s : State) :
    doomedJobs slot s = s.engine.queue.filter (doomedKey s.slotOf slot ∘ Job.told) := by
  unfold doomedJobs
  refine List.filter_congr fun j _ => ?_
  rw [Bool.eq_iff_iff]
  refine Iff.trans ?_ decide_eq_true_iff.symm
  simp [Job.told, or_assoc]

/-! ### The slot becomes SUSPECT (R133, R142) -/

/-- The slots, the mark list and the queue of the flash are others. -/
def State.withMarks (s : State) (slots : List Slot) (marks : List Nat) (queue : List FlashOp) : State :=
  { s with store := { s.store with slots := slots, markList := marks, queue := queue } }

/-- The operation that marks a slot SUSPECT. -/
def markOp (slot : Nat) : FlashOp := { command := .program slot 0 markData, who := .markWriter slot }

/-- A slot listed to be marked, which is marked at once where it is the only one and the mark writer is idle. -/
theorem kickMarkWriter_listed (v : State) (slots : List Slot) (slot : Nat) :
    ∃ queue,
      kickMarkWriter (v.withMarks slots (v.store.markList ++ [slot]) v.store.queue) =
          v.withMarks slots (v.store.markList ++ [slot]) queue ∧
        (v.store.markList = [] → markBusy v = false → markOp slot ∈ queue) := by
  obtain ⟨n, ns, hns⟩ : ∃ n ns, v.store.markList ++ [slot] = n :: ns := by
    cases v.store.markList <;> exact ⟨_, _, rfl⟩
  have hkick : kickMarkWriter (v.withMarks slots (v.store.markList ++ [slot]) v.store.queue) =
      if markBusy v then v.withMarks slots (v.store.markList ++ [slot]) v.store.queue
      else queueOp (markOp n) (v.withMarks slots (v.store.markList ++ [slot]) v.store.queue) := by
    unfold kickMarkWriter
    rw [show markBusy (v.withMarks slots (v.store.markList ++ [slot]) v.store.queue) = markBusy v from rfl]
    simp only [State.withMarks, hns]
    rfl
  by_cases hb : markBusy v = true
  · rw [if_pos hb] at hkick
    exact ⟨v.store.queue, hkick, fun _ hi => absurd hb (by rw [hi]; exact Bool.false_ne_true)⟩
  · rw [if_neg hb] at hkick
    refine ⟨v.store.queue ++ [markOp n], hkick, fun hm _ => ?_⟩
    rw [hm] at hns
    obtain ⟨rfl, -⟩ := List.cons.inj hns
    simp

/-- The third mismatch in a row makes a slot SUSPECT, lists it to be marked, and fails its jobs. -/
theorem slotChecked_third {v : State} {slot c : Nat} {image : Image} (hs : v.slot slot = .valid image c) (hc : 2 ≤ c) :
    ∃ slots queue,
      let w := v.withMarks slots (v.store.markList ++ [slot]) queue
      slotChecked slot false v = slotLeftValid slot w ∧ w.slot slot = .suspect image 3 ∧
        (∀ x, x ≠ slot → w.slot x = v.slot x) ∧
        (v.store.markList = [] → markBusy v = false → markOp slot ∈ queue) := by
  have hset := State.slot_setSlot (s := v) (n := slot) (by rw [hs]; exact fun h => by cases h) (.suspect image 3)
  have hc' : ¬c + 1 < 3 := by omega
  obtain ⟨queue, hkick, hop⟩ := kickMarkWriter_listed v (v.setSlot slot (.suspect image 3)).store.slots slot
  have hw : ∀ m, (v.withMarks (v.setSlot slot (.suspect image 3)).store.slots (v.store.markList ++ [slot]) queue).slot m =
      (v.setSlot slot (.suspect image 3)).slot m := fun _ => rfl
  refine ⟨_, queue, ?_, by rw [hw, hset, if_pos rfl], fun x hx => by rw [hw, hset, if_neg hx], hop⟩
  rw [← hkick]
  simp only [slotChecked, hs, Bool.false_eq_true, if_false, if_neg hc']
  rw [State.setSlot_withSlots]
  rfl

/-! ### The jobs of the slot fail (R81) -/

/-- What the third mismatch in a row leaves, once the job of the CLOSE step is settled. -/
theorem slotChecked_departs {told notes v : State} {gone : List Nat} (h : told.departed gone notes v)
    (hn : (v.engine.queue.map (·.station)).Nodup) {slot c : Nat} {image : Image} (hs : v.slot slot = .valid image c)
    (hc : 2 ≤ c) :
    let u := slotChecked slot false v
    let doomed := doomedJobs slot v
    told.departed (gone ++ doomed.map (·.station)) (notes.failuresPosted .noImage doomed) u ∧
      (∀ m, m ∉ doomed.map (·.station) → u.job? m = v.job? m) ∧
      u.engine.failed = v.engine.failed + doomed.length ∧ u.engine.restored = v.engine.restored ∧
      (∀ k, (v.lane k).shrinks (u.lane k)) ∧
      (∀ k, u.timebase.dueOf (.responseWindow k) = v.timebase.dueOf (.responseWindow k)) ∧
      u.slot slot = .suspect image 3 ∧ (∀ x, x ≠ slot → u.slot x = v.slot x) ∧
      u.store.markList = v.store.markList ++ [slot] ∧
      (v.store.markList = [] → markBusy v = false → markOp slot ∈ u.store.queue) := by
  obtain ⟨slots, queue, he, hslot, hslots, hop⟩ := slotChecked_third hs hc
  dsimp only
  rw [he]
  generalize hw : v.withMarks slots (v.store.markList ++ [slot]) queue = w at *
  have hsame : told.departed gone notes w ∧ w.engine = v.engine ∧ (∀ k, w.lane k = v.lane k) ∧
      w.timebase = v.timebase ∧ w.store.markList = v.store.markList ++ [slot] ∧ w.store.queue = queue ∧
      doomedJobs slot w = doomedJobs slot v := by
    subst hw
    exact ⟨h, rfl, fun _ => rfl, rfl, rfl, rfl, rfl⟩
  obtain ⟨hdep, heng, hlanes, htime, hmarks, hqueue, hdoomed⟩ := hsame
  have hsub : (doomedJobs slot v).Sublist v.engine.queue := List.filter_sublist
  have hjobs : ∀ j ∈ doomedJobs slot v, w.job? j.station = some j := fun j hj => by
    rw [State.job?, heng]
    exact job?_of_mem hn (hsub.subset hj)
  obtain ⟨hdep', ⟨hshrinks, ⟨-, hops, -⟩, ⟨hslots', hmarks'⟩, hdue, -⟩, hothers, hfailed, hrestored⟩ :=
    failJobs_departed .noImage (doomedJobs slot v) hdep hjobs (hn.sublist (hsub.map _))
  unfold slotLeftValid
  rw [hdoomed]
  generalize (doomedJobs slot v).foldl (fun x j => failJob j.station .noImage x) w = u at *
  have hslot' : ∀ m, u.slot m = w.slot m := fun m => by rw [State.slot, State.slot, hslots']
  refine ⟨hdep', fun m hm => ?_, ?_, ?_, fun k => ?_, fun k => ?_, ?_, fun x hx => ?_, ?_, fun hm hb => ?_⟩
  · rw [hothers m hm, State.job?, State.job?, heng]
  · rw [hfailed, heng]
  · rw [hrestored, heng]
  · rw [← hlanes]
    exact hshrinks k
  · rw [hdue, htime]
  · rw [hslot', hslot]
  · rw [hslot', hslots x hx]
  · rw [hmarks', hmarks]
  · exact hops _ (hqueue ▸ hop hm hb)

end Sys2Proof.Machine
end

section
/-! PROOFS. The third mismatch in a row, with the job that was told of it (spec/07, 7.4; spec/08, 8.3). -/

namespace Sys2Proof.Machine

/-! ### The jobs of the slot, before and after the job of the step is settled -/

/-- The jobs of a slot tell the same of themselves where the queues do. -/
theorem doomedJobs_told {s v : State} {queue : List Job} (hq : v.engine.queue.map Job.told = queue.map Job.told)
    (hs : ∀ m, v.slotOf m = s.slotOf m) (slot : Nat) :
    (doomedJobs slot v).map Job.told = (queue.filter (doomedKey s.slotOf slot ∘ Job.told)).map Job.told := by
  rw [doomedJobs_eq, ← List.filter_map, ← List.filter_map, hq, funext hs]

/-- The queue that a job which goes on is in tells what another does that has the job so. -/
theorem State.jobSteps.queue_told {told v : State} {l : Lane} {j : Job} (h : told.jobSteps l j v) {queue : List Job}
    (hq : queue.map (·.station) = told.engine.queue.map (·.station)) (hn : (told.engine.queue.map (·.station)).Nodup)
    (hj : ∀ m, (queue.find? (·.station = m)).map Job.told =
      if m = j.station then some j.told else (told.job? m).map Job.told) :
    v.engine.queue.map Job.told = queue.map Job.told := by
  obtain ⟨⟨hout, hjob, hjobs, -⟩, -⟩ := h
  obtain ⟨-, -, -, -, -, -, -, -, -, -, -, -, -, -, -, hst, -⟩ := hout
  refine queue_told_eq (hst.trans hq.symm) (hq ▸ hn) fun m => ?_
  rw [hj]
  by_cases hm : m = j.station
  · rw [if_pos hm, hm]
    exact congrArg (Option.map Job.told) hjob
  · rw [if_neg hm]
    exact congrArg (Option.map Job.told) (hjobs m hm)

/-- A job that tells what it did leaves what its queue tells as it was. -/
theorem State.jobSteps.queue_told_same {told v : State} {l : Lane} {j j' : Job} (h : told.jobSteps l j' v)
    (hn : (told.engine.queue.map (·.station)).Nodup) (hj : told.job? j.station = some j) (ht : j'.told = j.told) :
    v.engine.queue.map Job.told = told.engine.queue.map Job.told := by
  refine h.queue_told rfl hn fun m => ?_
  have hst : j'.station = j.station := congrArg Prod.fst ht
  rw [hst, ht]
  split
  · rename_i hm
    rw [hm]
    exact congrArg (Option.map Job.told) hj
  · rfl

/-- The queue with a job sent back to LOADWAIT. -/
theorem State.jobSteps.queue_told_reopened {told v : State} {l : Lane} {j j' anew : Job} (h : told.jobSteps l j' v)
    (hn : (told.engine.queue.map (·.station)).Nodup) (hj : told.job? j.station = some j) (ht : j'.told = anew.told)
    (ha : anew.station = j.station) :
    v.engine.queue.map Job.told = (told.engine.queue.map fun x => if x.station = j.station then anew else x).map Job.told := by
  have hst : j'.station = j.station := (congrArg Prod.fst ht).trans ha
  have hu := fun m => updJob_job? told j.station m (f := fun x => { anew with station := x.station }) fun _ => rfl
  have hq := updJobs_stations (fun x => { anew with station := x.station }) (fun _ => rfl) [j.station] told
  have hsame : (told.engine.queue.map fun x => if x.station = j.station then anew else x) =
      (told.updJob j.station fun x => { anew with station := x.station }).engine.queue := by
    refine List.map_congr_left fun x _ => ?_
    split
    · rename_i hx
      have he : x.station = anew.station := hx.trans ha.symm
      simp only [he]
    · rfl
  rw [hsame]
  refine h.queue_told hq hn fun m => ?_
  have hm := hu m
  unfold State.job? at hm hj ⊢
  rw [hm, hst, ht]
  split
  · rw [hj]
    simp only [Option.map_some, Job.told, ha]
  · rfl

/-! ### The settlement and the slot -/

/-- The job of a CLOSE step has been settled: jobs have left, it is out of its lane's holder, the lane is free, and the slots
and the mark writer are as they were. -/
def State.closeSettled (s told : State) (l : Lane) (n : Nat) (gone : List Nat) (notes v : State) : Prop :=
  told.departed gone notes v ∧ (v.engine.queue.map (·.station)).Nodup ∧
    (v.store.slots = s.store.slots ∧ v.store.markList = s.store.markList) ∧
    (markBusy s = false → markBusy v = false) ∧ (∀ m, m ≠ n → m ∉ gone → v.job? m = s.job? m) ∧
    v.outOfHolder l n ∧ (v.lane l).txn = none ∧ v.timebase.dueOf (.responseWindow l) = none ∧
    v.engine.failed = s.engine.failed + gone.length ∧ v.engine.restored = s.engine.restored ∧
    (∀ m ∈ gone, (notes.station? m).map (·.presence) = (s.station? m).map fun _ => .absent) ∧
    ∀ m, (notes.station? m).map (·.entry) = (s.station? m).map (·.entry)

/-- The slot of a CLOSE step has left VALID, and its jobs have failed. -/
def State.slotLost (s told : State) (l : Lane) (n slot : Nat) (image : Image) (gone : List Nat) (notes u : State) : Prop :=
  let posted := told.runEnded gone s.engine.restored (s.engine.failed + gone.length) notes
  told.jobsLeft gone u ∧ n ∈ gone ∧ (∀ m, m ∉ gone → u.job? m = s.job? m) ∧
    u.outOfHolder l n ∧ (u.lane l).txn = none ∧ u.timebase.dueOf (.responseWindow l) = none ∧
    (∀ m ∈ gone, (u.station? m).map (·.presence) = (s.station? m).map fun _ => .absent) ∧
    u.engine.failed = s.engine.failed + gone.length ∧ u.engine.restored = s.engine.restored ∧
    u.link = posted.link ∧ u.pins = posted.pins ∧ u.slot slot = .suspect image 3 ∧
    (∀ x, x ≠ slot → u.slot x = s.slot x) ∧ u.store.markList = s.store.markList ++ [slot] ∧
    (s.store.markList = [] → markBusy s = false → markOp slot ∈ u.store.queue)

theorem State.closeSettled.slotLost {s told notes v : State} {l : Lane} {n slot c : Nat} {gone : List Nat} {image : Image}
    (h : s.closeSettled told l n gone notes v) (hs : s.slot slot = .valid image c) (hc : 2 ≤ c) {doomed : List Job}
    (hd : (doomedJobs slot v).map Job.told = doomed.map Job.told) (hn : n ∈ gone ++ doomed.map (·.station)) :
    s.slotLost told l n slot image (gone ++ doomed.map (·.station)) (notes.failuresPosted .noImage doomed)
      (slotChecked slot false v) := by
  obtain ⟨hdep, hnodup, ⟨hslots, hmarks⟩, hbusy, hjobs, hout, htxn, hdue, hfailed, hrestored, habsent, hentries⟩ := h
  have hslot : ∀ m, v.slot m = s.slot m := fun m => by rw [State.slot, State.slot, hslots]
  have hstations : (doomedJobs slot v).map (·.station) = doomed.map (·.station) := by
    have hfst := congrArg (List.map Prod.fst) hd
    rwa [List.map_map, List.map_map] at hfst
  have hlen : (doomedJobs slot v).length = (doomed.map (·.station)).length := by
    rw [← hstations, List.length_map]
  obtain ⟨hdep', hothers, ufailed, urestored, hshrinks, udue, uslot, uslots, umarks, uop⟩ :=
    slotChecked_departs hdep hnodup ((hslot slot).trans hs) hc
  rw [hstations, failuresPosted_told hd] at hdep'
  rw [hstations] at hothers
  generalize slotChecked slot false v = u at *
  have efailed : u.engine.failed = s.engine.failed + (gone ++ doomed.map (·.station)).length := by
    rw [ufailed, hfailed, hlen, List.length_append, Nat.add_assoc]
  have erestored : u.engine.restored = s.engine.restored := urestored.trans hrestored
  obtain ⟨hleft, ustations, ulink, upins, -⟩ := hdep'
  rw [efailed, erestored] at ulink upins
  refine ⟨hleft, hn, fun m hm => ?_, ?_, ?_, ?_, fun m hm => ?_, efailed, erestored, ulink, upins, uslot, fun x hx => ?_, ?_,
    fun hm hb => ?_⟩
  · obtain ⟨hg, hdm⟩ := not_or.1 fun ho => hm (List.mem_append.2 ho)
    rw [hothers m hdm, hjobs m (fun he => hm (he ▸ hn)) hg]
  · exact LaneState.without.shrinks hout (hshrinks l)
  · obtain ⟨⟨-, ht⟩, -⟩ := hshrinks l
    exact ht htxn
  · rw [udue, hdue]
  · rw [State.station?, ustations]
    have hst := failuresPosted_station? notes .noImage doomed m
    rw [State.station?] at hst
    rw [hst]
    by_cases hdm : m ∈ doomed.map (·.station)
    · have hsome := congrArg (Option.map fun _ => Presence.absent) (hentries m)
      simp only [Option.map_map] at hsome
      simp only [hdm, if_true, Option.map_map]
      exact hsome
    · simp only [hdm, if_false, Option.map_id']
      exact habsent m ((List.mem_append.1 hm).resolve_right hdm)
  · rw [uslots x hx, hslot]
  · rw [umarks, hmarks]
  · exact uop (hmarks.trans hm) (hbusy hb)

/-! ### The settlement by Figure 5-4 (R80, R133) -/

/-- A mark writer that is idle stays so. -/
theorem State.departStays.markBusy {s u : State} (h : s.departStays u) (hb : Machine.markBusy s = false) :
    Machine.markBusy u = false := by
  obtain ⟨-, ⟨-, -, hops⟩, -, -, hr⟩ := h
  unfold Machine.markBusy at hb ⊢
  rw [hr]
  rw [Bool.or_eq_false_iff] at hb ⊢
  refine ⟨?_, hb.2⟩
  rw [List.any_eq_false] at hb ⊢
  intro op ho hm
  exact hb.1 op (hops op ho hm) hm

/-- What presence has been told of a station, and all that it leaves. -/
theorem presenceReply_tells {s : State} {n : Nat} {st : Station} (hst : s.station? n = some st) :
    (presenceReply n s).engine = s.engine ∧ (presenceReply n s).store = s.store ∧
      (presenceReply n s).settings = s.settings ∧
      ∀ m, ((presenceReply n s).station? m).map (·.entry) = (s.station? m).map (·.entry) := by
  have hstation := presenceReply_station? hst
  have htold := presenceReply_notified (s := s) (x := s) ⟨rfl, rfl, rfl, rfl⟩ rfl n
  refine ⟨by rw [htold], by rw [htold], by rw [htold], fun m => ?_⟩
  rw [hstation]
  split
  · rename_i hm
    rw [hm, hst]
    rfl
  · rfl

theorem State.jobSteps.settled {s v y : State} {l : Lane} {n : Nat} {j' : Job} {st : Station}
    (h : (presenceReply n s).jobSteps l j' v) (hst : s.station? n = some st) (hj : j'.station = n)
    (hy : y.departStays v) (hstore : y.store = s.store) (hq : (s.engine.queue.map (·.station)).Nodup)
    (hout : v.outOfHolder l n) : s.closeSettled (presenceReply n s) l n [] (presenceReply n s) v := by
  obtain ⟨heng, hstore', -, hentries⟩ := presenceReply_tells hst
  have hdep := h.departed
  obtain ⟨⟨hout', -, hjobs, ⟨htxn, -⟩, htime⟩, ⟨hslots, hmarks⟩, -⟩ := h
  obtain ⟨-, -, -, -, -, -, -, -, -, -, -, -, hrestored, hfailed, -, hstations, -⟩ := hout'
  rw [hstore'] at hslots hmarks
  rw [heng] at hrestored hfailed hstations
  refine ⟨hdep, hstations ▸ hq, ⟨hslots, hmarks⟩, fun hb => hy.markBusy ?_, fun m hm _ => ?_, hout, htxn, ?_, hfailed,
    hrestored, fun m hm => (by cases hm), hentries⟩
  · rw [markBusy, hstore]
    exact hb
  · rw [hjobs m (fun he => hm (he.trans hj)), State.job?, heng]
    rfl
  · rw [htime]
    simp

end Sys2Proof.Machine
end

section
/-! PROOFS. A third mismatch in a row, of a job that had one or none (spec/07, 7.4; spec/08, 8.3). -/

namespace Sys2Proof.Machine

/-- The job of the CLOSE step has failed. -/
theorem State.jobSteps.settled_failed {s v y : State} {l : Lane} {j j' : Job} {st : Station}
    (h : (presenceReply j.station s).jobSteps l j' v) (hst : s.station? j.station = some st) (hj : j'.told = j.told)
    (hy : y.departStays v) (hstore : y.store = s.store) (hq : (s.engine.queue.map (·.station)).Nodup) :
    s.closeSettled (presenceReply j.station s) l j.station [j.station]
      ((presenceReply j.station s).failuresPosted .check [j]) (failJob j.station .check v) := by
  obtain ⟨heng, hstore', -, hentries⟩ := presenceReply_tells hst
  have hstation : j'.station = j.station := congrArg Prod.fst hj
  have hposted := failuresPosted_told (js := [j']) (js' := [j]) (by rw [List.map_singleton, List.map_singleton, hj])
    (presenceReply j.station s) .check
  have hfail : failJob j'.station .check v = v.jobGone j'.station .absent
      (.nodeFailed j'.station (j'.pass.getD 0) .check j'.state) v.engine.restored (v.engine.failed + 1) :=
    failJob_eq h.1.2.1 .check
  obtain ⟨hdep, -, -⟩ := h.jobLeft .absent (.nodeFailed j'.station (j'.pass.getD 0) .check j'.state) v.engine.restored
    (v.engine.failed + 1)
  obtain ⟨⟨hleft, -, -, hfailed, hrestored, -⟩, hslots, hmarks⟩ := h.fails .check
  obtain ⟨hstays, -⟩ := jobGone_lane j'.station .absent (.nodeFailed j'.station (j'.pass.getD 0) .check j'.state)
    v.engine.restored (v.engine.failed + 1) v
  rw [← hfail] at hdep hstays
  replace hdep : (presenceReply j.station s).departed [j'.station]
      ((presenceReply j.station s).failuresPosted .check [j']) (failJob j'.station .check v) := hdep
  rw [hposted] at hdep
  rw [hstation] at hdep hstays hleft hslots hmarks hfailed hrestored
  obtain ⟨⟨-, hstations, -⟩, hjobs, hout, ⟨htxn, -⟩, htime⟩ := hleft
  rw [hstore'] at hslots hmarks
  rw [heng] at hfailed hrestored hstations
  generalize failJob j.station .check v = u at *
  have hpresence := failuresPosted_station? (presenceReply j.station s) .check [j]
  refine ⟨hdep, ?_, ⟨hslots, hmarks⟩, fun hb => (hy.trans hstays).markBusy ?_, fun m hm _ => ?_, hout, htxn, ?_, hfailed,
    hrestored, fun m hm => ?_, fun m => ?_⟩
  · rw [hstations]
    exact hq.filter _
  · rw [markBusy, hstore]
    exact hb
  · rw [hjobs m hm, State.job?, heng]
    rfl
  · rw [htime]
    simp
  · have hmem : m ∈ [j].map (·.station) := hm
    have hsome := congrArg (Option.map fun _ => Presence.absent) (hentries m)
    rw [Option.map_map, Option.map_map] at hsome
    rw [hpresence]
    simp only [hmem, if_true, Option.map_map]
    exact hsome
  · rw [hpresence, ← hentries m, Option.map_map]
    refine congrArg (Option.map · _) (funext fun st => ?_)
    simp only [Function.comp]
    split <;> rfl

/-- A third MISMATCH in a row, of a job that had none. -/
theorem closeResult_third_first {s y : State} {l : Lane} {j : Job} {st : Station}
    (h : (presenceReply j.station s).jobSteps l j y) (hk : s.toldKeeps y l) (hjob : s.job? j.station = some j)
    (hst : s.station? j.station = some st) (hq : (s.engine.queue.map (·.station)).Nodup) {image : Image} {c : Nat}
    (hs : s.slot st.entry.slot = .valid image c) (hc : 2 ≤ c) (hm : j.mismatches = 0) {doomed : List Job}
    (hd : doomed = (s.engine.queue.map fun x =>
        if x.station = j.station then { j with state := .loadwait, needsOpen := true, fill := 0 } else x).filter
      (doomedKey s.slotOf st.entry.slot ∘ Job.told)) :
    s.slotLost (presenceReply j.station s) l j.station st.entry.slot image (doomed.map (·.station))
      ((presenceReply j.station s).failuresPosted .noImage doomed) (closeResult j.station false y) := by
  obtain ⟨heng, -, -, hentries'⟩ := presenceReply_tells hst
  obtain ⟨hstore, -, -, hentries⟩ := hk
  have hslotOf : s.slotOf j.station = st.entry.slot := by simp only [State.slotOf, hst]
  have hyslot : y.slotOf j.station = st.entry.slot := by
    rw [State.slotOf_eq_of_entries hentries, hslotOf]
  obtain ⟨v, he, hv, hout, hstays⟩ := h.closeResult_first hm
  have hset := hv.settled hst rfl hstays hstore hq hout
  have hvq := hv.queue_told_reopened (j := j) (anew := { j with state := .loadwait, needsOpen := true, fill := 0 })
    (by rw [heng]; exact hq) (by rw [State.job?, heng]; exact hjob) rfl rfl
  rw [heng] at hvq
  have hvslot : ∀ m, v.slotOf m = s.slotOf m := State.slotOf_eq_of_entries fun m => by
    rw [hv.station?_eq, hentries' m]
  have hdoomed := doomedJobs_told hvq hvslot st.entry.slot
  rw [← hd] at hdoomed
  have hmem : j.station ∈ doomed.map (·.station) := by
    obtain ⟨x, hx, hxs⟩ : ∃ x ∈ s.engine.queue, x.station = j.station :=
      ⟨j, List.mem_of_find?_eq_some hjob, rfl⟩
    rw [hd]
    refine List.mem_map.2 ⟨{ j with state := .loadwait, needsOpen := true, fill := 0 }, List.mem_filter.2 ⟨?_, ?_⟩, rfl⟩
    · exact List.mem_map.2 ⟨x, hx, if_pos hxs⟩
    · exact decide_eq_true ⟨hslotOf, .inl rfl⟩
  rw [he, hyslot]
  exact hset.slotLost hs hc hdoomed hmem

/-- A third MISMATCH in a row, of a job that had one. -/
theorem closeResult_third_again {s y : State} {l : Lane} {j : Job} {st : Station}
    (h : (presenceReply j.station s).jobSteps l j y) (hk : s.toldKeeps y l) (hjob : s.job? j.station = some j)
    (hst : s.station? j.station = some st) (hq : (s.engine.queue.map (·.station)).Nodup) {image : Image} {c : Nat}
    (hs : s.slot st.entry.slot = .valid image c) (hc : 2 ≤ c) (hm : 1 ≤ j.mismatches) {doomed : List Job}
    (hd : doomed = (s.engine.queue.filter (·.station ≠ j.station)).filter
      (doomedKey s.slotOf st.entry.slot ∘ Job.told)) :
    s.slotLost (presenceReply j.station s) l j.station st.entry.slot image ([j.station] ++ doomed.map (·.station))
      (((presenceReply j.station s).failuresPosted .check [j]).failuresPosted .noImage doomed)
      (closeResult j.station false y) := by
  obtain ⟨heng, -, -, hentries'⟩ := presenceReply_tells hst
  obtain ⟨hstore, -, -, hentries⟩ := hk
  have hyslot : y.slotOf j.station = st.entry.slot := by
    rw [State.slotOf_eq_of_entries hentries]
    simp only [State.slotOf, hst]
  obtain ⟨v, he, hv, hstays⟩ := h.closeResult_again hm
  have hset := hv.settled_failed hst rfl hstays hstore hq
  have hvq := hv.queue_told_same (j := j) (by rw [heng]; exact hq) (by rw [State.job?, heng]; exact hjob) rfl
  rw [heng] at hvq
  have hfail : failJob j.station .check v = v.jobGone j.station .absent
      (.nodeFailed j.station (j.pass.getD 0) .check j.state) v.engine.restored (v.engine.failed + 1) :=
    failJob_eq hv.1.2.1 .check
  obtain ⟨-, -, -, heng', -⟩ := jobGone_fields j.station .absent (.nodeFailed j.station (j.pass.getD 0) .check j.state)
    v.engine.restored (v.engine.failed + 1) v
  rw [← hfail] at heng'
  have hdoomed := doomedJobs_told (s := s) (v := failJob j.station .check v)
    (queue := s.engine.queue.filter (·.station ≠ j.station)) ?_ ?_ st.entry.slot
  · rw [← hd] at hdoomed
    rw [he, hyslot]
    exact hset.slotLost hs hc hdoomed (List.mem_append_left _ (List.mem_singleton.2 rfl))
  · have hp : (fun x : Job => decide (x.station ≠ j.station)) = (fun k => decide (k.1 ≠ j.station)) ∘ Job.told := rfl
    rw [heng', hp]
    dsimp only
    rw [← List.filter_map, ← List.filter_map, hvq]
  · obtain ⟨⟨-, hstations, -⟩, -, -, -, -, -, -, -, -, -, -, hnotes⟩ := hset
    refine State.slotOf_eq_of_entries fun m => ?_
    rw [← hnotes m, State.station?, hstations]
    rfl

end Sys2Proof.Machine
end

section
/-! PROOFS. What each reply to a step of a job does (spec/05, 5.3 and 5.4; spec/07). -/

namespace Sys2Proof.Machine

/-! ### The reply, and what it leaves to the job -/

/-- What a step that has ended leaves the job to see: the records of the slots, its slot, its image and its length. -/
theorem State.toldKeeps.seen {s y : State} {l : Lane} {n : Nat} {st : Station} (h : s.toldKeeps y l)
    (hst : s.station? n = some st) :
    y.slotOf n = st.entry.slot ∧ y.lengthOf n = s.lengthOf n ∧
      y.validImage? (y.slotOf n) = s.validImage? st.entry.slot := by
  obtain ⟨hstore, -, -, hentries⟩ := h
  have hslot : y.slotOf n = st.entry.slot := by
    rw [State.slotOf_eq_of_entries hentries]
    simp only [State.slotOf, hst]
  refine ⟨hslot, State.lengthOf_eq_of_entries hentries (by rw [hstore]) n, ?_⟩
  rw [hslot]
  simp only [State.validImage?, State.slot, hstore]

/-! ### A PROBE outcome by Figure 5-4 -/

theorem probeVerdict_same {p : Report} {image : Image} {epoch : Nat} (hs : p.tag = image.tag ∧ p.generation = image.generation) :
    (p.state = .running → p.epoch = epoch → probeVerdict p image epoch = .complete) ∧
      (p.state = .running → p.epoch ≠ epoch → probeVerdict p image epoch = .to .replay none none) ∧
      (p.state = .held → probeVerdict p image epoch = .to .start none none) := by
  obtain ⟨ht, hg⟩ := hs
  refine ⟨fun hp he => ?_, fun hp he => ?_, fun hp => ?_⟩ <;> simp [probeVerdict, *]

theorem probeVerdict_partly {p : Report} {image : Image} {epoch : Nat} (hp : p.state = .partly) (ht : p.tag = image.tag)
    (h0 : 0 < p.fill) (hl : p.fill ≤ image.length) :
    probeVerdict p image epoch = .to .loadwait (some p.fill) (some false) := by
  simp [probeVerdict, *]

theorem probeVerdict_anew {p : Report} {image : Image} {epoch : Nat}
    (h : p.state = .blank ∨
      ((p.state = .running ∨ p.state = .held) ∧ ¬(p.tag = image.tag ∧ p.generation = image.generation)) ∨
      (p.state = .partly ∧ ¬(p.tag = image.tag ∧ 0 < p.fill ∧ p.fill ≤ image.length))) :
    probeVerdict p image epoch = .to .loadwait (some 0) (some true) := by
  unfold probeVerdict
  rcases h with hp | ⟨hp | hp, hn⟩ | ⟨hp, hn⟩
  · simp only [hp]
  · simp only [hp]
    rw [if_neg (by simpa using hn)]
  · simp only [hp]
    rw [if_neg (by simpa using hn)]
  · simp only [hp]
    rw [if_neg (by simpa [and_assoc] using hn)]

/-! ### A fill judged, and a CONTEXT acknowledged (R83, R131) -/

namespace State.jobSteps

variable {told u : State} {l : Lane} {j : Job}

theorem fillJudged (h : told.jobSteps l j u) {members : List Nat} {count : Nat} {round : Option (List Nat)}
    (hh : (u.lane l).holder = some (.group members count round)) (f : Nat) :
    (f = count →
        told.jobSteps l { j with fill := count, state := if count = u.lengthOf j.station then .close else .load }
            (Machine.fillJudged l j.station f u) ∧
          (2 ≤ members.length → ((Machine.fillJudged l j.station f u).lane l).holder =
            some (.group members count ((round.map fun x => x.filter (· ≠ j.station)).filter (· ≠ []))))) ∧
      (f < count →
        told.jobSteps l { j with state := .loadwait, fill := f, needsOpen := false } (Machine.fillJudged l j.station f u) ∧
          (Machine.fillJudged l j.station f u).outOfHolder l j.station) ∧
      (count < f →
        told.jobSteps l { j with state := .loadwait, needsOpen := true, fill := 0 } (Machine.fillJudged l j.station f u) ∧
          (Machine.fillJudged l j.station f u).outOfHolder l j.station) := by
  refine ⟨fun hf => ?_, fun hf => ?_, fun hf => ?_⟩
  · simp only [Machine.fillJudged, hh, if_pos hf]
    exact (h.fillTo (u.lengthOf j.station) count).settleGroup members count _
  · have hne : f ≠ count := Nat.ne_of_lt hf
    simp only [Machine.fillJudged, hh, if_neg hne, if_pos hf]
    exact (h.updJob (f := fun x => { x with state := .loadwait, fill := f, needsOpen := false })
      (j' := { j with state := .loadwait, fill := f, needsOpen := false }) (fun _ => rfl) rfl).leaveHolder
  · have hne : f ≠ count := (Nat.ne_of_lt hf).symm
    simp only [Machine.fillJudged, hh, if_neg hne, if_neg (Nat.lt_asymm hf)]
    exact (h.updJob (f := Job.reopened) (j' := { j with state := .loadwait, needsOpen := true, fill := 0 })
      (fun _ => rfl) rfl).leaveHolder

theorem replayAcknowledged (h : told.jobSteps l j u) {st : Station} (hst : told.station? j.station = some st)
    (epoch : Nat) :
    (epoch ≠ st.context.epoch → told.jobSteps l j (Machine.replayAcknowledged j.station epoch u)) ∧
      (epoch = st.context.epoch →
        told.jobCompletes l j (if j.loaded then .reloaded else .replayed) j.result
          (Machine.replayAcknowledged j.station epoch u)) := by
  have hust := (h.station?_eq j.station).trans hst
  refine ⟨fun he => ?_, fun he => ?_⟩
  · simp only [Machine.replayAcknowledged, h.1.2.1, hust, if_neg he]
    exact h
  · simp only [Machine.replayAcknowledged, h.1.2.1, hust, if_pos he]
    exact h.completes _

end State.jobSteps

/-! ### A refusal, by Figure 5-5 -/

/-- The refusals that send a job back to PROBE. -/
theorem jobRefused_toProbe {l : Lane} {t : Txn} {n f : Nat} {u : State} {reason : NakReason} (hp : t.step ≠ .probe)
    (hr : reason = .wrongState ∨
      (reason = .badIndex ∧ t.step ≠ .close ∧ (t.step = .block → f ≠ t.index ∧ u.lengthOf n < f))) :
    jobRefused l t n reason f u = wrongState n u := by
  rcases hr with rfl | ⟨rfl, hc, hb⟩
  · exact if_neg hp
  · unfold jobRefused
    dsimp only
    split
    · exact absurd ‹_› hp
    · rename_i hblock
      obtain ⟨hf, hlen⟩ := hb hblock
      rw [badIndexOnBlock, if_neg hf, if_neg (Nat.not_le.2 hlen)]
    · exact absurd ‹_› hc
    · rfl

theorem jobRefused_probing {l : Lane} {t : Txn} {n : Nat} {u : State} {reason : NakReason} (h : t.step = .probe)
    (hr : reason = .wrongState ∨ reason = .badIndex) (f : Nat) :
    jobRefused l t n reason f u = failJob n .refused u := by
  rcases hr with rfl | rfl
  · exact if_pos h
  · simp only [jobRefused, h]

theorem jobRefused_toOpen {l : Lane} {t : Txn} {n f : Nat} {u : State}
    (h : t.step = .close ∨ (t.step = .block ∧ f = t.index)) :
    jobRefused l t n .badIndex f u = restartOpen n .refused u := by
  rcases h with h | ⟨h, hf⟩
  · simp only [jobRefused, h]
  · simp only [jobRefused, h, badIndexOnBlock, if_pos hf]

theorem replyError_nak {t : Txn} (h : t.step ≠ .poll) {reason : NakReason} (hb : reason ≠ .busy) (f : Nat) (x : State) :
    replyError t (.nak reason f) x = none := by
  cases reason
  · exact absurd rfl hb
  all_goals exact if_neg h

theorem jobReply_nak (l : Lane) (t : Txn) (n : Nat) (reason : NakReason) (f : Nat) (s : State) :
    jobReply l t n (.nak reason f) s = jobRefused l t n reason f s := by
  unfold jobReply
  cases t.step <;> rfl

end Sys2Proof.Machine
end

section
/-! PROOFS. The command that a reply to a step of a job is, clause by clause (spec/05, 5.3 and 5.4; spec/07). -/

namespace Sys2Proof.Machine

/-- A frame received leads to a state, after which the lanes act. -/
def State.replyLeads (s : State) (l : Lane) (frame : List Byte) (p : State → Prop) : Prop :=
  ∃ u : State, exec (.laneReplyReceived l frame) s = .next (lanesAct u) ∧ p u

/-- A reply is taken for its step: it is no poll report and makes no error. -/
def LaneReply.taken (r : LaneReply) (t : Txn) (s : State) : Prop :=
  (∀ p x, r ≠ .pollReport p x) ∧ ∀ x : State, x.store = s.store → replyError t r x = none

namespace State.jobAnswered

variable {s : State} {l : Lane} {frame : List Byte} {t : Txn} {j : Job} {st : Station} {r : LaneReply}

theorem leads (h : s.jobAnswered l frame t j st r) (hr : r.taken t s) {p : State → Prop}
    (hp : p (jobReply l t j.station r (s.stepTold l t j.station))) : s.replyLeads l frame p :=
  ⟨_, h.exec_eq hr.1 hr.2, hp⟩

theorem told_store (h : s.jobAnswered l frame t j st r) : (presenceReply j.station s).store = s.store := by
  obtain ⟨-, -, -, -, -, hst, -⟩ := h
  exact (presenceReply_tells hst).2.1

theorem recordsStay (h : s.jobAnswered l frame t j st r) {u : State} (hu : (presenceReply j.station s).recordsStay u) :
    s.recordsStay u := by
  unfold State.recordsStay at hu ⊢
  rwa [h.told_store] at hu

/-- The job goes on. -/
theorem goes (h : s.jobAnswered l frame t j st r) (hr : r.taken t s) {j' : Job} {more : State → Prop} {u : State}
    (he : jobReply l t j.station r (s.stepTold l t j.station) = u)
    (hu : (presenceReply j.station s).jobSteps l j' u ∧ more u) :
    s.replyLeads l frame fun u => (presenceReply j.station s).jobGoesOn l j' u ∧ s.recordsStay u ∧ more u := by
  refine h.leads hr ?_
  rw [he]
  exact ⟨hu.1.1, h.recordsStay hu.1.2.1, hu.2⟩

/-- The job fails. -/
theorem fails (h : s.jobAnswered l frame t j st r) (hr : r.taken t s) {reason : Reason} {u : State}
    (he : jobReply l t j.station r (s.stepTold l t j.station) = u)
    (hu : (presenceReply j.station s).jobFails l j reason u ∧ (presenceReply j.station s).recordsStay u) :
    s.replyLeads l frame fun u => (presenceReply j.station s).jobFails l j reason u ∧ s.recordsStay u := by
  refine h.leads hr ?_
  rw [he]
  exact ⟨hu.1, h.recordsStay hu.2⟩

/-- The station of the job once presence has been told. -/
theorem told_station? (h : s.jobAnswered l frame t j st r) :
    (presenceReply j.station s).station? j.station = some { st with presence := st.presence.replied } := by
  obtain ⟨-, -, -, -, -, hst, -⟩ := h
  exact (presenceReply_station? hst _).trans (if_pos rfl)

theorem seen (h : s.jobAnswered l frame t j st r) :
    (s.stepTold l t j.station).slotOf j.station = st.entry.slot ∧
      (s.stepTold l t j.station).lengthOf j.station = s.lengthOf j.station ∧
      (s.stepTold l t j.station).validImage? ((s.stepTold l t j.station).slotOf j.station) =
        s.validImage? st.entry.slot := by
  obtain ⟨-, -, -, -, -, hst, -⟩ := id h
  exact h.steps.2.seen hst

/-! ### A PROBE outcome -/

theorem probed {p : Report} (h : s.jobAnswered l frame t j st (.report p)) (hstep : t.step = .probe) {image : Image}
    (him : s.validImage? st.entry.slot = some image) (hk : image.kind = st.entry.kind) (hp : p.kind = st.entry.kind)
    {adapts : Prop} [Decidable adapts] {result : PredictionResult}
    (hres : result =
      if j.result = .none then predictionResult j.prediction (decide (p.state ≠ .blank ∧ p.tag = image.tag)) else j.result)
    (ha : adapts ↔ j.result = .none ∧ result = .miss ∧ j.origin = .gap ∧ s.settings.adaptation = true) :
    (probeVerdict p image st.context.epoch = .complete →
        s.replyLeads l frame (((presenceReply j.station s).learnt j adapts).jobCompletes l j .kept result)) ∧
      ∀ state fill needsOpen, probeVerdict p image st.context.epoch = .to state fill needsOpen →
        s.replyLeads l frame fun u =>
          ((presenceReply j.station s).learnt j adapts).jobGoesOn l
            { j with
              finding := some p, result := result, state := state, fill := fill.getD j.fill
              needsOpen := needsOpen.getD j.needsOpen } u ∧ s.recordsStay u := by
  obtain ⟨hsteps, -, -, hsettings, -⟩ := h.steps
  obtain ⟨-, -, hyimage⟩ := h.seen
  have hreply : ∀ y, jobReply l t j.station (.report p) y = probeOutcome j.station p y := fun y => by
    simp only [jobReply, hstep]
  obtain ⟨hcomplete, hto⟩ := hsteps.probed_judged (p := p) h.told_station? (hyimage.trans him) hk hp
    (adapts := adapts) hres (by rw [hsettings]; exact ha)
  refine ⟨fun hv => h.leads ⟨nofun, fun _ _ => rfl⟩ ?_, fun state fill needsOpen hv => h.leads ⟨nofun, fun _ _ => rfl⟩ ?_⟩
  · rw [hreply]
    exact hcomplete hv
  · rw [hreply]
    obtain ⟨hgoes, hrecords, -⟩ := hto state fill needsOpen hv
    exact ⟨hgoes, h.recordsStay hrecords⟩

theorem probed_fails {p : Report} (h : s.jobAnswered l frame t j st (.report p)) (hstep : t.step = .probe) :
    ((∀ image, s.validImage? st.entry.slot = some image → image.kind ≠ st.entry.kind) →
        s.replyLeads l frame fun u => (presenceReply j.station s).jobFails l j .noImage u ∧ s.recordsStay u) ∧
      ∀ image, s.validImage? st.entry.slot = some image → image.kind = st.entry.kind → p.kind ≠ st.entry.kind →
        s.replyLeads l frame fun u => (presenceReply j.station s).jobFails l j .wrongKind u ∧ s.recordsStay u := by
  obtain ⟨-, -, hyimage⟩ := h.seen
  have hsteps := h.steps.1
  have hreply : ∀ y, jobReply l t j.station (.report p) y = probeOutcome j.station p y := fun y => by
    simp only [jobReply, hstep]
  refine ⟨fun hno => h.fails ⟨nofun, fun _ _ => rfl⟩ (hreply _) (hsteps.probed_noImage fun x hx image him => ?_),
    fun image him hk hp => h.fails ⟨nofun, fun _ _ => rfl⟩ (hreply _)
      (hsteps.probed_wrongKind h.told_station? (hyimage.trans him) hk hp)⟩
  cases h.told_station?.symm.trans hx
  exact hno image (hyimage.symm.trans him)

/-! ### The steps of the load -/

theorem delivered (h : s.jobAnswered l frame t j st (.blockAck t.index (s.buffer t.buffer).crc)) (hstep : t.step = .block) :
    s.replyLeads l frame fun u =>
      (presenceReply j.station s).jobGoesOn l
        { j with fill := j.fill + 1, state := if j.fill + 1 = s.lengthOf j.station then .close else .load } u ∧
        s.recordsStay u ∧ (u.buffer t.buffer).state ≠ .sending := by
  obtain ⟨-, hylen, -⟩ := h.seen
  have hdelivered := h.steps.1.blockDelivered t.buffer
  rw [hylen] at hdelivered
  exact h.goes ⟨nofun, fun x hx => by simp [replyError, State.buffer, hx]⟩ (by simp only [jobReply, hstep]) hdelivered

theorem judged {f : Nat} (h : s.jobAnswered l frame t j st (.fillReport f)) (hstep : t.step = .fill) {members : List Nat}
    {count : Nat} {round : Option (List Nat)} (hh : (s.lane l).holder = some (.group members count round)) :
    (f = count →
        s.replyLeads l frame fun u =>
          (presenceReply j.station s).jobGoesOn l
            { j with fill := count, state := if count = s.lengthOf j.station then .close else .load } u ∧
            s.recordsStay u ∧
            (2 ≤ members.length → (u.lane l).holder =
              some (.group members count ((round.map fun x => x.filter (· ≠ j.station)).filter (· ≠ []))))) ∧
      (f < count →
        s.replyLeads l frame fun u =>
          (presenceReply j.station s).jobGoesOn l { j with state := .loadwait, fill := f, needsOpen := false } u ∧
            s.recordsStay u ∧ u.outOfHolder l j.station) ∧
      (count < f →
        s.replyLeads l frame fun u =>
          (presenceReply j.station s).jobGoesOn l { j with state := .loadwait, needsOpen := true, fill := 0 } u ∧
            s.recordsStay u ∧ u.outOfHolder l j.station) := by
  obtain ⟨-, hylen, -⟩ := h.seen
  obtain ⟨hsteps, -, hholder, -⟩ := h.steps
  have hreply : ∀ y, jobReply l t j.station (.fillReport f) y = fillJudged l j.station f y := fun y => by
    simp only [jobReply, hstep]
  have hjudged := hsteps.fillJudged (hholder.trans hh) f
  rw [hylen] at hjudged
  obtain ⟨hequal, hbelow, habove⟩ := hjudged
  exact ⟨fun hf => h.goes ⟨nofun, fun _ _ => rfl⟩ (hreply _) (hequal hf),
    fun hf => h.goes ⟨nofun, fun _ _ => rfl⟩ (hreply _) (hbelow hf),
    fun hf => h.goes ⟨nofun, fun _ _ => rfl⟩ (hreply _) (habove hf)⟩

/-! ### A CLOSE result -/

/-- The slot of the step has counted since the reply. -/
theorem slotCounted (h : s.jobAnswered l frame t j st r) {count : Nat → Nat} {u : State}
    (hu : (presenceReply j.station s).slotCounted ((s.stepTold l t j.station).slotOf j.station) count u) :
    s.slotCounted st.entry.slot count u := by
  obtain ⟨hyslot, -⟩ := h.seen
  unfold State.slotCounted State.slot at hu ⊢
  rwa [hyslot, h.told_store] at hu

theorem closed_match (h : s.jobAnswered l frame t j st (.closeResult true)) (hstep : t.step = .close) :
    s.replyLeads l frame fun u =>
      (presenceReply j.station s).jobGoesOn l { j with loaded := true, state := .start } u ∧
        u.outOfHolder l j.station ∧ s.slotCounted st.entry.slot (fun _ => 0) u := by
  refine h.leads ⟨nofun, fun _ _ => rfl⟩ ?_
  simp only [jobReply, hstep]
  obtain ⟨hgoes, hout, hcount⟩ := h.steps.1.closeResult_match
  exact ⟨hgoes, hout, h.slotCounted hcount⟩

/-- A MISMATCH that is not the slot's third in a row. -/
theorem closed_mismatch (h : s.jobAnswered l frame t j st (.closeResult false)) (hstep : t.step = .close)
    (hthird : ¬∃ image c, s.slot st.entry.slot = .valid image c ∧ 2 ≤ c) :
    (j.mismatches = 0 →
        s.replyLeads l frame fun u =>
          (presenceReply j.station s).jobGoesOn l
            { j with state := .loadwait, needsOpen := true, fill := 0, mismatches := 1 } u ∧
            u.outOfHolder l j.station ∧ s.slotCounted st.entry.slot (· + 1) u) ∧
      (1 ≤ j.mismatches →
        s.replyLeads l frame fun u =>
          (presenceReply j.station s).jobFails l j .check u ∧ s.slotCounted st.entry.slot (· + 1) u) := by
  obtain ⟨hyslot, -⟩ := h.seen
  have hc : ∀ image c, (presenceReply j.station s).slot ((s.stepTold l t j.station).slotOf j.station) = .valid image c →
      c < 2 := fun image c hv => by
    have hslot : (presenceReply j.station s).slot = s.slot := funext fun m => by simp only [State.slot, h.told_store]
    rw [hyslot, hslot] at hv
    exact Nat.lt_of_not_le fun hle => hthird ⟨image, c, hv, hle⟩
  refine ⟨fun hm => h.leads ⟨nofun, fun _ _ => rfl⟩ ?_, fun hm => h.leads ⟨nofun, fun _ _ => rfl⟩ ?_⟩
  · simp only [jobReply, hstep]
    obtain ⟨hgoes, hout, hcount⟩ := h.steps.1.closeResult_reopened hm hc
    exact ⟨hgoes, hout, h.slotCounted hcount⟩
  · simp only [jobReply, hstep]
    obtain ⟨hfails, hcount⟩ := h.steps.1.closeResult_failed hm hc
    exact ⟨hfails, h.slotCounted hcount⟩

/-- The slot's third MISMATCH in a row. -/
theorem closed_third (h : s.jobAnswered l frame t j st (.closeResult false)) (hstep : t.step = .close)
    (hq : (s.engine.queue.map (·.station)).Nodup) {image : Image} {c : Nat} (hs : s.slot st.entry.slot = .valid image c)
    (hc : 2 ≤ c) {doomed : List Job}
    (hd : doomed =
      (if j.mismatches = 0 then
        s.engine.queue.map fun x =>
          if x.station = j.station then { j with state := .loadwait, needsOpen := true, fill := 0 } else x
      else s.engine.queue.filter (·.station ≠ j.station)).filter (doomedKey s.slotOf st.entry.slot ∘ Job.told)) :
    s.replyLeads l frame
      (s.slotLost (presenceReply j.station s) l j.station st.entry.slot image
        ((if j.mismatches = 0 then [] else [j.station]) ++ doomed.map (·.station))
        (((presenceReply j.station s).failuresPosted .check (if j.mismatches = 0 then [] else [j])).failuresPosted .noImage
          doomed)) := by
  obtain ⟨-, -, -, -, hjob, hst, -⟩ := id h
  obtain ⟨hsteps, hkeeps⟩ := h.steps
  refine h.leads ⟨nofun, fun _ _ => rfl⟩ ?_
  simp only [jobReply, hstep]
  by_cases hm : j.mismatches = 0
  · rw [if_pos hm] at hd ⊢
    rw [if_pos hm]
    exact closeResult_third_first hsteps hkeeps hjob hst hq hs hc hm hd
  · rw [if_neg hm] at hd ⊢
    rw [if_neg hm]
    exact closeResult_third_again hsteps hkeeps hjob hst hq hs hc (Nat.pos_of_ne_zero hm) hd

/-! ### A CONTEXT acknowledged, and a refusal -/

theorem replayed {epoch : Nat} (h : s.jobAnswered l frame t j st (.contextAck epoch)) (hstep : t.step = .context) :
    (epoch ≠ st.context.epoch →
        s.replyLeads l frame fun u => (presenceReply j.station s).jobGoesOn l j u ∧ s.recordsStay u ∧ True) ∧
      (epoch = st.context.epoch →
        s.replyLeads l frame
          ((presenceReply j.station s).jobCompletes l j (if j.loaded then .reloaded else .replayed) j.result)) := by
  have hreply : ∀ y, jobReply l t j.station (.contextAck epoch) y = replayAcknowledged j.station epoch y := fun y => by
    simp only [jobReply, hstep]
  obtain ⟨hother, hequal⟩ := h.steps.1.replayAcknowledged h.told_station? epoch
  refine ⟨fun he => h.goes ⟨nofun, fun _ _ => rfl⟩ (hreply _) ⟨hother he, trivial⟩,
    fun he => h.leads ⟨nofun, fun _ _ => rfl⟩ ?_⟩
  rw [hreply]
  exact hequal he

/-- A refusal after which the job fails at once. -/
theorem refused_fails {reason : NakReason} {f : Nat} (h : s.jobAnswered l frame t j st (.nak reason f))
    (hpoll : t.step ≠ .poll)
    (hr : reason = .noSpace ∨ (t.step = .probe ∧ (reason = .wrongState ∨ reason = .badIndex))) :
    s.replyLeads l frame fun u => (presenceReply j.station s).jobFails l j .refused u ∧ s.recordsStay u := by
  have hb : reason ≠ .busy := by
    rcases hr with rfl | ⟨-, rfl | rfl⟩ <;> exact nofun
  refine h.fails ⟨nofun, fun x _ => replyError_nak hpoll hb f x⟩ ((jobReply_nak ..).trans ?_) (h.steps.1.fails .refused)
  rcases hr with rfl | ⟨hstep, hr⟩
  · rfl
  · exact jobRefused_probing hstep hr f

/-- A BLOCK refused with another fill mark within the image. -/
theorem refused_fill {f : Nat} (h : s.jobAnswered l frame t j st (.nak .badIndex f)) (hstep : t.step = .block)
    (hf : f ≠ t.index) (hlen : f ≤ s.lengthOf j.station) :
    s.replyLeads l frame fun u =>
      (presenceReply j.station s).jobGoesOn l
        { j with fill := f, state := if f = s.lengthOf j.station then .close else .load } u ∧ s.recordsStay u ∧ True := by
  obtain ⟨-, hylen, -⟩ := h.seen
  have hpoll : t.step ≠ .poll := by rw [hstep]; exact nofun
  have hfill := h.steps.1.badIndexOnBlock hf (hylen ▸ hlen)
  rw [hylen] at hfill
  exact h.goes ⟨nofun, fun x _ => replyError_nak (reason := .badIndex) hpoll nofun f x⟩
    ((jobReply_nak ..).trans (by simp only [jobRefused, hstep])) ⟨hfill, trivial⟩

/-- A refusal that sends the job back to PROBE. -/
theorem refused_toProbe {reason : NakReason} {f : Nat} (h : s.jobAnswered l frame t j st (.nak reason f))
    (hpoll : t.step ≠ .poll) (hstep : t.step ≠ .probe)
    (hr : reason = .wrongState ∨
      (reason = .badIndex ∧ t.step ≠ .close ∧ (t.step = .block → f ≠ t.index ∧ s.lengthOf j.station < f))) :
    if j.restarts < 4 then
      s.replyLeads l frame fun u =>
        (presenceReply j.station s).jobGoesOn l { j with state := .probe, restarts := j.restarts + 1 } u ∧
          s.recordsStay u ∧ u.outOfHolder l j.station
    else s.replyLeads l frame fun u => (presenceReply j.station s).jobFails l j .refused u ∧ s.recordsStay u := by
  obtain ⟨-, hylen, -⟩ := h.seen
  have hb : reason ≠ .busy := by
    rcases hr with rfl | ⟨rfl, -⟩ <;> exact nofun
  rw [← hylen] at hr
  have hreply := (jobReply_nak l t j.station reason f (s.stepTold l t j.station)).trans (jobRefused_toProbe hstep hr)
  have htaken : (LaneReply.nak reason f).taken t s := ⟨nofun, fun x _ => replyError_nak hpoll hb f x⟩
  split
  · exact h.goes htaken hreply (h.steps.1.wrongState ‹_›)
  · exact h.fails htaken hreply (h.steps.1.restart_fails ‹_›).1

/-- A refusal that sends the job back for a new OPEN. -/
theorem refused_toOpen {f : Nat} (h : s.jobAnswered l frame t j st (.nak .badIndex f)) (hpoll : t.step ≠ .poll)
    (hr : t.step = .close ∨ (t.step = .block ∧ f = t.index)) :
    if j.restarts < 4 then
      s.replyLeads l frame fun u =>
        (presenceReply j.station s).jobGoesOn l
          { j with state := .loadwait, needsOpen := true, fill := 0, restarts := j.restarts + 1 } u ∧
          s.recordsStay u ∧ u.outOfHolder l j.station
    else s.replyLeads l frame fun u => (presenceReply j.station s).jobFails l j .refused u ∧ s.recordsStay u := by
  have hreply := (jobReply_nak l t j.station .badIndex f (s.stepTold l t j.station)).trans (jobRefused_toOpen hr)
  have htaken : (LaneReply.nak .badIndex f).taken t s := ⟨nofun, fun x _ => replyError_nak (reason := .badIndex) hpoll nofun f x⟩
  split
  · exact h.goes htaken hreply (h.steps.1.restartOpen ‹_›)
  · exact h.fails htaken hreply (h.steps.1.restart_fails ‹_›).2

end State.jobAnswered

/-- A slot has counted, as the statement of O35 writes it. -/
theorem State.slotCounted.as_match {s u : State} {slot : Nat} {count : Nat → Nat} (h : s.slotCounted slot count u) :
    u.store.markList = s.store.markList ∧ (∀ x, x ≠ slot → u.slot x = s.slot x) ∧
      u.slot slot = (match s.slot slot with
        | .valid im c => .valid im (count c)
        | x => x) := by
  obtain ⟨hmarks, hothers, hself⟩ := h
  refine ⟨hmarks, hothers, hself.trans ?_⟩
  cases s.slot slot <;> rfl

theorem State.replyLeads.mono {s : State} {l : Lane} {frame : List Byte} {p q : State → Prop} (h : s.replyLeads l frame p)
    (hpq : ∀ u, p u → q u) : s.replyLeads l frame q := by
  obtain ⟨u, he, hp⟩ := h
  exact ⟨u, he, hpq u hp⟩

/-- Settles O35. -/
theorem jobRepliesTaken : Obligations.JobRepliesTaken := by
  intro s l frame t j st r h hq n slot length told answers goesOn fails stays filled anew counted thirdMismatch
  refine ⟨?_, ?_, ?_, ?_, ?_, ?_, ?_, ?_, ?_⟩
  · rintro image p hstep rfl him hk hp same checked adapts learnt found probed
    obtain ⟨hcomplete, hto⟩ := h.probed hstep him hk hp (adapts := adapts) (result := checked) rfl Iff.rfl
    exact ⟨fun hrun hs he => hcomplete ((probeVerdict_same hs).1 hrun he),
      fun hrun hs he => hto _ _ _ ((probeVerdict_same hs).2.1 hrun he),
      fun hheld hs => hto _ _ _ ((probeVerdict_same (epoch := st.context.epoch) hs).2.2 hheld),
      fun hpart ht h0 hl => hto _ _ _ (probeVerdict_partly hpart ht h0 hl), fun hn => hto _ _ _ (probeVerdict_anew hn)⟩
  · rintro p hstep rfl
    exact h.probed_fails hstep
  · rintro hstep rfl
    exact h.goes ⟨nofun, fun _ _ => rfl⟩ (by simp only [jobReply, hstep]) ⟨h.steps.1.openAcknowledged, trivial⟩
  · rintro hstep rfl
    exact h.delivered hstep
  · rintro members count round f hstep rfl hh
    exact h.judged hstep hh
  · refine fun hstep => ⟨?_, ?_, ?_⟩
    · rintro rfl
      exact (h.closed_match hstep).mono fun u ⟨hgoes, hout, hcount⟩ => ⟨hgoes, hout, hcount.as_match⟩
    · rintro rfl hthird
      obtain ⟨hfirst, hagain⟩ := h.closed_mismatch hstep hthird
      exact ⟨fun hm => (hfirst hm).mono fun u ⟨hgoes, hout, hcount⟩ => ⟨hgoes, hout, hcount.as_match⟩,
        fun hm => (hagain hm).mono fun u ⟨hfails, hcount⟩ => ⟨hfails, hcount.as_match⟩⟩
    · rintro image c rfl hs hc settled doomed gone posted
      exact h.closed_third hstep hq.1 hs hc (doomed := doomed) rfl
  · rintro hstep rfl
    exact h.goes ⟨nofun, fun _ _ => rfl⟩ (by simp only [jobReply, hstep]) ⟨h.steps.1.startAcknowledged, trivial⟩
  · rintro epoch hstep rfl
    exact h.replayed hstep
  · refine fun f hpoll => ⟨?_, ?_, ?_, fun hstep => ⟨?_, ?_⟩⟩
    · rintro rfl
      exact h.refused_fails hpoll (.inl rfl)
    · rintro hstep (rfl | rfl)
      · exact h.refused_fails hpoll (.inr ⟨hstep, .inl rfl⟩)
      · exact h.refused_fails hpoll (.inr ⟨hstep, .inr rfl⟩)
    · rintro hstep rfl hf hlen
      exact h.refused_fill hstep hf hlen
    · rintro (rfl | ⟨rfl, hr⟩)
      · exact h.refused_toProbe hpoll hstep (.inl rfl)
      · exact h.refused_toProbe hpoll hstep (.inr ⟨rfl, hr⟩)
    · rintro rfl hr
      exact h.refused_toOpen hpoll hr

end Sys2Proof.Machine
end

section
/-! PROOFS. An accepted NODE REMOVE and an accepted NODE QUERY (spec/04, 4.1; spec/06, 6.7). -/

namespace Sys2Proof.Machine

/-- What a removal changes: the stations, the push entry of the station and a poll pending for it (R49). -/
theorem removeStation_frame (n : Nat) (s : State) :
    removeStation n s =
      { s with
        stations := s.stations.filter (·.entry.number ≠ n)
        pushA := s.pushA.filter (·.station ≠ n)
        pushB := s.pushB.filter (·.station ≠ n)
        laneA := { s.laneA with pendingPoll := if s.laneA.pendingPoll = some n then none else s.laneA.pendingPoll }
        laneB := { s.laneB with pendingPoll := if s.laneB.pendingPoll = some n then none else s.laneB.pendingPoll } } := by
  have hl : ∀ x : LaneState, (if x.pendingPoll = some n then { x with pendingPoll := none } else x) =
      { x with pendingPoll := if x.pendingPoll = some n then none else x.pendingPoll } := fun x => by
    split <;> rfl
  unfold removeStation
  rw [← hl, ← hl]
  rfl

theorem serveNodeRemove_taken {b : Byte} {s : State} (h1 : 1 ≤ b.toNat) (h24 : b.toNat ≤ 24)
    (hst : (s.station? b.toNat).isSome = true) (hj : s.hasJob b.toNat = false) (hb : stationBusy b.toNat s = false) :
    serveNodeRemove [b] s = taken [] (removeStation b.toNat s) := by
  have hrange : (decide (b.toNat = 0) || decide (24 < b.toNat)) = false := by
    rw [decide_eq_false (Nat.one_le_iff_ne_zero.mp h1), decide_eq_false (Nat.not_lt.mpr h24), Bool.or_false]
  simp only [serveNodeRemove, hrange, Option.isNone_eq_false_iff.mpr hst, hj, hb, Bool.false_eq_true, if_false]

theorem serveNodeQuery_taken {a : Byte} {s : State} {st : Station} (hst : s.aliased? a.toNat = some st)
    (hl : s.supply.state = .line) (hq : s.query = none) :
    serveNodeQuery [a] s = taken [] (lanesAct { s with query := some st.entry.number }) := by
  simp [serveNodeQuery, hst, hl, hq]

/-- Settles O26. -/
theorem nodeRemoveAndQueryTaken : Obligations.NodeRemoveAndQueryTaken := by
  refine ⟨fun s tag b h h1 h24 hst hj hb => ?_, fun s tag a st h hst hl hq => ?_⟩
  · have hk : serveKind (requestOf 0x07 tag [b]) s = taken [] (removeStation b.toNat s) :=
      serveNodeRemove_taken h1 h24 hst hj hb
    rw [removeStation_frame] at hk
    exact ⟨⟨_, _⟩, exec_takes (requestOf 0x07 tag [b]) h rfl hk, rfl, rfl⟩
  · exact exec_takes (requestOf 0x09 tag [a]) h rfl (serveNodeQuery_taken hst hl hq)

end Sys2Proof.Machine
end

section
/-! PROOFS. The frame that an attempt begins, and the late replies to abandoned frames (spec/04, 4.3; spec/06, 6.2). -/

namespace Sys2Proof.Machine

/-! ### The lane of a frame begun (R96, R98, R115) -/

/-- A transaction as its frame begins on a lane: with the address, the number, the rate and the bytes of that frame, and no
stale reply seen. -/
def Txn.begun (t : Txn) (l : Lane) (s : State) : Txn :=
  { t with
    address := frameAddress t s
    sequence := (s.lane l).seq
    rate := s.settings.rate l
    frame :=
      sentFrame (countInjection (s.lane l).injection).1 s.free t.step (frameAddress t s) (s.lane l).seq
        (framePayload l t s)
    stale := false }

/-- A lane as it begins a frame of a transaction. -/
def State.laneBegun (s : State) (l : Lane) (t : Txn) : LaneState :=
  { s.lane l with
    seq := ((s.lane l).seq + 1) % 16
    injection := (countInjection (s.lane l).injection).2
    txn := some (t.begun l s)
    driver := if (t.begun l s).frame.isSome then .inUse else .released
    abandoned := (s.lane l).abandoned.filter (· ≠ { address := frameAddress t s, sequence := (s.lane l).seq }) }

/-- A lane's frame begun, before its blocks are counted (R96, R98, R115). -/
def State.frameBegun (s : State) (l : Lane) (t : Txn) : State :=
  { s.setLane l (s.laneBegun l t) with
    free := if (countInjection (s.lane l).injection).1.isSome then s.free + 1 else s.free }

theorem beginAttempt_frameBegun (l : Lane) (t : Txn) (s : State) :
    beginAttempt l t s =
      if t.station.isNone then markSending t (countBlocks l t (s.frameBegun l t))
      else
        setDeadlineIn (.responseWindow l) (s.settings.responseWindow l)
          (markSending t (countBlocks l t (s.frameBegun l t))) := rfl

theorem State.frameBegun_lane (s : State) (l : Lane) (t : Txn) : (s.frameBegun l t).lane l = s.laneBegun l t := by
  cases l <;> rfl

theorem beginAttempt_lane_self (l : Lane) (t : Txn) (s : State) : (beginAttempt l t s).lane l = s.laneBegun l t := by
  have hw : ∀ (x : State) p d, (setDeadlineIn p d x).lane l = x.lane l := fun x p d => by cases l <;> rfl
  rw [beginAttempt_frameBegun]
  split
  · rw [markSending_lane, countBlocks_lane, State.frameBegun_lane]
  · rw [hw, markSending_lane, countBlocks_lane, State.frameBegun_lane]

/-- The count of a BLOCK frame's blocks changes jobs only, and reads the queue and its lane's holder only (R125, R130). -/
theorem countBlocks_eq (l : Lane) (t : Txn) {s x : State} (hq : x.engine = s.engine)
    (hh : (x.lane l).holder = (s.lane l).holder) :
    countBlocks l t x = { x with engine := (countBlocks l t s).engine } := by
  have hupd : ∀ (y z : State) (n : Nat) (f : Job → Job), y.engine = z.engine →
      y.updJob n f = { y with engine := (z.updJob n f).engine } := fun y z n f h => by
    simp only [State.updJob, h]
  unfold countBlocks
  rw [hh]
  split
  · rw [← hq]
  · split
    · exact hupd x s _ _ hq
    · have hfold : ∀ (ns : List Nat) (f : Job → Job) (y z : State), y.engine = z.engine →
          ns.foldl (fun x n => x.updJob n f) y =
            { y with engine := (ns.foldl (fun x n => x.updJob n f) z).engine } := fun ns => by
        induction ns with
        | nil => exact fun f y z h => by rw [List.foldl_nil, List.foldl_nil, ← h]
        | cons n ns ih =>
          intro f y z h
          rw [List.foldl_cons, List.foldl_cons, ih f (y.updJob n f) (z.updJob n f) (by simp only [State.updJob, h])]
          rfl
      exact hfold _ (fun j => if j.state = .load then j.countBlock else j) x s hq
    · rw [← hq]

theorem countBlocks_engine (l : Lane) (t : Txn) (s : State) :
    (countBlocks l t s).engine = { s.engine with queue := (countBlocks l t s).engine.queue } := by
  unfold countBlocks
  split
  · rfl
  · split
    · rfl
    · exact List.foldlRecOn _ _ (motive := fun x : State => x.engine = { s.engine with queue := x.engine.queue }) rfl
        fun x hx n _ => by
          rw [State.updJob_engine, hx]
    · rfl

/-- A frame begun to a station: its lane, the blocks counted, the buffer sent from, and the response window; nothing else. -/
theorem beginAttempt_eq (l : Lane) {t : Txn} (h : t.station.isSome = true) (s : State) :
    ∃ (buffers : List Buffer) (k : Nat),
      beginAttempt l t s =
        State.setLane
          { s with
            timebase := s.timebase.set (.responseWindow l) (s.timebase.count + ms (s.settings.responseWindow l))
            engine := (countBlocks l t s).engine, store := { s.store with buffers := buffers }, free := k }
          l (s.laneBegun l t) := by
  have hm : ∀ x : State, ∃ b, markSending t x = { x with store := { x.store with buffers := b } } := fun x => by
    unfold markSending
    split
    · exact ⟨_, rfl⟩
    · exact ⟨_, rfl⟩
  obtain ⟨b, hb⟩ := hm (countBlocks l t (s.frameBegun l t))
  rw [beginAttempt_frameBegun, Option.isNone_eq_false_iff.mpr h, hb,
    countBlocks_eq l t (s := s) (x := s.frameBegun l t) (by cases l <;> rfl) (by cases l <;> rfl)]
  refine ⟨b, (s.frameBegun l t).free, ?_⟩
  cases l <;> rfl

/-! ### A CONTEXT frame (R60, R110) -/

theorem sideGranted_iff (r : ReleaseSide) (side : Option Side) :
    sideGranted r side = true ↔
      ∃ x, side = some x ∧ (r = .both ∨ (r = .left ∧ x = .left) ∨ (r = .right ∧ x = .right)) := by
  cases side with
  | none => cases r <;> simp [sideGranted]
  | some x => cases r <;> cases x <;> simp [sideGranted]

theorem effectiveRelease_granted_iff (car : CarState) (e : Entry) (f : Fields) :
    effectiveRelease car e f = .granted ↔
      e.kind = .entrance ∧ car.motion = .standstill ∧
        (∃ side, e.side = some side ∧
          (car.side = .both ∨ (car.side = .left ∧ side = .left) ∨ (car.side = .right ∧ side = .right))) ∧
        f.serviceMode = some 0 := by
  rw [← sideGranted_iff]
  simp [effectiveRelease, and_assoc]

theorem effectiveRelease_withheld_iff (car : CarState) (e : Entry) (f : Fields) :
    effectiveRelease car e f = .withheld ↔ effectiveRelease car e f ≠ .granted := by
  cases effectiveRelease car e f <;> simp

/-- The payload of a CONTEXT frame to a defined station. -/
theorem framePayload_context {t : Txn} {n : Nat} {s : State} {st : Station} (h : t.step = .context)
    (hn : t.station = some n) (hst : s.station? n = some st) (l : Lane) :
    framePayload l t s =
      le16 st.context.epoch ++ [byte (effectiveRelease s.car st.entry st.context.fields).code] ++
        st.context.fields.bytes := by
  simp only [framePayload, h, hn, Option.getD_some, hst]

theorem frameAddress_station {t : Txn} {n : Nat} {s : State} {st : Station} (hn : t.station = some n)
    (hst : s.station? n = some st) : frameAddress t s = st.entry.address := by
  simp only [frameAddress, hn, hst]

/-- Settles O43. -/
theorem contextFrameCarriesRelease : Obligations.ContextFrameCarriesRelease := by
  intro l t s n st hstep hn hst hi granted
  have hframe : (t.begun l s).frame =
      some (laneFrame st.entry.address (s.lane l).seq 0x16
        (le16 st.context.epoch ++ [byte (effectiveRelease s.car st.entry st.context.fields).code] ++
          st.context.fields.bytes)) := by
    simp only [Txn.begun, hi, countInjection, sentFrame, hstep, frameAddress_station hn hst,
      framePayload_context hstep hn hst]
    rfl
  have hst' : t.station.isSome = true := by rw [hn]; rfl
  refine ⟨t.begun l s, byte (effectiveRelease s.car st.entry st.context.fields).code, ?_, hframe, fun hg => ?_,
    fun hg => ?_, frameAddress_station hn hst, rfl, ?_, ?_⟩
  · rw [beginAttempt_lane_self]
    rfl
  · rw [(effectiveRelease_granted_iff _ _ _).mpr hg]
    rfl
  · rw [(effectiveRelease_withheld_iff _ _ _).mpr fun h => hg ((effectiveRelease_granted_iff _ _ _).mp h)]
    rfl
  · rw [beginAttempt_lane_self]
    rfl
  · obtain ⟨b, k, he⟩ := beginAttempt_eq l hst' s
    rw [he, State.setLane_timebase, Timebase.dueOf_set, if_pos rfl]

/-! ### Late replies (R65, R99, R116, R117) -/

/-- The frames of a transaction are those of its attempts, with the sequence numbers before the present one (R96, R101). -/
theorem mem_frames (t : Txn) (i : FrameId) :
    i ∈ t.frames ↔ t.station.isSome = true ∧ i.address = t.address ∧ i.sequence < 16 ∧
      ∃ k, k < t.attempt ∧ (i.sequence + k) % 16 = t.sequence % 16 := by
  unfold Txn.frames
  cases hst : t.station with
  | none => simp
  | some n =>
    simp only [Option.isNone_some, Bool.false_eq_true, if_false, List.mem_map, List.mem_range, Option.isSome_some,
      true_and]
    constructor
    · rintro ⟨k, hk, rfl⟩
      exact ⟨rfl, Nat.mod_lt _ (by decide), k, hk, by dsimp only; omega⟩
    · rintro ⟨ha, hs, k, hk, he⟩
      refine ⟨k, hk, ?_⟩
      obtain ⟨a, q⟩ := i
      dsimp only at ha hs he
      rw [← ha, FrameId.mk.injEq]
      exact ⟨rfl, by omega⟩

theorem mem_abandonedFrames (x : LaneState) (i : FrameId) :
    i ∈ x.abandonedFrames ↔ i ∈ x.abandoned ∨ ∃ t : Txn, x.txn = some t ∧ i ∈ t.frames := by
  unfold LaneState.abandonedFrames
  cases x.txn with
  | none => simp
  | some t =>
    simp only [List.mem_append, List.mem_filter, Bool.not_eq_true', List.contains_eq_mem, decide_eq_false_iff_not,
      Option.some.injEq, exists_eq_left']
    tauto

/-- What a reply with a good check meets: no transaction, or one whose frame it answers or not (R99). -/
theorem laneReply_raw {s : State} {l : Lane} {frame : List Byte} {raw : RawReply} (hr : readReplyFrame frame = some raw) :
    ((s.lane l).txn = none → laneReply l frame s = s) ∧
      ∀ t : Txn, (s.lane l).txn = some t → t.station.isSome = true →
        ((raw.sequence ≠ t.sequence ∨ raw.address ≠ t.address) → laneReply l frame s = unmatchedReply l t raw s) ∧
        (¬(raw.sequence ≠ t.sequence ∨ raw.address ≠ t.address) →
          readAnswer t.step raw.kind raw.payload = .unpaired → laneReply l frame s = markStale l t s) := by
  unfold laneReply
  refine ⟨fun ht => by rw [ht], fun t ht hst => ?_⟩
  simp only [ht, Option.isNone_eq_false_iff.mpr hst, hr, Bool.false_eq_true, if_false]
  refine ⟨fun ho => if_pos ?_, fun ho hu => ?_⟩
  · simpa using ho
  · rw [if_neg (by simpa using ho), hu]

/-- Settles O38. -/
theorem lateRepliesOnlyMark : Obligations.LateRepliesOnlyMark := by
  refine ⟨fun s l frame raw hrun hraw => ?_, fun x i => ?_, fun s l t i => ?_⟩
  · have hexec : exec (.laneReplyReceived l frame) s = .next (laneReply l frame s) := whileRunning_runs hrun _
    obtain ⟨hnone, hsome⟩ := laneReply_raw (s := s) (l := l) hraw
    refine ⟨fun ht => by rw [hexec, hnone ht], fun t ht hst => ?_⟩
    intro other late
    obtain ⟨hother, hpaired⟩ := hsome t ht hst
    have hlate : (s.lane l).abandoned.contains { address := raw.address, sequence := raw.sequence } = true ↔ late := by
      rw [List.contains_eq_mem, decide_eq_true_iff]
    refine ⟨fun ho hl => ?_, fun h => ?_⟩
    · rw [hexec, hother ho, unmatchedReply, if_pos (hlate.mpr hl)]
    · have hmark : laneReply l frame s = markStale l t s := by
        rcases h with ⟨ho, hl⟩ | ⟨ho, hu⟩
        · rw [hother ho, unmatchedReply, if_neg fun hc => hl (hlate.mp hc)]
        · exact hpaired ho hu
      refine ⟨markStale l t s, by rw [hexec, hmark], ?_, rfl⟩
      rw [markStale, State.lane_updLane]
  · rw [mem_abandonedFrames]
    simp only [mem_frames]
  · rw [beginAttempt_lane_self]
    simp only [State.laneBegun, List.mem_filter, decide_eq_true_eq, ne_eq]
    obtain ⟨a, q⟩ := i
    rw [FrameId.mk.injEq]

end Sys2Proof.Machine
end

section
/-! PROOFS. A changed record and its push entry, as CONTEXT SET and CAR STATE SET leave them (spec/04, 4.4 and 4.5). -/

namespace Sys2Proof.Machine

/-! ### Push lists (R62) -/

/-- A station has an entry in the push list of a lane, urgent if so asked. -/
def State.pendsOn (l : Lane) (n : Nat) (urgent : Bool) (s : State) : Prop :=
  ∃ p ∈ s.pushes l, p.station = n ∧ (urgent = true → p.urgent = true)

theorem joinPushes_joined (n : Nat) (u : Bool) (ps : List Push) :
    ∃ p ∈ joinPushes n u ps, p.station = n ∧ (u = true → p.urgent = true) := by
  unfold joinPushes
  split
  · rename_i h
    obtain ⟨p, hp, hn⟩ := List.any_eq_true.mp h
    refine ⟨_, List.mem_map_of_mem hp, ?_⟩
    rw [if_pos (of_decide_eq_true hn)]
    exact ⟨of_decide_eq_true hn, fun hu => by simp [hu]⟩
  · exact ⟨⟨n, u⟩, List.mem_append_right _ (List.mem_singleton_self _), rfl, id⟩

/-- An entry of a push list keeps its place and its urgent mark as a station joins (R62). -/
theorem joinPushes_keeps {n : Nat} {u : Bool} {p : Push} {ps : List Push} (h : p ∈ ps) :
    ∃ q ∈ joinPushes n u ps, q.station = p.station ∧ (p.urgent = true → q.urgent = true) := by
  unfold joinPushes
  split
  · refine ⟨_, List.mem_map_of_mem h, ?_⟩
    split
    · exact ⟨rfl, fun hu => by simp [hu]⟩
    · exact ⟨rfl, id⟩
  · exact ⟨p, List.mem_append_left _ h, rfl, id⟩

theorem find_joinPushes {n m : Nat} (h : m ≠ n) (u : Bool) (ps : List Push) :
    (joinPushes n u ps).find? (·.station = m) = ps.find? (·.station = m) := by
  unfold joinPushes
  split
  · rw [List.find?_map]
    have hp : ((fun p : Push => decide (p.station = m)) ∘ fun p => if p.station = n then { p with urgent := p.urgent || u } else p) =
        fun p => decide (p.station = m) := funext fun p => by
      simp only [Function.comp]
      split <;> rfl
    rw [hp]
    cases hf : ps.find? fun p => decide (p.station = m) with
    | none => rfl
    | some p =>
      have hm : p.station = m := by simpa using List.find?_some hf
      rw [Option.map_some, if_neg fun hn => h (hm.symm.trans hn)]
  · rw [List.find?_append]
    simp [Ne.symm h]

/-! ### A record made pending (R56, R61) -/

theorem joinPush_some {n : Nat} {s : State} {st : Station} (h : s.station? n = some st) (u : Bool) :
    joinPush n u s = s.setPushes st.entry.lane (joinPushes n u (s.pushes st.entry.lane)) := by
  simp only [joinPush, h]

/-- A record made pending changes the push lists only. -/
theorem makePending_frame (n : Nat) (u : Bool) (s : State) :
    makePending n u s = { s with pushA := (makePending n u s).pushA, pushB := (makePending n u s).pushB } := by
  unfold makePending joinPush
  split
  · rfl
  · split
    · rfl
    · rename_i st _
      cases st.entry.lane <;> rfl

theorem makePending_push? {n m : Nat} (h : m ≠ n) (u : Bool) (s : State) : (makePending n u s).push? m = s.push? m := by
  unfold makePending joinPush
  split
  · rfl
  · split
    · rfl
    · rename_i st _
      unfold State.push?
      cases st.entry.lane <;>
        simp only [State.setPushes, State.pushes, List.find?_append, find_joinPushes h]

theorem makePending_pendsOn {n : Nat} {s : State} {st : Station} (hj : s.hasJob n = false) (hst : s.station? n = some st)
    (u : Bool) : (makePending n u s).pendsOn st.entry.lane n u := by
  rw [makePending, hj, if_neg Bool.false_ne_true, joinPush_some hst, State.pendsOn, State.pushes_setPushes]
  exact joinPushes_joined ..

theorem State.pendsOn.makePending {l : Lane} {n : Nat} {urgent : Bool} {s : State} (h : s.pendsOn l n urgent) (m : Nat)
    (u : Bool) : (Machine.makePending m u s).pendsOn l n urgent := by
  unfold Machine.makePending joinPush
  split
  · exact h
  · split
    · exact h
    · rename_i st _
      by_cases hl : st.entry.lane = l
      · obtain ⟨p, hp, hn, hu⟩ := h
        obtain ⟨q, hq, hqn, hqu⟩ := joinPushes_keeps (n := m) (u := u) hp
        rw [hl, State.pendsOn, State.pushes_setPushes]
        exact ⟨q, hq, hqn.trans hn, hqu ∘ hu⟩
      · have hp : ∀ x, (s.setPushes st.entry.lane x).pushes l = s.pushes l := fun x => by
          cases he : st.entry.lane <;> cases l <;> first | rfl | exact absurd he hl
        rw [State.pendsOn, hp]
        exact h

/-! ### The station that a request names (R46) -/

/-- In a table in station order a defined station is the one of its number. -/
theorem State.stationsOrdered.station? {s : State} (h : s.stationsOrdered) {st : Station} (hst : st ∈ s.stations) :
    s.station? st.entry.number = some st := by
  cases hf : s.station? st.entry.number with
  | none => exact absurd (by simp) (List.find?_eq_none.mp hf st hst)
  | some x =>
    have hn : x.entry.number = st.entry.number := by simpa using List.find?_some hf
    rw [h.sameNumber (List.mem_of_find?_eq_some hf) hst hn]

/-! ### CONTEXT SET (R54 to R56) -/

theorem serveContextSet_taken {payload : List Byte} {s : State} {st : Station} {f : Fields}
    (hl : contextLayout payload = true) (hst : s.aliased? (numAt payload 0) = some st)
    (hb : ((contextPairs payload).all fun p => fieldBelongs st.entry.kind p.code) = true)
    (hf : putPairs (contextPairs payload) st.context.fields = some f) :
    serveContextSet payload s =
      taken (contextTaken s.free (nextEpoch st.context.epoch) (contextPairs payload) f) (lanesAct (setContext st f s).drawn) := by
  have hany : ((contextPairs payload).any fun p => !fieldBelongs st.entry.kind p.code) = false := by
    rw [← List.not_all_eq_any_not, hb]
    rfl
  simp only [serveContextSet, hl, hst, hany, hf, Bool.not_true, Bool.false_eq_true, if_false]

/-- Settles O28. -/
theorem contextSetTaken : Obligations.ContextSetTaken := by
  intro s tag payload st f h ho hl ha hb hf n release
  have hk : serveKind (requestOf 0x0A tag payload) s = _ := serveContextSet_taken hl ha hb hf
  have hst : s.station? n = some st := ho.station? (List.mem_of_find?_eq_some ha)
  let x : State := s.updStation n (Station.withFields s.car f)
  have hx : ∀ m, x.station? m = if m = n then (s.station? n).map (Station.withFields s.car f) else s.station? m :=
    fun m => updStation_station? s n m fun _ => rfl
  have hxn : x.station? n = some (st.withFields s.car f) := by rw [hx, if_pos rfl, hst]; rfl
  have hstations : ∀ u m, (makePending n u x).station? m = x.station? m := fun u m => by
    rw [makePending_frame]
    rfl
  refine ⟨(setContext st f s).drawn, exec_takes (requestOf 0x0A tag payload) h rfl hk, ?_, ?_, fun m hm => ?_,
    fun hj => ?_, fun hj => ?_, fun m hm => ?_⟩
  · unfold setContext
    rw [makePending_frame]
    rfl
  · exact (hstations _ n).trans hxn
  · exact (hstations _ m).trans ((hx m).trans (if_neg hm))
  · have hp : setContext st f s = x := if_pos hj
    rw [hp]
    exact ⟨rfl, rfl⟩
  · obtain ⟨p, hp, hpn, hpu⟩ := makePending_pendsOn (s := x) hj hxn
      (st.context.release = .granted && (st.withFields s.car f).context.release = .withheld)
    refine ⟨p, hp, hpn, fun hg hw => hpu ?_⟩
    rw [decide_eq_true hg, decide_eq_true (show (st.withFields s.car f).context.release = .withheld from hw)]
    rfl
  · exact makePending_push? (s := x) hm _

/-! ### CAR STATE SET (R59, R61) -/

/-- Some stations' records made pending, one after another (R61). -/
def pendAll (xs : List Station) (urgent : Station → Bool) (s : State) : State :=
  xs.foldl (fun x st => makePending st.entry.number (urgent st) x) s

theorem pendAll_cons (x : Station) (xs : List Station) (urgent : Station → Bool) (s : State) :
    pendAll (x :: xs) urgent s = pendAll xs urgent (makePending x.entry.number (urgent x) s) := rfl

theorem pendAll_frame (xs : List Station) (urgent : Station → Bool) (s : State) :
    ∃ a b, pendAll xs urgent s = { s with pushA := a, pushB := b } := by
  induction xs generalizing s with
  | nil => exact ⟨_, _, rfl⟩
  | cons x xs ih =>
    obtain ⟨a, b, he⟩ := ih (makePending x.entry.number (urgent x) s)
    refine ⟨a, b, ?_⟩
    rw [pendAll_cons, he, makePending_frame]

theorem pendAll_push? {n : Nat} {xs : List Station} (h : ∀ st ∈ xs, st.entry.number ≠ n) (urgent : Station → Bool)
    (s : State) : (pendAll xs urgent s).push? n = s.push? n := by
  induction xs generalizing s with
  | nil => rfl
  | cons x xs ih =>
    rw [List.forall_mem_cons] at h
    rw [pendAll_cons, ih h.2, makePending_push? (Ne.symm h.1)]

theorem State.pendsOn.pendAll {l : Lane} {n : Nat} {u : Bool} {s : State} (h : s.pendsOn l n u) (xs : List Station)
    (urgent : Station → Bool) : (pendAll xs urgent s).pendsOn l n u := by
  induction xs generalizing s with
  | nil => exact h
  | cons x xs ih => exact ih (h.makePending ..)

theorem pendAll_pendsOn {xs : List Station} {st x : Station} {s : State} (h : st ∈ xs)
    (hj : s.hasJob st.entry.number = false) (hx : s.station? st.entry.number = some x) (urgent : Station → Bool) :
    (pendAll xs urgent s).pendsOn x.entry.lane st.entry.number (urgent st) := by
  induction xs generalizing s with
  | nil => exact absurd h List.not_mem_nil
  | cons y ys ih =>
    rw [pendAll_cons]
    rcases List.mem_cons.mp h with rfl | h
    · exact (makePending_pendsOn hj hx _).pendAll ..
    · refine ih h ?_ ?_
      · rw [makePending_frame]
        exact hj
      · rw [makePending_frame]
        exact hx

theorem setCar_pendAll (car : CarState) (s : State) :
    setCar car s =
      pendAll (s.stations.filter (releaseChanges car))
        (fun st => effectiveRelease car st.entry st.context.fields = .withheld)
        { s with car := car, stations := s.stations.map (Station.under car) } := rfl

theorem Station.under_entry (car : CarState) (st : Station) : (st.under car).entry = st.entry := by
  unfold Station.under
  split <;> rfl

/-- The stations of a table, each changed but for its entry. -/
theorem State.station?_map (s : State) (car : CarState) {f : Station → Station} (hf : ∀ st, (f st).entry = st.entry)
    (n : Nat) : State.station? { s with car := car, stations := s.stations.map f } n = (s.station? n).map f := by
  unfold State.station?
  rw [List.find?_map]
  congr 2
  funext st
  simp [hf]

/-- Settles O29. -/
theorem carStateTaken : Obligations.CarStateTaken := by
  intro s tag m r motion side h ho hm hr car changed
  have hchanged : changed = s.stations.filter (releaseChanges car) := by
    refine List.filter_congr fun st _ => ?_
    rw [releaseChanges, Bool.decide_and]
  have hk : serveKind (requestOf 0x0C tag [m, r]) s = taken [m, r, byte changed.length] (lanesAct (setCar car s)) := by
    change serveCarStateSet [m, r] s = _
    simp only [serveCarStateSet, hm, hr, hchanged]
    rfl
  have hmem : ∀ st, st ∈ changed ↔ st ∈ s.stations ∧ releaseChanges car st = true := fun st => by
    rw [hchanged, List.mem_filter]
  obtain ⟨a, b, hframe⟩ := pendAll_frame (s.stations.filter (releaseChanges car))
    (fun st => effectiveRelease car st.entry st.context.fields = .withheld)
    { s with car := car, stations := s.stations.map (Station.under car) }
  refine ⟨setCar car s, exec_takes (requestOf 0x0C tag [m, r]) h rfl hk, ?_, ?_, fun st hst hj => ?_, fun n hn => ?_⟩
  · rw [setCar_pendAll, hframe]
  · rw [setCar_pendAll, hframe]
    refine List.map_congr_left fun st hst => ?_
    rw [Station.under]
    simp only [hmem, hst, true_and]
    rfl
  · obtain ⟨hs, hc⟩ := (hmem st).mp hst
    have hx : State.station? { s with car := car, stations := s.stations.map (Station.under car) } st.entry.number =
        some (st.under car) := by
      rw [State.station?_map s car (Station.under_entry car), ho.station? hs]
      rfl
    obtain ⟨p, hp, hpn, hpu⟩ := pendAll_pendsOn
      (s := { s with car := car, stations := s.stations.map (Station.under car) }) (List.mem_filter.mpr ⟨hs, hc⟩) hj hx
      (fun st => effectiveRelease car st.entry st.context.fields = .withheld)
    rw [Station.under_entry] at hp
    exact ⟨p, hp, hpn, fun hw => hpu (decide_eq_true hw)⟩
  · exact pendAll_push? (fun st hst => hn st (hchanged ▸ hst)) _ _

end Sys2Proof.Machine
end

section
/-! PROOFS. The restore limit of a job, and the transactions that a departure and the work of the lanes keep in flight
(spec/05, 5.3 and 5.4). -/

namespace Sys2Proof.Machine

/-! ### Lanes that stay busy -/

theorem orphanFrame_busy (x : LaneState) : x.orphanFrame.txn.isSome = x.txn.isSome := by
  unfold LaneState.orphanFrame
  split
  · rfl
  · rename_i ht
    rw [ht]
    split
    · rfl
    · rw [ht]

/-- A state in which every lane has a transaction exactly where it had one. -/
def State.busyAlike (s t : State) : Prop := ∀ l, (t.lane l).txn.isSome = (s.lane l).txn.isSome

/-- A change of one lane that leaves its transaction, or puts another in its place. -/
theorem State.busyAlike_updLane (s : State) (l : Lane) {f : LaneState → LaneState}
    (hf : (f (s.lane l)).txn.isSome = (s.lane l).txn.isSome) : s.busyAlike (s.updLane l f) := fun m => by
  by_cases hm : m = l
  · rw [hm, State.lane_updLane, hf]
  · rw [State.lane_updLane_ne _ _ _ _ hm]

theorem planBuffers_updLane_busyAlike (s : State) (l : Lane) {f : LaneState → LaneState}
    (hf : (f (s.lane l)).txn.isSome = (s.lane l).txn.isSome) : s.busyAlike (planBuffers l (s.updLane l f)) := fun m => by
  rw [(State.poolBecomes.planBuffers _ _).lane]
  exact s.busyAlike_updLane l hf m

theorem settleGroup_busyAlike (l : Lane) (members : List Nat) (count : Nat) (round : Option (List Nat)) (s : State) :
    s.busyAlike (settleGroup l members count round s) := by
  unfold settleGroup
  dsimp only
  split
  · exact planBuffers_updLane_busyAlike s l (orphanFrame_busy _)
  · exact planBuffers_updLane_busyAlike s l (orphanFrame_busy _)
  · exact s.busyAlike_updLane l rfl

theorem leaveHolder_busyAlike (l : Lane) (n : Nat) (s : State) : s.busyAlike (leaveHolder l n s) := by
  unfold leaveHolder
  split
  · exact fun _ => rfl
  · split
    · exact planBuffers_updLane_busyAlike s l (orphanFrame_busy _)
    · exact fun _ => rfl
  · split
    · exact settleGroup_busyAlike _ _ _ _ _
    · exact fun _ => rfl

theorem leaveLoad_busyAlike (n : Nat) (s : State) : s.busyAlike (leaveLoad n s) := by
  unfold leaveLoad
  split
  · exact fun _ => rfl
  · exact leaveHolder_busyAlike _ _ _

/-- The departure of a job leaves a lane's frame in flight, the job's own included (R70, R101). -/
theorem jobGone_busyAlike (n : Nat) (p : Presence) (note : NoticeBody) (restored failed : Nat) (s : State) :
    s.busyAlike (s.jobGone n p note restored failed) := fun l => by
  have hpost : ∀ (b : NoticeBody) (x : State), (postNotice b x).lane l = x.lane l := fun b x => by
    rw [postNotice_notified (n := x) ⟨rfl, rfl, rfl, rfl⟩]
    cases l <;> rfl
  have hpres : ∀ x : State, (setPresence n p x).lane l = x.lane l := fun x => by
    rw [setPresence_self_notified]
    cases l <;> rfl
  have hpass : ∀ x : State, (passCompleteIfEmpty x).lane l = x.lane l := fun x => by
    rw [passCompleteIfEmpty_eq (n := x) ⟨rfl, rfl, rfl, rfl⟩]
    cases l <;> rfl
  have hengine : ∀ (x : State) (e : Engine), ({ x with engine := e } : State).lane l = x.lane l := fun x e => by
    cases l <;> rfl
  have hremove : (removeDeadline (.restoreLimit n) s).lane l = s.lane l := by cases l <;> rfl
  unfold State.jobGone departJob
  dsimp only
  rw [hpass, hengine, hpost, hpres, hengine, leaveLoad_busyAlike, hremove]

/-! ### The work of the lanes -/

theorem LaneState.pollsAlike.busy {x y : LaneState} (h : x.pollsAlike y) : y.txn.isSome = x.txn.isSome := by
  rw [← Option.isSome_map (f := (·.owner)), h.2.2, Option.isSome_map]

theorem beginAttempt_busy {l : Lane} (m : Lane) (t : Txn) {s : State} (h : (s.lane l).txn.isSome = true) :
    ((beginAttempt m t s).lane l).txn.isSome = true := by
  by_cases hl : l = m
  · rw [hl, beginAttempt_lane_self]
    rfl
  · rw [(beginAttempt_lane m t s).1 l hl, h]

theorem arbitrate_busy {l : Lane} (m : Lane) {s : State} (h : (s.lane l).txn.isSome = true) :
    ((arbitrate m s).lane l).txn.isSome = true := by
  by_cases hl : l = m
  · have hfree : (s.laneFree m && s.lanesOpen) = false := by
      rw [State.laneFree, ← hl, Option.isNone_eq_false_iff.mpr h, Bool.false_and]
    rw [arbitrate, hfree]
    exact h
  · unfold arbitrate
    split
    · split
      · exact h
      · rw [beginStep_lane_ne hl]
        exact h
    · exact h

/-- The work of the lanes ends no transaction (R97, R104). -/
theorem lanesAct_busy {l : Lane} {s : State} (h : (s.lane l).txn.isSome = true) : ((lanesAct s).lane l).txn.isSome = true := by
  refine arbitrate_busy .b (arbitrate_busy .a ?_)
  rw [issueFlash_lane, (selectHolder_pollsAlike .b _ l).busy, (selectHolder_pollsAlike .a _ l).busy, h]

/-! ### The restore limit (R76, R87, R89) -/

theorem exec_restoreLimitExpiry {s : State} {left : Timebase} {due : Time} {n : Nat} {j : Job}
    (h : s.dueNow (.restoreLimit n) left due) (hj : s.job? n = some j) :
    exec (.restoreLimitExpiry n) s =
      .next
        (lanesAct
          ((s.withTimebase left).jobGone n .absent (.nodeFailed n (j.pass.getD 0) .time j.state) s.engine.restored
            (s.engine.failed + 1))) := by
  have hexec : exec (.restoreLimitExpiry n) s = .next (limitExpired n (s.withTimebase left)) := whileRunning_onExpiry h _
  rw [hexec, limitExpired, failJob_eq (s := s.withTimebase left) hj]
  rfl

/-- The notices of a departure are posted as before its expiry was taken off the deadline list. -/
theorem gonePosted_withTimebase {s : State} {left : Timebase} (hc : left.count = s.timebase.count) (n : Nat) (p : Presence)
    (note : NoticeBody) (restored failed : Nat) :
    (s.gonePosted n p note restored failed).noticesAlike ((s.withTimebase left).gonePosted n p note restored failed) := by
  have hpres : (setPresence n p s).noticesAlike (setPresence n p (s.withTimebase left)) := by
    rw [setPresence_notified (s := s) (x := s.withTimebase left) ⟨rfl, rfl, rfl, rfl⟩ rfl, setPresence_self_notified n p s]
    exact ⟨rfl, rfl, rfl, rfl⟩
  have hnote := postNotice_noticesAlike hpres note
  have hlast : (s.withTimebase left).lastJob n = s.lastJob n := rfl
  have hpass : ∀ pass, elapsed (s.withTimebase left).timebase.count pass = elapsed s.timebase.count pass := fun pass =>
    congrArg (elapsed · pass) hc
  unfold State.gonePosted
  dsimp only
  rw [hlast, hpass]
  split
  · exact postNotice_noticesAlike hnote _
  · exact hnote

theorem State.lastJob_iff (n : Nat) (s : State) :
    s.lastJob n = true ↔ s.engine.phase = .active ∧ ∀ x ∈ s.engine.queue, x.station = n := by
  simp [State.lastJob, and_comm]

/-- Settles O32. -/
theorem restoreLimitFailsJob : Obligations.RestoreLimitFailsJob := by
  intro s left due n j h hj failed
  have hposted := gonePosted_withTimebase h.count n .absent (.nodeFailed n (j.pass.getD 0) .time j.state)
    s.engine.restored (s.engine.failed + 1)
  have hexec := exec_restoreLimitExpiry h hj
  obtain ⟨ust, ulink, -, ueng, utime, ucar, upushA, upushB, usupply, uset, uest, uquery, uload, uwrite, usave, uflash⟩ :=
    jobGone_fields n .absent (.nodeFailed n (j.pass.getD 0) .time j.state) s.engine.restored (s.engine.failed + 1)
      (s.withTimebase left)
  obtain ⟨⟨-, -, ⟨uslots, umarks⟩, -⟩, -⟩ :=
    jobGone_lane n .absent (.nodeFailed n (j.pass.getD 0) .time j.state) s.engine.restored (s.engine.failed + 1)
      (s.withTimebase left)
  have ujob := jobGone_job? n .absent (.nodeFailed n (j.pass.getD 0) .time j.state) s.engine.restored
    (s.engine.failed + 1) (s.withTimebase left) n
  have ubusy := jobGone_busyAlike n .absent (.nodeFailed n (j.pass.getD 0) .time j.state) s.engine.restored
    (s.engine.failed + 1) (s.withTimebase left)
  generalize (s.withTimebase left).jobGone n .absent (.nodeFailed n (j.pass.getD 0) .time j.state) s.engine.restored
    (s.engine.failed + 1) = u at *
  have hstation : ∀ m, u.station? m = if m = n then (s.station? n).map fun st => { st with presence := .absent }
      else s.station? m := fun m => by
    rw [State.station?, ust]
    exact setPresence_station? n .absent (s.withTimebase left) m
  obtain ⟨⟨-, tsupply, tcount, test, tst, tcar, tpushA, tpushB, tset, -, tpass, -, trestored, tfailed, -, tqueue, tquery,
    twrite, tsave, tmarks, tload, tlink, tflash, -⟩, tslots, tdue⟩ := lanesAct_worksFrom u
  have tstation : ∀ m, (lanesAct u).station? m = u.station? m := fun m => by rw [State.station?, tst, State.station?]
  refine ⟨lanesAct u, hexec, ?_, ?_, fun st hst => ?_, fun m hm => ?_, ?_, ?_, ?_, ?_, ?_, fun l hl => ?_,
    tsupply.trans usupply, tcar.trans ucar, tpushA.trans upushA, tpushB.trans upushB, tset.trans uset, test.trans uest,
    tquery.trans uquery, tload.trans uload, tslots.trans uslots, twrite.trans uwrite, tsave.trans usave, tmarks.trans umarks,
    ?_, tflash.trans uflash⟩
  · rw [lanesAct_hasJob, State.hasJob, ujob, if_pos rfl]
    rfl
  · rw [tqueue, ueng]
    rfl
  · rw [tstation, hstation, if_pos rfl] at hst
    obtain ⟨x, -, rfl⟩ := Option.map_eq_some_iff.mp hst
    rfl
  · rw [tstation, hstation, if_neg hm]
  · rw [tfailed, ueng]
  · rw [trestored, ueng]
  · rw [tpass, ueng]
    rfl
  · rw [tdue _ (by simp [Purpose.ofLanes]), utime, Timebase.dueOf_remove, if_pos rfl]
  · rw [tlink, ulink, hposted.1, State.gonePosted]
    simp only [State.lastJob_iff]
    rfl
  · exact lanesAct_busy ((ubusy l).trans hl)
  · rw [tcount, utime, Timebase.remove_count]
    exact h.count

end Sys2Proof.Machine
end

section
/-! PROOFS. A push delivered, kept, refused and lost (spec/04, 4.5; spec/06, 6.5). -/

namespace Sys2Proof.Machine

/-! ### The push entry that a job created removes (R64) -/

theorem removePush_twice (n : Nat) (s : State) : removePush n (removePush n s) = removePush n s := by
  simp only [removePush, List.filter_filter, Bool.and_self]

/-- In LINE, a job created for a station removes its push entry itself (R64, R72). -/
theorem createJob_removePush {n : Nat} {s : State} (hj : s.hasJob n = false) (hs : (s.station? n).isSome = true)
    (hl : s.supply.state = .line) (o : Origin) : createJob n o (removePush n s) = createJob n o s := by
  have hadd : addJob n o .none (removePush n s) = addJob n o .none s := by
    unfold addJob
    rw [removePush_twice]
    rfl
  rw [createJob_line (s := removePush n s) hj hs hl, createJob_line hj hs hl, hadd]
  rfl

theorem setPresence_removePush (n m : Nat) (p : Presence) (s : State) :
    setPresence n p (removePush m s) = removePush m (setPresence n p s) := by
  rw [setPresence_notified (s := s) (x := removePush m s) ⟨rfl, rfl, rfl, rfl⟩ rfl, setPresence_self_notified n p s]
  rfl

/-! ### The owner of a push (R63, R101) -/

/-- A transaction in flight pushes the record of a station that has a push entry and no job. -/
structure State.pushing (s : State) (l : Lane) (t : Txn) (n : Nat) (st : Station) : Prop where
  txn : (s.lane l).txn = some t
  step : t.step = .context
  owner : t.owner = .push n
  station : t.station = some n
  entry : (s.push? n).isSome = true
  defined : s.station? n = some st
  free : s.hasJob n = false

theorem State.queueDistinct.push_free {s : State} (h : s.queueDistinct) {n : Nat} {p : Push} (hp : s.push? n = some p) :
    s.hasJob n = false := by
  have hn : p.station = n := by simpa using List.find?_some hp
  rw [← hn]
  exact h.2 p (List.mem_of_find?_eq_some hp)

namespace State.pushing

variable {s : State} {l : Lane} {t : Txn} {n : Nat} {st : Station}

theorem not_gone (h : s.pushing l t n st) {x : State} (ha : x.pushA = s.pushA) (hb : x.pushB = s.pushB) :
    ownerGone t x = false := by
  have hx : x.push? n = s.push? n := by rw [State.push?, ha, hb, State.push?]
  simp only [ownerGone, h.owner, hx, Option.isNone_eq_false_iff]
  exact h.entry

theorem no_job (h : s.pushing l t n st) (m id : Nat) : t.owner ≠ .job m id := by
  rw [h.owner]
  exact nofun

/-- A reply taken for the push that makes no error. -/
theorem takeReply (h : s.pushing l t n st) {r : LaneReply} (hr : r.taken t s) :
    takeReply l t r s = pushReply n r ((presenceReply n s).stepFreed l) := by
  have hpres : presenceOfReply (t.station.getD 0) r false (removeDeadline (.responseWindow l) s) =
      removeDeadline (.responseWindow l) (presenceReply n s) := by
    rw [← presenceReply_removeDeadline, h.station, Option.getD_some]
    unfold presenceOfReply
    split
    · exact absurd rfl (hr.1 _ _)
    · rfl
  have hstore : (presenceReply n s).store = s.store := by
    rw [presenceReply_notified (s := s) (x := s) ⟨rfl, rfl, rfl, rfl⟩ rfl]
  have herr : replyError t r (removeDeadline (.responseWindow l) (presenceReply n s)) = none := hr.2 _ hstore
  unfold Machine.takeReply
  simp only [h.not_gone rfl rfl, hpres, herr, Bool.false_eq_true, if_false, h.owner]
  rw [endStep_stepFreed h.no_job]

/-- The last attempt of the push ends with an error (R64, R101). -/
theorem errorEnding (h : s.pushing l t n st) {told : State} (ha : told.pushA = s.pushA) (hb : told.pushB = s.pushB)
    (hlim : t.limit < t.attempt) (e : Ending) :
    errorEnding l t e told = createJob n .link (setPresence n .absent (removePush n (told.stepFreed l))) := by
  have hg : ownerGone t (removeDeadline (.responseWindow l) told) = false := h.not_gone ha hb
  have hload : t.step.loading = false := by rw [h.step]; rfl
  unfold Machine.errorEnding
  simp only [hg, hload, Bool.and_false, Bool.false_eq_true, if_false, if_neg (Nat.not_le_of_lt hlim)]
  rw [endStep_stepFreed h.no_job]
  simp only [exhausted, h.owner]

theorem ack_taken (t : Txn) (s : State) (epoch : Nat) : (LaneReply.contextAck epoch).taken t s := ⟨nofun, fun _ _ => rfl⟩

theorem nak_taken (h : s.pushing l t n st) {reason : NakReason} (hb : reason ≠ .busy) (f : Nat) :
    (LaneReply.nak reason f).taken t s :=
  ⟨nofun, fun x _ => replyError_nak (by rw [h.step]; exact nofun) hb f x⟩

/-- What the reply of the push tells: its station's presence, and nothing else. -/
theorem told (h : s.pushing l t n st) :
    (presenceReply n s).pushA = s.pushA ∧ (presenceReply n s).pushB = s.pushB ∧ (presenceReply n s).engine = s.engine ∧
      (presenceReply n s).query = s.query ∧ (presenceReply n s).supply = s.supply ∧
      (presenceReply n s).station? n = some { st with presence := st.presence.replied } := by
  have hst := (presenceReply_station? h.defined n).trans (if_pos rfl)
  refine ⟨?_, ?_, ?_, ?_, ?_, hst⟩ <;>
    rw [presenceReply_notified (s := s) (x := s) ⟨rfl, rfl, rfl, rfl⟩ rfl]

end State.pushing

theorem stepFreed_keeps (s : State) (l : Lane) :
    (s.stepFreed l).pushA = s.pushA ∧ (s.stepFreed l).pushB = s.pushB ∧ (s.stepFreed l).link = s.link ∧
      (s.stepFreed l).pins = s.pins ∧ (s.stepFreed l).stations = s.stations ∧ (s.stepFreed l).engine = s.engine ∧
      (s.stepFreed l).query = s.query := by
  cases l <;> exact ⟨rfl, rfl, rfl, rfl, rfl, rfl, rfl⟩

/-! ### An acknowledgement (R63) -/

/-- The push entry of a station leaves its list, or keeps its place, once the step has ended; nothing else changes. -/
theorem State.outcomeTold_removePush {told x : State} {l : Lane} (h : told.outcomeTold l x) (n : Nat) :
    told.outcomeTold l (removePush n x) := by
  cases l <;> exact h

theorem pushReply_acknowledged {n epoch : Nat} {s : State} {st : Station} (h : s.station? n = some st) :
    pushReply n (.contextAck epoch) s = if epoch = st.context.epoch then removePush n s else s := by
  simp only [pushReply, h]

theorem State.pushing.acknowledged {s : State} {l : Lane} {t : Txn} {n : Nat} {st : Station} (h : s.pushing l t n st)
    (hr : s.runs = true) {frame : List Byte} {epoch : Nat} (ha : t.answer frame = .reply (.contextAck epoch)) :
    let told := presenceReply n s
    ∃ u : State, exec (.laneReplyReceived l frame) s = .next (lanesAct u) ∧
      u.pushA = (if epoch = st.context.epoch then s.pushA.filter (·.station ≠ n) else s.pushA) ∧
      u.pushB = (if epoch = st.context.epoch then s.pushB.filter (·.station ≠ n) else s.pushB) ∧
      u.link = told.link ∧ u.pins = told.pins ∧ u.stations = told.stations ∧ u.engine = s.engine ∧
      u.query = s.query ∧ told.outcomeTold l u := by
  intro told
  have hexec : exec (.laneReplyReceived l frame) s = .next (laneReply l frame s) := whileRunning_runs hr _
  obtain ⟨tA, tB, teng, tq, -, tst⟩ := h.told
  obtain ⟨kA, kB, klink, kpins, kst, keng, kq⟩ := stepFreed_keeps told l
  have hst : (told.stepFreed l).station? n = some { st with presence := st.presence.replied } :=
    (State.stepFreed_station? told l n).trans tst
  have hout : told.outcomeTold l (told.stepFreed l) := (told.stepFreed_toldFrom l).outcomeTold
  refine ⟨pushReply n (.contextAck epoch) (told.stepFreed l), ?_, ?_⟩
  · rw [hexec, (laneReply_answer h.txn (by rw [h.station]; rfl) frame).2 _ ha, h.takeReply (ack_taken t s epoch)]
  · rw [pushReply_acknowledged hst]
    dsimp only
    split
    · refine ⟨?_, ?_, klink, kpins, kst, keng.trans teng, kq.trans tq, State.outcomeTold_removePush hout n⟩
      · rw [← tA, ← kA]
        rfl
      · rw [← tB, ← kB]
        rfl
    · exact ⟨kA.trans tA, kB.trans tB, klink, kpins, kst, keng.trans teng, kq.trans tq, hout⟩

/-! ### A push refused or lost (R64, R72, R90) -/

/-- A LINK job created for the station of a push once its step has ended (R64). -/
theorem State.toldFrom.pushGone {base x : State} {l : Lane} {n : Nat} (h : base.toldFrom l x) (hj : base.hasJob n = false)
    (hs : (x.station? n).isSome = true) (hl : base.supply.state = .line) :
    let u := createJob n .link (removePush n x)
    base.jobCreated n .link u ∧ u.link = x.link ∧ u.pins = x.pins ∧ u.stations = x.stations ∧ u.query = x.query ∧
      base.outcomeTold l u := by
  dsimp only
  rw [createJob_removePush ((h.hasJob n).trans hj) hs (h.line hl)]
  obtain ⟨hout, hcreated, -⟩ := h.jobMade hs hl (some .link)
  obtain ⟨_, _, _, _, _, _, he⟩ := State.jobMade_eq n (some .link) x
  refine ⟨hcreated _ rfl hj, ?_⟩
  change (x.jobMade n (some .link)).link = _ ∧ (x.jobMade n (some .link)).pins = _ ∧ (x.jobMade n (some .link)).stations = _ ∧
    (x.jobMade n (some .link)).query = _ ∧ _
  refine ⟨?_, ?_, ?_, ?_, hout⟩ <;> rw [he]

theorem State.pushing.refused {s : State} {l : Lane} {t : Txn} {n : Nat} {st : Station} (h : s.pushing l t n st)
    (hr : s.runs = true) {frame : List Byte} {reason : NakReason} {f : Nat} (hb : reason ≠ .busy)
    (ha : t.answer frame = .reply (.nak reason f)) (hl : s.supply.state = .line) :
    let told := presenceReply n s
    ∃ u : State, exec (.laneReplyReceived l frame) s = .next (lanesAct u) ∧ told.jobCreated n .link u ∧
      u.link = told.link ∧ u.pins = told.pins ∧ u.stations = told.stations ∧ u.query = s.query ∧
      told.outcomeTold l u := by
  intro told
  have hexec : exec (.laneReplyReceived l frame) s = .next (laneReply l frame s) := whileRunning_runs hr _
  obtain ⟨-, -, teng, tq, tsupply, tst⟩ := h.told
  obtain ⟨-, -, klink, kpins, kst, -, kq⟩ := stepFreed_keeps told l
  have hjob : told.hasJob n = false := by rw [State.hasJob, State.job?, teng]; exact h.free
  obtain ⟨hcreated, hlink, hpins, hstations, hquery, hout⟩ := (told.stepFreed_toldFrom l).pushGone hjob
    (by rw [State.stepFreed_station?, tst]; rfl) (by rw [tsupply, hl])
  refine ⟨_, ?_, hcreated, hlink.trans klink, hpins.trans kpins, hstations.trans kst, hquery.trans (kq.trans tq), hout⟩
  rw [hexec, (laneReply_answer h.txn (by rw [h.station]; rfl) frame).2 _ ha,
    h.takeReply (h.nak_taken hb f)]
  rfl

theorem State.pushing.lost {s told : State} {l : Lane} {t : Txn} {n : Nat} {st : Station} (h : s.pushing l t n st) {c : Instr}
    {e : Ending} (hend : s.attemptEnds l t c e told) (hlim : t.limit < t.attempt) (hl : s.supply.state = .line) :
    let lost := setPresence n .absent told
    ∃ u : State, exec c s = .next (lanesAct u) ∧ told.jobCreated n .link u ∧
      (u.station? n).map (·.presence) = some .absent ∧ u.link = lost.link ∧ u.pins = lost.pins ∧
      u.stations = lost.stations ∧ u.query = s.query ∧ told.outcomeTold l u := by
  intro lost
  obtain ⟨⟨_, _, _, _, htold⟩, ⟨pr, hst⟩, -⟩ := hend.presence h.station h.defined
  have hkeeps : told.pushA = s.pushA ∧ told.pushB = s.pushB ∧ told.hasJob n = s.hasJob n ∧ told.query = s.query ∧
      told.supply = s.supply := by
    rw [htold]
    exact ⟨rfl, rfl, rfl, rfl, rfl⟩
  obtain ⟨hA, hB, hjob, hq, hsupply⟩ := hkeeps
  obtain ⟨hx, hxlink, hxpins⟩ := told.stepFreed_setPresence l n .absent
  have hxst := (setPresence_stepFreed_station? hst l .absent n).trans (if_pos rfl)
  have hxkeeps : (setPresence n .absent (told.stepFreed l)).stations = lost.stations ∧
      (setPresence n .absent (told.stepFreed l)).query = told.query := by
    rw [setPresence_notified (s := told) (x := told.stepFreed l) (by cases l <;> exact ⟨rfl, rfl, rfl, rfl⟩)
      (by cases l <;> rfl)]
    exact ⟨rfl, by cases l <;> rfl⟩
  obtain ⟨hcreated, hlink, hpins, hstations, hquery, hout⟩ := hx.pushGone (hjob.trans h.free) (by rw [hxst]; rfl)
    (by rw [hsupply, hl])
  refine ⟨_, ?_, hcreated, ?_, hlink.trans hxlink, hpins.trans hxpins, hstations.trans hxkeeps.1,
    hquery.trans (hxkeeps.2.trans hq), hout⟩
  · rw [hend.exec_eq, h.errorEnding hA hB hlim, setPresence_removePush]
  · rw [State.station?, hstations]
    rw [State.station?] at hxst
    rw [hxst]
    rfl

/-- Settles O39. -/
theorem pushesDeliveredAndLost : Obligations.PushesDeliveredAndLost := by
  intro s l t n st p htxn hstep howner hstation hp hst hq
  have h : s.pushing l t n st :=
    { txn := htxn, step := hstep, owner := howner, station := hstation, entry := by rw [hp]; rfl, defined := hst
      free := hq.push_free hp }
  exact ⟨fun frame hr => ⟨fun epoch ha => h.acknowledged hr ha, fun reason f hb ha hl => h.refused hr hb ha hl⟩,
    fun c e told hend hlim hl => h.lost hend hlim hl⟩

end Sys2Proof.Machine
end

section
/-! PROOFS. A config record read back as it was written (spec/11, 11.5, Figure 11-11; R66, R151, R172, R178). -/

namespace Sys2Proof.Machine

/-! ### The settings (Figure 9-3) -/

/-- The bytes of a setting, at its width. -/
def Settings.bytesOf (x : Settings) (c : Nat) : List Byte :=
  if settingWidth c = 2 then le16 (x.value c) else [byte (x.value c)]

theorem Settings.bytes_eq (x : Settings) : x.bytes = settingCodes.flatMap x.bytesOf := rfl

/-- A setting taken over from other settings. -/
def Settings.copying (x g : Settings) : Nat → Settings
  | 0 => { g with fallFilter := x.fallFilter }
  | 1 => { g with riseFilter := x.riseFilter }
  | 2 => { g with settleWindow := x.settleWindow }
  | 3 => { g with parkLevel := x.parkLevel }
  | 4 => { g with laneRateA := x.laneRateA }
  | 5 => { g with laneRateB := x.laneRateB }
  | 6 => { g with responseWindowA := x.responseWindowA }
  | 7 => { g with responseWindowB := x.responseWindowB }
  | 8 => { g with retryLimit := x.retryLimit }
  | 9 => { g with strictA := x.strictA }
  | 10 => { g with strictB := x.strictB }
  | 11 => { g with restoreLimit := x.restoreLimit }
  | 12 => { g with pollInterval := x.pollInterval }
  | 13 => { g with groupLoading := x.groupLoading }
  | 14 => { g with adaptation := x.adaptation }
  | 15 => { g with presenceMode := x.presenceMode }
  | 16 => { g with noticeMask := x.noticeMask }
  | _ => g

theorem clamp_self {low high n : Nat} (hl : low ≤ n) (hh : n ≤ high) : clamp low high n = n := by
  rw [clamp, min_eq_right hh, max_eq_right hl]

theorem LaneRate.ofKbit_kbit (r : LaneRate) : LaneRate.ofKbit r.kbit = some r := by cases r <;> rfl

theorem switchOf_toNat (b : Bool) : switchOf b.toNat = some b := by cases b <;> rfl

theorem PresenceMode.ofCode_code (m : PresenceMode) : PresenceMode.ofCode m.code = some m := by cases m <;> rfl

theorem heldOn_toNat {m : BitVec 11} (h : m.getLsbD 0 = true) : heldOn m.toNat = m := by
  rw [heldOn, BitVec.ofNat_toNat, BitVec.setWidth_eq]
  refine BitVec.eq_of_getLsbD_eq fun i hi => ?_
  rw [BitVec.getLsbD_or]
  cases i with
  | zero => rw [h, Bool.true_or]
  | succ i => simp [BitVec.getLsbD_one]

/-- Every setting in its range is taken as it is (R165). -/
theorem Settings.put_value {x : Settings} (h : x.inRange) (g : Settings) {c : Nat} (hc : c ∈ settingCodes) :
    g.put c (x.value c) = some (x.copying g c) := by
  obtain ⟨hf, hf', hr, hr', hs, hs', hp, hp', ha, ha', hb, hb', ht, hl, hl', hi, hi', hm⟩ := h
  simp only [settingCodes, List.mem_cons, List.not_mem_nil, or_false] at hc
  rcases hc with rfl | rfl | rfl | rfl | rfl | rfl | rfl | rfl | rfl | rfl | rfl | rfl | rfl | rfl | rfl | rfl | rfl <;>
    simp only [Settings.put, Settings.value, Settings.copying, clamp_self, LaneRate.ofKbit_kbit, switchOf_toNat,
      PresenceMode.ofCode_code, heldOn_toNat, Option.map_some, Nat.zero_le, *]

/-- Every setting in its range fits its bytes. -/
theorem Settings.value_fits {x : Settings} (h : x.inRange) {c : Nat} (hc : c ∈ settingCodes) :
    x.value c < if settingWidth c = 2 then 65536 else 256 := by
  obtain ⟨hf, hf', hr, hr', hs, hs', hp, hp', ha, ha', hb, hb', ht, hl, hl', hi, hi', hm⟩ := h
  have hrate : ∀ r : LaneRate, r.kbit < 65536 := fun r => by cases r <;> decide
  have hbool : ∀ b : Bool, b.toNat < 256 := fun b => by cases b <;> decide
  have hmode : ∀ m : PresenceMode, m.code < 256 := fun m => by cases m <;> decide
  have hmask : x.noticeMask.toNat < 65536 := x.noticeMask.isLt.trans (by decide)
  simp only [settingCodes, List.mem_cons, List.not_mem_nil, or_false] at hc
  rcases hc with rfl | rfl | rfl | rfl | rfl | rfl | rfl | rfl | rfl | rfl | rfl | rfl | rfl | rfl | rfl | rfl | rfl <;>
    simp [Settings.value, settingWidth, *] <;> omega

theorem Settings.bytesOf_read {x : Settings} (h : x.inRange) {c : Nat} (hc : c ∈ settingCodes) (rest : List Byte) :
    (if settingWidth c = 2 then num16At (x.bytesOf c ++ rest) 0 else numAt (x.bytesOf c ++ rest) 0) = x.value c ∧
      (x.bytesOf c ++ rest).drop (settingWidth c) = rest := by
  have hv := x.value_fits h hc
  have hw : settingWidth c = 2 ∨ settingWidth c = 1 := by
    unfold settingWidth
    split
    · exact .inl rfl
    · exact .inr rfl
  unfold Settings.bytesOf
  rcases hw with hw | hw <;> simp only [hw, if_true, reduceIte, OfNat.one_ne_ofNat] at hv ⊢
  · exact ⟨nat16_le16 _ hv, rfl⟩
  · exact ⟨Nat.mod_eq_of_lt hv, rfl⟩

/-- The settings of some codes read from their own bytes. -/
theorem readSettings_bytesOf {x : Settings} (h : x.inRange) {cs : List Nat} (hcs : ∀ c ∈ cs, c ∈ settingCodes)
    (rest : List Byte) (g : Settings) :
    readSettings cs (cs.flatMap x.bytesOf ++ rest) g = some (cs.foldl x.copying g) := by
  induction cs generalizing g with
  | nil => rfl
  | cons c cs ih =>
    obtain ⟨hc, hcs⟩ := List.forall_mem_cons.mp hcs
    obtain ⟨hv, hdrop⟩ := x.bytesOf_read h hc (cs.flatMap x.bytesOf ++ rest)
    rw [List.flatMap_cons, List.append_assoc, readSettings]
    rw [hv, hdrop, x.put_value h g hc]
    exact ih hcs _

/-- Every field of the settings has its code, so that copying all of them gives the settings. -/
theorem foldl_copying (x g : Settings) : settingCodes.foldl x.copying g = x := by
  cases x
  cases g
  rfl

theorem readSettings_bytes {x : Settings} (h : x.inRange) (rest : List Byte) (g : Settings) :
    readSettings settingCodes (x.bytes ++ rest) g = some x := by
  rw [Settings.bytes_eq, readSettings_bytesOf h (fun _ hc => hc), foldl_copying]

theorem Settings.bytes_length (x : Settings) : x.bytes.length = 23 := rfl

/-! ### The entries (Figure 11-4) -/

theorem laneOfCode_laneCode (l : Lane) : laneOfCode (laneCode l) = some l := by cases l <;> rfl

theorem Kind.ofCode_code (k : Kind) : Kind.ofCode k.code = some k := by cases k <;> rfl

theorem sideOfByte_sideByte (x : Option Side) : sideOfByte (sideByte x) = some x := by
  rcases x with _ | _ | _ <;> rfl

theorem sideByte_absent_iff (x : Option Side) : sideByte x = absentByte ↔ x.isSome = false := by
  rcases x with _ | _ | _ <;> decide

theorem byte_toNat {n : Nat} (h : n < 256) : (byte n).toNat = n := Nat.mod_eq_of_lt h

theorem Entry.bytes_length (e : Entry) : e.bytes.length = 11 := rfl

/-- An entry's kind byte and side byte agree, whatever bytes follow the entry (R47). -/
theorem sideAgrees_bytes {e : Entry} (h : e.kind = .entrance ↔ e.side.isSome = true) (rest : List Byte) :
    sideAgrees (e.bytes ++ rest) = true := by
  have hk : Kind.ofCode (numAt (e.bytes ++ rest) 4) = some e.kind := by
    rw [show numAt (e.bytes ++ rest) 4 = (byte e.kind.code).toNat from rfl,
      byte_toNat (by cases e.kind <;> decide), Kind.ofCode_code]
  have hs : byteAt (e.bytes ++ rest) 5 = sideByte e.side := rfl
  unfold sideAgrees
  rw [hk, hs]
  cases hkind : e.kind with
  | entrance => simp [sideByte_absent_iff, h.mp hkind]
  | _ => simpa [sideByte_absent_iff, hkind] using h

theorem readEntry_bytes {e : Entry} (h : e.inRange) (hc : e.capacity * e.ratio ≤ 65535) : readEntry e.bytes = some e := by
  obtain ⟨hn, hn', ha, ha', hd, hd', hs, hs', hr, hw, hq, hq'⟩ := h
  have hlane : laneOfCode (numAt e.bytes 2) = some e.lane := by
    rw [show numAt e.bytes 2 = (byte (laneCode e.lane)).toNat from rfl, byte_toNat (by cases e.lane <;> decide),
      laneOfCode_laneCode]
  have hkind : Kind.ofCode (numAt e.bytes 4) = some e.kind := by
    rw [show numAt e.bytes 4 = (byte e.kind.code).toNat from rfl, byte_toNat (by cases e.kind <;> decide),
      Kind.ofCode_code]
  have hside : sideOfByte (byteAt e.bytes 5) = some e.side := sideOfByte_sideByte e.side
  have hnumber : numAt e.bytes 0 = e.number := byte_toNat (by omega)
  have halias : numAt e.bytes 1 = e.aliasNo := byte_toNat (by omega)
  have haddress : numAt e.bytes 3 = e.address := byte_toNat (by omega)
  have hslot : numAt e.bytes 6 = e.slot := byte_toNat (by omega)
  have hclass : numAt e.bytes 7 = e.restoreClass := byte_toNat (by omega)
  have hcapacity : num16At e.bytes 8 = e.capacity := nat16_le16 _ (by omega)
  have hratio : numAt e.bytes 10 = e.ratio := byte_toNat (by omega)
  unfold readEntry
  simp only [hlane, hkind, hside, hnumber, halias, haddress, hslot, hclass, hcapacity, hratio]
  exact if_pos (by simp [*])

theorem readEntries_bytes {es : List Entry}
    (h : ∀ e ∈ es, e.inRange ∧ e.capacity * e.ratio ≤ 65535 ∧ (e.kind = .entrance ↔ e.side.isSome = true))
    (rest : List Byte) : readEntries es.length (es.flatMap Entry.bytes ++ rest) = some es := by
  induction es with
  | nil => rfl
  | cons e es ih =>
    obtain ⟨⟨hr, hc, hs⟩, hes⟩ := List.forall_mem_cons.mp h
    have htake : (e.bytes ++ (es.flatMap Entry.bytes ++ rest)).take 11 = e.bytes := List.take_left' e.bytes_length
    have hdrop : (e.bytes ++ (es.flatMap Entry.bytes ++ rest)).drop 11 = es.flatMap Entry.bytes ++ rest :=
      List.drop_left' e.bytes_length
    rw [List.flatMap_cons, List.append_assoc, List.length_cons, readEntries, sideAgrees_bytes hs, htake, hdrop,
      readEntry_bytes hr hc, ih hes]
    rfl

theorem entries_length (es : List Entry) : (es.flatMap Entry.bytes).length = 11 * es.length := by
  rw [List.length_flatMap, List.map_congr_left fun e _ => e.bytes_length]
  simp [Nat.mul_comm]

/-! ### The record (R172, R178) -/

/-- The header of a config record of so many entries. -/
def configHeader (n : Nat) : List Byte := configMarker ++ le16 1 ++ le16 (36 + 11 * n) ++ [byte n]

theorem configBody_eq (x : Settings) (es : List Entry) :
    configBody x es = configHeader es.length ++ (x.bytes ++ es.flatMap Entry.bytes) := by
  rw [configBody, ← List.append_assoc]
  rfl

theorem configBody_length (x : Settings) (es : List Entry) : (configBody x es).length = 32 + 11 * es.length := by
  rw [configBody_eq, List.length_append, List.length_append, entries_length, x.bytes_length,
    show (configHeader es.length).length = 9 from rfl]
  omega

theorem configRecord_length (x : Settings) (es : List Entry) : (configRecord x es).length = 36 + 11 * es.length := by
  rw [configRecord, List.length_append, configBody_length, show (le32 (crc32 (configBody x es))).length = 4 from rfl]
  omega

theorem configLength_header {n : Nat} (h : n ≤ 24) (rest : List Byte) :
    configLength (configHeader n ++ rest) = some (36 + 11 * n) ∧ numAt (configHeader n ++ rest) 8 = n := by
  have hmarker : (configHeader n ++ rest).take 4 = configMarker := rfl
  have hversion : num16At (configHeader n ++ rest) 4 = 1 := rfl
  have hlen : num16At (configHeader n ++ rest) 6 = 36 + 11 * n := nat16_le16 _ (by omega)
  have hcount : numAt (configHeader n ++ rest) 8 = n := byte_toNat (by omega)
  refine ⟨?_, hcount⟩
  unfold configLength
  simp [hmarker, hversion, hlen, hcount, h]

/-- A config record is read back, whatever bytes follow it. -/
theorem readConfig_record {x : Settings} {es : List Entry} (hx : x.inRange) (hlen : es.length ≤ 24)
    (hagree : entriesAgree es = true)
    (hes : ∀ e ∈ es, e.inRange ∧ e.capacity * e.ratio ≤ 65535 ∧ (e.kind = .entrance ↔ e.side.isSome = true))
    (rest : List Byte) : readConfig (configRecord x es ++ rest) = some (x, es) := by
  have hbody : configRecord x es ++ rest = configBody x es ++ (le32 (crc32 (configBody x es)) ++ rest) :=
    List.append_assoc ..
  have hparts : configRecord x es ++ rest =
      configHeader es.length ++ (x.bytes ++ (es.flatMap Entry.bytes ++ (le32 (crc32 (configBody x es)) ++ rest))) := by
    rw [hbody, configBody_eq]
    simp only [List.append_assoc]
  have hblen := configBody_length x es
  have hsub : 36 + 11 * es.length - 4 = (configBody x es).length := by omega
  have hcrc : wordAt (configRecord x es ++ rest) (36 + 11 * es.length - 4) = crc32 (configBody x es) := by
    rw [hsub, hbody, wordAt_le32]
  have htake : (configRecord x es ++ rest).take (36 + 11 * es.length - 4) = configBody x es := by
    rw [hsub, hbody, List.take_left' rfl]
  have hdrop9 : (configRecord x es ++ rest).drop 9 =
      x.bytes ++ (es.flatMap Entry.bytes ++ (le32 (crc32 (configBody x es)) ++ rest)) := by
    rw [hparts]
    exact List.drop_left' (l₁ := configHeader es.length) rfl
  have hdrop32 : (configRecord x es ++ rest).drop 32 =
      es.flatMap Entry.bytes ++ (le32 (crc32 (configBody x es)) ++ rest) := by
    rw [show 32 = 9 + 23 from rfl, ← List.drop_drop, hdrop9, List.drop_left' x.bytes_length]
  obtain ⟨hl, hn⟩ := configLength_header hlen
    (x.bytes ++ (es.flatMap Entry.bytes ++ (le32 (crc32 (configBody x es)) ++ rest)))
  rw [← hparts] at hl hn
  unfold readConfig
  simp only [hl, hcrc, htake, if_true, hdrop9, hdrop32, hn, readSettings_bytes hx, readEntries_bytes hes, hagree]

/-! ### The blocks that hold it (R151, log 32) -/

theorem toBlock_short {b : List Byte} (h : b.length ≤ 256) : ∃ rest, toBlock b = b ++ rest := by
  rw [toBlock, List.take_append, List.take_of_length_le h]
  exact ⟨_, rfl⟩

theorem toBlock_long {b : List Byte} (h : 256 ≤ b.length) : toBlock b = b.take 256 := List.take_append_of_le_length h

theorem recordBlock_one {r : List Byte} (h0 : 0 < r.length) (h : r.length ≤ 256) :
    recordBlocks r = 1 ∧ ∃ rest, recordBlock r 0 = r ++ rest := by
  refine ⟨?_, toBlock_short h⟩
  unfold recordBlocks
  omega

theorem recordBlock_two {r : List Byte} (h : 256 < r.length) (h2 : r.length ≤ 512) :
    recordBlocks r = 2 ∧ ∃ rest, recordBlock r 0 ++ recordBlock r 1 = r ++ rest := by
  obtain ⟨rest, hrest⟩ := toBlock_short (b := r.drop 256) (by rw [List.length_drop]; omega)
  refine ⟨by unfold recordBlocks; omega, rest, ?_⟩
  have h1 : recordBlock r 1 = r.drop 256 ++ rest := hrest
  have h0 : recordBlock r 0 = r.take 256 := toBlock_long h.le
  rw [h0, h1, ← List.append_assoc, List.take_append_drop]

/-- Settles O58. -/
theorem configReadsBack : Obligations.ConfigReadsBack := by
  intro x es hx hlen hagree hes record
  have hread := readConfig_record hx hlen hagree hes
  have hrecord : record.length = 36 + 11 * es.length := configRecord_length x es
  refine ⟨hread, fun h => ?_, fun h => ?_⟩
  · obtain ⟨hn, rest, hb⟩ := recordBlock_one (r := record) (by omega) h
    exact ⟨hn, by rw [hb]; exact hread rest⟩
  · obtain ⟨hn, rest, hb⟩ := recordBlock_two (r := record) h (by omega)
    exact ⟨hn, by rw [hb]; exact hread rest⟩

end Sys2Proof.Machine
end

section
/-! PROOFS. An attempt that ends in error: the step over, a further attempt, and the retries exhausted (spec/06, 6.3). -/

namespace Sys2Proof.Machine

/-! ### Where presence has been told (R51) -/

theorem presenceReply_entry (n m : Nat) (s : State) :
    ((presenceReply n s).station? m).map (·.entry) = (s.station? m).map (·.entry) := by
  cases hn : s.station? n with
  | none => rw [presenceReply_undefined hn]
  | some st =>
    rw [presenceReply_station? hn]
    split
    · rename_i hm
      rw [hm, hn]
      rfl
    · rfl

/-- A command that ends an attempt has told the presence of stations, and changed nothing else but what its expiry takes off
the deadline list. -/
theorem State.attemptEnds.told {s told : State} {l : Lane} {t : Txn} {c : Instr} {e : Ending}
    (h : s.attemptEnds l t c e told) :
    (∃ tb sts link pins, told = { s with timebase := tb, stations := sts, link := link, pins := pins }) ∧
      told.timebase.count = s.timebase.count ∧ ∀ m, (told.station? m).map (·.entry) = (s.station? m).map (·.entry) := by
  obtain ⟨-, -, -, ⟨left, _, hd, -, -, rfl⟩ | ⟨_, -, -, rfl⟩⟩ := h
  · exact ⟨⟨_, _, _, _, rfl⟩, hd.count, fun _ => rfl⟩
  · split
    · exact ⟨⟨_, _, _, _, rfl⟩, rfl, fun _ => rfl⟩
    · have he := presenceReply_notified (s := s) (x := s) ⟨rfl, rfl, rfl, rfl⟩ rfl (t.station.getD 0)
      refine ⟨⟨s.timebase, _, _, _, he⟩, ?_, fun m => presenceReply_entry _ m s⟩
      rw [he]

theorem State.attemptEnds.told_lane {s told : State} {l : Lane} {t : Txn} {c : Instr} {e : Ending}
    (h : s.attemptEnds l t c e told) (m : Lane) : told.lane m = s.lane m := by
  obtain ⟨⟨_, _, _, _, rfl⟩, -⟩ := h.told
  cases m <;> rfl

/-! ### The step over (R77, R101, R103) -/

theorem Txn.ended_station (t : Txn) (j : Job) : (t.ended j).station = j.station := by
  unfold Txn.ended
  split <;> rfl

theorem Txn.ended_of_owner {t : Txn} {n id : Nat} {j : Job} (h : t.owner = .job n id) (hj : j.station = n) :
    t.ended j = if j.id = id then { j with inFlight := false } else j := by
  unfold Txn.ended
  rw [h, hj]
  refine if_congr ?_ rfl rfl
  rw [Owner.job.injEq, and_iff_right rfl]
  exact eq_comm

theorem Txn.ended_of_ne {t : Txn} {j : Job} (h : ∀ id, t.owner ≠ .job j.station id) : t.ended j = j := if_neg (h _)

theorem State.job?_station {s : State} {n : Nat} {j : Job} (h : s.job? n = some j) : j.station = n := by
  simpa using List.find?_some h

theorem State.job?_map_congr {s : State} {n : Nat} {f g : Job → Job} (h : ∀ j, j.station = n → f j = g j) :
    (s.job? n).map f = (s.job? n).map g := by
  cases hj : s.job? n with
  | none => rfl
  | some j => exact congrArg some (h j (State.job?_station hj))

/-- The end of a step is that of no other station's job. -/
theorem State.job?_map_ended {t : Txn} {m : Nat} (h : ∀ id, t.owner ≠ .job m id) (s : State) :
    (s.job? m).map t.ended = s.job? m := by
  rw [State.job?_map_congr (g := fun j => j) fun j hj => Txn.ended_of_ne (hj ▸ h)]
  exact Option.map_id' ..

theorem endStep_job? (l : Lane) (t : Txn) (s : State) (m : Nat) : (endStep l t s).job? m = (s.job? m).map t.ended := by
  have hfree : (s.updLane l LaneState.freed).job? = s.job? := by cases l <;> rfl
  unfold endStep
  dsimp only
  split
  · rename_i n id ho
    rw [updJob_job? _ _ _ fun j => by split <;> rfl, hfree]
    split
    · rename_i hm
      rw [hm]
      exact State.job?_map_congr fun j hj => (Txn.ended_of_owner ho hj).symm
    · rename_i hm
      refine (State.job?_map_ended (fun i hi => hm ?_) s).symm
      rw [ho, Owner.job.injEq] at hi
      exact hi.1.symm
  · rename_i ho
    rw [hfree]
    exact (State.job?_map_ended (fun i => ho m i) s).symm

/-- The end of a step changes its lane and the jobs of the queue. -/
theorem endStep_eq (l : Lane) (t : Txn) (s : State) :
    ∃ q : List Job, q.map (·.station) = s.engine.queue.map (·.station) ∧
      endStep l t s = State.setLane { s with engine := { s.engine with queue := q } } l (s.lane l).freed := by
  unfold endStep
  dsimp only
  split
  · rename_i n id _
    have hq := updJobs_stations (fun j : Job => if j.id = id then { j with inFlight := false } else j)
      (fun j => by split <;> rfl) [n] s
    exact ⟨_, hq, by cases l <;> rfl⟩
  · exact ⟨s.engine.queue, rfl, by cases l <;> rfl⟩

theorem endStep_stepOver (l : Lane) (t : Txn) (told : State) :
    told.stepOver l t (endStep l t (removeDeadline (.responseWindow l) told)) := by
  have hjob := endStep_job? l t (removeDeadline (.responseWindow l) told)
  obtain ⟨q, hq, he⟩ := endStep_eq l t (removeDeadline (.responseWindow l) told)
  have hlane : ∀ k, (removeDeadline (.responseWindow l) told).lane k = told.lane k := fun k => by cases k <;> rfl
  rw [he] at hjob ⊢
  refine ⟨?_, hjob, ?_, ⟨?_, ?_, ?_, ?_, fun k hk => ?_⟩, ?_, ?_⟩
  · have hq' : q.map (·.station) = told.engine.queue.map (·.station) := hq
    cases l <;>
      exact ⟨rfl, rfl, rfl, rfl, rfl, rfl, rfl, rfl, rfl, rfl, rfl, rfl, rfl, rfl, rfl, hq', rfl, rfl, rfl, rfl, rfl,
        rfl, rfl, rfl⟩
  · rw [State.lane_setLane, hlane]
    rfl
  · rw [State.lane_setLane]
    rfl
  · rw [State.lane_setLane]
    rfl
  · rw [State.lane_setLane, hlane]
    rfl
  · rw [State.lane_setLane, hlane]
    rfl
  · rw [State.lane_setLane_ne _ _ _ _ hk]
    exact hlane k
  · cases l <;> rfl
  · cases l <;> rfl

/-! ### The cases of an error ending (R86, R101, R128) -/

/-- On a strict lane, a CRC or ECHO error of a step of the load protocol (R86, R128). -/
def State.strictEnding (s : State) (l : Lane) (t : Txn) (e : Ending) : Prop :=
  s.settings.strict l = true ∧ (e = .crc ∨ e = .echo) ∧
    (t.step = .opn ∨ t.step = .block ∨ t.step = .fill ∨ t.step = .close)

theorem StepKind.loading_iff (k : StepKind) : k.loading = true ↔ k = .opn ∨ k = .block ∨ k = .fill ∨ k = .close := by
  cases k <;> simp [StepKind.loading]

theorem State.strictEnding_iff (s : State) (l : Lane) (t : Txn) (e : Ending) :
    (s.settings.strict l && (decide (e = .crc) || decide (e = .echo)) && t.step.loading) = true ↔ s.strictEnding l t e := by
  simp [State.strictEnding, StepKind.loading_iff, and_assoc]

/-- The response window of a step that ends, removed before its outcome. -/
theorem errorEnding_gone {t : Txn} {s : State} (h : ownerGone t s = true) (l : Lane) (e : Ending) :
    errorEnding l t e s = endStep l t (removeDeadline (.responseWindow l) s) := by
  have hg : ownerGone t (removeDeadline (.responseWindow l) s) = true := h
  simp only [errorEnding, hg, if_true]

theorem errorEnding_owned {t : Txn} {s : State} (h : ownerGone t s = false) (l : Lane) (e : Ending) :
    (s.strictEnding l t e →
        errorEnding l t e s = strictError l (endStep l t (removeDeadline (.responseWindow l) s))) ∧
      (¬s.strictEnding l t e → t.attempt ≤ t.limit →
        errorEnding l t e s =
          beginAttempt l { t with attempt := t.attempt + 1, endings := t.endings ++ [e] }
            (countRetry t (removeDeadline (.responseWindow l) s))) ∧
      (¬s.strictEnding l t e → t.limit < t.attempt →
        errorEnding l t e s =
          exhausted t (t.endings ++ [e]) (endStep l t (removeDeadline (.responseWindow l) s))) := by
  have hg : ownerGone t (removeDeadline (.responseWindow l) s) = false := h
  have hs := s.strictEnding_iff l t e
  simp only [errorEnding, hg, Bool.false_eq_true, if_false]
  exact ⟨fun h => if_pos (hs.mpr h), fun h ha => (if_neg (mt hs.mp h)).trans (if_pos ha),
    fun h ha => (if_neg (mt hs.mp h)).trans (if_neg ha.not_ge)⟩

/-! ### The retries exhausted (R85) -/

theorem exhaustionReason_eq (endings : List Ending) :
    exhaustionReason endings =
      if ∃ x ∈ endings, x = .crc ∨ x = .echo ∨ x = .sequenceFault then .link
      else if ∀ x ∈ endings, x = .noReply then .noReply
      else .refused := by
  simp [exhaustionReason, or_assoc]

/-- The step of a job that is in the queue has ended. -/
theorem State.stepOver.jobSteps {told u : State} {l : Lane} {t : Txn} {j : Job} {st : Station}
    (h : told.stepOver l t u) (ho : t.owner = .job j.station j.id) (hj : told.job? j.station = some j)
    (hst : told.station? j.station = some st) (hl : st.entry.lane = l) : told.jobSteps l j u := by
  obtain ⟨hout, hjob, -, hfreed, htime, hstore⟩ := h
  refine ⟨⟨hout, ?_, fun m hm => ?_, hfreed, htime⟩, ?_, st, hst, hl⟩
  · rw [hjob, hj, Option.map_some, Txn.ended_of_owner ho rfl, if_pos rfl]
  · rw [hjob]
    refine State.job?_map_ended (fun i hi => hm ?_) told
    rw [ho, Owner.job.injEq] at hi
    exact hi.1.symm
  · rw [State.recordsStay, hstore]
    exact ⟨rfl, rfl⟩

/-! ### A further attempt (R101, R125) -/

theorem countRetry_queue (t : Txn) (s : State) :
    (countRetry t s).engine.queue.map (·.station) = s.engine.queue.map (·.station) := by
  unfold countRetry
  split
  · rename_i n _ _
    exact updJobs_stations (fun j => { j with retriesUsed := j.retriesUsed + 1 }) (fun _ => rfl) [n] s
  · rfl

theorem countRetry_eq (t : Txn) (s : State) :
    countRetry t s = { s with engine := { s.engine with queue := (countRetry t s).engine.queue } } := by
  unfold countRetry
  split <;> rfl

theorem countBlocks_queue (l : Lane) (t : Txn) (s : State) :
    (countBlocks l t s).engine.queue.map (·.station) = s.engine.queue.map (·.station) := by
  unfold countBlocks
  split
  · rfl
  · split
    · rename_i n _ _
      exact updJobs_stations Job.countBlock (fun _ => rfl) [n] s
    · exact updJobs_stations _ (fun j => by split <;> rfl) _ s
    · rfl

/-- Where an attempt of a job's step is repeated, the job counts a retry, and a BLOCK frame its block. -/
def Job.retried (j : Job) (step : StepKind) : Job :=
  { j with
    retriesUsed := j.retriesUsed + 1, blocksSent := if step = .block then min 65535 (j.blocksSent + 1) else j.blocksSent }

theorem countBlocks_job? {t : Txn} {n id : Nat} (h : t.owner = .job n id) (l : Lane) (s : State) (m : Nat) :
    (countBlocks l t s).job? m =
      if m = n then (s.job? m).map fun j => if t.step = .block then j.countBlock else j else s.job? m := by
  unfold countBlocks
  rw [h]
  by_cases hb : t.step = .block
  · simp only [hb, ne_eq, not_true, if_false, if_true]
    rw [updJob_job? (f := Job.countBlock) _ _ _ fun _ => rfl]
    split
    · rename_i hm
      rw [hm]
    · rfl
  · simp only [hb, ne_eq, not_false_iff, if_true, if_false, Option.map_id', ite_self]

theorem retried_job? {t : Txn} {n id : Nat} (h : t.owner = .job n id) (l : Lane) (s : State) (t' : Txn)
    (ho : t'.owner = t.owner) (hs : t'.step = t.step) (m : Nat) :
    (countBlocks l t' (countRetry t s)).job? m =
      if m = n then (s.job? m).map (·.retried t.step) else s.job? m := by
  have hretry : (countRetry t s).job? m = if m = n then (s.job? m).map (fun j => { j with retriesUsed := j.retriesUsed + 1 })
      else s.job? m := by
    simp only [countRetry, h]
    rw [updJob_job? (f := fun j => { j with retriesUsed := j.retriesUsed + 1 }) _ _ _ fun _ => rfl]
    split
    · rename_i hm
      rw [hm]
    · rfl
  rw [countBlocks_job? (ho.trans h), hretry, hs]
  split
  · rw [Option.map_map]
    refine congrArg (Option.map · _) (funext fun j => ?_)
    unfold Job.retried
    simp only [Function.comp]
    split <;> rfl
  · rfl

/-- The state that a further attempt begins. -/
theorem errorEnding_retried (l : Lane) {t : Txn} (hst : t.station.isSome = true) (e : Ending) (told : State) :
    let t' : Txn := { t with attempt := t.attempt + 1, endings := t.endings ++ [e] }
    let u := beginAttempt l t' (countRetry t (removeDeadline (.responseWindow l) told))
    (∃ x : Txn, (u.lane l).txn = some x ∧ x.step = t.step ∧ x.owner = t.owner ∧
        x.station = t.station ∧ x.limit = t.limit ∧ x.index = t.index ∧ x.buffer = t.buffer ∧
        x.attempt = t.attempt + 1 ∧ x.endings = t.endings ++ [e] ∧ x.sequence = (told.lane l).seq ∧
        (u.lane l).seq = ((told.lane l).seq + 1) % 16 ∧ x.stale = false ∧ (u.lane l).holder = (told.lane l).holder ∧
        (u.lane l).driver = if x.frame.isSome then .inUse else .released) ∧
      (∀ k, k ≠ l → u.lane k = told.lane k) ∧
      u.timebase =
        (told.timebase.remove (.responseWindow l)).set (.responseWindow l)
          (told.timebase.count + ms (told.settings.responseWindow l)) ∧
      told.alikeOutsideLanes u ∧ u.store.slots = told.store.slots ∧
      ∀ n id, t.owner = .job n id → ∀ m, u.job? m = if m = n then (told.job? m).map (·.retried t.step) else told.job? m := by
  intro t' u
  have hjobs := fun n id (ho : t.owner = .job n id) m =>
    retried_job? ho l (removeDeadline (.responseWindow l) told) t' rfl rfl m
  have hlane : ∀ m, (countRetry t (removeDeadline (.responseWindow l) told)).lane m = told.lane m := fun m => by
    rw [countRetry_eq]
    cases m <;> rfl
  have hy := countRetry_eq t (removeDeadline (.responseWindow l) told)
  have hq := countRetry_queue t (removeDeadline (.responseWindow l) told)
  generalize hret : countRetry t (removeDeadline (.responseWindow l) told) = y at *
  have hself : u.lane l = y.laneBegun l t' := by rw [← hret]; exact beginAttempt_lane_self l t' _
  obtain ⟨bs, k, hu⟩ := beginAttempt_eq l (t := t') hst y
  replace hu : u = _ := (congrArg (beginAttempt l t') hret).trans hu
  rw [countBlocks_engine] at hu
  replace hq := (countBlocks_queue l t' y).trans hq
  replace hjobs : ∀ n id, t.owner = .job n id → ∀ m, u.job? m = if m = n then (told.job? m).map (·.retried t.step)
      else told.job? m := fun n id ho m => by
    refine Eq.trans ?_ (hjobs n id ho m)
    rw [hu]
    cases l <;> rfl
  generalize (countBlocks l t' y).engine.queue = q at *
  refine ⟨⟨t'.begun l y, ?_, rfl, rfl, rfl, rfl, rfl, rfl, rfl, rfl, ?_, ?_, rfl, ?_, ?_⟩, fun m hm => ?_, ?_, ?_, ?_,
    hjobs⟩
  · rw [hself]
    rfl
  · rw [← hlane]
    rfl
  · rw [hself, ← hlane]
    rfl
  · rw [hself, ← hlane]
    rfl
  · rw [hself]
    rfl
  · rw [hu, State.lane_setLane_ne _ _ _ _ hm, ← hlane]
    cases m <;> rfl
  · rw [hu, State.setLane_timebase, hy]
    rfl
  · rw [hu, hy]
    cases l <;>
      exact ⟨rfl, rfl, rfl, rfl, rfl, rfl, rfl, rfl, rfl, rfl, rfl, rfl, rfl, rfl, rfl, hq, rfl, rfl, rfl, rfl, rfl,
        rfl, rfl, rfl⟩
  · rw [hu, hy]
    cases l <;> rfl

end Sys2Proof.Machine
end

section
/-! PROOFS. The buffers of a lane whose load holder has ended (spec/07, 7.4; R121, R134, R136). -/

namespace Sys2Proof.Machine

/-! ### A lane that holds no buffer -/

/-- A lane has no load holder, and of the buffers it owns, it has given back each. -/
def State.holdsNone (s : State) (l : Lane) : Prop :=
  (s.lane l).holder = none ∧
    ∀ i ∈ bufferIndices, (s.buffer i).owner = some (.lane l) → (s.buffer i).released = true

theorem missingBlocks_none {s : State} {l : Lane} (h : (s.lane l).holder = none) : missingBlocks l s = [] := by
  simp [missingBlocks, neededBlocks, holderNext, h]

namespace State.holdsNone

variable {s t : State} {l : Lane}

theorem of_same (h : s.holdsNone l) (hl : t.lane l = s.lane l) (hb : t.store.buffers = s.store.buffers) :
    t.holdsNone l := by
  have hbuf : ∀ i, t.buffer i = s.buffer i := fun i => by rw [State.buffer, hb, State.buffer]
  obtain ⟨hh, ho⟩ := h
  exact ⟨by rw [hl, hh], fun i hi => by rw [hbuf]; exact ho i hi⟩

theorem setBuffer (h : s.holdsNone l) (i : Nat) {b : Buffer} (hb : b.owner = some (.lane l) → b.released = true) :
    (s.setBuffer i b).holdsNone l := by
  obtain ⟨hh, ho⟩ := h
  refine ⟨(congrArg (·.holder) ((State.poolBecomes.setBuffer s i b).lane l)).trans hh, fun j hj => ?_⟩
  rw [State.buffer_setBuffer]
  split
  · exact hb
  · exact ho j hj

theorem foldl {α : Type} {f : State → α → State} (h : s.holdsNone l)
    (hf : ∀ (x : State) (a : α), x.holdsNone l → (f x a).holdsNone l) (as : List α) : (as.foldl f s).holdsNone l :=
  List.foldlRecOn as f (motive := fun x => x.holdsNone l) h fun x hx a _ => hf x a hx

theorem giveBuffer (h : s.holdsNone l) (i : Nat) (who : BufferOwner) : (Machine.giveBuffer i who s).holdsNone l := by
  cases who with
  | lane m =>
    unfold Machine.giveBuffer
    dsimp only
    split
    · exact h
    · rename_i hmiss
      have hm : m ≠ l := fun hm => by
        rw [hm, missingBlocks_none h.1] at hmiss
        cases hmiss
      split
      · exact h
      · exact (h.setBuffer i fun ho => absurd (by simpa using ho) hm).of_same (by cases l <;> rfl) rfl
  | imageWrite =>
    unfold Machine.giveBuffer
    dsimp only
    split
    · exact h
    · exact h.setBuffer i fun ho => by cases ho
  | parkWriter =>
    have hpark : ({ s with park := { s.park with phase := .page1 } } : State).holdsNone l :=
      h.of_same (by cases l <;> rfl) rfl
    exact (hpark.setBuffer i fun ho => by cases ho).of_same (by cases l <;> rfl) rfl

theorem grantSome (k : Nat) (h : s.holdsNone l) : (Machine.grantSome k s).holdsNone l := by
  induction k generalizing s with
  | zero => exact h
  | succ k ih =>
    unfold Machine.grantSome
    split
    · exact ih ((h.of_same (t := { s with store := { s.store with waitList := takeTurn s.store.waitList } })
        (by cases l <;> rfl) rfl).giveBuffer _ _)
    · exact h

theorem giveBack (h : s.holdsNone l) (i : Nat) (pending : Bool) : (Machine.giveBack i pending s).holdsNone l := by
  unfold Machine.giveBack
  split
  · exact h.setBuffer i fun _ => rfl
  · exact h.setBuffer i fun ho => by cases ho

theorem releaseUnneeded (h : s.holdsNone l) (m : Lane) : (Machine.releaseUnneeded m s).holdsNone l := by
  unfold Machine.releaseUnneeded
  refine h.foldl (fun x i hx => ?_) _
  dsimp only
  split
  · exact hx
  · exact hx.giveBack i _

/-- What follows the release of the unneeded buffers in a plan. -/
theorem planned {x : State} (h : x.holdsNone l) (m : Lane) :
    (if wantedBuffers m (grantBuffers x) = 0 then withdrawRequest (.lane m) (grantBuffers x)
      else grantBuffers (requestBuffers (.lane m) (wantedBuffers m (grantBuffers x)) (grantBuffers x))).holdsNone l := by
  have hg : (grantBuffers x).holdsNone l := h.grantSome 6
  split
  · exact hg.of_same (by cases l <;> rfl) rfl
  · refine (hg.of_same (t := requestBuffers (.lane m) _ (grantBuffers x)) ?_ rfl).grantSome 6
    exact (State.poolBecomes.requestBuffers _ _ _).lane l

theorem planBuffers (h : s.holdsNone l) (m : Lane) : (Machine.planBuffers m s).holdsNone l :=
  (h.releaseUnneeded m).planned m

theorem updLane (h : s.holdsNone l) {m : Lane} (hm : l ≠ m) (f : LaneState → LaneState) : (s.updLane m f).holdsNone l :=
  h.of_same (State.lane_updLane_ne _ _ _ _ hm) (by cases m <;> rfl)

/-- Whatever leaves the holder of another lane. -/
theorem leaveHolder (h : s.holdsNone l) (m : Lane) (n : Nat) : (Machine.leaveHolder m n s).holdsNone l := by
  by_cases hm : l = m
  · have hnone : Machine.leaveHolder m n s = s := by
      unfold Machine.leaveHolder
      rw [← hm, h.1]
    rw [hnone]
    exact h
  · unfold Machine.leaveHolder
    split
    · exact h
    · split
      · exact (h.updLane hm _).planBuffers m
      · exact h
    · split
      · unfold settleGroup
        dsimp only
        split
        · exact (h.updLane hm _).planBuffers m
        · exact (h.updLane hm _).planBuffers m
        · exact h.updLane hm _
      · exact h

theorem leaveLoad (h : s.holdsNone l) (n : Nat) : (Machine.leaveLoad n s).holdsNone l := by
  unfold Machine.leaveLoad
  split
  · exact h
  · exact h.leaveHolder _ n

theorem failJob (h : s.holdsNone l) (n : Nat) (r : Reason) : (Machine.failJob n r s).holdsNone l := by
  cases hj : s.job? n with
  | none =>
    have hs : Machine.failJob n r s = s := by simp only [Machine.failJob, hj]
    rw [hs]
    exact h
  | some j =>
    have hpost : ∀ {b : NoticeBody} {x : State}, x.holdsNone l → (postNotice b x).holdsNone l := fun {b x} hx => by
      rw [postNotice_notified (n := x) ⟨rfl, rfl, rfl, rfl⟩]
      exact hx.of_same (by cases l <;> rfl) rfl
    have hpres : ∀ {x : State}, x.holdsNone l → (setPresence n .absent x).holdsNone l := fun {x} hx => by
      rw [setPresence_self_notified]
      exact hx.of_same (by cases l <;> rfl) rfl
    have hpass : ∀ {x : State}, x.holdsNone l → (passCompleteIfEmpty x).holdsNone l := fun {x} hx => by
      rw [passCompleteIfEmpty_eq (n := x) ⟨rfl, rfl, rfl, rfl⟩]
      exact hx.of_same (by cases l <;> rfl) rfl
    have hload : (Machine.leaveLoad n (removeDeadline (.restoreLimit n) s)).holdsNone l :=
      (h.of_same (t := removeDeadline (.restoreLimit n) s) (by cases l <;> rfl) rfl).leaveLoad n
    have hdep : (departJob n s).holdsNone l := hload.of_same (by cases l <;> rfl) rfl
    simp only [Machine.failJob, hj]
    exact hpass ((hpost (hpres hdep)).of_same (by cases l <;> rfl) rfl)

end State.holdsNone

/-- A lane without a load holder gives back what it held as it plans its buffers (R136). -/
theorem planBuffers_holdsNone {s : State} {l : Lane} (h : (s.lane l).holder = none) : (planBuffers l s).holdsNone l := by
  refine State.holdsNone.planned ⟨?_, fun i hi => ?_⟩ l
  · rw [(State.poolBecomes.releaseUnneeded l s).lane, h]
  · rw [releaseUnneeded_idle h, buffer_givenBack _ _ (s.heldBy_nodup l)]
    split
    · unfold Buffer.givenBack
      split
      · exact fun _ => rfl
      · exact nofun
    · rename_i hne
      intro ho
      by_contra hr
      exact hne ⟨(s.heldBy_iff l i).mpr ⟨hi, ho, Bool.eq_false_iff.mpr hr⟩, State.buffer_owned (by rw [ho]; exact nofun)⟩

theorem State.holdsNone.released {s : State} {l : Lane} (h : s.holdsNone l) :
    ∀ i ∈ s.ownedBy (.lane l), (s.buffer i).released = true := fun i hi => by
  obtain ⟨hb, ho⟩ := List.mem_filter.mp hi
  exact h.2 i hb (of_decide_eq_true ho)

end Sys2Proof.Machine
end

section
/-! PROOFS. A strict error: the holder ends, and its jobs are restarted or fail (spec/05, 5.4; spec/07, 7.3; R86, R128). -/

namespace Sys2Proof.Machine

/-! ### What the lanes do not reach -/

theorem State.alikeOutsideLanes.refl (s : State) : s.alikeOutsideLanes s :=
  ⟨rfl, rfl, rfl, rfl, rfl, rfl, rfl, rfl, rfl, rfl, rfl, rfl, rfl, rfl, rfl, rfl, rfl, rfl, rfl, rfl, rfl, rfl, rfl, rfl⟩

theorem State.alikeOutsideLanes.trans {s t u : State} (h : s.alikeOutsideLanes t) (h' : t.alikeOutsideLanes u) :
    s.alikeOutsideLanes u := by
  unfold State.alikeOutsideLanes at *
  simp only [h, h', and_self]

/-- Departures are seen in what the lanes do not reach, and in the restore limits. -/
theorem State.departed.alike {told notes y u : State} {gone : List Nat} (h : told.departed gone notes y)
    (ha : y.alikeOutsideLanes u)
    (ht : ∀ n, u.timebase.dueOf (.restoreLimit n) = y.timebase.dueOf (.restoreLimit n)) : told.departed gone notes u := by
  obtain ⟨hleft, hst, hlink, hpins, hnotes⟩ := h
  obtain ⟨hgone, hq, hphase, hpass, hnext, hstart, hstation, hcount, hdue, hcar, hpushA, hpushB, hsupply, hset, hest, hquery,
    hload, hwrite, hsave, hflash⟩ := hleft
  obtain ⟨upins, usupply, ucount, uest, ust, ucar, upushA, upushB, uset, uphase, upass, unext, urestored, ufailed, ustart, uq,
    uquery, uwrite, usave, -, uload, ulink, uflash, -⟩ := ha
  refine ⟨⟨fun n hn => ?_, uq.trans hq, uphase.trans hphase, upass.trans hpass, unext.trans hnext, ustart.trans hstart,
    fun m hm => ?_, ?_, fun n hn => ?_, ucar.trans hcar, upushA.trans hpushA, upushB.trans hpushB, usupply.trans hsupply,
    uset.trans hset, uest.trans hest, uquery.trans hquery, uload.trans hload, uwrite.trans hwrite, usave.trans hsave,
    uflash.trans hflash⟩, ust.trans hst, ?_, ?_, hnotes⟩
  · rw [State.hasJob_false_iff, uq, ← State.hasJob_false_iff]
    exact hgone n hn
  · rw [← hstation m hm, State.station?, ust, State.station?]
  · rw [ucount, hcount]
  · rw [ht]
    exact hdue n hn
  · rw [urestored, ufailed]
    exact ulink.trans hlink
  · rw [urestored, ufailed]
    exact upins.trans hpins

/-- A job that leaves its load changes the lanes and the buffer pool only (R121). -/
theorem leaveLoad_alike (n : Nat) (s : State) :
    s.alikeOutsideLanes (leaveLoad n s) ∧ (leaveLoad n s).timebase = s.timebase ∧
      (leaveLoad n s).job? = s.job? ∧ s.departStays (leaveLoad n s) := by
  have hstays : s.departStays (leaveLoad n s) := by
    unfold leaveLoad
    split
    · exact .refl s
    · exact .leaveHolder _ n s
  obtain ⟨k, x, -, -, ⟨_, _, _, _, he⟩, -⟩ := leaveLoad_works n s
  refine ⟨?_, ?_, ?_, hstays⟩
  · rw [he]
    cases k <;> exact .refl _
  · rw [he]
    cases k <;> rfl
  · rw [he]
    cases k <;> rfl

/-! ### A job restarted or failed (R84, R86) -/

/-- A job returned to LOADWAIT for a new OPEN with one step restart, unless it would be its fifth. -/
def Job.restarted? (j : Job) : Option Job :=
  if 4 ≤ j.restarts then none else some { j.reopened with restarts := j.restarts + 1 }

/-- The jobs of some stations that fail at their fifth restart. -/
def State.failing (s : State) (ns : List Nat) : List Job :=
  (ns.filterMap s.job?).filter fun j => decide (4 ≤ j.restarts)

theorem State.failing_congr {s t : State} {ns : List Nat} (h : ∀ n ∈ ns, t.job? n = s.job? n) :
    t.failing ns = s.failing ns := by
  unfold State.failing
  rw [List.filterMap_congr h]

theorem State.failing_cons (s : State) (n : Nat) (ns : List Nat) : s.failing (n :: ns) = s.failing [n] ++ s.failing ns := by
  unfold State.failing
  cases hj : s.job? n with
  | none => simp only [List.filterMap_cons, hj, List.filterMap_nil, List.filter_nil, List.nil_append]
  | some j =>
    simp only [List.filterMap_cons, hj, List.filterMap_nil]
    rw [← List.filter_append]
    rfl

theorem State.failing_none {s : State} {n : Nat} (h : s.job? n = none) : s.failing [n] = [] := by
  simp [State.failing, h]

theorem State.failing_some {s : State} {n : Nat} {j : Job} (h : s.job? n = some j) :
    s.failing [n] = if 4 ≤ j.restarts then [j] else [] := by
  by_cases hr : 4 ≤ j.restarts <;> simp [State.failing, h, hr]

/-- The jobs of some stations have been restarted or have failed for a reason, in the order of the stations. -/
structure State.restarts (y : State) (r : Reason) (ns : List Nat) (u : State) : Prop where
  stays : y.departStays u
  holds : ∀ l, y.holdsNone l → u.holdsNone l
  jobs : ∀ m, u.job? m = if m ∈ ns then (y.job? m).bind Job.restarted? else y.job? m
  failed : u.engine.failed = y.engine.failed + (y.failing ns).length
  restored : u.engine.restored = y.engine.restored
  departed : ∀ (told notes : State) (gone : List Nat), told.departed gone notes y →
    told.departed (gone ++ (y.failing ns).map (·.station)) (notes.failuresPosted r (y.failing ns)) u
  alike : y.failing ns = [] → y.alikeOutsideLanes u

theorem State.restarts.nil (y : State) (r : Reason) : y.restarts r [] y where
  stays := .refl y
  holds _ h := h
  jobs _ := by rw [if_neg List.not_mem_nil]
  failed := rfl
  restored := rfl
  departed told notes gone h := by
    rw [State.failing, List.filterMap_nil, List.filter_nil, List.map_nil, List.append_nil]
    exact h
  alike _ := .refl y

/-- The first station's job, and then those of the others. -/
theorem State.restarts.cons {y x u : State} {r : Reason} {n : Nat} {ns : List Nat} (h : y.restarts r [n] x)
    (h' : x.restarts r ns u) (hn : n ∉ ns) : y.restarts r (n :: ns) u := by
  have hjobs : ∀ m, m ≠ n → x.job? m = y.job? m := fun m hm => by
    rw [h.jobs, if_neg (by simpa using hm)]
  have hlater : x.failing ns = y.failing ns := State.failing_congr fun m hm => hjobs m fun he => hn (he ▸ hm)
  have hsplit := y.failing_cons n ns
  refine ⟨h.stays.trans h'.stays, fun l hl => h'.holds l (h.holds l hl), fun m => ?_, ?_, h'.restored.trans h.restored,
    fun told notes gone hd => ?_, fun hnone => ?_⟩
  · rw [h'.jobs]
    by_cases hm : m = n
    · rw [hm, if_neg hn, if_pos List.mem_cons_self, h.jobs, if_pos List.mem_cons_self]
    · simp only [List.mem_cons, hm, false_or, hjobs m hm]
  · rw [h'.failed, h.failed, hlater, hsplit, List.length_append]
    omega
  · have hd' := h'.departed _ _ _ (h.departed told notes gone hd)
    have hposted : ∀ a b : List Job, (notes.failuresPosted r a).failuresPosted r b = notes.failuresPosted r (a ++ b) :=
      fun a b => by rw [State.failuresPosted, State.failuresPosted, State.failuresPosted, List.foldl_append]
    rw [hlater, List.append_assoc, ← List.map_append, hposted, ← hsplit] at hd'
    exact hd'
  · rw [hsplit, List.append_eq_nil_iff] at hnone
    exact (h.alike hnone.1).trans (h'.alike (hlater.trans hnone.2))

/-- A job that would be restarted for the fifth time fails. -/
theorem failJob_restarts {y : State} {n : Nat} {j : Job} (hj : y.job? n = some j) (hr : 4 ≤ j.restarts) (r : Reason) :
    y.restarts r [n] (failJob n r y) := by
  have hn := State.job?_station hj
  have hfailing : y.failing [n] = [j] := (State.failing_some hj).trans (if_pos hr)
  have hhas : y.hasJob n = true := by rw [State.hasJob, hj]; rfl
  have he := failJob_eq hj r
  obtain ⟨hstays, -⟩ := jobGone_lane n .absent (.nodeFailed n (j.pass.getD 0) r j.state) y.engine.restored
    (y.engine.failed + 1) y
  obtain ⟨-, -, -, ueng, -⟩ := jobGone_fields n .absent (.nodeFailed n (j.pass.getD 0) r j.state) y.engine.restored
    (y.engine.failed + 1) y
  have hjob := jobGone_job? n .absent (.nodeFailed n (j.pass.getD 0) r j.state) y.engine.restored (y.engine.failed + 1) y
  rw [← he] at hstays ueng hjob
  refine ⟨hstays, fun l hl => hl.failJob n r, fun m => ?_, ?_, ?_, fun told notes gone hd => ?_, fun hnone => ?_⟩
  · rw [hjob]
    by_cases hm : m = n
    · rw [hm, if_pos rfl, if_pos List.mem_cons_self, hj, Option.bind_some, Job.restarted?, if_pos hr]
    · rw [if_neg hm, if_neg (by simpa using hm)]
  · rw [ueng, hfailing, List.length_singleton]
  · rw [ueng]
  · rw [he, hfailing, List.map_singleton, hn]
    have hnext := hd.next hhas .absent (.nodeFailed n (j.pass.getD 0) r j.state) y.engine.restored (y.engine.failed + 1)
    have hposted : notes.failuresPosted r [j] =
        postNotice (.nodeFailed n (j.pass.getD 0) r j.state) (setPresence n .absent notes) := by
      rw [← hn]
      rfl
    rw [hposted]
    exact hnext
  · rw [hfailing] at hnone
    cases hnone

/-- A job returned to LOADWAIT leaves its load. -/
theorem reopened_restarts {y : State} {n : Nat} {j : Job} (hj : y.job? n = some j) (hr : ¬4 ≤ j.restarts) (r : Reason) :
    y.restarts r [n] (leaveLoad n (y.updJob n fun j => { j.reopened with restarts := j.restarts + 1 })) := by
  let f : Job → Job := fun j => { j.reopened with restarts := j.restarts + 1 }
  have hf : ∀ j, (f j).station = j.station := fun _ => rfl
  have hfailing : y.failing [n] = [] := (State.failing_some hj).trans (if_neg hr)
  obtain ⟨halike, htime, hjobs, hstays⟩ := leaveLoad_alike n (y.updJob n f)
  have hq : (y.updJob n f).engine.queue.map (·.station) = y.engine.queue.map (·.station) := updJobs_stations f hf [n] y
  have hupd : y.alikeOutsideLanes (y.updJob n f) :=
    ⟨rfl, rfl, rfl, rfl, rfl, rfl, rfl, rfl, rfl, rfl, rfl, rfl, rfl, rfl, rfl, hq, rfl, rfl, rfl, rfl, rfl, rfl, rfl, rfl⟩
  have hall := hupd.trans halike
  refine ⟨(State.departStays.updJob y n f).trans hstays, fun l hl => ?_, fun m => ?_, ?_, ?_, fun told notes gone hd => ?_,
    fun _ => hall⟩
  · exact (hl.of_same (t := y.updJob n f) (updJob_lane n f y l) rfl).leaveLoad n
  · rw [hjobs, updJob_job? _ _ _ hf]
    by_cases hm : m = n
    · rw [hm, if_pos rfl, if_pos List.mem_cons_self, hj, Option.bind_some, Job.restarted?, if_neg hr]
      rfl
    · rw [if_neg hm, if_neg (by simpa using hm)]
  · obtain ⟨-, -, -, -, -, -, -, -, -, -, -, -, -, hfailed, -⟩ := hall
    rw [hfailing]
    exact hfailed
  · obtain ⟨-, -, -, -, -, -, -, -, -, -, -, -, hrestored, -⟩ := hall
    exact hrestored
  · rw [hfailing, List.map_nil, List.append_nil]
    exact hd.alike hall fun _ => congrArg (Timebase.dueOf · _) htime

theorem restartOpen_restarts (n : Nat) (r : Reason) (y : State) : y.restarts r [n] (restartOpen n r y) := by
  unfold restartOpen
  split
  · rename_i hj
    have hfailing := State.failing_none hj
    refine ⟨.refl y, fun _ h => h, fun m => ?_, ?_, rfl, fun told notes gone hd => ?_, fun _ => .refl y⟩
    · by_cases hm : m = n
      · rw [hm, hj, Option.bind_none, ite_self]
      · rw [if_neg (by simpa using hm)]
    · rw [hfailing]
      rfl
    · rw [hfailing, List.map_nil, List.append_nil]
      exact hd
  · rename_i j hj
    split
    · exact failJob_restarts hj ‹_› r
    · exact reopened_restarts hj ‹_› r

/-- The jobs of a holder that has ended, restarted or failed in queue order (R86, R128). -/
theorem foldl_restartOpen (r : Reason) {ns : List Nat} (h : ns.Nodup) (y : State) :
    y.restarts r ns (ns.foldl (fun x n => restartOpen n r x) y) := by
  induction ns generalizing y with
  | nil => exact .nil y r
  | cons n ns ih =>
    obtain ⟨hn, hns⟩ := List.nodup_cons.mp h
    exact (restartOpen_restarts n r y).cons (ih hns _) hn

/-! ### A strict error (R86, R128) -/

theorem Txn.ended_told (t : Txn) (j : Job) : (t.ended j).told = j.told := by
  unfold Txn.ended
  split <;> rfl

theorem Txn.ended_restarts (t : Txn) (j : Job) : (t.ended j).restarts = j.restarts := by
  unfold Txn.ended
  split <;> rfl

/-- The end of a step leaves the jobs that fail. -/
theorem State.failing_ended {s t : State} {x : Txn} (h : ∀ m, t.job? m = (s.job? m).map x.ended) (ns : List Nat) :
    t.failing ns = (s.failing ns).map x.ended := by
  have hjobs : t.job? = fun m => (s.job? m).map x.ended := funext h
  unfold State.failing
  rw [hjobs, ← List.map_filterMap, List.filter_map]
  refine congrArg _ (List.filter_congr fun j _ => ?_)
  simp only [Function.comp, x.ended_restarts]

/-- The load holder of a lane whose step is over ends: only the lane and the buffer pool change (R121). -/
theorem endHolder_stepOver {told x : State} {l : Lane} {t : Txn} (h : told.stepOver l t x) :
    told.alikeOutsideLanes (endHolder l x) ∧ (endHolder l x).job? = x.job? ∧
      (endHolder l x).lane l = { told.lane l with txn := none, driver := .released, holder := none } ∧
      (endHolder l x).timebase = told.timebase.remove (.responseWindow l) ∧ told.recordsStay (endHolder l x) ∧
      (endHolder l x).holdsNone l := by
  obtain ⟨hout, -, hlane, -, htime, hstore⟩ := h
  let y : State := x.updLane l fun x => LaneState.orphanFrame { x with holder := none }
  have hy : y.lane l = { told.lane l with txn := none, driver := .released, holder := none } := by
    rw [State.lane_updLane, hlane]
    rfl
  have hnone : (endHolder l x).holdsNone l := planBuffers_holdsNone (s := y) (by rw [hy])
  have hpool : y.poolBecomes (endHolder l x) := .planBuffers l y
  have hl := (hpool.lane l).trans hy
  obtain ⟨_, _, _, _, he⟩ := hpool
  refine ⟨hout.trans ?_, ?_, hl, ?_, ?_, hnone⟩
  · rw [he]
    cases l <;> exact .refl _
  · rw [he]
    cases l <;> rfl
  · rw [← htime, he]
    cases l <;> rfl
  · unfold State.recordsStay
    rw [← hstore, he]
    cases l <;> exact ⟨rfl, rfl⟩

/-- While the queue holds a job, none has departed yet. -/
theorem State.departed_none {s : State} (h : s.engine.queue ≠ []) : s.departed [] s s := by
  have hruns : s.endsRun [] = false := by
    obtain ⟨j, hj⟩ := List.exists_mem_of_ne_nil _ h
    rw [State.endsRun, Bool.and_eq_false_iff]
    exact .inr (List.all_eq_false.2 ⟨j, hj, by simp⟩)
  refine ⟨⟨nofun, by simp, ?_, rfl, rfl, rfl, fun _ _ => rfl, rfl, nofun, rfl, rfl, rfl, rfl, rfl, rfl, rfl, rfl, rfl, rfl,
    rfl⟩, rfl, ?_, ?_, rfl, rfl⟩ <;> simp [State.runEnded, hruns]

theorem State.failing_queue {s : State} {ns : List Nat} (h : s.failing ns ≠ []) : s.engine.queue ≠ [] := by
  intro hq
  have hj : ∀ n, s.job? n = none := fun n => by rw [State.job?, hq, List.find?_nil]
  refine h ?_
  rw [State.failing, funext hj]
  simp

theorem strictError_holder {l : Lane} {h : Holder} {s : State} (hh : (s.lane l).holder = some h) :
    strictError l s = h.stations.foldl (fun x n => restartOpen n .link x) (endHolder l s) := by
  simp only [strictError, hh]

/-- The jobs that fail at a strict error have left, their notices posted, and the rest is as presence was told; or none
fails. -/
theorem strictError_departs {told x : State} {l : Lane} {t : Txn} {h : Holder} (hx : told.stepOver l t x)
    (hh : (told.lane l).holder = some h) (hn : h.stations.Nodup) :
    let gone := (told.failing h.stations).map (·.station)
    let u := strictError l x
    (endHolder l x).restarts .link h.stations u ∧ u.engine.failed = told.engine.failed + gone.length ∧
      u.engine.restored = told.engine.restored ∧
      (gone ≠ [] → told.departed gone (told.failuresPosted .link (told.failing h.stations)) u) ∧
      (gone = [] → told.alikeOutsideLanes u) := by
  intro gone u
  obtain ⟨halike, hjobs, -, htime, -, -⟩ := endHolder_stepOver hx
  obtain ⟨-, hended, hlane, -⟩ := hx
  have hholder : (x.lane l).holder = some h := by
    rw [hlane]
    exact hh
  have hr : (endHolder l x).restarts .link h.stations u := by
    rw [show u = _ from strictError_holder hholder]
    exact foldl_restartOpen .link hn _
  have hfailing : (endHolder l x).failing h.stations = (told.failing h.stations).map t.ended :=
    State.failing_ended (fun m => by rw [hjobs, hended]) _
  have hgone : ((endHolder l x).failing h.stations).map (·.station) = gone := by
    rw [hfailing, List.map_map]
    exact List.map_congr_left fun j _ => t.ended_station j
  have htold : ((endHolder l x).failing h.stations).map Job.told = (told.failing h.stations).map Job.told := by
    rw [hfailing, List.map_map]
    exact List.map_congr_left fun j _ => t.ended_told j
  have hcounts : (endHolder l x).engine.failed = told.engine.failed ∧
      (endHolder l x).engine.restored = told.engine.restored := by
    obtain ⟨-, -, -, -, -, -, -, -, -, -, -, -, hrestored, hfailed, -⟩ := halike
    exact ⟨hfailed, hrestored⟩
  refine ⟨hr, ?_, hr.restored.trans hcounts.2, fun hne => ?_, fun hnone => ?_⟩
  · rw [hr.failed, hcounts.1, ← hgone, List.length_map]
  · have hq : told.engine.queue ≠ [] := State.failing_queue fun he => hne (List.map_eq_nil_iff.mpr he)
    have hnow : told.departed [] told (endHolder l x) :=
      (State.departed_none hq).alike halike fun n => by rw [htime, Timebase.dueOf_remove, if_neg nofun]
    have hd := hr.departed told told [] hnow
    rw [hgone, failuresPosted_told htold] at hd
    exact hd
  · exact halike.trans (hr.alike (List.map_eq_nil_iff.mp (hgone.trans hnone)))

/-- The step over and the holder ended, each job of it restarted or failed; all else as presence was told. -/
theorem strictError_ends {told x : State} {l : Lane} {t : Txn} {h : Holder} (hx : told.stepOver l t x)
    (hh : (told.lane l).holder = some h) (hn : h.stations.Nodup) :
    let gone := (told.failing h.stations).map (·.station)
    let posted :=
      if gone = [] then told
      else
        told.runEnded gone told.engine.restored (told.engine.failed + gone.length)
          (told.failuresPosted .link (told.failing h.stations))
    let u := strictError l x
    (u.lane l).txn = none ∧ (u.lane l).driver = .released ∧ (u.lane l).holder = none ∧
      (∀ i ∈ u.ownedBy (.lane l), (u.buffer i).released = true) ∧ (gone ≠ [] → told.jobsLeft gone u) ∧
      (gone = [] → told.alikeOutsideLanes u) ∧
      (∀ m, u.job? m = if m ∈ h.stations then ((told.job? m).map t.ended).bind Job.restarted? else (told.job? m).map t.ended) ∧
      (∀ n ∈ gone, (u.station? n).map (·.presence) = (told.station? n).map fun _ => .absent) ∧
      (∀ n, n ∉ gone → u.station? n = told.station? n) ∧ u.engine.failed = told.engine.failed + gone.length ∧
      u.engine.restored = told.engine.restored ∧ u.link = posted.link ∧ u.pins = posted.pins ∧
      u.timebase.dueOf (.responseWindow l) = none ∧ told.recordsStay u ∧ u.supply = told.supply ∧
      u.settings = told.settings ∧ u.flash = told.flash := by
  intro gone posted u
  obtain ⟨hr, hfailed, hrestored, hleft, hstay⟩ := strictError_departs hx hh hn
  obtain ⟨-, hjobs, hlane, htime, hrecords, hnone⟩ := endHolder_stepOver hx
  obtain ⟨-, hended, -⟩ := hx
  have hu : u.holdsNone l := hr.holds l hnone
  obtain ⟨hshrinks, -, ⟨hslots, hmarks⟩, hdue, -⟩ := hr.stays
  obtain ⟨⟨he, htxn⟩, -⟩ := hshrinks l
  rw [hlane] at he htxn
  have hshared : (∀ n ∈ gone, (u.station? n).map (·.presence) = (told.station? n).map fun _ => .absent) ∧
      (∀ n, n ∉ gone → u.station? n = told.station? n) ∧ u.link = posted.link ∧ u.pins = posted.pins ∧
      u.supply = told.supply ∧ u.settings = told.settings ∧ u.flash = told.flash := by
    by_cases hg : gone = []
    · obtain ⟨upins, usupply, -, -, ust, -, -, -, uset, -, -, -, -, -, -, -, -, -, -, -, -, ulink, uflash, -⟩ := hstay hg
      refine ⟨fun n hn => absurd (hg ▸ hn) List.not_mem_nil, fun n _ => by rw [State.station?, ust, State.station?], ?_, ?_,
        usupply, uset, uflash⟩
      · rw [show posted = told from if_pos hg]
        exact ulink
      · rw [show posted = told from if_pos hg]
        exact upins
    · obtain ⟨⟨-, -, -, -, -, -, hstation, -, -, -, -, -, hsupply, hset, -, -, -, -, -, hflash⟩, hst, hlink, hpins, -⟩ :=
        hleft hg
      rw [hfailed, hrestored] at hlink hpins
      refine ⟨fun n hn => ?_, hstation, ?_, ?_, hsupply, hset, hflash⟩
      · have hs : u.station? n = (told.failuresPosted .link (told.failing h.stations)).station? n := by
          rw [State.station?, hst, State.station?]
        rw [hs, failuresPosted_station?, Option.map_map]
        refine congrArg (Option.map · _) (funext fun st => ?_)
        simp only [Function.comp]
        rw [if_pos hn]
      · rw [show posted = _ from if_neg hg]
        exact hlink
      · rw [show posted = _ from if_neg hg]
        exact hpins
  obtain ⟨habsent, hothers, hlink, hpins, hsupply, hset, hflash⟩ := hshared
  refine ⟨htxn rfl, ?_, hu.1, hu.released, fun hg => (hleft hg).1, hstay, fun m => ?_, habsent, hothers, hfailed, hrestored,
    hlink, hpins, ?_, ⟨hslots.trans hrecords.1, hmarks.trans hrecords.2⟩, hsupply, hset, hflash⟩
  · rw [show (u.lane l).driver = Drive.released from congrArg (·.driver) he]
  · rw [hr.jobs, hjobs, hended]
  · rw [show u.timebase.dueOf _ = _ from hdue l, htime, Timebase.dueOf_remove, if_pos rfl]

/-! ### The obligation -/

theorem Job.restarted?_ended (t : Txn) {j : Job} (h : j.restarts < 4) :
    (t.ended j).restarted? =
      some { t.ended j with state := .loadwait, needsOpen := true, fill := 0, restarts := j.restarts + 1 } := by
  have hr : ¬4 ≤ (t.ended j).restarts := by rw [t.ended_restarts]; exact Nat.not_le_of_lt h
  rw [Job.restarted?, if_neg hr, t.ended_restarts]
  rfl

theorem State.presence_absent {s told : State} {n : Nat}
    (h : (told.station? n).map (·.entry) = (s.station? n).map (·.entry)) (p : Presence) :
    (told.station? n).map (fun _ => p) = (s.station? n).map fun _ => p := by
  have hmap : ∀ o : Option Station, o.map (fun _ => p) = (o.map (·.entry)).map fun _ => p := fun o => by
    rw [Option.map_map]
    rfl
  rw [hmap, h, ← hmap]

/-- Settles O36. -/
theorem attemptsEndInError : Obligations.AttemptsEndInError := by
  intro s l t c e told h answers strict endings
  have hexec := h.exec_eq
  have hstation : t.station.isSome = true := h.2.2.1
  obtain ⟨⟨tb, sts, link, pins, htold⟩, hcount, hentries⟩ := h.told
  have hlane := h.told_lane
  have hjob : told.job? = s.job? := by rw [htold]; rfl
  have howner : ownerGone t told = ownerGone t s := by rw [htold]; rfl
  have hset : told.settings = s.settings := by rw [htold]
  have hstrict : told.strictEnding l t e ↔ strict := by rw [State.strictEnding, hset]
  have hstore : told.store = s.store := by rw [htold]
  have hengine : told.engine = s.engine := by rw [htold]
  have hkeep : told.supply = s.supply ∧ told.flash = s.flash := by rw [htold]; exact ⟨rfl, rfl⟩
  have hover := endStep_stepOver l t told
  refine ⟨fun hg => ?_, fun hg hs => ⟨fun hnone => ?_, fun hold hh hnodup _ => ?_⟩, fun hg hs ha => ?_,
    fun hg hs ha j st ho hj hst hl => ?_⟩
  · exact ⟨_, by rw [hexec, errorEnding_gone (howner.trans hg)], hover⟩
  · obtain ⟨hx, -⟩ := errorEnding_owned (howner.trans hg) l e
    have hholder : ((endStep l t (removeDeadline (.responseWindow l) told)).lane l).holder = none := by
      obtain ⟨-, -, hfree, -⟩ := hover
      rw [hfree, hlane]
      exact hnone
    have hstrictError : strictError l (endStep l t (removeDeadline (.responseWindow l) told)) =
        endStep l t (removeDeadline (.responseWindow l) told) := by
      simp only [strictError, hholder]
    exact ⟨_, by rw [hexec, hx (hstrict.mpr hs), hstrictError], hover⟩
  · obtain ⟨hx, -⟩ := errorEnding_owned (howner.trans hg) l e
    have hends := strictError_ends hover ((congrArg (·.holder) (hlane l)).trans hh) hnodup
    have hfailing : told.failing hold.stations = s.failing hold.stations := State.failing_congr fun n _ => by rw [hjob]
    simp only [hfailing, hjob, hengine, hset, hkeep.1, hkeep.2] at hends
    obtain ⟨htxn, hdriver, hnone, hreleased, hleft, hstay, hjobs, habsent, hothers, hfailed, hrestored, hlink, hpins, hdue,
      hrecords, hsupply, hset', hflash⟩ := hends
    refine ⟨_, by rw [hexec, hx (hstrict.mpr hs)], htxn, hdriver, hnone, hreleased, hleft, hstay, fun n hn j hj hr => ?_,
      fun n hn => ?_, fun n hn => ?_, hothers, hfailed, hrestored, hlink, hpins, hdue, ?_, hsupply, hset', hflash⟩
    · rw [hjobs, if_pos hn, hj, Option.map_some, Option.bind_some, Job.restarted?_ended t hr]
    · rw [hjobs, if_neg hn]
    · rw [habsent n hn, State.presence_absent (hentries n)]
    · unfold State.recordsStay at hrecords ⊢
      rw [← hstore]
      exact hrecords
  · obtain ⟨-, hx, -⟩ := errorEnding_owned (howner.trans hg) l e
    obtain ⟨⟨x, htxn, hstep, howns, hstat, hlimit, hindex, hbuf, hatt, hend, hseq, hnext, hstale, hhold, hdriver⟩, hother, htime,
      halike, hslots, hjobs⟩ := errorEnding_retried l hstation e told
    rw [hlane] at hseq hnext hhold
    rw [hcount, hset] at htime
    rw [hstore] at hslots
    refine ⟨_, by rw [hexec, hx (mt hstrict.mp hs) ha], x, htxn, hstep, howns, hstat, hlimit, hindex, hbuf, hatt, hend, hseq,
      hnext, hstale, hhold, fun k hk => (hother k hk).trans (hlane k), htime, halike, hslots, hdriver, fun n id ho =>
      ⟨fun m hm => ?_, fun j hj => ?_⟩⟩
    · rw [hjobs n id ho, if_neg hm, hjob]
    · rw [hjobs n id ho, if_pos rfl, hjob, hj]
      rfl
  · obtain ⟨-, -, hx⟩ := errorEnding_owned (howner.trans hg) l e
    obtain ⟨st', hst', hentry⟩ : ∃ st', told.station? j.station = some st' ∧ st'.entry = st.entry := by
      have he := hentries j.station
      rw [hst, Option.map_some, Option.map_eq_some_iff] at he
      exact he
    have hsteps := hover.jobSteps ho ((congrFun hjob _).trans hj) hst' (by rw [hentry, hl])
    obtain ⟨hfails, hrecords⟩ := hsteps.fails (exhaustionReason endings)
    refine ⟨_, by rw [hexec, hx (mt hstrict.mp hs) ha, exhausted, ho], ?_, ?_⟩
    · unfold State.recordsStay at hrecords ⊢
      rw [← hstore]
      exact hrecords
    · rw [← exhaustionReason_eq]
      exact hfails

end Sys2Proof.Machine
end

section
/-! PROOFS. The checks of a request in their order, and the requests that need no pairs of bytes (spec/09, 9.2; spec/11, 11.3). -/

namespace Sys2Proof.Machine

/-! ### A request judged by some checks (R157) -/

/-- A request has been served by some checks: the first that fails refuses it and changes nothing; one that fails none is
taken. -/
def Served.judged (x : Served) (s : State) : List Check → Prop
  | [] => x.status = .ok
  | c :: rest => (c.fails → x = { state := s, status := c.status, payload := c.more }) ∧ (¬c.fails → x.judged s rest)

namespace Served.judged

variable {x y : Served} {s : State} {bad : Prop} {st : Status} {more : List Byte} {rest : List Check}

theorem fails (h : bad) : (refused st s).judged s (⟨bad, st, []⟩ :: rest) := ⟨fun _ => rfl, fun hn => absurd h hn⟩

theorem passes (h : ¬bad) (hx : x.judged s rest) : x.judged s (⟨bad, st, more⟩ :: rest) :=
  ⟨fun hb => absurd hb h, fun _ => hx⟩

/-- One check, as the model makes it. -/
theorem check {c : Prop} [Decidable c] (hc : c ↔ bad) (hy : ¬bad → y.judged s rest) :
    (if c then refused st s else y).judged s (⟨bad, st, []⟩ :: rest) := by
  split
  · exact .fails (hc.mp ‹_›)
  · exact .passes (mt hc.mpr ‹_›) (hy (mt hc.mpr ‹_›))

theorem order {c : Prop} [Decidable c] {w : ImageWrite} (hc : c ↔ bad) (hy : ¬bad → y.judged s rest) :
    (if c then outOfOrder w s else y).judged s (⟨bad, .order, le16 w.nextIndex⟩ :: rest) := by
  split
  · exact ⟨fun _ => rfl, fun hn => absurd (hc.mp ‹_›) hn⟩
  · exact .passes (mt hc.mpr ‹_›) (hy (mt hc.mpr ‹_›))

theorem taken {payload : List Byte} {t : State} : (Machine.taken payload t).judged s [] := rfl

/-- A request that is not taken changes nothing. -/
theorem kept {cs : List Check} (h : x.judged s cs) (hx : x.status ≠ .ok) : x.state = s := by
  induction cs with
  | nil => exact absurd h hx
  | cons c cs ih =>
    obtain ⟨hfails, hpasses⟩ := h
    by_cases hc : c.fails
    · rw [hfails hc]
    · exact ih (hpasses hc)

/-- On a part that serves it at once, a request so judged is refused by the first check it fails. -/
theorem checksInOrder {i : Instr} {r : Request} {cs : List Check} (h : (serveKind r s).judged s cs) (hs : s.serves)
    (hr : requestOfCommand i = some r) : s.checksInOrder i cs := by
  induction cs with
  | nil => trivial
  | cons c cs ih =>
    obtain ⟨hfails, hpasses⟩ := h
    refine ⟨fun hc => ⟨r, hr, ?_⟩, fun hc => ih (hpasses hc)⟩
    rw [exec_request hr, whileRunning_runs hs.1, arrive_serves hs, hfails hc]

end Served.judged

/-! ### Payloads of a fixed length -/

theorem switchOf_isSome_iff (n : Nat) : (switchOf n).isSome = true ↔ n ≤ 1 := by
  unfold switchOf
  split
  · decide
  · decide
  · rename_i h0 h1
    exact ⟨nofun, fun h => by interval_cases n <;> contradiction⟩

theorem switchOf_none_iff (n : Nat) : switchOf n = none ↔ 1 < n := by
  rw [← Option.isNone_iff_eq_none, ← Option.not_isSome, Bool.not_eq_true', ← Bool.not_eq_true, switchOf_isSome_iff]
  omega

theorem flagOf_eq (b : Byte) : flagOf b = if b = 0 then some false else if b = 1 then some true else none := by
  unfold flagOf switchOf
  split
  · rename_i h
    rw [if_pos (BitVec.eq_of_toNat_eq h)]
  · rename_i h
    have hb : b = 1 := BitVec.eq_of_toNat_eq h
    rw [hb]
    rfl
  · rename_i h0 h1
    rw [if_neg fun h => h0 (by rw [h]; rfl), if_neg fun h => h1 (by rw [h]; rfl)]

theorem flagOf_some {b : Byte} {x : Bool} (h : flagOf b = some x) : b.toNat = x.toNat := by
  rw [flagOf_eq] at h
  split at h
  · rename_i hb
    cases h
    rw [hb]
    rfl
  · split at h
    · rename_i hb
      cases h
      rw [hb]
      rfl
    · cases h

/-! ### Requests without an argument -/

theorem serveStatus_judged (p : List Byte) (s : State) : (serveStatus p s).judged s [⟨p ≠ [], .format, []⟩] :=
  .check .rfl fun _ => .taken

theorem serveSettingsRead_judged (p : List Byte) (s : State) :
    (serveSettingsRead p s).judged s [⟨p ≠ [], .format, []⟩] := .check .rfl fun _ => .taken

theorem serveEngineRestart_judged (p : List Byte) (s : State) :
    (serveEngineRestart p s).judged s [⟨p ≠ [], .format, []⟩] := .check .rfl fun _ => .taken

theorem serveGapRead_judged (p : List Byte) (s : State) : (serveGapRead p s).judged s [⟨p ≠ [], .format, []⟩] :=
  .check .rfl fun _ => .taken

theorem serveImageList_judged (p : List Byte) (s : State) : (serveImageList p s).judged s [⟨p ≠ [], .format, []⟩] :=
  .check .rfl fun _ => .taken

theorem writeFinishing_iff (s : State) :
    writeFinishing s = true ↔ ∃ w, s.store.imageWrite = some w ∧ ¬(w.phase = .erasing ∨ w.phase = .receiving) := by
  unfold writeFinishing ImageWrite.taking
  cases s.store.imageWrite <;> simp

theorem serveConfigSave_judged (p : List Byte) (s : State) :
    (serveConfigSave p s).judged s
      [⟨p ≠ [], .format, []⟩,
        ⟨s.store.configSave.isSome = true ∨
          ∃ w, s.store.imageWrite = some w ∧ ¬(w.phase = .erasing ∨ w.phase = .receiving), .busy, []⟩] :=
  .check .rfl fun _ => .check (by rw [Bool.or_eq_true, writeFinishing_iff]) fun _ => .taken

/-! ### NOTICE FETCH (R163) -/

theorem serveNoticeFetch_judged (p : List Byte) (s : State) :
    (serveNoticeFetch p s).judged s [⟨p ≠ [0] ∧ p ≠ [1], .format, []⟩] := by
  unfold serveNoticeFetch
  cases p with
  | nil => exact .fails ⟨nofun, nofun⟩
  | cons b rest =>
    cases rest with
    | nil =>
      rw [List.map_singleton, flagOf_eq]
      by_cases h0 : b = 0
      · rw [if_pos h0]
        exact .passes (fun h => h.1 (by rw [h0])) .taken
      · by_cases h1 : b = 1
        · rw [if_neg h0, if_pos h1]
          exact .passes (fun h => h.2 (by rw [h1])) .taken
        · rw [if_neg h0, if_neg h1]
          exact .fails ⟨fun h => h0 (List.singleton_inj.mp h), fun h => h1 (List.singleton_inj.mp h)⟩
    | cons c rest =>
      have hlong : ∀ x : Byte, b :: c :: rest ≠ [x] := fun x h => nomatch (List.cons.inj h).2
      split
      · rename_i h
        exact nomatch (List.cons.inj h).2
      · rename_i h
        exact nomatch (List.cons.inj h).2
      · exact .fails ⟨hlong 0, hlong 1⟩

/-! ### The stations that a request names (R44) -/

theorem State.station?_none_iff (s : State) (n : Nat) :
    s.station? n = none ↔ ∀ st ∈ s.stations, st.entry.number ≠ n := by
  simp [State.station?, List.find?_eq_none]

theorem State.aliased?_none_iff (s : State) (a : Nat) :
    s.aliased? a = none ↔ ∀ st ∈ s.stations, st.entry.aliasNo ≠ a := by
  simp [State.aliased?, List.find?_eq_none]

/-- A lane transaction to a station is in flight, or a NODE QUERY for it is pending (R47, R49). -/
theorem stationBusy_iff (n : Nat) (s : State) :
    stationBusy n s = true ↔ (∃ l t, (s.lane l).txn = some t ∧ t.station = some n) ∨ s.query = some n := by
  have hlane : ∀ x : LaneState,
      (match x.txn with
        | none => false
        | some t => decide (t.station = some n)) = true ↔ ∃ t, x.txn = some t ∧ t.station = some n := fun x => by
    cases x.txn <;> simp
  have hlanes : s.txnTo n = true ↔ ∃ l t, (s.lane l).txn = some t ∧ t.station = some n := by
    simp only [State.txnTo, List.any_cons, List.any_nil, Bool.or_false, Bool.or_eq_true]
    constructor
    · rintro (h | h)
      · exact ⟨.a, (hlane _).mp h⟩
      · exact ⟨.b, (hlane _).mp h⟩
    · rintro ⟨l, h⟩
      cases l
      · exact .inl ((hlane _).mpr h)
      · exact .inr ((hlane _).mpr h)
  rw [stationBusy, Bool.or_eq_true, hlanes, decide_eq_true_iff]

theorem serveNodeRemove_judged (p : List Byte) (s : State) :
    (serveNodeRemove p s).judged s
      [⟨p.length ≠ 1, .format, []⟩, ⟨¬(1 ≤ numAt p 0 ∧ numAt p 0 ≤ 24), .range, []⟩,
        ⟨∀ st ∈ s.stations, st.entry.number ≠ numAt p 0, .unknown, []⟩, ⟨s.hasJob (numAt p 0) = true, .state, []⟩,
        ⟨(∃ l t, (s.lane l).txn = some t ∧ t.station = some (numAt p 0)) ∨ s.query = some (numAt p 0), .busy, []⟩] := by
  unfold serveNodeRemove
  split
  · rename_i b
    refine .passes (fun h => h rfl) (.check ?_ fun _ => .check ?_ fun _ => .check .rfl fun _ =>
      .check (stationBusy_iff _ s) fun _ => .taken)
    · show _ ↔ ¬(1 ≤ b.toNat ∧ b.toNat ≤ 24)
      simp only [Bool.or_eq_true, decide_eq_true_eq]
      omega
    · rw [Option.isNone_iff_eq_none]
      exact s.station?_none_iff _
  · rename_i h
    exact .fails fun hl => (List.length_eq_one_iff.mp hl).elim h

theorem serveNodeRead_judged (p : List Byte) (s : State) :
    (serveNodeRead p s).judged s
      [⟨p.length ≠ 2 ∨ 1 < numAt p 0, .format, []⟩,
        ⟨(numAt p 0 = 0 ∧ ∀ st ∈ s.stations, st.entry.aliasNo ≠ numAt p 1) ∨
          (numAt p 0 = 1 ∧ ∀ st ∈ s.stations, st.entry.number ≠ numAt p 1), .unknown, []⟩] := by
  unfold serveNodeRead
  split
  · rename_i sel v
    split
    · exact .fails (.inr ((switchOf_none_iff _).mp ‹_›))
    · rename_i byNumber hsel
      have hnum : sel.toNat = byNumber.toNat := flagOf_some hsel
      have hnone : readNamed byNumber v.toNat s = none ↔
          (sel.toNat = 0 ∧ ∀ st ∈ s.stations, st.entry.aliasNo ≠ v.toNat) ∨
            (sel.toNat = 1 ∧ ∀ st ∈ s.stations, st.entry.number ≠ v.toNat) := by
        rw [hnum, ← s.aliased?_none_iff, ← s.station?_none_iff]
        cases byNumber <;> simp [readNamed]
      refine .passes ?_ ?_
      · rintro (h | h)
        · exact h rfl
        · exact absurd (hnum.trans_le byNumber.toNat_le) (Nat.not_le_of_lt h)
      · split
        · exact .fails (hnone.mp ‹_›)
        · exact .passes (mt hnone.mpr (by simp [*])) .taken
  · rename_i h
    refine .fails (.inl fun hl => ?_)
    obtain ⟨a, b, hp⟩ := List.length_eq_two.mp hl
    exact h a b hp

theorem serveNodeQuery_judged (p : List Byte) (s : State) :
    (serveNodeQuery p s).judged s
      [⟨p.length ≠ 1, .format, []⟩, ⟨∀ st ∈ s.stations, st.entry.aliasNo ≠ numAt p 0, .unknown, []⟩,
        ⟨s.supply.state = .gap ∨ s.supply.state = .settle, .unreachable, []⟩, ⟨s.query.isSome = true, .busy, []⟩] := by
  unfold serveNodeQuery
  split
  · rename_i a
    refine .passes (fun h => h rfl) ?_
    have hnone : s.aliased? a.toNat = none ↔ ∀ st ∈ s.stations, st.entry.aliasNo ≠ a.toNat := s.aliased?_none_iff _
    split
    · exact .fails (hnone.mp ‹_›)
    · rename_i st hst
      refine .passes (fun h => ?_) (.check (by simp) fun _ => .check .rfl fun _ => .taken)
      rw [hnone.mpr h] at hst
      cases hst
  · rename_i h
    exact .fails fun hl => (List.length_eq_one_iff.mp hl).elim h

theorem serveContextRead_judged (p : List Byte) (s : State) :
    (serveContextRead p s).judged s
      [⟨p.length ≠ 1, .format, []⟩, ⟨∀ st ∈ s.stations, st.entry.aliasNo ≠ numAt p 0, .unknown, []⟩] := by
  unfold serveContextRead
  split
  · rename_i a
    refine .passes (fun h => h rfl) ?_
    have hnone : s.aliased? a.toNat = none ↔ ∀ st ∈ s.stations, st.entry.aliasNo ≠ a.toNat := s.aliased?_none_iff _
    split
    · exact .fails (hnone.mp ‹_›)
    · rename_i st hst
      refine .passes (fun h => ?_) .taken
      rw [hnone.mpr h] at hst
      cases hst
  · rename_i h
    exact .fails fun hl => (List.length_eq_one_iff.mp hl).elim h

/-! ### CAR STATE SET and LANE INJECT (R59, R115) -/

theorem Motion.ofCode_isSome_iff (n : Nat) : (Motion.ofCode n).isSome = true ↔ n ≤ 1 := by
  unfold Motion.ofCode
  split
  · decide
  · decide
  · rename_i h0 h1
    exact ⟨nofun, fun h => by interval_cases n <;> contradiction⟩

theorem ReleaseSide.ofCode_isSome_iff (n : Nat) : (ReleaseSide.ofCode n).isSome = true ↔ n ≤ 3 := by
  unfold ReleaseSide.ofCode
  split
  · decide
  · decide
  · decide
  · decide
  · rename_i h0 h1 h2 h3
    exact ⟨nofun, fun h => by interval_cases n <;> contradiction⟩

theorem laneOfCode_isSome_iff (n : Nat) : (laneOfCode n).isSome = true ↔ n ≤ 1 := by
  unfold laneOfCode
  split
  · decide
  · decide
  · rename_i h0 h1
    exact ⟨nofun, fun h => by interval_cases n <;> contradiction⟩

theorem InjectionKind.ofCode_isSome_iff (n : Nat) : (InjectionKind.ofCode n).isSome = true ↔ n ≤ 2 := by
  unfold InjectionKind.ofCode
  split
  · decide
  · decide
  · decide
  · rename_i h0 h1 h2
    exact ⟨nofun, fun h => by interval_cases n <;> contradiction⟩

theorem Kind.ofCode_isSome_iff (n : Nat) : (Kind.ofCode n).isSome = true ↔ n ≤ 2 := by
  unfold Kind.ofCode
  split
  · decide
  · decide
  · decide
  · rename_i h0 h1 h2
    exact ⟨nofun, fun h => by interval_cases n <;> contradiction⟩

theorem Kind.code_of_ofCode {n : Nat} {k : Kind} (h : Kind.ofCode n = some k) : k.code = n := by
  unfold Kind.ofCode at h
  split at h <;> cases h <;> rfl

theorem serveCarStateSet_judged (p : List Byte) (s : State) :
    (serveCarStateSet p s).judged s
      [⟨p.length ≠ 2, .format, []⟩, ⟨1 < numAt p 0 ∨ 3 < numAt p 1, .range, []⟩] := by
  unfold serveCarStateSet
  split
  · rename_i m r
    refine .passes (fun h => h rfl) ?_
    show Served.judged _ s [⟨1 < m.toNat ∨ 3 < r.toNat, _, _⟩]
    split
    · rename_i hmotion hside
      have hm := (Motion.ofCode_isSome_iff m.toNat).mp (by rw [hmotion]; rfl)
      have hr := (ReleaseSide.ofCode_isSome_iff r.toNat).mp (by rw [hside]; rfl)
      exact .passes (by omega) .taken
    · rename_i hnone
      refine .fails ?_
      by_contra hin
      obtain ⟨motion, hmotion⟩ := Option.isSome_iff_exists.mp ((Motion.ofCode_isSome_iff m.toNat).mpr (by omega))
      obtain ⟨side, hside⟩ := Option.isSome_iff_exists.mp ((ReleaseSide.ofCode_isSome_iff r.toNat).mpr (by omega))
      exact hnone motion side hmotion hside
  · rename_i h
    refine .fails fun hl => ?_
    obtain ⟨a, b, hp⟩ := List.length_eq_two.mp hl
    exact h a b hp

theorem serveLaneInject_judged (p : List Byte) (s : State) :
    (serveLaneInject p s).judged s
      [⟨p.length ≠ 3, .format, []⟩,
        ⟨¬(numAt p 0 ≤ 1 ∧ numAt p 1 ≤ 2 ∧ 1 ≤ numAt p 2 ∧ numAt p 2 ≤ 8), .range, []⟩] := by
  unfold serveLaneInject
  split
  · rename_i l k n
    refine .passes (fun h => h rfl) ?_
    show Served.judged _ s [⟨¬(l.toNat ≤ 1 ∧ k.toNat ≤ 2 ∧ 1 ≤ n.toNat ∧ n.toNat ≤ 8), _, _⟩]
    split
    · rename_i hlane hkind
      have hl := (laneOfCode_isSome_iff l.toNat).mp (by rw [hlane]; rfl)
      have hk := (InjectionKind.ofCode_isSome_iff k.toNat).mp (by rw [hkind]; rfl)
      split
      · rename_i hcount
        simp only [Bool.and_eq_true, decide_eq_true_eq] at hcount
        exact .passes (by omega) .taken
      · rename_i hcount
        simp only [Bool.and_eq_true, decide_eq_true_eq] at hcount
        exact .fails (by omega)
    · rename_i hnone
      refine .fails fun ⟨hin, hkin, _⟩ => ?_
      obtain ⟨lane, hlane⟩ := Option.isSome_iff_exists.mp ((laneOfCode_isSome_iff l.toNat).mpr hin)
      obtain ⟨kind, hkind⟩ := Option.isSome_iff_exists.mp ((InjectionKind.ofCode_isSome_iff k.toNat).mpr hkin)
      exact hnone lane kind hlane hkind
  · rename_i h
    refine .fails fun hl => ?_
    obtain ⟨a, b, c, hp⟩ := List.length_eq_three.mp hl
    exact h a b c hp

/-! ### IMAGE OPEN (R145) -/

theorem readOpen_some {p : List Byte} {slot : Nat} {im : Image} (h : readOpen p = some (slot, im)) :
    slot = numAt p 0 ∧ im.kind.code = numAt p 1 ∧
      1 ≤ numAt p 0 ∧ numAt p 0 ≤ 15 ∧ numAt p 1 ≤ 2 ∧ 1 ≤ num16At p 8 ∧ num16At p 8 ≤ 4095 := by
  unfold readOpen at h
  split at h
  · cases h
  · rename_i kind hkind
    have hin := (Kind.ofCode_isSome_iff (numAt p 1)).mp (by rw [hkind]; rfl)
    dsimp only at h
    split at h
    · rename_i hr
      simp only [Bool.and_eq_true, decide_eq_true_eq] at hr
      cases h
      exact ⟨rfl, Kind.code_of_ofCode hkind, hr.1.1.1, hr.1.1.2, hin, hr.1.2, hr.2⟩
    · cases h

theorem readOpen_none {p : List Byte} (h : readOpen p = none) :
    ¬(1 ≤ numAt p 0 ∧ numAt p 0 ≤ 15 ∧ numAt p 1 ≤ 2 ∧ 1 ≤ num16At p 8 ∧ num16At p 8 ≤ 4095) := by
  rintro ⟨hs, hs', hk, hl, hl'⟩
  obtain ⟨kind, hkind⟩ := Option.isSome_iff_exists.mp ((Kind.ofCode_isSome_iff (numAt p 1)).mpr hk)
  simp [readOpen, hkind, hs, hs', hl, hl'] at h

theorem slotLoading_iff (slot : Nat) (s : State) :
    slotLoading slot s = true ↔
      ∃ j ∈ s.engine.queue, s.slotOf j.station = slot ∧ (j.state = .opn ∨ j.state = .load ∨ j.state = .close) := by
  simp [slotLoading, or_assoc]

theorem mem_bufferIndices (i : Nat) : i ∈ bufferIndices ↔ i < 4 := by
  simp only [bufferIndices, List.mem_cons, List.not_mem_nil, or_false]
  omega

theorem slotBuffered_iff (slot : Nat) (s : State) :
    slotBuffered slot s = true ↔ ∃ i, i < 4 ∧ (s.buffer i).owner.isSome = true ∧ (s.buffer i).slot = slot := by
  simp [slotBuffered, mem_bufferIndices]

theorem writeStillRuns_iff (s : State) :
    writeStillRuns s = true ↔
      (∃ op, s.store.running = some op ∧ op.who = .imageWrite) ∨ ∃ x, s.flash.busy = some x ∧ x.op.who = .imageWrite := by
  unfold writeStillRuns writeRuns
  cases s.store.running <;> cases s.flash.busy <;> simp

theorem writeBuffer?_isSome_iff (s : State) :
    (writeBuffer? s).isSome = true ↔ ∃ i, i < 4 ∧ (s.buffer i).owner = some .imageWrite := by
  rw [writeBuffer?, List.isSome_head?, ne_eq, State.ownedBy, List.filter_eq_nil_iff]
  simp [mem_bufferIndices]

theorem openBusy_iff (slot : Nat) (s : State) :
    openBusy slot s = true ↔
      s.store.imageWrite.isSome = true ∨
        (∃ j ∈ s.engine.queue, s.slotOf j.station = slot ∧ (j.state = .opn ∨ j.state = .load ∨ j.state = .close)) ∨
        (∃ i, i < 4 ∧ (s.buffer i).owner.isSome = true ∧ (s.buffer i).slot = slot) ∨
        s.store.configSave.isSome = true ∨ (∃ op, s.store.running = some op ∧ op.who = .imageWrite) ∨
        (∃ x, s.flash.busy = some x ∧ x.op.who = .imageWrite) ∨
        ∃ i, i < 4 ∧ (s.buffer i).owner = some .imageWrite := by
  simp only [openBusy, Bool.or_eq_true, slotLoading_iff, slotBuffered_iff, writeStillRuns_iff, writeBuffer?_isSome_iff,
    or_assoc]

theorem Kind.code_inj {a b : Kind} : a.code = b.code ↔ a = b := by
  cases a <;> cases b <;> decide

theorem openConflicts_iff (slot : Nat) (kind : Kind) (s : State) :
    openConflicts slot kind s = true ↔ ∃ st ∈ s.stations, st.entry.slot = slot ∧ st.entry.kind.code ≠ kind.code := by
  simp [openConflicts, Kind.code_inj]

theorem serveImageOpen_judged (p : List Byte) (s : State) :
    (serveImageOpen p s).judged s
      [⟨p.length ≠ 14, .format, []⟩,
        ⟨¬(1 ≤ numAt p 0 ∧ numAt p 0 ≤ 15 ∧ numAt p 1 ≤ 2 ∧ 1 ≤ num16At p 8 ∧ num16At p 8 ≤ 4095), .range, []⟩,
        ⟨s.slot (numAt p 0) = .writing, .state, []⟩,
        ⟨s.store.imageWrite.isSome = true ∨
          (∃ j ∈ s.engine.queue,
            s.slotOf j.station = numAt p 0 ∧ (j.state = .opn ∨ j.state = .load ∨ j.state = .close)) ∨
          (∃ i, i < 4 ∧ (s.buffer i).owner.isSome = true ∧ (s.buffer i).slot = numAt p 0) ∨
          s.store.configSave.isSome = true ∨ (∃ op, s.store.running = some op ∧ op.who = .imageWrite) ∨
          (∃ x, s.flash.busy = some x ∧ x.op.who = .imageWrite) ∨
          ∃ i, i < 4 ∧ (s.buffer i).owner = some .imageWrite, .busy, []⟩,
        ⟨∃ st ∈ s.stations, st.entry.slot = numAt p 0 ∧ st.entry.kind.code ≠ numAt p 1, .conflict, []⟩] := by
  refine .check .rfl fun _ => ?_
  split
  · exact .fails (readOpen_none ‹_›)
  · rename_i slot im h
    obtain ⟨rfl, hkind, hrange⟩ := readOpen_some h
    exact .passes (not_not.mpr hrange) (.check .rfl fun _ => .check (openBusy_iff _ s) fun _ =>
      .check (by rw [openConflicts_iff, hkind]) fun _ => .taken)

/-! ### IMAGE BLOCK, CLOSE and ABORT (R146 to R148) -/

theorem writeOf_none {s : State} (h : s.store.imageWrite = none) (slot : Nat) : writeOf slot s = none := by
  simp only [writeOf, h]

theorem writeOf_some {s : State} {w : ImageWrite} (h : s.store.imageWrite = some w) (slot : Nat) :
    writeOf slot s = if w.slot = slot ∧ s.slot slot = .writing then some w else none := by
  simp only [writeOf, h, Bool.and_eq_true, decide_eq_true_eq]

theorem ImageWrite.taking_iff (w : ImageWrite) : w.taking = true ↔ w.phase = .erasing ∨ w.phase = .receiving := by
  simp [ImageWrite.taking]

theorem writeProgramming_iff (s : State) :
    writeProgramming s = true ↔ ∃ i, writeBuffer? s = some i ∧ (s.buffer i).state = .programming := by
  unfold writeProgramming
  cases writeBuffer? s <;> simp

theorem serveImageBlock_judged_none {s : State} (h : s.store.imageWrite = none) (p : List Byte) :
    (serveImageBlock p s).judged s [⟨p.length ≠ 259, .format, []⟩, ⟨True, .state, []⟩] :=
  .check .rfl fun _ => by
    rw [writeOf_none h]
    exact .fails trivial

theorem serveImageClose_judged_none {s : State} (h : s.store.imageWrite = none) (p : List Byte) :
    (serveImageClose p s).judged s [⟨p.length ≠ 1, .format, []⟩, ⟨True, .state, []⟩] := by
  unfold serveImageClose
  split
  · rw [writeOf_none h]
    exact .passes (fun hl => hl rfl) (.fails trivial)
  · rename_i hp
    exact .fails fun hl => (List.length_eq_one_iff.mp hl).elim hp

theorem serveImageAbort_judged_none {s : State} (h : s.store.imageWrite = none) (p : List Byte) :
    (serveImageAbort p s).judged s [⟨p.length ≠ 1, .format, []⟩, ⟨True, .state, []⟩] := by
  unfold serveImageAbort
  split
  · rw [writeOf_none h]
    exact .passes (fun hl => hl rfl) (.fails trivial)
  · rename_i hp
    exact .fails fun hl => (List.length_eq_one_iff.mp hl).elim hp

theorem serveImageBlock_judged {s : State} {w : ImageWrite} (h : s.store.imageWrite = some w) (p : List Byte) :
    (serveImageBlock p s).judged s
      [⟨p.length ≠ 259, .format, []⟩,
        ⟨¬((w.slot = numAt p 0 ∧ s.slot (numAt p 0) = .writing) ∧ (w.phase = .erasing ∨ w.phase = .receiving)), .state, []⟩,
        ⟨num16At p 1 ≠ w.nextIndex ∨ w.image.length ≤ w.nextIndex, .order, le16 w.nextIndex⟩,
        ⟨w.phase = .erasing ∨ ∀ i, writeBuffer? s = some i → (s.buffer i).state = .programming, .busy, []⟩] := by
  refine .check .rfl fun _ => ?_
  rw [writeOf_some h]
  by_cases hw : w.slot = numAt p 0 ∧ s.slot (numAt p 0) = .writing
  · rw [if_pos hw]
    refine .check (by rw [Bool.not_eq_true', ← Bool.not_eq_true, w.taking_iff, and_iff_right hw]) fun _ => .order (by simp) fun _ => ?_
    by_cases he : w.phase = .erasing
    · rw [if_pos he]
      exact .fails (.inl he)
    · rw [if_neg he]
      cases hb : writeBuffer? s with
      | none => exact .fails (.inr nofun)
      | some i => exact .check (by simp [he]) fun _ => .taken
  · rw [if_neg hw]
    exact .fails fun hn => hw hn.1

theorem serveImageClose_judged {s : State} {w : ImageWrite} (h : s.store.imageWrite = some w) (p : List Byte) :
    (serveImageClose p s).judged s
      [⟨p.length ≠ 1, .format, []⟩,
        ⟨¬((w.slot = numAt p 0 ∧ s.slot (numAt p 0) = .writing) ∧ (w.phase = .erasing ∨ w.phase = .receiving)), .state, []⟩,
        ⟨w.nextIndex < w.image.length, .order, le16 w.nextIndex⟩,
        ⟨∃ i, writeBuffer? s = some i ∧ (s.buffer i).state = .programming, .busy, []⟩] := by
  unfold serveImageClose
  split
  · rename_i b
    refine .passes (fun hl => hl rfl) ?_
    rw [writeOf_some h]
    by_cases hw : w.slot = b.toNat ∧ s.slot b.toNat = .writing
    · rw [if_pos hw]
      have htaking : (!w.taking) = true ↔ ¬((w.slot = b.toNat ∧ s.slot b.toNat = .writing) ∧
          (w.phase = .erasing ∨ w.phase = .receiving)) := by
        rw [Bool.not_eq_true', ← Bool.not_eq_true, w.taking_iff, and_iff_right hw]
      exact .check htaking fun _ =>
        .order .rfl fun _ => .check (writeProgramming_iff s) fun _ => .taken
    · rw [if_neg hw]
      exact .fails fun hn => hw hn.1
  · rename_i hp
    exact .fails fun hl => (List.length_eq_one_iff.mp hl).elim hp

theorem serveImageAbort_judged {s : State} {w : ImageWrite} (h : s.store.imageWrite = some w) (p : List Byte) :
    (serveImageAbort p s).judged s
      [⟨p.length ≠ 1, .format, []⟩, ⟨¬(w.slot = numAt p 0 ∧ s.slot (numAt p 0) = .writing), .state, []⟩,
        ⟨w.phase = .committing, .busy, []⟩] := by
  unfold serveImageAbort
  split
  · rename_i b
    refine .passes (fun hl => hl rfl) ?_
    rw [writeOf_some h]
    by_cases hw : w.slot = b.toNat ∧ s.slot b.toNat = .writing
    · rw [if_pos hw]
      exact .passes (fun hn => hn hw) (.check .rfl fun _ => .taken)
    · rw [if_neg hw]
      exact .fails hw
  · rename_i hp
    exact .fails fun hl => (List.length_eq_one_iff.mp hl).elim hp

/-! ### NODE DEFINE (R47) -/

theorem laneCode_inj {l m : Lane} : laneCode l = laneCode m ↔ l = m := by
  cases l <;> cases m <;> decide

theorem laneCode_of_laneOfCode {n : Nat} {l : Lane} (h : laneOfCode n = some l) : laneCode l = n := by
  unfold laneOfCode at h
  split at h <;> cases h <;> rfl

theorem sideOfByte_isSome_iff (b : Byte) : (sideOfByte b).isSome = true ↔ b.toNat ≤ 1 ∨ b.toNat = 0xFF := by
  unfold sideOfByte
  split
  · rename_i h
    simp [h]
  · rename_i h
    simp [h]
  · rename_i h
    simp [h]
  · rename_i h0 h1 h255
    refine ⟨nofun, ?_⟩
    rintro (h | h)
    · exact (Nat.le_one_iff_eq_zero_or_eq_one.mp h).elim (absurd · h0) (absurd · h1)
    · exact absurd h h255

theorem byteAt_absent_iff (p : List Byte) (i : Nat) : byteAt p i = absentByte ↔ numAt p i = 0xFF :=
  BitVec.toNat_inj.symm

/-- The side byte disagrees with the kind byte (R47; that a byte not listed counts as a side is log 45). -/
theorem sideAgrees_false_iff (p : List Byte) :
    (!sideAgrees p) = true ↔
      (numAt p 4 = 0 ∧ numAt p 5 = 0xFF) ∨ ((numAt p 4 = 1 ∨ numAt p 4 = 2) ∧ numAt p 5 ≠ 0xFF) := by
  unfold sideAgrees Kind.ofCode
  split
  · rename_i h
    split at h
    · cases h
    · cases h
    · cases h
    · rename_i h0 h1 h2
      refine ⟨nofun, ?_⟩
      rintro (⟨h, -⟩ | ⟨h | h, -⟩)
      · exact absurd h h0
      · exact absurd h h1
      · exact absurd h h2
  · rename_i h
    have h0 : numAt p 4 = 0 := Kind.code_of_ofCode h ▸ rfl
    simp [h0, byteAt_absent_iff]
  · rename_i k hk h
    have hcode := Kind.code_of_ofCode h
    have hcode' : numAt p 4 = 1 ∨ numAt p 4 = 2 := by
      rw [← hcode]
      cases k
      · exact absurd rfl hk
      · exact .inl rfl
      · exact .inr rfl
    have h0 : numAt p 4 ≠ 0 := by omega
    simp [h0, hcode', byteAt_absent_iff]

/-- The ranges of an entry's bytes, but for the count of stations on its lane (R47). -/
def entryBytesInRange (p : List Byte) : Prop :=
  1 ≤ numAt p 0 ∧ numAt p 0 ≤ 24 ∧ 1 ≤ numAt p 1 ∧ numAt p 1 ≤ 127 ∧ numAt p 2 ≤ 1 ∧ 1 ≤ numAt p 3 ∧ numAt p 3 ≤ 30 ∧
    numAt p 4 ≤ 2 ∧ (numAt p 5 ≤ 1 ∨ numAt p 5 = 0xFF) ∧ 1 ≤ numAt p 6 ∧ numAt p 6 ≤ 15 ∧ numAt p 7 ≤ 3 ∧
    num16At p 8 ≤ 2000 ∧ 1 ≤ numAt p 10 ∧ numAt p 10 ≤ 64 ∧ num16At p 8 * numAt p 10 ≤ 65535

/-- An entry that bytes say. -/
structure Entry.saidBy (e : Entry) (p : List Byte) : Prop where
  number : e.number = numAt p 0
  aliasNo : e.aliasNo = numAt p 1
  lane : laneCode e.lane = numAt p 2
  address : e.address = numAt p 3
  kind : e.kind.code = numAt p 4
  slot : e.slot = numAt p 6

theorem readEntry_some {p : List Byte} {e : Entry} (h : readEntry p = some e) : entryBytesInRange p ∧ e.saidBy p := by
  unfold readEntry at h
  split at h
  · rename_i lane kind side hlane hkind hside
    have hl := (laneOfCode_isSome_iff (numAt p 2)).mp (by rw [hlane]; rfl)
    have hk := (Kind.ofCode_isSome_iff (numAt p 4)).mp (by rw [hkind]; rfl)
    have hs : numAt p 5 ≤ 1 ∨ numAt p 5 = 0xFF := (sideOfByte_isSome_iff (byteAt p 5)).mp (by rw [hside]; rfl)
    dsimp only at h
    split at h
    · rename_i hr
      simp only [Bool.and_eq_true, decide_eq_true_eq, and_assoc] at hr
      cases h
      obtain ⟨h0, h0', h1, h1', h3, h3', h6, h6', h7, h8, h10, h10', hc⟩ := hr
      exact ⟨⟨h0, h0', h1, h1', hl, h3, h3', hk, hs, h6, h6', h7, h8, h10, h10', hc⟩, rfl, rfl,
        laneCode_of_laneOfCode hlane, rfl, Kind.code_of_ofCode hkind, rfl⟩
    · cases h
  · cases h

theorem readEntry_none {p : List Byte} (h : readEntry p = none) : ¬entryBytesInRange p := by
  rintro ⟨h0, h0', h1, h1', hl, h3, h3', hk, hs, h6, h6', h7, h8, h10, h10', hc⟩
  obtain ⟨lane, hlane⟩ := Option.isSome_iff_exists.mp ((laneOfCode_isSome_iff (numAt p 2)).mpr hl)
  obtain ⟨kind, hkind⟩ := Option.isSome_iff_exists.mp ((Kind.ofCode_isSome_iff (numAt p 4)).mpr hk)
  obtain ⟨side, hside⟩ := Option.isSome_iff_exists.mp ((sideOfByte_isSome_iff (byteAt p 5)).mpr hs)
  simp [readEntry, hlane, hkind, hside, h0, h0', h1, h1', h3, h3', h6, h6', h7, h8, h10, h10', hc] at h

theorem laneFull_iff {e : Entry} {p : List Byte} (h : e.saidBy p) (s : State) :
    laneFull e s = true ↔
      16 ≤ (s.stations.filter fun st =>
        decide (st.entry.number ≠ numAt p 0 ∧ laneCode st.entry.lane = numAt p 2)).length := by
  have hfilter : (s.others e.number).filter (fun st => decide (st.entry.lane = e.lane)) =
      s.stations.filter fun st => decide (st.entry.number ≠ numAt p 0 ∧ laneCode st.entry.lane = numAt p 2) := by
    rw [State.others, List.filter_filter]
    refine List.filter_congr fun st _ => ?_
    simp [← h.number, ← h.lane, laneCode_inj, Bool.and_comm]
  rw [laneFull, hfilter, decide_eq_true_iff]
  rfl

theorem entryConflicts_iff {e : Entry} {p : List Byte} (h : e.saidBy p) (s : State) :
    entryConflicts e s = true ↔
      (∃ st ∈ s.stations, st.entry.number ≠ numAt p 0 ∧
          (st.entry.aliasNo = numAt p 1 ∨ (laneCode st.entry.lane = numAt p 2 ∧ st.entry.address = numAt p 3))) ∨
        ∃ im c, s.slot (numAt p 6) = .valid im c ∧ im.kind.code ≠ numAt p 4 := by
  have hstations : ((s.others e.number).any fun st =>
      decide (st.entry.aliasNo = e.aliasNo) ||
        (decide (st.entry.lane = e.lane) && decide (st.entry.address = e.address))) = true ↔
      ∃ st ∈ s.stations, st.entry.number ≠ numAt p 0 ∧
        (st.entry.aliasNo = numAt p 1 ∨ (laneCode st.entry.lane = numAt p 2 ∧ st.entry.address = numAt p 3)) := by
    rw [← h.number, ← h.aliasNo, ← h.lane, ← h.address]
    simp [State.others, laneCode_inj]
  rw [entryConflicts, Bool.or_eq_true, hstations]
  refine or_congr_right ?_
  rw [← h.slot, ← h.kind]
  unfold State.validImage?
  cases s.slot e.slot <;> simp [Kind.code_inj]

theorem serveNodeDefine_judged (p : List Byte) (s : State) :
    (serveNodeDefine p s).judged s
      [⟨p.length ≠ 11 ∨ (numAt p 4 = 0 ∧ numAt p 5 = 0xFF) ∨ ((numAt p 4 = 1 ∨ numAt p 4 = 2) ∧ numAt p 5 ≠ 0xFF),
          .format, []⟩,
        ⟨¬entryBytesInRange p ∨
          16 ≤ (s.stations.filter fun st =>
            decide (st.entry.number ≠ numAt p 0 ∧ laneCode st.entry.lane = numAt p 2)).length, .range, []⟩,
        ⟨s.hasJob (numAt p 0) = true, .state, []⟩,
        ⟨(∃ l t, (s.lane l).txn = some t ∧ t.station = some (numAt p 0)) ∨ s.query = some (numAt p 0), .busy, []⟩,
        ⟨(∃ st ∈ s.stations, st.entry.number ≠ numAt p 0 ∧
            (st.entry.aliasNo = numAt p 1 ∨ (laneCode st.entry.lane = numAt p 2 ∧ st.entry.address = numAt p 3))) ∨
          ∃ im c, s.slot (numAt p 6) = .valid im c ∧ im.kind.code ≠ numAt p 4, .conflict, []⟩] := by
  refine .check (by rw [Bool.or_eq_true, decide_eq_true_iff, sideAgrees_false_iff]) fun _ => ?_
  split
  · exact .fails (.inl (readEntry_none ‹_›))
  · rename_i e he
    obtain ⟨hrange, hsaid⟩ := readEntry_some he
    refine .check ?_ fun _ => .check ?_ fun _ => .check ?_ fun _ => .check (entryConflicts_iff hsaid s) fun _ => .taken
    · rw [or_iff_right (not_not.mpr hrange), laneFull_iff hsaid]
    · rw [hsaid.number]
    · rw [hsaid.number, stationBusy_iff]

end Sys2Proof.Machine
end

section
/-! PROOFS. The checks of the requests that carry pairs or aliases (spec/09, 9.4; spec/04, 4.3; spec/05, 5.5). -/

namespace Sys2Proof.Machine

/-! ### Runs of bytes -/

theorem byteAt_drop (p : List Byte) (m i : Nat) : byteAt (p.drop m) i = byteAt p (m + i) := by
  rw [byteAt, byteAt, List.getD_eq_getElem?_getD, List.getD_eq_getElem?_getD, List.getElem?_drop]

theorem byteAt_take {k i : Nat} (h : i < k) (p : List Byte) : byteAt (p.take k) i = byteAt p i := by
  rw [byteAt, byteAt, List.getD_eq_getElem?_getD, List.getD_eq_getElem?_getD, List.getElem?_take_of_lt h]

theorem runsOf_eq (size n : Nat) (p : List Byte) :
    runsOf size n p = (List.range n).map fun k => (p.drop (size * k)).take size := by
  induction n generalizing p with
  | zero => rfl
  | succ n ih =>
    rw [runsOf, ih, List.range_succ_eq_map, List.map_cons, List.map_map, Nat.mul_zero, List.drop_zero]
    refine congrArg (p.take size :: ·) (List.map_congr_left fun k _ => ?_)
    rw [List.drop_drop, Function.comp, Nat.mul_succ, Nat.add_comm]

/-- A byte of a run. -/
theorem byteAt_run {size i : Nat} (h : i < size) (p : List Byte) (m k : Nat) :
    byteAt (((p.drop m).drop (size * k)).take size) i = byteAt p (m + i + size * k) := by
  rw [byteAt_take h, List.drop_drop, byteAt_drop]
  exact congrArg (byteAt p) (by omega)

theorem num16At_run {size i : Nat} (h : i + 1 < size) (p : List Byte) (m k : Nat) :
    num16At (((p.drop m).drop (size * k)).take size) i = num16At p (m + i + size * k) := by
  rw [num16At, num16At, byteAt_run (Nat.lt_of_succ_lt h), byteAt_run h]
  refine congrArg (fun j => nat16 (byteAt p (m + i + size * k)) (byteAt p j)) ?_
  omega

theorem settingPairs_eq (p : List Byte) :
    settingPairs p = (List.range (numAt p 0)).map fun k => (numAt p (1 + 3 * k), num16At p (2 + 3 * k)) := by
  rw [settingPairs, runsOf_eq, List.map_map]
  refine List.map_congr_left fun k _ => Prod.ext ?_ ?_
  · exact congrArg BitVec.toNat (byteAt_run (by decide) p 1 k)
  · exact num16At_run (by decide) p 1 k

theorem contextPairs_eq (p : List Byte) :
    contextPairs p = (List.range (numAt p 1)).map fun k =>
      { code := numAt p (2 + 4 * k), mark := byteAt p (3 + 4 * k), value := num16At p (4 + 4 * k) } := by
  rw [contextPairs, runsOf_eq, List.map_map]
  refine List.map_congr_left fun k _ => Pair.mk.injEq .. ▸ ⟨?_, ?_, ?_⟩
  · exact congrArg BitVec.toNat (byteAt_run (by decide) p 2 k)
  · exact byteAt_run (by decide) p 2 k
  · exact num16At_run (by decide) p 2 k

theorem nodup_map_range_iff {α : Type} (n : Nat) (f : Nat → α) :
    ((List.range n).map f).Nodup ↔ ¬∃ j k, j < k ∧ k < n ∧ f j = f k := by
  rw [List.Nodup, List.pairwise_map, List.pairwise_iff_getElem]
  simp only [List.length_range, List.getElem_range]
  constructor
  · rintro h ⟨j, k, hjk, hk, he⟩
    exact h j k (hjk.trans hk) hk hjk he
  · intro h j k _ hk hjk he
    exact h ⟨j, k, hjk, hk, he⟩

/-- The codes of a list of pairs are right: each known, and none twice (R55, R165). -/
theorem codesWrong_iff (n greatest : Nat) (code : Nat → Nat) :
    ¬codesWrong n greatest code ↔ (∀ k, k < n → code k ≤ greatest) ∧ ((List.range n).map code).Nodup := by
  rw [codesWrong, not_or, nodup_map_range_iff]
  refine and_congr_left fun _ => ?_
  push Not
  rfl

/-- A pair of a SETTINGS SET, by its place. -/
theorem exists_settingPair (p : List Byte) (P : Nat × Nat → Prop) :
    (∃ q ∈ settingPairs p, P q) ↔ ∃ k, k < numAt p 0 ∧ P (numAt p (1 + 3 * k), num16At p (2 + 3 * k)) := by
  simp [settingPairs_eq]

/-- A pair of a CONTEXT SET, by its place. -/
theorem exists_contextPair (p : List Byte) (P : Pair → Prop) :
    (∃ q ∈ contextPairs p, P q) ↔
      ∃ k, k < numAt p 1 ∧
        P { code := numAt p (2 + 4 * k), mark := byteAt p (3 + 4 * k), value := num16At p (4 + 4 * k) } := by
  simp [contextPairs_eq]

/-! ### SETTINGS SET (R165) -/

theorem settingsLayout_false_iff (p : List Byte) :
    (!settingsLayout p) = true ↔
      ¬(1 ≤ numAt p 0 ∧ numAt p 0 ≤ 17 ∧ p.length = 1 + 3 * numAt p 0) ∨
        codesWrong (numAt p 0) 16 fun k => numAt p (1 + 3 * k) := by
  have hcodes := codesWrong_iff (numAt p 0) 16 fun k => numAt p (1 + 3 * k)
  rw [Bool.not_eq_true', ← Bool.not_eq_true, ← not_not (a := codesWrong _ _ _), hcodes, ← not_and_or]
  refine not_congr ?_
  simp [settingsLayout, settingPairs_eq, and_assoc, Function.comp_def]

theorem Settings.put_none_iff {c : Nat} (h : c ≤ 16) (v : Nat) (x : Settings) :
    x.put c v = none ↔ (c ∈ [4, 5] ∧ v ∉ [500, 1000, 2000]) ∨ (c ∈ [9, 10, 13, 14, 15] ∧ 1 < v) := by
  have hrate : LaneRate.ofKbit v = none ↔ v ∉ [500, 1000, 2000] := by
    unfold LaneRate.ofKbit
    split <;> simp_all
  have hmode : PresenceMode.ofCode v = none ↔ 1 < v := by
    rw [← switchOf_none_iff]
    unfold PresenceMode.ofCode switchOf
    split <;> simp_all
  unfold Settings.put
  interval_cases c <;> simp [hrate, hmode, switchOf_none_iff]

theorem putSettings_none_iff (ps : List (Nat × Nat)) (hc : ∀ q ∈ ps, q.1 ≤ 16) (x : Settings) :
    putSettings ps x = none ↔
      ∃ q ∈ ps, (q.1 ∈ [4, 5] ∧ q.2 ∉ [500, 1000, 2000]) ∨ (q.1 ∈ [9, 10, 13, 14, 15] ∧ 1 < q.2) := by
  induction ps generalizing x with
  | nil => simp [putSettings]
  | cons q ps ih =>
    obtain ⟨hq, hps⟩ := List.forall_mem_cons.mp hc
    rw [List.exists_mem_cons_iff, ← Settings.put_none_iff hq q.2 x, putSettings]
    cases hx : x.put q.1 q.2 with
    | none => simp
    | some y => simpa using ih hps y

theorem serveSettingsSet_judged (p : List Byte) (s : State) :
    (serveSettingsSet p s).judged s
      [⟨¬(1 ≤ numAt p 0 ∧ numAt p 0 ≤ 17 ∧ p.length = 1 + 3 * numAt p 0) ∨
          codesWrong (numAt p 0) 16 (fun k => numAt p (1 + 3 * k)), .format, []⟩,
        ⟨∃ k, k < numAt p 0 ∧
          ((numAt p (1 + 3 * k) ∈ [4, 5] ∧ num16At p (2 + 3 * k) ∉ [500, 1000, 2000]) ∨
            (numAt p (1 + 3 * k) ∈ [9, 10, 13, 14, 15] ∧ 1 < num16At p (2 + 3 * k))), .range, []⟩] := by
  refine .check (settingsLayout_false_iff p) fun hlayout => ?_
  have hcodes := ((codesWrong_iff _ _ _).mp (not_or.mp hlayout).2).1
  have hnone : putSettings (settingPairs p) s.settings = none ↔ _ :=
    (putSettings_none_iff _ (by simpa [settingPairs_eq] using hcodes) s.settings).trans (exists_settingPair p _)
  dsimp only
  split
  · exact .fails (hnone.mp ‹_›)
  · exact .passes (mt hnone.mpr (by simp [*])) .taken

/-! ### CONTEXT SET (R55) -/

theorem contextLayout_false_iff (p : List Byte) :
    (!contextLayout p) = true ↔
      ¬(1 ≤ numAt p 1 ∧ numAt p 1 ≤ 8 ∧ p.length = 2 + 4 * numAt p 1) ∨
        codesWrong (numAt p 1) 8 (fun k => numAt p (2 + 4 * k)) ∨ ∃ k, k < numAt p 1 ∧ 1 < numAt p (3 + 4 * k) := by
  have hcodes := codesWrong_iff (numAt p 1) 8 fun k => numAt p (2 + 4 * k)
  have hmarks : (¬∃ k, k < numAt p 1 ∧ 1 < numAt p (3 + 4 * k)) ↔
      ∀ k, k < numAt p 1 → (flagOf (byteAt p (3 + 4 * k))).isSome = true := by
    simp only [not_exists, not_and, not_lt, flagOf, switchOf_isSome_iff]
    rfl
  rw [Bool.not_eq_true', ← Bool.not_eq_true, ← not_not (a := codesWrong _ _ _ ∨ _), not_or, hcodes, hmarks, ← not_and_or]
  refine not_congr ?_
  simp only [contextLayout, contextPairs_eq, Bool.and_eq_true, decide_eq_true_eq, List.all_map, List.map_map,
    List.all_eq_true, List.mem_range, Function.comp_def, forall_and]
  tauto

theorem judgeField_none_iff {c : Nat} (h : c ≤ 8) (v : Nat) :
    judgeField c v = none ↔
      (c = 0 ∧ 2 < v) ∨ (c = 3 ∧ 999 < v) ∨ (c = 4 ∧ 4095 < v) ∨ (c = 5 ∧ 127 < v) ∨ (c = 8 ∧ 1 < v) := by
  unfold judgeField
  interval_cases c <;> simp

theorem putPair_none_iff {q : Pair} (hc : q.code ≤ 8) (hm : q.mark.toNat ≤ 1) (f : Fields) :
    putPair q f = none ↔ q.mark.toNat = 0 ∧
      ((q.code = 0 ∧ 2 < q.value) ∨ (q.code = 3 ∧ 999 < q.value) ∨ (q.code = 4 ∧ 4095 < q.value) ∨
        (q.code = 5 ∧ 127 < q.value) ∨ (q.code = 8 ∧ 1 < q.value)) := by
  rw [← judgeField_none_iff hc]
  have hmark : q.mark = 1 ↔ q.mark.toNat ≠ 0 := by
    rw [← BitVec.toNat_inj]
    show q.mark.toNat = 1 ↔ _
    omega
  unfold putPair
  by_cases h : q.mark = 1
  · simp [h]
  · rw [if_neg h, Option.map_eq_none_iff, and_iff_right (not_not.mp (mt hmark.mpr h))]

theorem putPairs_none_iff (ps : List Pair) (hc : ∀ q ∈ ps, q.code ≤ 8 ∧ q.mark.toNat ≤ 1) (f : Fields) :
    putPairs ps f = none ↔
      ∃ q ∈ ps, q.mark.toNat = 0 ∧
        ((q.code = 0 ∧ 2 < q.value) ∨ (q.code = 3 ∧ 999 < q.value) ∨ (q.code = 4 ∧ 4095 < q.value) ∨
          (q.code = 5 ∧ 127 < q.value) ∨ (q.code = 8 ∧ 1 < q.value)) := by
  induction ps generalizing f with
  | nil => simp [putPairs]
  | cons q ps ih =>
    obtain ⟨⟨hq, hm⟩, hps⟩ := List.forall_mem_cons.mp hc
    rw [List.exists_mem_cons_iff, ← putPair_none_iff hq hm f, putPairs]
    cases hx : putPair q f with
    | none => simp
    | some y => simpa using ih hps y

/-- A field that is not one of a kind's (R53). -/
def foreignField (kind : Kind) (c : Nat) : Prop :=
  match kind with
  | .entrance => 2 < c
  | .saloon => c < 3 ∨ 8 < c
  | .destination => c ∉ [3, 4, 7, 8]

theorem fieldBelongs_false_iff (k : Kind) (c : Nat) : (!fieldBelongs k c) = true ↔ foreignField k c := by
  unfold fieldBelongs foreignField
  cases k <;> simp
  omega

theorem serveContextSet_judged (p : List Byte) (s : State) :
    (serveContextSet p s).judged s
      [⟨¬(1 ≤ numAt p 1 ∧ numAt p 1 ≤ 8 ∧ p.length = 2 + 4 * numAt p 1) ∨
          codesWrong (numAt p 1) 8 (fun k => numAt p (2 + 4 * k)) ∨ ∃ k, k < numAt p 1 ∧ 1 < numAt p (3 + 4 * k),
          .format, []⟩,
        ⟨∀ st ∈ s.stations, st.entry.aliasNo ≠ numAt p 0, .unknown, []⟩,
        ⟨∃ st, s.aliased? (numAt p 0) = some st ∧
          ∃ k, k < numAt p 1 ∧ foreignField st.entry.kind (numAt p (2 + 4 * k)), .format, []⟩,
        ⟨∃ k, k < numAt p 1 ∧ numAt p (3 + 4 * k) = 0 ∧
          ((numAt p (2 + 4 * k) = 0 ∧ 2 < num16At p (4 + 4 * k)) ∨
            (numAt p (2 + 4 * k) = 3 ∧ 999 < num16At p (4 + 4 * k)) ∨
            (numAt p (2 + 4 * k) = 4 ∧ 4095 < num16At p (4 + 4 * k)) ∨
            (numAt p (2 + 4 * k) = 5 ∧ 127 < num16At p (4 + 4 * k)) ∨
            (numAt p (2 + 4 * k) = 8 ∧ 1 < num16At p (4 + 4 * k))), .range, []⟩] := by
  refine .check (contextLayout_false_iff p) fun hlayout => ?_
  obtain ⟨-, hlayout⟩ := not_or.mp hlayout
  obtain ⟨hwrong, hmarks⟩ := not_or.mp hlayout
  have hcodes := ((codesWrong_iff _ _ _).mp hwrong).1
  have hunnamed := s.aliased?_none_iff (numAt p 0)
  split
  · exact .fails (hunnamed.mp ‹_›)
  · rename_i st hst
    have hin : ∀ q ∈ contextPairs p, q.code ≤ 8 ∧ q.mark.toNat ≤ 1 := by
      rw [contextPairs_eq]
      refine List.forall_mem_map.mpr fun k hk => ⟨hcodes k (List.mem_range.mp hk), Nat.le_of_not_lt fun h => ?_⟩
      exact hmarks ⟨k, List.mem_range.mp hk, h⟩
    have hnone : putPairs (contextPairs p) st.context.fields = none ↔ _ :=
      (putPairs_none_iff _ hin st.context.fields).trans (exists_contextPair p _)
    have hforeign : ((contextPairs p).any fun q => !fieldBelongs st.entry.kind q.code) = true ↔
        ∃ st, s.aliased? (numAt p 0) = some st ∧
          ∃ k, k < numAt p 1 ∧ foreignField st.entry.kind (numAt p (2 + 4 * k)) := by
      simp only [List.any_eq_true, fieldBelongs_false_iff, hst, Option.some.injEq, exists_eq_left']
      exact exists_contextPair p fun q => foreignField st.entry.kind q.code
    refine .passes (mt hunnamed.mpr (by simp [hst])) (.check hforeign fun _ => ?_)
    split
    · exact .fails (hnone.mp ‹_›)
    · exact .passes (mt hnone.mpr (by simp [*])) .taken

/-! ### RESTORE NOW (R91) -/

theorem drop_one_eq {p : List Byte} {n : Nat} (h : p.length = 1 + n) :
    p.drop 1 = (List.range n).map fun k => byteAt p (1 + k) := by
  refine List.ext_getElem (by simp [h]) fun k hk _ => ?_
  have hlt : 1 + k < p.length := by
    rw [List.length_drop] at hk
    omega
  rw [List.getElem_map, List.getElem_range, List.getElem_drop, byteAt, List.getD_eq_getElem _ _ hlt]

theorem restoreLayout_false_iff (p : List Byte) :
    (!restoreLayout p) = true ↔
      24 < numAt p 0 ∨ p.length ≠ 1 + numAt p 0 ∨
        ∃ j k, j < k ∧ k < numAt p 0 ∧ numAt p (1 + j) = numAt p (1 + k) := by
  have hlayout : restoreLayout p = true ↔ numAt p 0 ≤ 24 ∧ p.length = 1 + numAt p 0 ∧ (p.drop 1).Nodup := by
    simp [restoreLayout, and_assoc]
  rw [Bool.not_eq_true', ← Bool.not_eq_true, hlayout]
  by_cases hl : p.length = 1 + numAt p 0
  · have hnum : ∀ j k, numAt p (1 + j) = numAt p (1 + k) ↔ byteAt p (1 + j) = byteAt p (1 + k) := fun j k =>
      BitVec.toNat_inj
    rw [drop_one_eq hl, nodup_map_range_iff]
    simp only [hl, hnum, ne_eq, not_true, false_or, true_and, not_and_or, not_not, not_le]
  · simp [hl]

theorem serveRestoreNow_judged (p : List Byte) (s : State) :
    (serveRestoreNow p s).judged s
      [⟨24 < numAt p 0 ∨ p.length ≠ 1 + numAt p 0 ∨
          ∃ j k, j < k ∧ k < numAt p 0 ∧ numAt p (1 + j) = numAt p (1 + k), .format, []⟩,
        ⟨∃ k, k < numAt p 0 ∧ ∀ st ∈ s.stations, st.entry.aliasNo ≠ numAt p (1 + k), .unknown, []⟩] := by
  refine .check (restoreLayout_false_iff p) fun hlayout => .check ?_ fun _ => .taken
  have hlen : p.length = 1 + numAt p 0 := not_not.mp (not_or.mp (not_or.mp hlayout).2).1
  rw [drop_one_eq hlen]
  simp [State.aliased?_none_iff, numAt]

end Sys2Proof.Machine
end

section
/-! PROOFS. Every request refused by the first check it fails (spec/09, 9.2; R157). -/

namespace Sys2Proof.Machine

/-- The checks of the image requests differ where no write is in progress. -/
theorem serveImage_kept (p : List Byte) (s : State) :
    ((serveImageBlock p s).status ≠ .ok → (serveImageBlock p s).state = s) ∧
      ((serveImageClose p s).status ≠ .ok → (serveImageClose p s).state = s) ∧
      ((serveImageAbort p s).status ≠ .ok → (serveImageAbort p s).state = s) := by
  cases h : s.store.imageWrite with
  | none =>
    exact ⟨(serveImageBlock_judged_none h p).kept, (serveImageClose_judged_none h p).kept,
      (serveImageAbort_judged_none h p).kept⟩
  | some w =>
    exact ⟨(serveImageBlock_judged h p).kept, (serveImageClose_judged h p).kept, (serveImageAbort_judged h p).kept⟩

theorem serveKind_kept (r : Request) (s : State) : (serveKind r s).status ≠ .ok → (serveKind r s).state = s := by
  obtain ⟨hblock, hclose, habort⟩ := serveImage_kept r.payload s
  unfold serveKind
  split
  · exact (serveStatus_judged _ s).kept
  · exact (serveNoticeFetch_judged _ s).kept
  · exact (serveSettingsSet_judged _ s).kept
  · exact (serveSettingsRead_judged _ s).kept
  · exact (serveConfigSave_judged _ s).kept
  · exact (serveNodeDefine_judged _ s).kept
  · exact (serveNodeRemove_judged _ s).kept
  · exact (serveNodeRead_judged _ s).kept
  · exact (serveNodeQuery_judged _ s).kept
  · exact (serveContextSet_judged _ s).kept
  · exact (serveContextRead_judged _ s).kept
  · exact (serveCarStateSet_judged _ s).kept
  · exact (serveRestoreNow_judged _ s).kept
  · exact (serveEngineRestart_judged _ s).kept
  · exact (serveGapRead_judged _ s).kept
  · exact (serveImageOpen_judged _ s).kept
  · exact hblock
  · exact hclose
  · exact habort
  · exact (serveImageList_judged _ s).kept
  · exact (serveLaneInject_judged _ s).kept
  · exact fun _ => rfl

theorem answerRequest_kept (r : Request) (s : State) :
    (answerRequest r s).status ≠ .ok → (answerRequest r s).state = s := by
  unfold answerRequest
  split
  · exact serveKind_kept r s
  · exact fun _ => rfl

theorem argumentless_checks {s : State} (hs : s.serves) (tag : Byte) (p : List Byte) :
    ∀ i ∈ [Instr.status tag p, .settingsRead tag p, .engineRestart tag p, .gapRead tag p, .imageList tag p],
      s.checksInOrder i [⟨p ≠ [], .format, []⟩] := by
  intro i hi
  simp only [List.mem_cons, List.not_mem_nil, or_false] at hi
  rcases hi with rfl | rfl | rfl | rfl | rfl
  · exact (serveStatus_judged p s).checksInOrder (r := requestOf 0x01 tag p) hs rfl
  · exact (serveSettingsRead_judged p s).checksInOrder (r := requestOf 0x04 tag p) hs rfl
  · exact (serveEngineRestart_judged p s).checksInOrder (r := requestOf 0x0E tag p) hs rfl
  · exact (serveGapRead_judged p s).checksInOrder (r := requestOf 0x0F tag p) hs rfl
  · exact (serveImageList_judged p s).checksInOrder (r := requestOf 0x14 tag p) hs rfl

/-- Settles O30. -/
theorem refusalsInOrder : Obligations.RefusalsInOrder := by
  refine ⟨answerRequest_kept, fun s tag p hs => ⟨argumentless_checks hs tag p,
    (serveNoticeFetch_judged p s).checksInOrder (r := requestOf 0x02 tag p) hs rfl,
    (serveSettingsSet_judged p s).checksInOrder (r := requestOf 0x03 tag p) hs rfl,
    (serveConfigSave_judged p s).checksInOrder (r := requestOf 0x05 tag p) hs rfl,
    (serveNodeDefine_judged p s).checksInOrder (r := requestOf 0x06 tag p) hs rfl,
    (serveNodeRemove_judged p s).checksInOrder (r := requestOf 0x07 tag p) hs rfl,
    (serveNodeRead_judged p s).checksInOrder (r := requestOf 0x08 tag p) hs rfl,
    (serveNodeQuery_judged p s).checksInOrder (r := requestOf 0x09 tag p) hs rfl,
    (serveContextSet_judged p s).checksInOrder (r := requestOf 0x0A tag p) hs rfl,
    (serveContextRead_judged p s).checksInOrder (r := requestOf 0x0B tag p) hs rfl,
    (serveCarStateSet_judged p s).checksInOrder (r := requestOf 0x0C tag p) hs rfl,
    (serveRestoreNow_judged p s).checksInOrder (r := requestOf 0x0D tag p) hs rfl,
    (serveImageOpen_judged p s).checksInOrder (r := requestOf 0x10 tag p) hs rfl,
    fun hw => ⟨(serveImageBlock_judged_none hw p).checksInOrder (r := requestOf 0x11 tag p) hs rfl,
      (serveImageClose_judged_none hw p).checksInOrder (r := requestOf 0x12 tag p) hs rfl,
      (serveImageAbort_judged_none hw p).checksInOrder (r := requestOf 0x13 tag p) hs rfl⟩,
    fun w hw => ⟨(serveImageBlock_judged hw p).checksInOrder (r := requestOf 0x11 tag p) hs rfl,
      (serveImageClose_judged hw p).checksInOrder (r := requestOf 0x12 tag p) hs rfl,
      (serveImageAbort_judged hw p).checksInOrder (r := requestOf 0x13 tag p) hs rfl⟩,
    (serveLaneInject_judged p s).checksInOrder (r := requestOf 0x15 tag p) hs rfl⟩⟩

end Sys2Proof.Machine
end

section
/-! PROOFS. RESTORE NOW (spec/05, 5.5). -/

namespace Sys2Proof.Machine

/-! ### The order in which the named stations join (R71, R91) -/

/-- A list taken key by key is the whole list, in another order. -/
theorem flatMap_filter_perm {α : Type} (key : α → Nat) {cs : List Nat} (hcs : cs.Nodup) {xs : List α}
    (h : ∀ x ∈ xs, key x ∈ cs) : (cs.flatMap fun c => xs.filter (key · = c)).Perm xs := by
  induction cs generalizing xs with
  | nil =>
    cases xs with
    | nil => exact .refl _
    | cons x xs => cases h x (List.mem_cons_self ..)
  | cons c cs ih =>
    obtain ⟨hc, hcs⟩ := List.nodup_cons.1 hcs
    have hothers : (cs.flatMap fun d => xs.filter (key · = d)) =
        cs.flatMap fun d => (xs.filter fun x => !decide (key x = c)).filter (key · = d) := by
      simp only [List.flatMap_def]
      refine congrArg List.flatten (List.map_congr_left fun d hd => ?_)
      rw [List.filter_filter]
      refine List.filter_congr fun x _ => ?_
      by_cases hx : key x = d
      · simp [hx, show d ≠ c from fun he => hc (he ▸ hd)]
      · simp [hx]
    have hrest : ∀ x ∈ xs.filter (fun x => !decide (key x = c)), key x ∈ cs := fun x hx => by
      obtain ⟨hx, hne⟩ := List.mem_filter.1 hx
      exact (List.mem_cons.1 (h x hx)).resolve_left (by simpa using hne)
    rw [List.flatMap_cons, hothers]
    exact ((ih hcs hrest).append_left _).trans (List.filter_append_perm _ _)

/-- Every station without a job that is named joins once. -/
theorem restoreOrder_perm {named : List Station} (h : ∀ st ∈ named, st.entry.restoreClass ≤ 3) (s : State) :
    (restoreOrder named s).Perm ((named.filter fun st => !(s.hasJob st.entry.number)).map (·.entry.number)) := by
  have hflat : restoreOrder named s =
      ([0, 1, 2, 3].flatMap fun c => (named.filter fun st => !(s.hasJob st.entry.number)).filter
        fun st => decide (st.entry.restoreClass = c)).map (·.entry.number) := by
    simp only [restoreOrder, List.map_flatMap, List.filter_filter]
  rw [hflat]
  have hclasses : [0, 1, 2, 3].Nodup := by decide
  refine (flatMap_filter_perm (fun st : Station => st.entry.restoreClass) hclasses fun st hst => ?_).map _
  have hc := h st (List.mem_of_mem_filter hst)
  simp only [List.mem_cons, List.not_mem_nil]
  omega

/-! ### Jobs created one after another (R72, R76, R87) -/

/-- Nothing has changed but the Engine, the push lists and the pending polls (R64, R72, R113). -/
theorem addJob_frame (n : Nat) (o : Origin) (p : Prediction) (s : State) :
    ∃ e a b x y, addJob n o p s =
      { s with
        engine := e, pushA := a, pushB := b
        laneA := { s.laneA with pendingPoll := x }, laneB := { s.laneB with pendingPoll := y } } := by
  have hpoll : ∀ l, ∃ x, (addJob n o p s).lane l = { s.lane l with pendingPoll := x } := fun l => by
    rw [addJob_lane]
    split <;> exact ⟨_, rfl⟩
  obtain ⟨x, hx⟩ := hpoll .a
  obtain ⟨y, hy⟩ := hpoll .b
  refine ⟨(addJob n o p s).engine, (addJob n o p s).pushA, (addJob n o p s).pushB, x, y, ?_⟩
  calc
    addJob n o p s =
        { s with
          engine := (addJob n o p s).engine, pushA := (addJob n o p s).pushA, pushB := (addJob n o p s).pushB
          laneA := (addJob n o p s).lane .a, laneB := (addJob n o p s).lane .b } := rfl
    _ = _ := by
      rw [hx, hy]
      rfl

theorem Engine.joined_twice (e : Engine) (now : Time) : (e.joined now).joined now = e.joined now := by
  by_cases h : e.phase = .idle <;> simp [Engine.joined, h]

theorem Engine.joined_with (e : Engine) (queue : List Job) (nextJob : Nat) (now : Time) :
    Engine.joined { e with queue := queue, nextJob := nextJob } now =
      { e.joined now with queue := queue, nextJob := nextJob } := by
  unfold Engine.joined
  dsimp only
  split <;> rfl

/-- The run that a job created now belongs to: in LINE a new one where the Engine is IDLE (R76). -/
def State.engineJoined (s : State) : Engine :=
  if s.supply.state = .line then s.engine.joined s.timebase.count else s.engine

theorem State.engineJoined_pass (s : State) : s.engineJoined.pass = s.engine.pass := by
  unfold State.engineJoined
  split
  · exact Engine.joined_pass _ _
  · rfl

/-- A job created for a station without one, in LINE or elsewhere. -/
theorem createJob_eq {n : Nat} {s : State} (hj : s.hasJob n = false) (hs : (s.station? n).isSome = true) (o : Origin) :
    createJob n o s =
      { addJob n o .none s with
        timebase :=
          if s.supply.state = .line then
            s.timebase.set (.restoreLimit n) (s.timebase.count + ms s.settings.restoreLimit)
          else s.timebase
        engine :=
          { s.engineJoined with
            queue := (addJob n o .none s).engine.queue, nextJob := (addJob n o .none s).engine.nextJob } } := by
  by_cases hl : s.supply.state = .line
  · have he : (addJob n o .none s).engine.joined s.timebase.count =
        { s.engineJoined with
          queue := (addJob n o .none s).engine.queue, nextJob := (addJob n o .none s).engine.nextJob } := by
      have hp : (addJob n o .none s).engine.phase = s.engine.phase := rfl
      unfold State.engineJoined Engine.joined
      rw [if_pos hl, hp]
      split <;> rfl
    rw [createJob_line hj hs hl, he, if_pos hl]
  · have hn : (s.station? n).isNone = false := by rw [← Option.not_isSome, hs]; rfl
    unfold createJob State.engineJoined
    simp only [hj, hn, hl, Bool.or_self, Bool.false_eq_true, if_false]
    rfl

/-- Jobs of an origin have been created for some stations that had none, each with the pass number and with its restore
limit armed in LINE, and with neither elsewhere; their push entries and pending polls have been withdrawn. -/
structure State.jobsMade (s : State) (o : Origin) (ns : List Nat) (t : State) : Prop where
  frame : t =
    { s with
      engine := t.engine, pushA := t.pushA, pushB := t.pushB, timebase := t.timebase
      laneA := { s.laneA with pendingPoll := t.laneA.pendingPoll }
      laneB := { s.laneB with pendingPoll := t.laneB.pendingPoll } }
  kept : ∀ m, m ∉ ns → t.job? m = s.job? m
  made : ∀ n ∈ ns, ∃ id, t.job? n = some (Job.create n id o .none s.joinPass)
  count : t.timebase.count = s.timebase.count
  limits : s.supply.state = .line → ∀ p, t.timebase.dueOf p =
    if ∃ n ∈ ns, p = .restoreLimit n then some (s.timebase.count + ms s.settings.restoreLimit) else s.timebase.dueOf p
  outside : s.supply.state ≠ .line → t.timebase = s.timebase
  pushes : ∀ m, t.push? m = if m ∈ ns then none else s.push? m
  engine : t.engine =
    { (if ns = [] then s.engine else s.engineJoined) with queue := t.engine.queue, nextJob := t.engine.nextJob }

namespace State.jobsMade

theorem nil (s : State) (o : Origin) : s.jobsMade o [] s where
  frame := rfl
  kept := fun _ _ => rfl
  made := nofun
  count := rfl
  limits := fun _ _ => by simp
  outside := fun _ => rfl
  pushes := fun _ => by simp
  engine := rfl

/-- One job created (R72). -/
theorem createJob {n : Nat} {s : State} (hj : s.hasJob n = false) (hs : (s.station? n).isSome = true) (o : Origin) :
    s.jobsMade o [n] (Machine.createJob n o s) := by
  have heq := createJob_eq hj hs o
  have hjob : ∀ m, (Machine.createJob n o s).job? m = (addJob n o .none s).job? m := fun m => by rw [heq]; rfl
  refine ⟨?_, fun m hm => ?_, fun m hm => ?_, ?_, fun hl p => ?_, fun hl => ?_, fun m => ?_, ?_⟩
  · obtain ⟨e, a, b, p, q, hadd⟩ := addJob_frame n o .none s
    rw [heq, hadd]
  · rw [hjob, addJob_job? hj, if_neg (by simpa using hm)]
  · obtain rfl := List.mem_singleton.1 hm
    exact ⟨_, by rw [hjob, addJob_job? hj, if_pos rfl]⟩
  · rw [heq]
    dsimp only
    split <;> rfl
  · rw [heq]
    simp [hl]
  · rw [heq]
    exact if_neg hl
  · rw [heq]
    simp only [List.mem_singleton]
    exact removePush_push? s n m
  · rw [heq]
    rfl

/-- The run of jobs created after others is that of the others. -/
theorem engineJoined {s t : State} {o : Origin} {ns : List Nat} (h : s.jobsMade o ns t) :
    t.engineJoined = { s.engineJoined with queue := t.engine.queue, nextJob := t.engine.nextJob } := by
  have hsupply : t.supply = s.supply := by rw [h.frame]
  unfold State.engineJoined
  rw [hsupply, h.count]
  split
  · rename_i hl
    rw [h.engine, Engine.joined_with]
    split
    · rfl
    · rw [State.engineJoined, if_pos hl, Engine.joined_twice]
  · rename_i hl
    have he := h.engine
    rw [State.engineJoined, if_neg hl, ite_self] at he
    exact he

theorem pass {s t : State} {o : Origin} {ns : List Nat} (h : s.jobsMade o ns t) : t.engine.pass = s.engine.pass := by
  rw [h.engine]
  dsimp only
  split
  · rfl
  · exact s.engineJoined_pass

theorem joinPass {s t : State} {o : Origin} {ns : List Nat} (h : s.jobsMade o ns t) : t.joinPass = s.joinPass := by
  have hsupply : t.supply = s.supply := by rw [h.frame]
  rw [State.joinPass, hsupply, h.pass]
  rfl

/-- In LINE the first of them begins a run where the Engine is IDLE (R76). -/
theorem run {s t : State} {o : Origin} {ns : List Nat} (h : s.jobsMade o ns t) :
    if s.supply.state = .line ∧ s.engine.phase = .idle ∧ ns ≠ [] then
      t.engine.phase = .active ∧ t.engine.restored = 0 ∧ t.engine.failed = 0 ∧ t.engine.runStart = s.timebase.count
    else t.engine = { s.engine with queue := t.engine.queue, nextJob := t.engine.nextJob } := by
  have he := h.engine
  split
  · rename_i hc
    obtain ⟨hl, hi, hn⟩ := hc
    rw [if_neg hn, State.engineJoined, if_pos hl] at he
    rw [he]
    exact Engine.joined_idle hi _
  · rename_i hc
    have hsame : (if ns = [] then s.engine else s.engineJoined) = s.engine := by
      unfold State.engineJoined Engine.joined
      split
      · rfl
      · rename_i hn
        split
        · rename_i hl
          exact if_neg fun hi => hc ⟨hl, hi, hn⟩
        · rfl
    rwa [hsame] at he

theorem trans {s t u : State} {o : Origin} {ns ms : List Nat} (h : s.jobsMade o ns t) (h' : t.jobsMade o ms u)
    (hd : ∀ n ∈ ns, n ∉ ms) : s.jobsMade o (ns ++ ms) u := by
  have hsupply : t.supply = s.supply := by rw [h.frame]
  have hsettings : t.settings = s.settings := by rw [h.frame]
  refine ⟨?_, fun m hm => ?_, fun m hm => ?_, h'.count.trans h.count, fun hl p => ?_,
    fun hl => (h'.outside (by rwa [hsupply])).trans (h.outside hl), fun m => ?_, ?_⟩
  · have hf := h'.frame
    rw [h.frame] at hf
    exact hf
  · rw [List.mem_append, not_or] at hm
    rw [h'.kept m hm.2, h.kept m hm.1]
  · by_cases hms : m ∈ ms
    · rw [← h.joinPass]
      exact h'.made m hms
    · obtain ⟨id, hid⟩ := h.made m ((List.mem_append.1 hm).resolve_right hms)
      exact ⟨id, (h'.kept m hms).trans hid⟩
  · rw [h'.limits (by rwa [hsupply]), h.limits hl, h.count, hsettings]
    by_cases hp : ∃ n ∈ ms, p = .restoreLimit n
    · rw [if_pos hp, if_pos]
      obtain ⟨n, hn, he⟩ := hp
      exact ⟨n, List.mem_append_right _ hn, he⟩
    · rw [if_neg hp]
      refine if_congr ⟨fun ⟨n, hn, he⟩ => ⟨n, List.mem_append_left _ hn, he⟩, fun ⟨n, hn, he⟩ => ?_⟩ rfl rfl
      exact ⟨n, (List.mem_append.1 hn).resolve_right fun hm => hp ⟨n, hm, he⟩, he⟩
  · rw [h'.pushes, h.pushes]
    by_cases hm : m ∈ ms <;> simp [hm]
  · rw [h'.engine]
    by_cases hms : ms = []
    · subst hms
      rw [if_pos rfl, List.append_nil, h.engine]
    · rw [if_neg hms, if_neg (fun he => hms (List.append_eq_nil_iff.1 he).2), h.engineJoined]

/-- Jobs created one after another. -/
theorem foldl {ns : List Nat} (hn : ns.Nodup) {s : State} (hj : ∀ n ∈ ns, s.hasJob n = false)
    (hs : ∀ n ∈ ns, (s.station? n).isSome = true) (o : Origin) :
    s.jobsMade o ns (ns.foldl (fun x n => Machine.createJob n o x) s) := by
  induction ns generalizing s with
  | nil => exact nil s o
  | cons n ns ih =>
    obtain ⟨hnot, hn⟩ := List.nodup_cons.1 hn
    have h := createJob (hj n (List.mem_cons_self ..)) (hs n (List.mem_cons_self ..)) o
    have hst : (Machine.createJob n o s).stations = s.stations := by rw [h.frame]
    refine h.trans (ih hn (fun m hm => ?_) fun m hm => ?_) fun m hm => ?_
    · rw [State.hasJob, h.kept m (by rw [List.mem_singleton]; exact fun he => hnot (he ▸ hm))]
      exact hj m (List.mem_cons_of_mem _ hm)
    · rw [State.station?, hst]
      exact hs m (List.mem_cons_of_mem _ hm)
    · rw [List.mem_singleton.1 hm]
      exact hnot

theorem hasJob {s t : State} {o : Origin} {ns : List Nat} (h : s.jobsMade o ns t) (n : Nat) :
    t.hasJob n = true ↔ s.hasJob n = true ∨ n ∈ ns := by
  by_cases hn : n ∈ ns
  · obtain ⟨id, hid⟩ := h.made n hn
    simp [State.hasJob, hid, hn]
  · simp [State.hasJob, h.kept n hn, hn]

end State.jobsMade

/-! ### The request (R91) -/

theorem serveRestoreNow_taken {payload : List Byte} {s : State} (hl : restoreLayout payload = true)
    (ha : ((payload.drop 1).all fun a => (s.aliased? a.toNat).isSome) = true) :
    serveRestoreNow payload s =
      taken [byte (restoreOrder (restoreNamed payload s) s).length]
        (lanesAct ((restoreOrder (restoreNamed payload s) s).foldl (fun x n => createJob n .host x) s)) := by
  have hany : ((payload.drop 1).any fun a => (s.aliased? a.toNat).isNone) = false := by
    simpa [List.any_eq_false, List.all_eq_true, Option.isSome_iff_ne_none] using ha
  unfold serveRestoreNow
  rw [hl, hany]
  rfl

/-- A job is created for each of some stations that has none, in their order (R71, R91). -/
theorem restoreOrder_jobsMade {named : List Station} {s : State} (hnamed : named.Sublist s.stations)
    (ho : s.stationsOrdered) (hsound : s.stationsSound) (o : Origin) :
    s.jobsMade o (restoreOrder named s) ((restoreOrder named s).foldl (fun x n => createJob n o x) s) := by
  have hperm := restoreOrder_perm (fun st hst => hsound.restoreClass st (hnamed.subset hst)) s
  have hnumbers : (s.stations.map (·.entry.number)).Nodup := List.Pairwise.imp Nat.ne_of_lt ho
  refine .foldl (hperm.nodup_iff.2 (hnumbers.sublist ((List.filter_sublist.trans hnamed).map _))) (fun n hn => ?_)
    (fun n hn => ?_) o
  all_goals
    obtain ⟨st, hst, rfl⟩ := List.mem_map.1 (hperm.mem_iff.1 hn)
    obtain ⟨hst, hfree⟩ := List.mem_filter.1 hst
  · simpa using hfree
  · exact List.find?_isSome.2 ⟨st, hnamed.subset hst, by simp⟩

/-- Settles O33: the named stations join one after another in class order, and in LINE each then takes the pass number. -/
theorem restoreNowCreatesJobs : Obligations.RestoreNowCreatesJobs := by
  intro s tag payload hs ho hsound hl ha named joining
  have hsub : named.Sublist s.stations := by
    dsimp only [named]
    split
    · exact .refl _
    · exact List.filter_sublist
  have hnamed : restoreNamed payload s = named := by
    unfold restoreNamed
    simp only [List.contains_eq_mem]
    rfl
  have hperm : (restoreOrder named s).Perm (joining.map (·.entry.number)) :=
    restoreOrder_perm (fun st hst => hsound.restoreClass st (hsub.subset hst)) s
  have hmem : ∀ n, n ∈ restoreOrder named s ↔ n ∈ joining.map (·.entry.number) := fun n => hperm.mem_iff
  have hlen : (restoreOrder named s).length = joining.length := hperm.length_eq.trans (List.length_map _)
  have hnil : restoreOrder named s = [] ↔ joining = [] := by
    rw [← List.length_eq_zero_iff, hlen, List.length_eq_zero_iff]
  have hmade := restoreOrder_jobsMade hsub ho hsound .host
  have hserve := serveRestoreNow_taken hl ha
  rw [hnamed, hlen] at hserve
  have hexec := exec_takes (requestOf 0x0D tag payload) hs (i := .restoreNow tag payload) rfl hserve
  generalize (restoreOrder named s).foldl (fun x n => createJob n .host x) s = t at hmade hexec
  refine ⟨t, hexec, hmade.frame, fun n => by rw [hmade.hasJob, hmem], fun n hn => hmade.kept n fun hm => ?_,
    fun st hst => ?_, hmade.outside, hmade.count, fun p hp => ?_, fun n hn => ?_, hmade.pass,
    by simpa only [Ne, hnil] using hmade.run⟩
  · obtain ⟨st, hst, rfl⟩ := List.mem_map.1 ((hmem n).1 hm)
    exact absurd (List.mem_filter.1 hst).2 (by simp [hn])
  · have hm := (hmem _).2 (List.mem_map_of_mem (f := (·.entry.number)) hst)
    obtain ⟨id, hid⟩ := hmade.made _ hm
    exact ⟨_, hid, rfl, rfl, rfl, fun hline => (hmade.limits hline _).trans (if_pos ⟨_, hm, rfl⟩)⟩
  · by_cases hline : s.supply.state = .line
    · rw [hmade.limits hline, if_neg]
      rintro ⟨n, hn, rfl⟩
      obtain ⟨st, hst, rfl⟩ := List.mem_map.1 ((hmem n).1 hn)
      exact hp st hst rfl
    · rw [hmade.outside hline]
  · rw [hmade.pushes, if_neg (fun hm => hn ((hmem n).1 hm))]

end Sys2Proof.Machine
end

section
/-! PROOFS. What follows an event at the lanes: holders selected, steps begun (spec/06, 6.4; spec/07, 7.1 and 7.3). -/

namespace Sys2Proof.Machine

/-! ### Changes of several jobs -/

theorem iterate_keeps {α β : Type} {g : α → β} {f : α → α} (h : ∀ x, g (f x) = g x) (k : Nat) (x : α) :
    g (f^[k] x) = g x := by
  induction k generalizing x with
  | zero => rfl
  | succ k ih => rw [Function.iterate_succ_apply, ih, h]

/-- A change of one field, made several times. -/
theorem iterate_put {α β : Type} {f : α → α} {put : α → β → α} {get : α → β} (hf : ∀ x, f x = put x (get (f x)))
    (hput : ∀ x a b, put (put x a) b = put x b) (hget : ∀ x, put x (get x) = x) (k : Nat) (x : α) :
    f^[k] x = put x (get (f^[k] x)) := by
  induction k with
  | zero => exact (hget x).symm
  | succ k ih =>
    rw [Function.iterate_succ_apply']
    calc
      f (f^[k] x) = put (f^[k] x) (get (f (f^[k] x))) := hf _
      _ = put (put x (get (f^[k] x))) (get (f (f^[k] x))) := congrArg (put · _) ih
      _ = put x (get (f (f^[k] x))) := hput ..

/-- The jobs of some stations changed alike, each as often as its station is named. -/
theorem updJobs_queue {f : Job → Job} (hf : ∀ j, (f j).station = j.station) (ns : List Nat) (s : State) :
    (ns.foldl (fun x n => x.updJob n f) s).engine.queue = s.engine.queue.map fun j => f^[ns.count j.station] j := by
  induction ns generalizing s with
  | nil => simp
  | cons n ns ih =>
    rw [List.foldl_cons, ih, State.updJob_engine, List.map_map]
    refine List.map_congr_left fun j _ => ?_
    by_cases hn : j.station = n
    · simp [hn, hf]
    · simp [hn, Ne.symm hn]

/-- A change of every job of the queue that leaves the stations. -/
theorem job?_of_queue_map {s t : State} {f : Job → Job} (hf : ∀ j, (f j).station = j.station)
    (h : t.engine.queue = s.engine.queue.map f) (n : Nat) : t.job? n = (s.job? n).map f := by
  have hp : ((fun j : Job => decide (j.station = n)) ∘ f) = fun j => decide (j.station = n) := funext fun j => by
    simp only [Function.comp, hf]
  rw [State.job?, h, List.find?_map, hp]
  rfl

theorem updJobs_job? {f : Job → Job} (hf : ∀ j, (f j).station = j.station) (ns : List Nat) (s : State) (n : Nat) :
    (ns.foldl (fun x n => x.updJob n f) s).job? n = (s.job? n).map f^[ns.count n] := by
  rw [job?_of_queue_map (fun j => iterate_keeps hf _ j) (updJobs_queue hf ns s)]
  exact State.job?_map_congr fun j hj => by rw [hj]

theorem updJobs_frame (f : Job → Job) (ns : List Nat) (s : State) :
    ns.foldl (fun x n => x.updJob n f) s =
      { s with engine := { s.engine with queue := (ns.foldl (fun x n => x.updJob n f) s).engine.queue } } := by
  induction ns generalizing s with
  | nil => rfl
  | cons n ns ih =>
    rw [List.foldl_cons, ih]
    rfl

/-! ### The holder that a lane selects (R79, R119, R120) -/

/-- What a lane selects: the stations of the holder's jobs, what becomes of each of these jobs, and the holder. -/
structure Selection where
  members : List Nat
  enter : Job → Job
  holder : Holder

/-- What a lane selects when a job is its first in LOADWAIT: a resume alone, or one that needs OPEN, with its group. -/
def State.selected (s : State) (l : Lane) (j : Job) : Selection :=
  if j.needsOpen then
    let members := if s.settings.groupLoading then groupOf l j s else [j.station]
    { members := members, enter := fun x => { x with state := .opn }
      holder := if members.length ≤ 1 then .single j.station else .group members 0 none }
  else { members := [j.station], enter := Job.resumed (s.lengthOf j.station), holder := .single j.station }

/-- What a lane selects, if it may select anything. -/
def State.selection? (s : State) (l : Lane) : Option Selection :=
  if (s.lane l).holder.isSome || !s.lanesOpen then none
  else (s.laneJobs l fun j => j.state = .loadwait).head?.map (s.selected l)

/-- A lane's holder once it has selected one. -/
def State.holderOf (s : State) (l : Lane) : Option Holder := (s.selection? l).elim (s.lane l).holder fun x => some x.holder

/-- A job once a lane has selected its holder. -/
def State.entered (s : State) (l : Lane) (j : Job) : Job :=
  (s.selection? l).elim j fun x => x.enter^[x.members.count j.station] j

/-- The selection, before the lane plans its buffers. -/
def State.entering (s : State) (l : Lane) (x : Selection) : State :=
  (x.members.foldl (fun s n => s.updJob n x.enter) s).updLane l fun y => { y with holder := some x.holder }

theorem selectHolder_eq (l : Lane) (s : State) :
    selectHolder l s = (s.selection? l).elim s fun x => planBuffers l (s.entering l x) := by
  unfold selectHolder State.selection?
  split
  · rfl
  · cases s.laneJobs l (fun j => j.state = .loadwait) with
    | nil => rfl
    | cons j js =>
      dsimp only [List.head?_cons, Option.map_some, Option.elim_some]
      unfold State.selected
      cases j.needsOpen <;> rfl

/-- A job that is selected changes its state only. -/
theorem State.selected_enter (s : State) (l : Lane) (j x : Job) :
    (s.selected l j).enter x = { x with state := ((s.selected l j).enter x).state } := by
  unfold State.selected
  split <;> rfl

theorem State.laneJobs_eq (s : State) (l : Lane) (keep : Job → Bool) :
    s.laneJobs l keep = s.engine.queue.filter fun j => keep j && s.onLane l j.station := by
  unfold State.laneJobs State.onLane
  refine List.filter_congr fun j _ => ?_
  cases s.station? j.station <;> rfl

theorem State.mem_waiting {s : State} {l : Lane} {j : Job} :
    j ∈ s.laneJobs l (fun j => j.state = .loadwait) ↔ j ∈ s.engine.queue ∧ s.waits l j := by
  rw [s.laneJobs_eq, List.mem_filter, Bool.and_eq_true, decide_eq_true_eq]
  rfl

theorem State.selection?_some {s : State} {l : Lane} {x : Selection} (h : s.selection? l = some x) :
    ∃ j ∈ s.engine.queue, s.waits l j ∧ x = s.selected l j ∧ (s.lane l).holder = none := by
  unfold State.selection? at h
  split at h
  · cases h
  · rename_i hh
    obtain ⟨j, hj, rfl⟩ := Option.map_eq_some_iff.1 h
    obtain ⟨hj, hw⟩ := State.mem_waiting.1 (List.mem_of_head? hj)
    exact ⟨j, hj, hw, rfl, by simpa using (Bool.or_eq_false_iff.1 (Bool.eq_false_iff.2 hh)).1⟩

/-- Every job that a lane selects waits for it. -/
theorem State.mem_selected {s : State} {l : Lane} {j : Job} (hj : j ∈ s.engine.queue) (hw : s.waits l j) {n : Nat}
    (hn : n ∈ (s.selected l j).members) : ∃ k ∈ s.engine.queue, k.station = n ∧ s.waits l k := by
  have hself : n = j.station → ∃ k ∈ s.engine.queue, k.station = n ∧ s.waits l k := fun he => ⟨j, hj, he.symm, hw⟩
  have hgroup : n ∈ groupOf l j s → ∃ k ∈ s.engine.queue, k.station = n ∧ s.waits l k := fun hn => by
    obtain ⟨k, hk, rfl⟩ := List.mem_map.1 hn
    rcases List.mem_cons.1 (List.mem_of_mem_take hk) with rfl | hk
    · exact hself rfl
    · simp only [s.laneJobs_eq, List.mem_filter, Bool.and_eq_true, decide_eq_true_eq] at hk
      exact ⟨k, hk.1, rfl, hk.2.1.1.1.1, hk.2.2⟩
  unfold State.selected at hn
  dsimp only at hn
  split at hn
  · split at hn
    · exact hgroup hn
    · exact hself (List.mem_singleton.1 hn)
  · exact hself (List.mem_singleton.1 hn)

theorem groupOf_cons (l : Lane) (j : Job) (s : State) : ∃ ns, groupOf l j s = j.station :: ns := ⟨_, rfl⟩

/-- The holder selected is of the stations selected. -/
theorem State.selected_stations (s : State) (l : Lane) (j : Job) :
    (s.selected l j).holder.stations = (s.selected l j).members := by
  obtain ⟨ns, hns⟩ := groupOf_cons l j s
  unfold State.selected
  dsimp only
  rw [hns]
  cases j.needsOpen <;> cases s.settings.groupLoading <;> cases ns <;> rfl

/-- A station that is selected is on the lane. -/
theorem State.selection?_onLane {s : State} {l : Lane} {x : Selection} (h : s.selection? l = some x) {n : Nat}
    (hn : n ∈ x.members) : s.onLane l n = true := by
  obtain ⟨j, hj, hw, rfl, -⟩ := State.selection?_some h
  obtain ⟨k, -, rfl, hk⟩ := State.mem_selected hj hw hn
  exact hk.2

/-- Of a job, a selection changes the state only. -/
theorem State.entered_eq (s : State) (l : Lane) (j : Job) : s.entered l j = { j with state := (s.entered l j).state } := by
  unfold State.entered
  cases h : s.selection? l with
  | none => rfl
  | some x =>
    obtain ⟨k, -, -, rfl, -⟩ := State.selection?_some h
    exact iterate_put (put := fun j a => { j with state := a }) (get := (·.state)) (s.selected_enter l k)
      (fun _ _ _ => rfl) (fun _ => rfl) _ j

theorem State.entered_station (s : State) (l : Lane) (j : Job) : (s.entered l j).station = j.station := by
  rw [s.entered_eq]

/-- A job of a station that a lane does not select is as it was. -/
theorem State.entered_other {s : State} {l : Lane} {j : Job} (h : ∀ x, s.selection? l = some x → j.station ∉ x.members) :
    s.entered l j = j := by
  unfold State.entered
  cases hx : s.selection? l with
  | none => rfl
  | some x =>
    rw [Option.elim_some, List.count_eq_zero.2 (h x hx)]
    rfl

/-- A station is on one lane only. -/
theorem State.onLane_unique {s : State} {l m : Lane} {n : Nat} (hl : s.onLane l n = true) (hm : s.onLane m n = true) :
    l = m := by
  unfold State.onLane at hl hm
  cases hst : s.station? n with
  | none =>
    rw [hst] at hl
    cases hl
  | some st =>
    rw [hst] at hl hm
    exact (of_decide_eq_true hl).symm.trans (of_decide_eq_true hm)

/-- A job of the other lane is as it was. -/
theorem State.entered_otherLane {s : State} {l m : Lane} {j : Job} (hm : s.onLane m j.station = true) (hne : m ≠ l) :
    s.entered l j = j :=
  State.entered_other fun _ hx hn => hne (State.onLane_unique hm (State.selection?_onLane hx hn))

/-- A lane's selection changes its holder and the states of the jobs selected, and gives the buffer pool work. -/
theorem selectHolder_frame (l : Lane) (s : State) :
    ∃ b w q p, selectHolder l s =
      (State.setLane { s with engine := { s.engine with queue := s.engine.queue.map (s.entered l) } } l
        { s.lane l with holder := s.holderOf l }).withPool b w q p := by
  rw [selectHolder_eq]
  unfold State.entered State.holderOf
  cases h : s.selection? l with
  | none =>
    refine ⟨s.store.buffers, s.store.waitList, s.store.queue, s.park.phase, ?_⟩
    simp only [Option.elim_none, List.map_id']
    cases l <;> rfl
  | some x =>
    obtain ⟨j, -, -, rfl, -⟩ := State.selection?_some h
    obtain ⟨b, w, q, p, he⟩ := State.poolBecomes.planBuffers l (s.entering l (s.selected l j))
    refine ⟨b, w, q, p, ?_⟩
    rw [Option.elim_some, he, State.entering, updJobs_frame, updJobs_queue fun y => by rw [s.selected_enter]]
    cases l <;> rfl

theorem selectHolder_lane (l : Lane) (s : State) : (selectHolder l s).lane l = { s.lane l with holder := s.holderOf l } := by
  obtain ⟨b, w, q, p, he⟩ := selectHolder_frame l s
  rw [he]
  cases l <;> rfl

theorem selectHolder_lane_ne {l m : Lane} (h : m ≠ l) (s : State) : (selectHolder l s).lane m = s.lane m := by
  obtain ⟨b, w, q, p, he⟩ := selectHolder_frame l s
  rw [he]
  exact State.lane_setLane_ne _ l m _ h

theorem selectHolder_queue (l : Lane) (s : State) :
    (selectHolder l s).engine.queue = s.engine.queue.map (s.entered l) := by
  obtain ⟨b, w, q, p, he⟩ := selectHolder_frame l s
  rw [he]
  cases l <;> rfl

/-- A lane's selection leaves what it does not work on. -/
theorem selectHolder_keeps (l : Lane) (s : State) :
    (selectHolder l s).timebase = s.timebase ∧ (selectHolder l s).settings = s.settings ∧
      (selectHolder l s).stations = s.stations ∧ (selectHolder l s).lanesOpen = s.lanesOpen ∧
      (selectHolder l s).store.running = s.store.running ∧ (selectHolder l s).store.chipSelect = s.store.chipSelect ∧
      (selectHolder l s).slotOf = s.slotOf ∧ (selectHolder l s).lengthOf = s.lengthOf := by
  obtain ⟨b, w, q, p, he⟩ := selectHolder_frame l s
  rw [he]
  cases l <;> exact ⟨rfl, rfl, rfl, rfl, rfl, rfl, rfl, rfl⟩

/-- What one lane selects is none of the other's jobs (R119). -/
theorem selectHolder_laneJobs {l m : Lane} (h : m ≠ l) (s : State) (keep : Job → Bool) :
    (selectHolder l s).laneJobs m keep = s.laneJobs m keep := by
  have hon : (selectHolder l s).onLane m = s.onLane m := by
    obtain ⟨_, _, hst, _⟩ := selectHolder_keeps l s
    funext n
    rw [State.onLane, State.station?, hst]
    rfl
  have hsame : ∀ j, s.onLane m j.station = true → s.entered l j = j := fun j hj => State.entered_otherLane hj h
  rw [State.laneJobs_eq, State.laneJobs_eq, hon, selectHolder_queue, List.filter_map]
  have hp : s.engine.queue.filter ((fun j => keep j && s.onLane m j.station) ∘ s.entered l) =
      s.engine.queue.filter fun j => keep j && s.onLane m j.station := by
    refine List.filter_congr fun j _ => ?_
    simp only [Function.comp, s.entered_station]
    cases hj : s.onLane m j.station with
    | false => rw [Bool.and_false, Bool.and_false]
    | true => rw [hsame j hj]
  rw [hp]
  refine (List.map_congr_left fun j hj => ?_).trans (List.map_id _)
  exact hsame j (Bool.and_eq_true_iff.1 (List.mem_filter.1 hj).2).2

/-- A lane selects as if the other had not. -/
theorem selectHolder_selection? {l m : Lane} (h : m ≠ l) (s : State) :
    (selectHolder l s).selection? m = s.selection? m := by
  obtain ⟨-, hsettings, -, hopen, -, -, hslot, hlength⟩ := selectHolder_keeps l s
  have hselected : (selectHolder l s).selected m = s.selected m := funext fun j => by
    unfold State.selected groupOf
    rw [hsettings, hlength, hslot, selectHolder_laneJobs h]
  unfold State.selection?
  rw [selectHolder_lane_ne h, hopen, selectHolder_laneJobs h, hselected]

/-- The state in which the arbiters choose: the holders selected, and the flash operation issued (log 14). -/
def State.readied (s : State) : State := issueFlash (selectHolder .b (selectHolder .a s))

theorem lanesAct_readied (s : State) : lanesAct s = arbitrate .b (arbitrate .a s.readied) := rfl

theorem State.readied_lane (s : State) (l : Lane) : s.readied.lane l = { s.lane l with holder := s.holderOf l } := by
  have hb : (selectHolder .a s).holderOf .b = s.holderOf .b := by
    unfold State.holderOf
    rw [selectHolder_selection? (by decide), selectHolder_lane_ne (by decide)]
  unfold State.readied
  rw [issueFlash_lane]
  cases l with
  | a => rw [selectHolder_lane_ne (by decide), selectHolder_lane]
  | b => rw [selectHolder_lane, selectHolder_lane_ne (by decide), hb]

/-- A job once both lanes have selected their holders. -/
def State.readiedJob (s : State) (j : Job) : Job := s.entered .b (s.entered .a j)

theorem State.readied_job? (s : State) (n : Nat) : s.readied.job? n = (s.job? n).map s.readiedJob := by
  obtain ⟨tb, x, he, -⟩ := issueFlash_eq (selectHolder .b (selectHolder .a s))
  have hb : (selectHolder .a s).entered .b = s.entered .b := funext fun j => by
    unfold State.entered
    rw [selectHolder_selection? (by decide)]
  refine job?_of_queue_map (fun j => by rw [State.readiedJob, State.entered_station, State.entered_station]) ?_ n
  rw [State.readied, he]
  dsimp only
  rw [selectHolder_queue, hb, selectHolder_queue, List.map_map]
  rfl

theorem State.readied_keeps (s : State) :
    s.readied.timebase.count = s.timebase.count ∧ s.readied.settings = s.settings ∧
      s.readied.lanesOpen = s.lanesOpen ∧
      (∀ p, p ≠ .storeOperation → s.readied.timebase.dueOf p = s.timebase.dueOf p) ∧
      (s.store.running.isSome = true → s.readied.store.running = s.store.running ∧
        s.readied.store.chipSelect = s.store.chipSelect ∧ s.readied.timebase = s.timebase) := by
  obtain ⟨hta, hsa, -, hoa, hra, hca, -⟩ := selectHolder_keeps .a s
  obtain ⟨htb, hsb, -, hob, hrb, hcb, -⟩ := selectHolder_keeps .b (selectHolder .a s)
  obtain ⟨tb, x, he, hcount, hdue, -⟩ := issueFlash_eq (selectHolder .b (selectHolder .a s))
  refine ⟨?_, ?_, ?_, fun p hp => ?_, fun hr => ?_⟩
  · rw [State.readied, he, hcount, htb, hta]
  · rw [State.readied, he, hsb, hsa]
  · rw [State.readied, issueFlash_lanesOpen, hob, hoa]
  · rw [State.readied, he, hdue p hp, htb, hta]
  · rw [State.readied, issueFlash_running (by rw [hrb, hra, hr])]
    exact ⟨hrb.trans hra, hcb.trans hca, htb.trans hta⟩

/-! ### The blocks counted (R125, R130) -/

/-- A transaction is a BLOCK that counts for the job of a station, in a state: the job's own, or that of a group of which
the job is a member. -/
def Txn.countsFor (t : Txn) (h : Option Holder) (n : Nat) (state : JobState) : Bool :=
  decide (t.step = .block) &&
    match t.owner, h with
    | .job m _, _ => decide (m = n)
    | .group, some (.group members _ _) => decide (state = .load) && members.contains n
    | _, _ => false

theorem State.blockCounts_eq (s : State) (l : Lane) (n : Nat) (state : JobState) :
    s.blockCounts l n state = (s.lane l).txn.any (·.countsFor (s.lane l).holder n state) := rfl

theorem Txn.countsFor_job {t : Txn} (hb : t.step = .block) {m id : Nat} (ho : t.owner = .job m id) (h : Option Holder)
    (n : Nat) (state : JobState) : t.countsFor h n state = decide (m = n) := by
  simp only [Txn.countsFor, hb, ho, decide_true, Bool.true_and]

theorem Txn.countsFor_group {t : Txn} (hb : t.step = .block) (ho : t.owner = .group) (members : List Nat) (count : Nat)
    (round : Option (List Nat)) (n : Nat) (state : JobState) :
    t.countsFor (some (.group members count round)) n state = (decide (state = .load) && members.contains n) := by
  simp only [Txn.countsFor, hb, ho, decide_true, Bool.true_and]

/-- A job once the blocks of a frame have been counted: one more where the frame counts for it. -/
theorem countBlocks_counted (l : Lane) (t : Txn) {s : State} {n : Nat} {j : Job} (hj : s.job? n = some j) :
    ∃ x, (countBlocks l t s).job? n = some x ∧ x = { j with blocksSent := x.blocksSent } ∧
      ((s.lane l).holderDistinct → x.blocksSent =
        if t.countsFor (s.lane l).holder n j.state then min 65535 (j.blocksSent + 1) else j.blocksSent) := by
  by_cases hb : t.step = .block
  · unfold countBlocks
    rw [if_neg (fun h => h hb)]
    split
    · rename_i m _ ho
      rw [updJob_job? (f := Job.countBlock) _ _ _ fun _ => rfl, Txn.countsFor_job hb ho]
      by_cases hm : n = m
      · subst hm
        exact ⟨j.countBlock, by simp [hj], rfl, fun _ => by simp [Job.countBlock]⟩
      · exact ⟨j, by simp [hj, hm], rfl, fun _ => by simp [Ne.symm hm]⟩
    · rename_i members count round ho hh
      let f : Job → Job := fun j => if j.state = .load then j.countBlock else j
      have hf : ∀ j, f j = { j with blocksSent := (f j).blocksSent } := fun j => by
        dsimp only [f]
        split <;> rfl
      have hiter := iterate_put (put := fun j a => { j with blocksSent := a }) (get := (·.blocksSent)) hf
        (fun _ _ _ => rfl) (fun _ => rfl) (members.count n) j
      refine ⟨f^[members.count n] j, ?_, hiter, fun hd => ?_⟩
      · rw [updJobs_job? (f := f) (fun j => by rw [hf]), hj]
        rfl
      · have hn : members.Nodup := hd _ hh
        rw [hh, Txn.countsFor_group hb ho]
        by_cases hm : n ∈ members
        · rw [List.count_eq_one_of_mem hn hm, Function.iterate_one]
          by_cases hs : j.state = .load <;> simp [f, hs, hm, Job.countBlock]
        · rw [List.count_eq_zero.2 hm]
          simp [hm]
    · rename_i hjob hgroup
      refine ⟨j, hj, rfl, fun _ => ?_⟩
      unfold Txn.countsFor
      split
      · exact absurd ‹_› (hjob _ _)
      · exact absurd ‹_› (hgroup _ _ _ ‹_›)
      · simp
  · unfold countBlocks Txn.countsFor
    rw [if_pos hb, decide_eq_false hb]
    exact ⟨j, hj, rfl, fun _ => rfl⟩

/-! ### A step begun (R96 to R98, R101, R105) -/

/-- The transaction of a turn, before its frame begins (R101). -/
def Turn.first (turn : Turn) (limit : Nat) : Txn where
  step := turn.step
  owner := turn.owner
  station := turn.station
  address := 0
  sequence := 0
  rate := .r1000
  frame := none
  attempt := 1
  endings := []
  limit := limit
  stale := false
  index := turn.index
  buffer := turn.buffer

/-- The poll that a lane still has pending once a turn has begun (R105). -/
def Turn.leavesPending (turn : Turn) (pending : Option Nat) : Option Nat :=
  match turn.owner with
  | .poll _ => none
  | _ => pending

/-- A step about to begin: its job marked, its poll no longer pending, and the turn kind set (R77, R105, R106). -/
def State.stepReady (s : State) (l : Lane) (turn : Turn) (kind : TurnKind) : State :=
  (match turn.owner with
    | .job n _ => s.updJob n Job.begin
    | .poll _ => s.updLane l fun x => { x with pendingPoll := none }
    | _ => s).updLane l fun x => { x with lastTurn := kind }

theorem beginStep_eq (l : Lane) (turn : Turn) (kind : TurnKind) (s : State) :
    beginStep l turn kind s = beginAttempt l (turn.first s.settings.retryLimit) (s.stepReady l turn kind) := by
  obtain ⟨_, owner, _, _, _⟩ := turn
  cases owner <;> rfl

theorem stepReady_lane (s : State) (l : Lane) (turn : Turn) (kind : TurnKind) :
    (s.stepReady l turn kind).lane l =
      { s.lane l with lastTurn := kind, pendingPoll := turn.leavesPending (s.lane l).pendingPoll } := by
  unfold State.stepReady Turn.leavesPending
  cases turn.owner <;> cases l <;> rfl

theorem stepReady_frame (s : State) (l : Lane) (turn : Turn) (kind : TurnKind) :
    ∃ q x, s.stepReady l turn kind = State.setLane { s with engine := { s.engine with queue := q } } l x := by
  unfold State.stepReady
  cases turn.owner <;> cases l <;> exact ⟨_, _, rfl⟩

/-- The job of a step about to begin is in flight with no retry (R77). -/
theorem stepReady_own {s : State} {l : Lane} {turn : Turn} {n id : Nat} (h : turn.owner = .job n id) (kind : TurnKind) :
    (s.stepReady l turn kind).job? n = (s.job? n).map Job.begin := by
  have he : (s.stepReady l turn kind).job? n = (s.updJob n Job.begin).job? n := by
    unfold State.stepReady
    rw [h]
    cases l <;> rfl
  rw [he, updJob_job? (f := Job.begin) _ _ _ fun _ => rfl, if_pos rfl]

theorem stepReady_other {s : State} {l : Lane} {turn : Turn} {n : Nat} (h : ∀ id, turn.owner ≠ .job n id)
    (kind : TurnKind) : (s.stepReady l turn kind).job? n = s.job? n := by
  unfold State.stepReady
  cases ho : turn.owner with
  | job m id =>
    have hn : n ≠ m := fun he => h id (he ▸ ho)
    refine Eq.trans (?_ : _ = (s.updJob m Job.begin).job? n) ?_
    · cases l <;> rfl
    · rw [updJob_job? (f := Job.begin) _ _ _ fun _ => rfl, if_neg hn]
  | _ => cases l <;> rfl

/-- A frame begun: its lane, the blocks counted, the buffer sent from, and the response window; nothing else. -/
theorem beginAttempt_frame (l : Lane) (t : Txn) (s : State) :
    ∃ (tb : Timebase) (k : Nat),
      beginAttempt l t s =
        State.setLane
          { s with
            timebase := tb, engine := (countBlocks l t s).engine
            store := { s.store with buffers := (markSending t s).store.buffers }, free := k }
          l (s.laneBegun l t) ∧
      tb.count = s.timebase.count ∧ (∀ p, p ≠ .responseWindow l → tb.dueOf p = s.timebase.dueOf p) ∧
      (t.station.isSome = true →
        tb.dueOf (.responseWindow l) = some (s.timebase.count + ms (s.settings.responseWindow l))) := by
  have hm : ∀ x : State, x.store = s.store →
      markSending t x = { x with store := { s.store with buffers := (markSending t s).store.buffers } } := fun x hx => by
    unfold markSending State.setBuffer State.buffer
    split <;> rw [← hx]
  have hstore : (countBlocks l t (s.frameBegun l t)).store = s.store := by
    rw [countBlocks_eq l t (s := s) (x := s.frameBegun l t) (by cases l <;> rfl) (by cases l <;> rfl)]
    cases l <;> rfl
  rw [beginAttempt_frameBegun, hm _ hstore,
    countBlocks_eq l t (s := s) (x := s.frameBegun l t) (by cases l <;> rfl) (by cases l <;> rfl)]
  cases ht : t.station with
  | none =>
    refine ⟨s.timebase, (s.frameBegun l t).free, ?_, rfl, fun _ _ => rfl, fun h => by cases h⟩
    cases l <;> rfl
  | some n =>
    refine ⟨s.timebase.set (.responseWindow l) (s.timebase.count + ms (s.settings.responseWindow l)),
      (s.frameBegun l t).free, ?_, rfl, fun p hp => by simp [hp], fun _ => by simp⟩
    cases l <;> rfl

theorem markSending_sending (t : Txn) {s : State} {i : Nat} (h : (s.buffer i).state = .sending) :
    ((markSending t s).buffer i).state = .sending := by
  unfold markSending
  split
  · rw [State.buffer_setBuffer]
    split
    · rfl
    · exact h
  · exact h

theorem markSending_block {t : Txn} {s : State} (h : t.step = .block) (hi : t.buffer < s.store.buffers.length) :
    ((markSending t s).buffer t.buffer).state = .sending := by
  rw [markSending, if_pos h, State.buffer_setBuffer, if_pos ⟨rfl, hi⟩]

/-- A step begun changes its lane, the jobs of the queue, the buffer sent from, and the response window of the lane. -/
theorem beginStep_frame (l : Lane) (turn : Turn) (kind : TurnKind) (s : State) :
    ∃ (q : List Job) (x : LaneState) (tb : Timebase) (k : Nat),
      beginStep l turn kind s =
        State.setLane
          { s with
            timebase := tb, engine := { s.engine with queue := q }
            store := { s.store with buffers := (markSending (turn.first s.settings.retryLimit) s).store.buffers }
            free := k } l x ∧
      tb.count = s.timebase.count ∧ (∀ p, p ≠ .responseWindow l → tb.dueOf p = s.timebase.dueOf p) ∧
      (turn.station.isSome = true →
        tb.dueOf (.responseWindow l) = some (s.timebase.count + ms (s.settings.responseWindow l))) := by
  obtain ⟨tb, k, he, hcount, hdue, hwindow⟩ :=
    beginAttempt_frame l (turn.first s.settings.retryLimit) (s.stepReady l turn kind)
  obtain ⟨q, x, hready⟩ := stepReady_frame s l turn kind
  have hmark : (markSending (turn.first s.settings.retryLimit) (s.stepReady l turn kind)).store.buffers =
      (markSending (turn.first s.settings.retryLimit) s).store.buffers := by
    rw [hready]
    unfold markSending
    cases l <;> split <;> rfl
  refine ⟨(countBlocks l (turn.first s.settings.retryLimit) (s.stepReady l turn kind)).engine.queue,
    (s.stepReady l turn kind).laneBegun l (turn.first s.settings.retryLimit), tb, k, ?_, ?_, fun p hp => ?_, fun h => ?_⟩
  · rw [beginStep_eq, he, hmark, countBlocks_engine, hready]
    cases l <;> rfl
  · rw [hcount, hready]
    cases l <;> rfl
  · rw [hdue p hp, hready]
    cases l <;> rfl
  · rw [hwindow h, hready]
    cases l <;> rfl

/-- A step has begun on a lane, with its first attempt (R96 to R98, R101, R105, R125, R135; that a reply to it is no
abandoned frame's is log 47). -/
def State.turnBegun (c : State) (l : Lane) (turn : Turn) (kind : TurnKind) (u : State) (x : Txn) : Prop :=
  (u.lane l).txn = some x ∧ x.step = turn.step ∧ x.owner = turn.owner ∧ x.station = turn.station ∧
    x.index = turn.index ∧ x.buffer = turn.buffer ∧ x.attempt = 1 ∧ x.endings = [] ∧
    x.limit = c.settings.retryLimit ∧ x.rate = c.settings.rate l ∧ x.stale = false ∧
    x.sequence = (c.lane l).seq ∧ (u.lane l).seq = ((c.lane l).seq + 1) % 16 ∧ (u.lane l).lastTurn = kind ∧
    (u.lane l).driver = (if x.frame.isSome then .inUse else .released) ∧
    (u.lane l).abandoned = (c.lane l).abandoned.filter (· ≠ { address := x.address, sequence := x.sequence }) ∧
    (u.lane l).pendingPoll = turn.leavesPending (c.lane l).pendingPoll ∧ (u.lane l).holder = (c.lane l).holder

theorem beginStep_turnBegun (l : Lane) (turn : Turn) (kind : TurnKind) (c : State) :
    ∃ x, c.turnBegun l turn kind (beginStep l turn kind c) x := by
  have hlane : (beginStep l turn kind c).lane l =
      (c.stepReady l turn kind).laneBegun l (turn.first c.settings.retryLimit) := by
    rw [beginStep_eq, beginAttempt_lane_self]
  have hready := stepReady_lane c l turn kind
  have hsettings : (c.stepReady l turn kind).settings = c.settings := by
    obtain ⟨q, x, h⟩ := stepReady_frame c l turn kind
    rw [h]
    cases l <;> rfl
  refine ⟨(turn.first c.settings.retryLimit).begun l (c.stepReady l turn kind), ?_, rfl, rfl, rfl, rfl, rfl, rfl, rfl, rfl,
    ?_, rfl, ?_, ?_, ?_, ?_, ?_, ?_, ?_⟩
  · rw [hlane]
    rfl
  · exact congrArg (·.rate l) hsettings
  · exact congrArg (·.seq) hready
  · rw [hlane, State.laneBegun, hready]
  · rw [hlane, State.laneBegun, hready]
  · rw [hlane]
    rfl
  · rw [hlane, State.laneBegun]
    exact congrArg (List.filter _) (congrArg (·.abandoned) hready)
  · rw [hlane, State.laneBegun, hready]
  · rw [hlane, State.laneBegun, hready]

/-! ### What the arbiter does (R97, R104) -/

theorem arbitrate_cases (l : Lane) (s : State) :
    (((s.lane l).txn.isSome = true ∨ s.lanesOpen = false ∨ arbiterChoice l s = none) ∧ arbitrate l s = s) ∨
      ∃ turn kind, (s.lane l).txn = none ∧ s.lanesOpen = true ∧ arbiterChoice l s = some (turn, kind) ∧
        arbitrate l s = beginStep l turn kind s := by
  unfold arbitrate State.laneFree
  cases ht : (s.lane l).txn with
  | some t => exact .inl ⟨.inl rfl, rfl⟩
  | none =>
    cases ho : s.lanesOpen with
    | false => exact .inl ⟨.inr (.inl rfl), rfl⟩
    | true =>
      cases hc : arbiterChoice l s with
      | none => exact .inl ⟨.inr (.inr rfl), rfl⟩
      | some c => exact .inr ⟨c.1, c.2, rfl, rfl, rfl, rfl⟩

/-- Whatever the arbiter of a lane does leaves the other lane, the flash operations, the settings and all deadlines but its
response window, and stops no buffer from being sent. -/
theorem arbitrate_keeps (l : Lane) (s : State) :
    (∀ m, m ≠ l → (arbitrate l s).lane m = s.lane m) ∧ ((arbitrate l s).lane l).holder = (s.lane l).holder ∧
      (arbitrate l s).timebase.count = s.timebase.count ∧
      (∀ p, p ≠ .responseWindow l → (arbitrate l s).timebase.dueOf p = s.timebase.dueOf p) ∧
      (arbitrate l s).settings = s.settings ∧ (arbitrate l s).lanesOpen = s.lanesOpen ∧
      (arbitrate l s).store.running = s.store.running ∧ (arbitrate l s).store.chipSelect = s.store.chipSelect ∧
      ∀ i, (s.buffer i).state = .sending → ((arbitrate l s).buffer i).state = .sending := by
  obtain ⟨-, he⟩ | ⟨turn, kind, -, -, -, he⟩ := arbitrate_cases l s
  · rw [he]
    exact ⟨fun _ _ => rfl, rfl, rfl, fun _ _ => rfl, rfl, rfl, rfl, rfl, fun _ h => h⟩
  · obtain ⟨x, hx⟩ := beginStep_turnBegun l turn kind s
    have hholder : ((beginStep l turn kind s).lane l).holder = (s.lane l).holder := by
      obtain ⟨-, -, -, -, -, -, -, -, -, -, -, -, -, -, -, -, -, hh⟩ := hx
      exact hh
    obtain ⟨q, y, tb, k, hf, hcount, hdue, -⟩ := beginStep_frame l turn kind s
    rw [he]
    refine ⟨fun m hm => beginStep_lane_ne hm turn kind s, hholder, ?_⟩
    rw [hf]
    refine ⟨by rw [State.setLane_timebase, hcount], fun p hp => by rw [State.setLane_timebase, hdue p hp], ?_⟩
    have hsend := fun i (h : (s.buffer i).state = .sending) => markSending_sending (turn.first s.settings.retryLimit) h
    cases l <;> exact ⟨rfl, rfl, rfl, rfl, hsend⟩

/-- A lane with a transaction begins no other. -/
theorem arbitrate_txn {l : Lane} {s : State} (h : (s.lane l).txn.isSome = true) : arbitrate l s = s := by
  obtain ⟨-, he⟩ | ⟨_, _, ht, -⟩ := arbitrate_cases l s
  · exact he
  · rw [ht] at h
    cases h

theorem fullBuffer?_lt {l : Lane} {slot block i : Nat} {s : State} (h : fullBuffer? l slot block s = some i) :
    i < s.store.buffers.length := by
  obtain ⟨-, ho, -⟩ := (s.heldBy_iff l i).1 (List.mem_of_find?_eq_some h)
  exact State.buffer_owned (by rw [ho]; exact nofun)

/-- A job in PROBE, START or REPLAY has no BLOCK to send (R77). -/
theorem otherTurn_step {l : Lane} {s : State} {turn : Turn} (h : otherTurn l s = some turn) : turn.step ≠ .block := by
  unfold otherTurn at h
  split at h
  · cases h
  · rename_i j js hjs
    have hj : j ∈ s.laneJobs l fun j => !j.inFlight && (j.state = .probe || j.state = .start || j.state = .replay) :=
      hjs ▸ List.mem_cons_self ..
    obtain ⟨k, hk, rfl⟩ := Option.map_eq_some_iff.1 h
    have hstate : j.state = .probe ∨ j.state = .start ∨ j.state = .replay := by
      simp only [State.laneJobs, List.mem_filter, Bool.and_eq_true, Bool.or_eq_true, decide_eq_true_eq] at hj
      exact or_assoc.1 hj.2.1.2
    intro hb
    rcases hstate with hs | hs | hs
    all_goals
      rw [hs] at hk
      cases hk
      cases hb

/-- A BLOCK of a load holder is sent from a buffer of the lane (R106). -/
theorem holderTurn_block {l : Lane} {s : State} {turn : Turn} (h : holderTurn l s = some turn) (hb : turn.step = .block) :
    turn.buffer < s.store.buffers.length := by
  unfold holderTurn at h
  repeat' split at h
  all_goals first
    | cases h
    | (obtain ⟨_, hx, rfl⟩ := Option.map_eq_some_iff.1 h)
  all_goals first
    | exact fullBuffer?_lt ‹_›
    | cases hb

/-- A BLOCK that the arbiter chooses is sent from a buffer of the lane (R106). -/
theorem arbiterChoice_block {l : Lane} {s : State} {turn : Turn} {kind : TurnKind}
    (h : arbiterChoice l s = some (turn, kind)) (hb : turn.step = .block) : turn.buffer < s.store.buffers.length := by
  have hpush : ∀ u x, pushTurn l u s = some x → x ≠ turn := fun u x hx he => by
    obtain ⟨_, _, rfl⟩ := Option.map_eq_some_iff.1 hx
    rw [← he] at hb
    cases hb
  simp only [arbiterChoice, Option.or_eq_some_iff, Option.map_eq_some_iff, Prod.mk.injEq] at h
  rcases h with ⟨x, hx, he, -⟩ | ⟨-, h | ⟨-, ⟨x, hx, he, -⟩ | ⟨-, ⟨x, hx, he, -⟩ | ⟨-, x, hx, he, -⟩⟩⟩⟩
  · exact absurd he (hpush _ x hx)
  · unfold restoreTurn at h
    split at h
    all_goals cases h
    · exact absurd hb (otherTurn_step ‹_›)
    · exact holderTurn_block ‹_› hb
    · exact absurd hb (otherTurn_step ‹_›)
  · exact absurd he (hpush _ x hx)
  · unfold queryTurn at hx
    repeat' split at hx
    all_goals cases hx
    rw [← he] at hb
    cases hb
  · obtain ⟨_, _, rfl⟩ := Option.map_eq_some_iff.1 hx
    rw [← he] at hb
    cases hb

/-! ### What the arbiter does to a job (R77, R125, R130) -/

/-- A lane that was free has begun a step of a station's job. -/
def State.begins (s u : State) (l : Lane) (n : Nat) : Prop :=
  (s.lane l).txn = none ∧ ∃ id, (u.lane l).txn.map (·.owner) = some (.job n id)

/-- A lane that was free has begun a BLOCK that counts for a station's job. -/
def State.sends (s u : State) (l : Lane) (n : Nat) (state : JobState) : Bool :=
  (s.lane l).txn.isNone && u.blockCounts l n state

/-- A job once the arbiter of a lane has chosen. -/
theorem arbitrate_job? (l : Lane) {s : State} {n : Nat} {j : Job} (hj : s.job? n = some j) :
    ∃ x, (arbitrate l s).job? n = some x ∧ x.state = j.state ∧
      (s.begins (arbitrate l s) l n → x.inFlight = true ∧ x.retriesUsed = 0) ∧
      (¬s.begins (arbitrate l s) l n → x.inFlight = j.inFlight ∧ x.retriesUsed = j.retriesUsed) ∧
      ((s.lane l).holderDistinct → x.blocksSent =
        if s.sends (arbitrate l s) l n j.state then min 65535 (j.blocksSent + 1) else j.blocksSent) := by
  obtain ⟨-, he⟩ | ⟨turn, kind, ht, -, -, he⟩ := arbitrate_cases l s
  · rw [he]
    have hsends : s.sends s l n j.state = false := by
      unfold State.sends State.blockCounts
      cases (s.lane l).txn <;> rfl
    refine ⟨j, hj, rfl, fun ⟨hn, id, hid⟩ => ?_, fun _ => ⟨rfl, rfl⟩, fun _ => by rw [hsends]; rfl⟩
    rw [hn] at hid
    cases hid
  · rw [he]
    obtain ⟨y, hy⟩ := beginStep_turnBegun l turn kind s
    obtain ⟨htxn, hstep, howner, -, -, -, -, -, -, -, -, -, -, -, -, -, -, hholder⟩ := hy
    have hbegins : s.begins (beginStep l turn kind s) l n ↔ ∃ id, turn.owner = .job n id := by
      simp only [State.begins, htxn, Option.map_some, Option.some.injEq, howner, ht, true_and]
    have hjob : (beginStep l turn kind s).job? n =
        (countBlocks l (turn.first s.settings.retryLimit) (s.stepReady l turn kind)).job? n := by
      obtain ⟨tb, k, hb, -⟩ := beginAttempt_frame l (turn.first s.settings.retryLimit) (s.stepReady l turn kind)
      rw [beginStep_eq, hb]
      cases l <;> rfl
    have hready : ∃ z, (s.stepReady l turn kind).job? n = some z ∧ z.state = j.state ∧ z.blocksSent = j.blocksSent ∧
        ((∃ id, turn.owner = .job n id) → z.inFlight = true ∧ z.retriesUsed = 0) ∧
        ((¬∃ id, turn.owner = .job n id) → z.inFlight = j.inFlight ∧ z.retriesUsed = j.retriesUsed) := by
      by_cases ho : ∃ id, turn.owner = .job n id
      · obtain ⟨id, hid⟩ := ho
        exact ⟨j.begin, by rw [stepReady_own hid, hj]; rfl, rfl, rfl, fun _ => ⟨rfl, rfl⟩, fun h => absurd ⟨id, hid⟩ h⟩
      · exact ⟨j, by rw [stepReady_other (fun id hid => ho ⟨id, hid⟩), hj], rfl, rfl, fun h => absurd h ho,
          fun _ => ⟨rfl, rfl⟩⟩
    obtain ⟨z, hz, hzs, hzb, hown, hother⟩ := hready
    obtain ⟨x, hx, hxz, hblocks⟩ := countBlocks_counted l (turn.first s.settings.retryLimit) hz
    have hsame : x.state = z.state ∧ x.inFlight = z.inFlight ∧ x.retriesUsed = z.retriesUsed := by
      rw [hxz]
      exact ⟨rfl, rfl, rfl⟩
    have hcounts : (turn.first s.settings.retryLimit).countsFor ((s.stepReady l turn kind).lane l).holder n z.state =
        s.sends (beginStep l turn kind s) l n j.state := by
      rw [State.sends, ht, State.blockCounts_eq, htxn, hholder, stepReady_lane, hzs]
      simp only [Option.isNone_none, Bool.true_and, Option.any_some, Txn.countsFor, hstep, howner]
      rfl
    rw [hbegins]
    refine ⟨x, hjob.trans hx, hsame.1.trans hzs, fun h => ?_, fun h => ?_, fun hd => ?_⟩
    · rw [hsame.2.1, hsame.2.2]
      exact hown h
    · rw [hsame.2.1, hsame.2.2]
      exact hother h
    · rw [hblocks (by rw [stepReady_lane]; exact hd), hcounts, hzb]

/-! ### Lane A before lane B (log 14) -/

/-- The state in which the arbiter of a lane chooses: lane B's after lane A's (log 14). -/
def State.choosing (s : State) : Lane → State
  | .a => s.readied
  | .b => arbitrate .a s.readied

theorem choosing_lane (s : State) (l : Lane) : (s.choosing l).lane l = { s.lane l with holder := s.holderOf l } := by
  rw [← s.readied_lane]
  cases l with
  | a => rfl
  | b => exact (arbitrate_keeps .a s.readied).1 .b (by decide)

theorem choosing_keeps (s : State) (l : Lane) :
    (s.choosing l).settings = s.settings ∧ (s.choosing l).lanesOpen = s.lanesOpen ∧
      (s.choosing l).timebase.count = s.timebase.count ∧
      (s.choosing l).timebase.dueOf (.responseWindow l) = s.timebase.dueOf (.responseWindow l) := by
  obtain ⟨hcount, hsettings, hopen, hdue, -⟩ := s.readied_keeps
  cases l with
  | a => exact ⟨hsettings, hopen, hcount, hdue _ nofun⟩
  | b =>
    obtain ⟨-, -, hcount', hdue', hsettings', hopen', -⟩ := arbitrate_keeps .a s.readied
    exact ⟨hsettings'.trans hsettings, hopen'.trans hopen, hcount'.trans hcount,
      (hdue' (.responseWindow .b) (by decide)).trans (hdue _ nofun)⟩

/-- Of a lane, its response window and the buffers being sent, the work of the lanes leaves what its arbiter leaves. -/
theorem lanesAct_chosen (s : State) (l : Lane) :
    (lanesAct s).lane l = (arbitrate l (s.choosing l)).lane l ∧
      (lanesAct s).timebase.dueOf (.responseWindow l) =
        (arbitrate l (s.choosing l)).timebase.dueOf (.responseWindow l) ∧
      ∀ i, ((arbitrate l (s.choosing l)).buffer i).state = .sending → ((lanesAct s).buffer i).state = .sending := by
  cases l with
  | a =>
    obtain ⟨hlane, -, -, hdue, -, -, -, -, hsend⟩ := arbitrate_keeps .b (s.choosing .b)
    exact ⟨hlane .a (by decide), hdue (.responseWindow .a) (by decide), hsend⟩
  | b => exact ⟨rfl, rfl, fun _ h => h⟩

theorem lanesAct_holder (s : State) (l : Lane) : ((lanesAct s).lane l).holder = s.holderOf l := by
  obtain ⟨-, hholder, -⟩ := arbitrate_keeps l (s.choosing l)
  rw [(lanesAct_chosen s l).1, hholder, choosing_lane]

/-- A transaction in flight stays (R97). -/
theorem lanesAct_busyLane {s : State} {l : Lane} (h : (s.lane l).txn.isSome = true) :
    (lanesAct s).lane l = { s.lane l with holder := s.holderOf l } ∧
      (lanesAct s).timebase.dueOf (.responseWindow l) = s.timebase.dueOf (.responseWindow l) := by
  obtain ⟨hlane, hdue, -⟩ := lanesAct_chosen s l
  obtain ⟨-, -, -, hwindow⟩ := choosing_keeps s l
  have hsame : arbitrate l (s.choosing l) = s.choosing l := arbitrate_txn (by rw [choosing_lane]; exact h)
  rw [hlane, hdue, hsame, choosing_lane, hwindow]
  exact ⟨rfl, rfl⟩

/-- A flash operation that runs stays, with its timeout (R138, R140). -/
theorem lanesAct_running {s : State} (h : s.store.running.isSome = true) :
    (lanesAct s).store.running = s.store.running ∧ (lanesAct s).store.chipSelect = s.store.chipSelect ∧
      (lanesAct s).timebase.dueOf .storeOperation = s.timebase.dueOf .storeOperation := by
  obtain ⟨-, -, -, -, hready⟩ := s.readied_keeps
  obtain ⟨hrun, hselect, htime⟩ := hready h
  obtain ⟨-, -, -, hdueA, -, -, hrunA, hselectA, -⟩ := arbitrate_keeps .a s.readied
  obtain ⟨-, -, -, hdueB, -, -, hrunB, hselectB, -⟩ := arbitrate_keeps .b (arbitrate .a s.readied)
  rw [lanesAct_readied]
  exact ⟨hrunB.trans (hrunA.trans hrun), hselectB.trans (hselectA.trans hselect),
    (hdueB .storeOperation nofun).trans ((hdueA .storeOperation nofun).trans (by rw [htime]))⟩

/-- What the arbiter of a free lane chooses begins, and it chooses nothing only where nothing begins (R97, R104). -/
theorem lanesAct_begins {s : State} {l : Lane} (hfree : (s.lane l).txn = none) (hopen : s.lanesOpen = true) :
    (arbiterChoice l (s.choosing l) = none → (lanesAct s).lane l = (s.choosing l).lane l) ∧
      ∀ turn kind, arbiterChoice l (s.choosing l) = some (turn, kind) →
        (∃ x, (s.choosing l).turnBegun l turn kind (lanesAct s) x) ∧
        (turn.step = .block → ((lanesAct s).buffer turn.buffer).state = .sending) ∧
        (turn.station.isSome = true → (lanesAct s).timebase.dueOf (.responseWindow l) =
          some (s.timebase.count + ms (s.settings.responseWindow l))) := by
  obtain ⟨hlane, hdue, hsend⟩ := lanesAct_chosen s l
  obtain ⟨hsettings, hopen', hcount, -⟩ := choosing_keeps s l
  have hfree' : ((s.choosing l).lane l).txn = none := by rw [choosing_lane, hfree]
  obtain ⟨hc, he⟩ | ⟨turn, kind, -, -, hc, he⟩ := arbitrate_cases l (s.choosing l)
  · have hnone : arbiterChoice l (s.choosing l) = none := by
      rcases hc with h | h | h
      · rw [hfree'] at h
        cases h
      · rw [hopen', hopen] at h
        cases h
      · exact h
    refine ⟨fun _ => by rw [hlane, he], fun _ _ h => ?_⟩
    rw [hnone] at h
    cases h
  · refine ⟨fun h => (by rw [hc] at h; cases h), fun turn' kind' h => ?_⟩
    rw [hc] at h
    cases h
    rw [he] at hlane hdue hsend
    obtain ⟨q, y, tb, k, hf, -, -, hwindow⟩ := beginStep_frame l turn kind (s.choosing l)
    have hbuf : (beginStep l turn kind (s.choosing l)).store.buffers =
        (markSending (turn.first (s.choosing l).settings.retryLimit) (s.choosing l)).store.buffers := by
      rw [hf]
      cases l <;> rfl
    refine ⟨?_, fun hb => hsend _ ?_, fun hst => ?_⟩
    · unfold State.turnBegun
      rw [hlane]
      exact beginStep_turnBegun l turn kind (s.choosing l)
    · rw [State.buffer, hbuf]
      exact markSending_block (t := turn.first _) hb (arbiterChoice_block hc hb)
    · rw [hdue, hf, State.setLane_timebase, hwindow hst, hcount, hsettings]

/-- The jobs of the queue are of different stations, and no holder names one twice, as the arbiters choose. -/
theorem choosing_distinct {s : State} (hq : (s.engine.queue.map (·.station)).Nodup) (h : s.holdersDistinct) (l : Lane) :
    (s.choosing l).holdersDistinct := by
  have hstable := holdersDistinct_stable.toBlockStable.toLaneStable
  have hready := hstable.issueFlash (hstable.selectHolder (hstable.selectHolder ⟨hq, h⟩ .a) .b)
  cases l with
  | a => exact hready.2
  | b => exact (hstable.arbitrate hready .a).2

theorem State.begins_choosing (s : State) (l : Lane) (n : Nat) :
    (s.choosing l).begins (arbitrate l (s.choosing l)) l n ↔ s.begins (lanesAct s) l n := by
  unfold State.begins
  rw [(lanesAct_chosen s l).1, choosing_lane]

theorem State.sends_choosing (s : State) (l : Lane) (n : Nat) (state : JobState) :
    (s.choosing l).sends (arbitrate l (s.choosing l)) l n state = s.sends (lanesAct s) l n state := by
  unfold State.sends State.blockCounts
  rw [(lanesAct_chosen s l).1, choosing_lane]

/-- A job once the lanes have worked: in the state in which its lane's selection left it, its step begun or not, and its
blocks counted (R77, R79, R125, R130). -/
theorem lanesAct_worked {s : State} {n : Nat} {j : Job} (hj : s.job? n = some j) :
    ∃ x, (lanesAct s).job? n = some x ∧ x.state = (s.readiedJob j).state ∧
      (s.begins (lanesAct s) .a n ∨ s.begins (lanesAct s) .b n → x.inFlight = true ∧ x.retriesUsed = 0) ∧
      (¬(s.begins (lanesAct s) .a n ∨ s.begins (lanesAct s) .b n) →
        x.inFlight = j.inFlight ∧ x.retriesUsed = j.retriesUsed) ∧
      ((s.engine.queue.map (·.station)).Nodup → s.holdersDistinct →
        let blocks := ([Lane.a, .b].filter fun l => s.sends (lanesAct s) l n x.state).length
        x.blocksSent = if blocks = 0 then j.blocksSent else min 65535 (j.blocksSent + blocks)) := by
  have hr : s.readied.job? n = some (s.readiedJob j) := by rw [s.readied_job?, hj]; rfl
  have hkeeps : (s.readiedJob j).inFlight = j.inFlight ∧ (s.readiedJob j).retriesUsed = j.retriesUsed ∧
      (s.readiedJob j).blocksSent = j.blocksSent := by
    unfold State.readiedJob
    rw [s.entered_eq .b, s.entered_eq .a]
    exact ⟨rfl, rfl, rfl⟩
  obtain ⟨hflight, hretries, hblocks⟩ := hkeeps
  obtain ⟨y, hy, hys, hya, hyb, hyc⟩ := arbitrate_job? .a hr
  obtain ⟨x, hx, hxs, hxa, hxb, hxc⟩ := arbitrate_job? .b hy
  have hbegA : s.readied.begins (arbitrate .a s.readied) .a n ↔ _ := s.begins_choosing .a n
  have hbegB : (arbitrate .a s.readied).begins (arbitrate .b (arbitrate .a s.readied)) .b n ↔ _ := s.begins_choosing .b n
  rw [hbegA] at hya hyb
  rw [hbegB] at hxa hxb
  refine ⟨x, hx, hxs.trans hys, fun h => ?_, fun h => ?_, fun hq hd => ?_⟩
  · by_cases hb : s.begins (lanesAct s) .b n
    · exact hxa hb
    · rw [(hxb hb).1, (hxb hb).2]
      exact hya (h.resolve_right hb)
  · rw [not_or] at h
    rw [(hxb h.2).1, (hxb h.2).2, (hyb h.1).1, (hyb h.1).2]
    exact ⟨hflight, hretries⟩
  · have hsendA : s.readied.sends (arbitrate .a s.readied) .a n x.state = _ := s.sends_choosing .a n x.state
    have hsendB : (arbitrate .a s.readied).sends (arbitrate .b (arbitrate .a s.readied)) .b n x.state = _ :=
      s.sends_choosing .b n x.state
    have hx' := hxc (choosing_distinct hq hd .b .b)
    have hy' := hyc (choosing_distinct hq hd .a .a)
    rw [← hxs, hsendB] at hx'
    rw [← hys, ← hxs, hsendA, hblocks] at hy'
    dsimp only
    rw [hx', hy']
    cases hA : s.sends (lanesAct s) .a n x.state <;> cases hB : s.sends (lanesAct s) .b n x.state <;> simp [hA, hB]
    omega

/-! ### The holder that the lanes select, and the obligation (R79, R119, R120) -/

theorem State.selection?_held {s : State} {l : Lane} (h : (s.lane l).holder.isSome = true) : s.selection? l = none := by
  rw [State.selection?, h]
  rfl

theorem State.selection?_idle {s : State} {l : Lane} (h : ∀ j ∈ s.engine.queue, ¬s.waits l j) : s.selection? l = none := by
  cases hx : s.selection? l with
  | none => rfl
  | some x =>
    obtain ⟨j, hj, hw, -⟩ := State.selection?_some hx
    exact absurd hw (h j hj)

theorem State.holderOf_kept {s : State} {l : Lane}
    (h : (s.lane l).holder.isSome = true ∨ ∀ j ∈ s.engine.queue, ¬s.waits l j) : s.holderOf l = (s.lane l).holder := by
  rw [State.holderOf, h.elim State.selection?_held State.selection?_idle]
  rfl

/-- The first job of a lane in LOADWAIT is the one that the lane selects. -/
theorem State.selection?_first {s : State} {l : Lane} {j : Job} (hh : (s.lane l).holder = none) (ho : s.lanesOpen = true)
    (h : s.firstJob (s.waits l) j) : s.selection? l = some (s.selected l j) := by
  obtain ⟨hw, before, rest, hq, hbefore⟩ := h
  have hhead : (s.laneJobs l fun j => j.state = .loadwait).head? = some j := by
    have hkeep : ∀ x, (decide (x.state = .loadwait) && s.onLane l x.station) = true ↔ s.waits l x := fun x => by
      rw [Bool.and_eq_true, decide_eq_true_eq]
      rfl
    rw [s.laneJobs_eq, hq, List.filter_append, List.filter_eq_nil_iff.2 fun x hx => by rw [hkeep]; exact hbefore x hx,
      List.filter_cons, if_pos ((hkeep j).2 hw)]
    rfl
  rw [State.selection?, hh, ho, hhead]
  rfl

/-- A job that a lane selects and the other leaves. -/
theorem State.readiedJob_selected {s : State} {l : Lane} {x : Selection} {j : Job} (hx : s.selection? l = some x)
    (hj : j.station ∈ x.members) : s.readiedJob j = x.enter^[x.members.count j.station] j := by
  have hon := State.selection?_onLane hx hj
  have hl : s.entered l j = x.enter^[x.members.count j.station] j := by rw [State.entered, hx]; rfl
  unfold State.readiedJob
  cases l with
  | a =>
    rw [State.entered_otherLane (m := .a) (by rw [s.entered_station]; exact hon) (by decide), hl]
  | b => rw [State.entered_otherLane (l := .a) (m := .b) hon (by decide), hl]

/-- A job that no lane selects. -/
theorem State.readiedJob_other {s : State} {j : Job}
    (h : ∀ l x, s.selection? l = some x → j.station ∉ x.members) : s.readiedJob j = j := by
  unfold State.readiedJob
  rw [State.entered_other (h .a), State.entered_other (h .b)]

theorem State.firstJob.mem {s : State} {p : Job → Prop} {j : Job} (h : s.firstJob p j) : j ∈ s.engine.queue := by
  obtain ⟨-, before, rest, hq, -⟩ := h
  rw [hq]
  exact List.mem_append_right _ (List.mem_cons_self ..)

/-- What a lane selects is its holder, and its jobs are in the states that they enter. -/
theorem lanesAct_selected {s : State} {l : Lane} {x : Selection} (hx : s.selection? l = some x) :
    ((lanesAct s).lane l).holder = some x.holder ∧
      ∀ n ∈ x.members, ∀ j, s.job? n = some j →
        ((lanesAct s).job? n).map (·.state) = some (x.enter^[x.members.count n] j).state := by
  refine ⟨(lanesAct_holder s l).trans (by rw [State.holderOf, hx]; rfl), fun n hn j hj => ?_⟩
  obtain rfl := State.job?_station hj
  obtain ⟨y, hy, hstate, -⟩ := lanesAct_worked hj
  rw [hy, Option.map_some, hstate, State.readiedJob_selected hx hn]

/-- A resume goes to LOAD, or to CLOSE where its fill mark is the image length (R79, R119). -/
theorem lanesAct_resumes {s : State} (hq : (s.engine.queue.map (·.station)).Nodup) (ho : s.lanesOpen = true) {l : Lane}
    {j : Job} (hh : (s.lane l).holder = none) (hj : s.firstJob (s.waits l) j) (hn : j.needsOpen = false) :
    ((lanesAct s).lane l).holder = some (.single j.station) ∧
      ((lanesAct s).job? j.station).map (·.state) =
        some (if j.fill = s.lengthOf j.station then .close else .load) := by
  obtain ⟨hholder, hstate⟩ := lanesAct_selected (State.selection?_first hh ho hj)
  have hsel : s.selected l j =
      { members := [j.station], enter := Job.resumed (s.lengthOf j.station), holder := .single j.station } := by
    rw [State.selected, hn]
    rfl
  rw [hsel] at hholder hstate
  refine ⟨hholder, (hstate _ (List.mem_singleton_self _) j (job?_of_mem hq hj.mem)).trans ?_⟩
  rw [List.count_singleton_self]
  rfl

theorem groupOf_eq (l : Lane) (j : Job) (s : State) :
    groupOf l j s =
      ((j :: s.engine.queue.filter fun x => decide (x.state = .loadwait ∧ s.onLane l x.station = true ∧
        x.needsOpen = true ∧ x.station ≠ j.station ∧ s.slotOf x.station = s.slotOf j.station)).take 8).map (·.station) := by
  unfold groupOf
  dsimp only
  rw [s.laneJobs_eq]
  refine congrArg (fun others => ((j :: others).take 8).map (·.station)) (List.filter_congr fun x _ => ?_)
  rw [Bool.eq_iff_iff]
  simp only [Bool.and_eq_true, decide_eq_true_eq]
  tauto

/-- A job that needs OPEN goes to OPEN, and with group loading on with its group (R79, R119, R120). -/
theorem lanesAct_opens {s : State} (ho : s.lanesOpen = true) {l : Lane} {j : Job} (hh : (s.lane l).holder = none)
    (hj : s.firstJob (s.waits l) j) (hn : j.needsOpen = true) {members : List Nat}
    (hm : members = if s.settings.groupLoading then groupOf l j s else [j.station]) :
    ((lanesAct s).lane l).holder = some (if members.length = 1 then .single j.station else .group members 0 none) ∧
      ∀ n ∈ members, ((lanesAct s).job? n).map (·.state) = some .opn := by
  obtain ⟨hholder, hstate⟩ := lanesAct_selected (State.selection?_first hh ho hj)
  have hsel : s.selected l j =
      { members := members, enter := fun x => { x with state := .opn }
        holder := if members.length ≤ 1 then .single j.station else .group members 0 none } := by
    rw [State.selected, hn, hm]
    rfl
  have hlen : 1 ≤ members.length := by
    obtain ⟨ns, hns⟩ := groupOf_cons l j s
    rw [hm, hns]
    split <;> simp
  have hmem := fun {n} => State.mem_selected (l := l) hj.mem hj.1 (n := n)
  rw [hsel] at hholder hstate hmem
  refine ⟨?_, fun n hn => ?_⟩
  · exact hholder.trans (congrArg some (if_congr ⟨fun h => Nat.le_antisymm h hlen, Nat.le_of_eq⟩ rfl rfl))
  · obtain ⟨k, hk, rfl, -⟩ := hmem hn
    have hjob : s.hasJob k.station = true := (s.hasJob_iff _).2 (List.mem_map_of_mem hk)
    obtain ⟨k', hk'⟩ := Option.isSome_iff_exists.1 hjob
    obtain ⟨c, hc⟩ := Nat.exists_eq_succ_of_ne_zero (Nat.ne_of_gt (List.count_pos_iff.2 hn))
    rw [hstate _ hn k' hk', hc, Function.iterate_succ_apply']

theorem Job.workedOn_of_core {j x : Job} (h : x.core = j.core) : j.workedOn x :=
  calc
    x = { x.core with
          state := x.state, inFlight := x.inFlight, retriesUsed := x.retriesUsed, blocksSent := x.blocksSent } := rfl
    _ = { j.core with
          state := x.state, inFlight := x.inFlight, retriesUsed := x.retriesUsed, blocksSent := x.blocksSent } := by
      rw [h]

/-- A job that was not in LOADWAIT, or is in no lane's holder now, keeps its state. -/
theorem readiedJob_state {s : State} (hq : (s.engine.queue.map (·.station)).Nodup) {n : Nat} {j : Job}
    (hj : s.job? n = some j)
    (h : j.state ≠ .loadwait ∨ ∀ l h, ((lanesAct s).lane l).holder = some h → n ∉ h.stations) :
    s.readiedJob j = j := by
  refine State.readiedJob_other fun l x hx hm => ?_
  obtain rfl := State.job?_station hj
  obtain ⟨k, hk, hw, rfl, -⟩ := State.selection?_some hx
  obtain ⟨i, hi, hij, hwait, -⟩ := State.mem_selected hk hw hm
  have hsame : i = j := by
    have hjob := job?_of_mem hq hi
    rw [hij] at hjob
    exact Option.some.inj (hjob.symm.trans hj)
  rcases h with h | h
  · exact h (hsame ▸ hwait)
  · refine h l _ (lanesAct_selected hx).1 ?_
    rw [State.selected_stations]
    exact hm

/-- Settles O41: the lanes select in the state after the event, and each lane chooses in the state that the acts before its own
leave. -/
theorem lanesActAfterEvents : Obligations.LanesActAfterEvents := by
  intro s t ready choosing begun
  obtain ⟨halike, hslots, hdue⟩ := lanesAct_worksFrom s
  refine ⟨⟨halike, hslots, fun p hw hs => hdue p ?_, fun l hl => ?_, fun h => lanesAct_running h⟩, lanesAct_closed,
    fun l h => (lanesAct_holder s l).trans (State.holderOf_kept h), fun hq ho l j hh hj => ⟨lanesAct_resumes hq.1 ho hh hj,
    fun hn => ?_⟩, fun hq n j hj => ?_, fun l hfree ho => ?_⟩
  · rintro (rfl | ⟨l, rfl⟩)
    · exact hs rfl
    · exact hw l rfl
  · obtain ⟨hlane, hwindow⟩ := lanesAct_busyLane hl
    exact ⟨congrArg (·.txn) hlane, congrArg (·.seq) hlane, congrArg (·.driver) hlane, hwindow⟩
  · exact lanesAct_opens ho hh hj hn (by rw [groupOf_eq])
  · obtain ⟨x, hx, hstate, hbegun, hnot, hblocks⟩ := lanesAct_worked hj
    have hiff : begun n ↔ s.begins t .a n ∨ s.begins t .b n :=
      ⟨fun ⟨l, id, hf, ho⟩ => by
        cases l with
        | a => exact .inl ⟨hf, id, ho⟩
        | b => exact .inr ⟨hf, id, ho⟩,
      fun h => h.elim (fun ⟨hf, id, ho⟩ => ⟨.a, id, hf, ho⟩) fun ⟨hf, id, ho⟩ => ⟨.b, id, hf, ho⟩⟩
    have hcore := lanesAct_job? s n
    rw [hx, hj, Option.map_some, Option.map_some, Option.some.injEq] at hcore
    rw [hiff]
    exact ⟨x, hx, Job.workedOn_of_core hcore, fun h => by rw [hstate, readiedJob_state hq.1 hj h], hbegun, hnot, hblocks hq.1⟩
  · have hchoosing : choosing l = s.choosing l := by cases l <;> rfl
    have hfree : (s.lane l).txn = none := Option.isNone_iff_eq_none.1 hfree
    have hlane := choosing_lane s l
    obtain ⟨hsettings, -⟩ := choosing_keeps s l
    obtain ⟨hnone, hsome⟩ := lanesAct_begins hfree ho
    rw [hchoosing]
    refine ⟨fun hc => ?_, fun turn kind hc => ?_⟩
    · have ht := (hnone hc).trans hlane
      exact ⟨(congrArg (·.txn) ht).trans hfree, congrArg (·.driver) ht, congrArg (·.lastTurn) ht,
        congrArg (·.pendingPoll) ht, congrArg (·.seq) ht, congrArg (·.abandoned) ht⟩
    · obtain ⟨⟨x, hx⟩, hblock, hwindow⟩ := hsome turn kind hc
      unfold State.turnBegun at hx
      rw [hlane, hsettings] at hx
      obtain ⟨htxn, hstep, howner, hstation, hindex, hbuffer, hattempt, hendings, hlimit, hrate, hstale, hseq, hnext, hlast,
        hdriver, habandoned, hpoll, -⟩ := hx
      refine ⟨x, htxn, hstep, howner, hstation, hindex, hbuffer, hattempt, hendings, hlimit, hrate, hstale, hseq, hnext,
        hlast, hdriver, habandoned, fun ⟨n, hn⟩ => ?_, fun hn => ?_, hblock, hwindow⟩
      · rw [hpoll, Turn.leavesPending, hn]
      · rw [hpoll]
        unfold Turn.leavesPending
        split
        · exact absurd ‹_› (hn _)
        · rfl

end Sys2Proof.Machine
end

section
/-! PROOFS. An accepted IMAGE OPEN (spec/05, 5.4; spec/08, 8.2 to 8.5). -/

namespace Sys2Proof.Machine

/-! ### The slot and its mark (R142) -/

/-- A slot that has a record takes what is set. -/
theorem State.slot_setSlot_record {s : State} {n : Nat} (h0 : n ≠ 0) (h : n ≤ s.store.slots.length) (x : Slot) (m : Nat) :
    (s.setSlot n x).slot m = if m = n then x else s.slot m := by
  rw [State.setSlot_eq, if_neg h0]
  unfold State.slot
  dsimp only
  by_cases hm0 : m = 0
  · rw [if_pos hm0, if_pos hm0, if_neg (by omega)]
  · rw [if_neg hm0, if_neg hm0, List.getD_eq_getElem?_getD, List.getD_eq_getElem?_getD, List.getElem?_set]
    by_cases hm : m = n
    · subst hm
      rw [if_pos rfl, if_pos rfl, if_pos (by omega)]
      rfl
    · rw [if_neg (by omega), if_neg hm]

/-- The PROGRAM of the next slot's mark is queued behind all others, and where no slot is listed none is. -/
theorem kickMarkWriter_queue (s : State) :
    ∃ ops, kickMarkWriter s = s.withMarks s.store.slots s.store.markList (s.store.queue ++ ops) ∧
      (s.store.markList = [] → ops = []) := by
  have stays : ∃ ops, s = s.withMarks s.store.slots s.store.markList (s.store.queue ++ ops) ∧
      (s.store.markList = [] → ops = []) := ⟨[], by rw [List.append_nil]; rfl, fun _ => rfl⟩
  unfold kickMarkWriter
  split
  · exact stays
  · rename_i n ns hn
    split
    · exact stays
    · exact ⟨[markOp n], rfl, fun h => by rw [hn] at h; cases h⟩

/-- The store once a slot is WRITING, taken off the mark list with its queued PROGRAM: the queue keeps every other
operation. -/
theorem leaveMarkList_setSlot {s : State} {slot : Nat} (h0 : slot ≠ 0) (h : slot ≤ s.store.slots.length) :
    ∃ slots marks queue,
      let x := s.withMarks slots marks queue
      leaveMarkList slot (s.setSlot slot .writing) = x ∧ (∀ n, x.slot n = if n = slot then .writing else s.slot n) ∧
        slot ∉ marks ∧ (∀ op ∈ s.store.queue, op.who ≠ .markWriter slot → op ∈ queue) ∧
        (s.store.queue = [] → s.store.markList = [] → queue = []) := by
  let unlisted := s.withMarks (s.setSlot slot .writing).store.slots (s.store.markList.filter (· ≠ slot))
    (s.store.queue.filter (·.who ≠ .markWriter slot))
  have hleave : leaveMarkList slot (s.setSlot slot .writing) = kickMarkWriter unlisted := by
    rw [State.setSlot_withSlots]
    rfl
  obtain ⟨ops, hkick, hnone⟩ := kickMarkWriter_queue unlisted
  refine ⟨_, _, _, hleave.trans hkick, State.slot_setSlot_record h0 h .writing, fun hm => ?_, fun op hop hw => ?_,
    fun hq hl => ?_⟩
  · simpa using List.of_mem_filter hm
  · exact List.mem_append_left _ (List.mem_filter.2 ⟨hop, by simpa using hw⟩)
  · have hops : ops = [] := hnone (by simp [unlisted, State.withMarks, hl])
    simp [unlisted, State.withMarks, hq, hops]

/-! ### The jobs of the slot fail (R81, R89) -/

/-- A station without a job has none that fails, so that the queue is in either case as if its job had left. -/
theorem failJob_queue (n : Nat) (r : Reason) (s : State) :
    (failJob n r s).engine.queue = s.engine.queue.filter (·.station ≠ n) := by
  cases hj : s.job? n with
  | none =>
    have hnone : ∀ j ∈ s.engine.queue, j.station ≠ n := by simpa [State.job?] using hj
    rw [List.filter_eq_self.2 fun j h => by simpa using hnone j h]
    simp only [failJob, hj]
  | some j =>
    obtain ⟨-, -, -, he, -⟩ := jobGone_fields n .absent (.nodeFailed n (j.pass.getD 0) r j.state) s.engine.restored
      (s.engine.failed + 1) s
    rw [failJob_eq hj, he]

theorem failJobs_queue (r : Reason) (js : List Job) (s : State) :
    (js.foldl (fun x j => failJob j.station r x) s).engine.queue =
      s.engine.queue.filter fun j => !(js.map (·.station)).contains j.station := by
  induction js generalizing s with
  | nil => simp
  | cons j js ih =>
    rw [List.foldl_cons, ih, failJob_queue, List.filter_filter]
    refine List.filter_congr fun k _ => ?_
    by_cases hk : k.station = j.station <;> simp [hk]

/-- A job that is part of no holder leaves its load without a change. -/
theorem leaveLoad_outside {n : Nat} {s : State} (h : ∀ l, (s.lane l).without n) : leaveLoad n s = s := by
  have holder : ∀ l, leaveHolder l n s = s := fun l => by
    unfold leaveHolder
    split
    · rfl
    · rename_i m hm
      exact if_neg fun he => h l _ hm (by simp [Holder.stations, he])
    · rename_i members count round hg
      exact if_neg fun hc => h l _ hg (by simpa [Holder.stations] using hc)
  unfold leaveLoad
  split
  · rfl
  · exact holder _

/-- A job that is part of no holder fails without a change of the store and of the lanes. -/
theorem failJob_outside {n : Nat} (r : Reason) {s : State} (h : ∀ l, (s.lane l).without n) :
    (failJob n r s).store = s.store ∧ ∀ l, (failJob n r s).lane l = s.lane l := by
  cases hj : s.job? n with
  | none => simp only [failJob, hj, implies_true, and_self]
  | some j =>
    have hremove : ∀ l, ((removeDeadline (.restoreLimit n) s).lane l).without n := fun l => by
      cases l with
      | a => exact h .a
      | b => exact h .b
    have hdepart : departJob n s =
        { removeDeadline (.restoreLimit n) s with
          engine := { s.engine with queue := s.engine.queue.filter (·.station ≠ n) } } := by
      unfold departJob
      rw [leaveLoad_outside hremove]
      rfl
    rw [failJob_eq hj, State.jobGone, hdepart, passCompleteIfEmpty_eq (n := _) ⟨rfl, rfl, rfl, rfl⟩,
      postNotice_notified (n := setPresence n .absent _) ⟨rfl, rfl, rfl, rfl⟩, setPresence_self_notified]
    exact ⟨rfl, fun l => by cases l <;> rfl⟩

theorem failJobs_outside (r : Reason) (js : List Job) {s : State} (h : ∀ l, ∀ j ∈ js, (s.lane l).without j.station) :
    (js.foldl (fun x j => failJob j.station r x) s).store = s.store := by
  induction js generalizing s with
  | nil => rfl
  | cons j js ih =>
    obtain ⟨hstore, hlane⟩ := failJob_outside r (fun l => h l j List.mem_cons_self)
    rw [List.foldl_cons, ih fun l k hk => by rw [hlane]; exact h l k (List.mem_cons_of_mem _ hk), hstore]

/-- The jobs of a slot in LOADWAIT. -/
def State.waitingFor (s : State) (slot : Nat) : List Job :=
  s.engine.queue.filter fun j => decide (s.slotOf j.station = slot ∧ j.state = .loadwait)

/-- Where no job of a slot loads, those that fail are those in LOADWAIT. -/
theorem doomedJobs_waiting {s : State} {slot : Nat} (h : slotLoading slot s = false) :
    doomedJobs slot s = s.waitingFor slot := by
  have hnone := (slotLoading_iff slot s).not.1 (by simp [h])
  rw [doomedJobs_eq]
  refine List.filter_congr fun j hj => ?_
  exact decide_eq_decide.2 ⟨fun ⟨hs, hneeds⟩ => ⟨hs, hneeds.resolve_right fun hl => hnone ⟨j, hj, hs, hl⟩⟩,
    fun ⟨hs, hw⟩ => ⟨hs, .inl hw⟩⟩

/-- A station's job is in LOADWAIT for the slot where the station is one of those jobs'. -/
theorem State.waitingFor_station {s : State} (hq : (s.engine.queue.map (·.station)).Nodup) (slot : Nat) {j : Job}
    (hj : j ∈ s.engine.queue) :
    ((s.waitingFor slot).map (·.station)).contains j.station =
      (decide (s.slotOf j.station = slot) && decide (j.state = .loadwait)) := by
  rw [← Bool.decide_and, List.contains_eq_mem]
  refine decide_eq_decide.2 ⟨fun hm => ?_, fun h => ?_⟩
  · obtain ⟨k, hk, hkj⟩ := List.mem_map.1 hm
    obtain ⟨hkq, hks⟩ := List.mem_filter.1 hk
    have hfound := job?_of_mem hq hkq
    rw [hkj, job?_of_mem hq hj] at hfound
    obtain rfl := Option.some.inj hfound
    exact of_decide_eq_true hks
  · exact List.mem_map_of_mem (List.mem_filter.2 ⟨hj, decide_eq_true h⟩)

/-- The notices of the jobs that have failed with NO_IMAGE, with PASS COMPLETE where they were the last (R76, R89). -/
def State.openPosted (s : State) (doomed : List Job) : State :=
  if doomed = [] then s
  else s.runEnded (doomed.map (·.station)) s.engine.restored (s.engine.failed + (doomed.map (·.station)).length)
    (s.failuresPosted .noImage doomed)

/-- What a station has beside its presence. -/
def Station.measured (st : Station) : Entry × Context × Estimate := (st.entry, st.context, st.estimate)

theorem setPresence_measured (n : Nat) (p : Presence) (s : State) :
    (setPresence n p s).stations.map Station.measured = s.stations.map Station.measured := by
  have hupd : (s.updStation n fun x => { x with presence := p }).stations.map Station.measured =
      s.stations.map Station.measured := by
    rw [State.updStation_stations, List.map_map]
    refine List.map_congr_left fun st _ => ?_
    by_cases hn : st.entry.number = n <;> simp [hn, Station.measured]
  unfold setPresence
  split
  · rfl
  · split
    · rfl
    · dsimp only
      split
      · rw [postNotice_stations, hupd]
      · exact hupd

theorem failuresPosted_measured (s : State) (r : Reason) (js : List Job) :
    (s.failuresPosted r js).stations.map Station.measured = s.stations.map Station.measured :=
  List.foldlRecOn js _ (motive := fun x : State => x.stations.map Station.measured = s.stations.map Station.measured) rfl
    fun x hx j _ => by rw [postNotice_stations, setPresence_measured, hx]

theorem State.runEnded_stations (s : State) (gone : List Nat) (restored failed : Nat) (x : State) :
    (s.runEnded gone restored failed x).stations = x.stations := by
  unfold State.runEnded
  split
  · exact postNotice_stations _ x
  · rfl

/-- The stations of the jobs that have failed are ABSENT, and nothing else of a station has changed. -/
theorem State.openPosted_stations (s : State) (doomed : List Job) :
    (s.openPosted doomed).stations.map Station.measured = s.stations.map Station.measured ∧
      ∀ n ∈ doomed.map (·.station), ∀ st, (s.openPosted doomed).station? n = some st → st.presence = .absent := by
  unfold State.openPosted
  split
  · rename_i hd
    exact ⟨rfl, fun n hn => by rw [hd] at hn; cases hn⟩
  · rw [State.runEnded_stations]
    refine ⟨failuresPosted_measured s _ doomed, fun n hn st hst => ?_⟩
    have hfound := failuresPosted_station? s .noImage doomed n
    rw [State.station?, State.runEnded_stations] at hst
    rw [State.station?, hst] at hfound
    obtain ⟨x, -, hx⟩ := Option.map_eq_some_iff.1 hfound.symm
    rw [← hx, if_pos hn]

/-- Some jobs have failed with NO_IMAGE, and nothing else has changed but the lanes, the buffer pool and the flash queue. -/
def State.imageLost (s : State) (doomed : List Job) (u : State) : Prop :=
  let gone := doomed.map (·.station)
  (u.link = (s.openPosted doomed).link ∧ u.pins = (s.openPosted doomed).pins ∧
      u.stations = (s.openPosted doomed).stations) ∧
    (u.engine.phase = (if doomed ≠ [] ∧ s.endsRun gone = true then .idle else s.engine.phase) ∧
      u.engine.pass = s.engine.pass ∧ u.engine.restored = s.engine.restored ∧
      u.engine.failed = s.engine.failed + doomed.length ∧
      u.engine.queue = s.engine.queue.filter fun j => !gone.contains j.station) ∧
    (u.timebase.count = s.timebase.count ∧ ∀ n ∈ gone, u.timebase.dueOf (.restoreLimit n) = none) ∧
    s.departKeeps u

/-- The queue is without the jobs in LOADWAIT for the slot, and they are counted. -/
theorem State.imageLost.waiting {s u : State} {slot : Nat} (hq : (s.engine.queue.map (·.station)).Nodup)
    (h : s.imageLost (s.waitingFor slot) u) :
    u.engine.queue =
        s.engine.queue.filter (fun j => !(decide (s.slotOf j.station = slot) && decide (j.state = .loadwait))) ∧
      u.engine.failed = s.engine.failed +
        (s.engine.queue.filter fun j => decide (s.slotOf j.station = slot) && decide (j.state = .loadwait)).length := by
  obtain ⟨-, ⟨-, -, -, hfailed, hjobs⟩, -⟩ := h
  rw [hjobs, hfailed]
  exact ⟨List.filter_congr fun j hj => congrArg (!·) (State.waitingFor_station hq slot hj),
    by simp only [State.waitingFor, Bool.decide_and]⟩

/-- Some jobs of the queue fail with NO_IMAGE. -/
theorem failJobs_imageLost {s : State} (hq : (s.engine.queue.map (·.station)).Nodup) {doomed : List Job}
    (hd : doomed.Sublist s.engine.queue) (slots : List Slot) (marks : List Nat) (queue : List FlashOp) :
    let x := s.withMarks slots marks queue
    let u := doomed.foldl (fun x j => failJob j.station .noImage x) x
    s.imageLost doomed u ∧ x.departStays u := by
  intro x u
  have hqueue : u.engine.queue = s.engine.queue.filter fun j => !(doomed.map (·.station)).contains j.station :=
    failJobs_queue .noImage doomed x
  by_cases hnil : doomed = []
  · subst hnil
    exact ⟨⟨⟨rfl, rfl, rfl⟩, ⟨rfl, rfl, rfl, rfl, hqueue⟩, ⟨rfl, fun n hn => (by cases hn)⟩, rfl, rfl, rfl, rfl, rfl, rfl,
      rfl, rfl, rfl, rfl, rfl⟩, .refl x⟩
  · have hjobs : s.engine.queue ≠ [] := fun h => hnil (List.sublist_nil.1 (h ▸ hd))
    have hnow : s.departed [] s x := State.departed_none hjobs
    obtain ⟨⟨hleft, hst, hlink, hpins, -⟩, hstays, -, hfailed, hrestored⟩ := failJobs_departed .noImage doomed hnow
      (fun j hj => job?_of_mem hq (hd.subset hj)) (hq.sublist (hd.map _))
    obtain ⟨-, -, hphase, hpass, -, -, -, hcount, hdue, hcar, hpushA, hpushB, hsupply, hset, hest, hquery, hload, hwrite,
      hsave, hflash⟩ := hleft
    have hposted : s.openPosted doomed =
        s.runEnded (doomed.map (·.station)) u.engine.restored u.engine.failed (s.failuresPosted .noImage doomed) := by
      rw [State.openPosted, if_neg hnil, hrestored, hfailed, List.length_map]
      rfl
    refine ⟨⟨?_, ⟨?_, hpass, hrestored, hfailed, hqueue⟩, ⟨hcount, hdue⟩, hcar, hpushA, hpushB, hsupply, hset, hest, hquery,
      hload, hwrite, hsave, hflash⟩, hstays⟩
    · rw [hposted, State.runEnded_stations]
      exact ⟨hlink, hpins, hst⟩
    · simp only [ne_eq, hnil, not_false_eq_true, true_and]
      exact hphase

/-- The jobs in LOADWAIT of a slot that has left VALID fail, and no operation leaves the queue; where none of them is part of
a holder, the store stays. -/
theorem slotLeftValid_imageLost {s : State} (hq : (s.engine.queue.map (·.station)).Nodup) {slot : Nat}
    (hl : slotLoading slot s = false) (slots : List Slot) (marks : List Nat) (queue : List FlashOp) :
    let x := s.withMarks slots marks queue
    let u := slotLeftValid slot x
    s.imageLost (s.waitingFor slot) u ∧ x.departStays u ∧
      ((∀ l, ∀ j ∈ s.waitingFor slot, (s.lane l).without j.station) → u.store = x.store) := by
  intro x
  have hu : slotLeftValid slot x = (s.waitingFor slot).foldl (fun x j => failJob j.station .noImage x) x := by
    rw [← doomedJobs_waiting hl]
    rfl
  dsimp only
  rw [hu]
  obtain ⟨hlost, hstays⟩ := failJobs_imageLost hq (List.filter_sublist : (s.waitingFor slot).Sublist _) slots marks queue
  exact ⟨hlost, hstays, failJobs_outside (s := x) _ _⟩

/-! ### The buffer of the image write (R143) -/

/-- The image write as IMAGE OPEN begins it (R145). -/
def ImageWrite.opened (slot : Nat) (image : Image) : ImageWrite :=
  { slot := slot, image := image, phase := .erasing, nextIndex := 0, sectorsErased := 0, readIndex := 0
    crcSoFar := crc32Start }

/-- An image write has begun and asked for its buffer. -/
def State.writeAsks (s : State) (w : ImageWrite) : State := grantBuffers (requestBuffers .imageWrite 1 (setWrite w s))

theorem State.writeAsks_pool (s : State) (w : ImageWrite) : ∃ b l q p, s.writeAsks w = (setWrite w s).withPool b l q p :=
  (State.poolBecomes.requestBuffers _ _ _).trans (.grantBuffers _)

theorem State.writeAsks_keeps (s : State) (w : ImageWrite) : ∀ op ∈ s.store.queue, op ∈ (s.writeAsks w).store.queue :=
  (State.poolKeeps.grantBuffers (requestBuffers .imageWrite 1 (setWrite w s))).2.1

theorem requestBuffers_write {s : State} (h : ∀ r ∈ s.store.waitList, r.who ≠ .imageWrite) :
    requestBuffers .imageWrite 1 s =
      { s with store := { s.store with waitList := s.store.waitList ++ [{ who := .imageWrite, count := 1 }] } } := by
  have hnone : (s.store.waitList.any fun r => decide (r.who = .imageWrite)) = false := by
    simpa using h
  unfold requestBuffers
  simp only [hnone]
  rfl

/-- With no buffer FREE, nothing is granted. -/
theorem grantBuffers_noneFree {s : State} (h : freeBuffer? s = none) : grantBuffers s = s := by
  rw [grantBuffers, grantSome]
  split
  · rename_i hi
    rw [h] at hi
    cases hi
  · rfl

/-- Where no buffer is FREE, the request waits behind the others. -/
theorem State.writeAsks_waits {s : State} (h : ∀ r ∈ s.store.waitList, r.who ≠ .imageWrite) (hf : freeBuffer? s = none)
    (w : ImageWrite) :
    s.writeAsks w =
      { setWrite w s with
        store :=
          { (setWrite w s).store with waitList := s.store.waitList ++ [{ who := .imageWrite, count := 1 }] } } := by
  have hfree : freeBuffer? (requestBuffers .imageWrite 1 (setWrite w s)) = none := hf
  exact (grantBuffers_noneFree hfree).trans (requestBuffers_write (s := setWrite w s) h)

/-- The image write's buffer, empty of data (R143). -/
def ImageWrite.buffer (w : ImageWrite) : Buffer :=
  { owner := some .imageWrite, slot := w.slot, block := 0, state := .full, crc := 0, data := [], released := false }

/-- Where a buffer is FREE and nobody waits, the image write has it. -/
theorem State.writeAsks_given {s : State} (h : s.store.waitList = []) {i : Nat} (hf : freeBuffer? s = some i)
    (w : ImageWrite) : s.writeAsks w = (setWrite w s).setBuffer i w.buffer := by
  have hnobody : ∀ r ∈ s.store.waitList, r.who ≠ .imageWrite := by simp [h]
  have hask := requestBuffers_write (s := setWrite w s) hnobody
  have hwait : (requestBuffers .imageWrite 1 (setWrite w s)).store.waitList = [{ who := .imageWrite, count := 1 }] := by
    rw [hask]
    exact congrArg (· ++ _) h
  have hfree : freeBuffer? (requestBuffers .imageWrite 1 (setWrite w s)) = some i := hf
  have hturn : { requestBuffers .imageWrite 1 (setWrite w s) with
      store := { (requestBuffers .imageWrite 1 (setWrite w s)).store with waitList := [] } } = setWrite w s := by
    rw [← h]
    rfl
  rw [State.writeAsks, grantBuffers, grantSome]
  simp only [hwait, hfree, takeTurn, Nat.le_refl, if_true, hturn]
  exact grantSome_nil 5 h

/-- Where nobody waits, no operation is queued for a buffer. -/
theorem State.writeAsks_queue {s : State} (h : s.store.waitList = []) (w : ImageWrite) :
    (s.writeAsks w).store.queue = s.store.queue := by
  cases hf : freeBuffer? s with
  | none =>
    rw [State.writeAsks_waits (by simp [h]) hf]
    rfl
  | some i =>
    rw [State.writeAsks_given h hf]
    rfl

/-! ### The ERASE (R139, R140) -/

/-- The operations of the flash, the one that runs and those queued. -/
def State.operations (s : State) : List FlashOp := s.store.running.toList ++ s.store.queue

theorem issueFlash_operations (s : State) : (issueFlash s).operations = s.operations := by
  unfold issueFlash
  split
  · rfl
  · rename_i h
    have hr : s.store.running = none := by
      cases hr : s.store.running with
      | none => rfl
      | some op => exact absurd (by simp [hr]) h
    split
    · rfl
    · rename_i op rest hq
      have hops : s.operations = op :: rest := by
        rw [State.operations, hr, hq]
        rfl
      rw [hops]
      dsimp only
      split <;> rfl

/-- The one operation queued is issued where none runs, with its timeout. -/
theorem issueFlash_only {s : State} {op : FlashOp} {t : Nat} (hr : s.store.running = none)
    (hs : s.supply.state ≠ .parked) (hq : s.store.queue = [op]) (ht : op.timeout = some t) :
    (issueFlash s).store.running = some op ∧
      (issueFlash s).timebase.dueOf .storeOperation = some (s.timebase.count + ms t) := by
  unfold issueFlash
  simp only [hr, hq, hs, ht]
  exact ⟨rfl, setDeadlineIn_dueOf_self ..⟩

/-- The ERASE of sector 0 of a slot's region. -/
def eraseOp (slot : Nat) : FlashOp := { command := .erase slot 0, who := .imageWrite }

/-- The image write of IMAGE OPEN begins in a state whose jobs of the slot have failed. -/
def State.writeOpened (s : State) (slot : Nat) (image : Image) : State :=
  issueFlash (queueOp (eraseOp slot) (s.writeAsks (.opened slot image)))

theorem openImage_eq (slot : Nat) (image : Image) (s : State) :
    openImage slot image s =
      (slotLeftValid slot (leaveMarkList slot (s.setSlot slot .writing))).writeOpened slot image := rfl

/-- The beginning of an image write changes the store, the park writer's phase and the operation timeout. -/
theorem State.writeOpened_frame (s : State) (slot : Nat) (image : Image) :
    ∃ tb x p, s.writeOpened slot image = { s with timebase := tb, store := x, park := p } ∧
      tb.count = s.timebase.count ∧ (∀ p, p ≠ .storeOperation → tb.dueOf p = s.timebase.dueOf p) ∧
      x.slots = s.store.slots ∧ x.markList = s.store.markList ∧ x.configSave = s.store.configSave ∧
      x.imageWrite = some (.opened slot image) ∧ x.waitList = (s.writeAsks (.opened slot image)).store.waitList ∧
      x.buffers = (s.writeAsks (.opened slot image)).store.buffers := by
  obtain ⟨tb, x, he, hcount, hdue, hx⟩ := issueFlash_eq (queueOp (eraseOp slot) (s.writeAsks (.opened slot image)))
  obtain ⟨b, l, q, p, hw⟩ := s.writeAsks_pool (.opened slot image)
  unfold State.writeOpened
  rw [he]
  rw [hw] at hcount hdue hx ⊢
  rw [hx]
  exact ⟨_, _, _, rfl, hcount, hdue, rfl, rfl, rfl, rfl, rfl, rfl⟩

/-- The ERASE stands behind every other operation, and none has left. -/
theorem State.writeOpened_operations (s : State) (slot : Nat) (image : Image) :
    (s.writeOpened slot image).operations.getLast? = some (eraseOp slot) ∧
      ∀ op ∈ s.operations, op ∈ (s.writeOpened slot image).operations := by
  have hrunning : (s.writeAsks (.opened slot image)).store.running = s.store.running := by
    obtain ⟨b, l, q, p, hw⟩ := s.writeAsks_pool (.opened slot image)
    rw [hw]
    rfl
  have hops : (s.writeOpened slot image).operations =
      s.store.running.toList ++ ((s.writeAsks (.opened slot image)).store.queue ++ [eraseOp slot]) := by
    rw [State.writeOpened, issueFlash_operations, ← hrunning]
    rfl
  rw [hops]
  refine ⟨by simp, fun op hop => ?_⟩
  rcases List.mem_append.1 hop with hr | hq
  · exact List.mem_append_left _ hr
  · exact List.mem_append_right _ (List.mem_append_left _ (s.writeAsks_keeps _ op hq))

/-- Where nobody waits and the flash is idle, the ERASE runs at once. -/
theorem State.writeOpened_issued {s : State} (hr : s.store.running = none) (hs : s.supply.state ≠ .parked)
    (hq : s.store.queue = []) (hw : s.store.waitList = []) (slot : Nat) (image : Image) :
    (s.writeOpened slot image).store.running = some (eraseOp slot) ∧
      (s.writeOpened slot image).timebase.dueOf .storeOperation = some (s.timebase.count + ms 3000) := by
  have hqueue := (State.writeAsks_queue hw (.opened slot image)).trans hq
  obtain ⟨b, l, q, p, he⟩ := s.writeAsks_pool (.opened slot image)
  unfold State.writeOpened
  rw [he] at hqueue ⊢
  exact issueFlash_only hr hs (congrArg (· ++ [eraseOp slot]) hqueue) rfl

/-- Where nobody waits and a buffer is FREE, the image write has one; where none is FREE, its request waits. -/
theorem State.writeOpened_buffer {s : State} (hlen : s.store.buffers.length = 4)
    (hask : ∀ r ∈ s.store.waitList, r.who ≠ .imageWrite) (slot : Nat) (image : Image) :
    let u := s.writeOpened slot image
    (s.store.waitList = [] → (∃ i, i < 4 ∧ (s.buffer i).state = .free) →
      u.store.waitList = [] ∧ ∃ i, i < 4 ∧ (u.buffer i).owner = some .imageWrite ∧ (u.buffer i).slot = slot ∧
        (u.buffer i).state = .full) ∧
    ((∀ i, i < 4 → (s.buffer i).state ≠ .free) →
      u.store.waitList = s.store.waitList ++ [{ who := .imageWrite, count := 1 }]) := by
  intro u
  obtain ⟨tb, x, p, hu, -, -, -, -, -, -, hwait, hbuffers⟩ := s.writeOpened_frame slot image
  have huw : u.store.waitList = (s.writeAsks (.opened slot image)).store.waitList :=
    (congrArg (·.store.waitList) hu).trans hwait
  have hub : ∀ i, u.buffer i = (s.writeAsks (.opened slot image)).buffer i := fun i =>
    congrArg (·.getD i Buffer.unowned) ((congrArg (·.store.buffers) hu).trans hbuffers)
  cases hf : freeBuffer? s with
  | none =>
    refine ⟨fun _ ⟨i, hi, hfree⟩ => absurd hfree (freeBuffer?_none hf hi), fun _ => ?_⟩
    rw [huw, State.writeAsks_waits hask hf]
  | some i =>
    obtain ⟨hi, hfree⟩ := freeBuffer?_some hf
    refine ⟨fun hnil _ => ?_, fun hnone => absurd hfree (hnone i hi)⟩
    have hgiven := State.writeAsks_given hnil hf (.opened slot image)
    have hbuf : u.buffer i = (ImageWrite.opened slot image).buffer := by
      rw [hub, hgiven, State.buffer_setBuffer]
      exact if_pos ⟨rfl, hlen.symm ▸ hi⟩
    refine ⟨?_, i, hi, ?_⟩
    · rw [huw, hgiven]
      exact hnil
    · rw [hbuf]
      exact ⟨rfl, rfl, rfl⟩

/-! ### IMAGE OPEN -/

theorem openBusy_free {slot : Nat} {s : State} (h : openBusy slot s = false) :
    s.store.imageWrite.isSome = false ∧ slotLoading slot s = false := by
  simp only [openBusy, Bool.or_eq_false_iff] at h
  obtain ⟨⟨⟨⟨⟨hwrite, hloading⟩, -⟩, -⟩, -⟩, -⟩ := h
  exact ⟨hwrite, hloading⟩

theorem serveImageOpen_taken {s : State} {payload : List Byte} {slot : Nat} {image : Image} (hp : payload.length = 14)
    (hr : readOpen payload = some (slot, image)) (hw : s.slot slot ≠ .writing) (hb : openBusy slot s = false)
    (hc : openConflicts slot image.kind s = false) : serveImageOpen payload s = taken [] (openImage slot image s) := by
  unfold serveImageOpen
  simp only [hp, ne_eq, not_true_eq_false, if_false, hr, hw, hb, Bool.false_eq_true, hc]

/-- A slot has been taken for an image write that has still to begin: it is WRITING and off the mark list, and its jobs in
LOADWAIT have failed; where none of them was part of a holder, the buffer pool has done nothing. -/
def State.slotTaken (s : State) (slot : Nat) (y : State) : Prop :=
  s.imageLost (s.waitingFor slot) y ∧ (∀ n, y.slot n = if n = slot then .writing else s.slot n) ∧
    slot ∉ y.store.markList ∧
    (y.store.running = s.store.running ∧ ∀ op ∈ s.store.queue, op.who ≠ .markWriter slot → op ∈ y.store.queue) ∧
    ((∀ l, ∀ j ∈ s.waitingFor slot, (s.lane l).without j.station) →
      y.store.waitList = s.store.waitList ∧ y.store.buffers = s.store.buffers ∧
        (s.store.queue = [] → s.store.markList = [] → y.store.queue = []))

namespace State.slotTaken

variable {s y : State} {slot : Nat}

theorem taken (hq : (s.engine.queue.map (·.station)).Nodup) (hl : slotLoading slot s = false) (h0 : slot ≠ 0)
    (h : slot ≤ s.store.slots.length) :
    s.slotTaken slot (slotLeftValid slot (leaveMarkList slot (s.setSlot slot .writing))) := by
  obtain ⟨slots, marks, queue, hleave, hslots, hmarks, hops, hqueue⟩ := leaveMarkList_setSlot h0 h
  obtain ⟨hlost, ⟨-, ⟨-, hkept, -⟩, ⟨yslots, ymarks⟩, -, hrunning⟩, hstore⟩ :=
    slotLeftValid_imageLost hq hl slots marks queue
  rw [hleave]
  generalize slotLeftValid slot (s.withMarks slots marks queue) = y at *
  refine ⟨hlost, fun n => ?_, ?_, ⟨hrunning, fun op hop hw => hkept op (hops op hop hw)⟩, fun hout => ?_⟩
  · rw [← hslots, State.slot, State.slot, yslots]
  · rw [ymarks]
    exact hmarks
  · rw [hstore hout]
    exact ⟨rfl, rfl, hqueue⟩

theorem operations (h : s.slotTaken slot y) {op : FlashOp} (ho : op ∈ s.operations) (hw : op.who ≠ .markWriter slot) :
    op ∈ y.operations := by
  obtain ⟨-, -, -, ⟨hrunning, hqueue⟩, -⟩ := h
  rcases List.mem_append.1 ho with hr | hq
  · exact List.mem_append_left _ (hrunning ▸ hr)
  · exact List.mem_append_right _ (hqueue op hq hw)

/-- With nothing queued, listed, asked for or failed, the ERASE is issued at once. -/
theorem issued (h : s.slotTaken slot y) (hp : s.supply.state ≠ .parked) (hr : s.store.running = none)
    (hq : s.store.queue = []) (hm : s.store.markList = []) (hw : s.store.waitList = []) (hd : s.waitingFor slot = [])
    (image : Image) :
    (y.writeOpened slot image).store.running = some (eraseOp slot) ∧
      (y.writeOpened slot image).timebase.dueOf .storeOperation = some (s.timebase.count + 3000) := by
  obtain ⟨⟨-, -, ⟨hcount, -⟩, -, -, -, hsupply, -⟩, -, -, ⟨hrunning, -⟩, hout⟩ := h
  obtain ⟨hwait, -, hqueue⟩ := hout fun l j hj => by rw [hd] at hj; cases hj
  rw [← hcount]
  exact State.writeOpened_issued (hrunning.trans hr) (by rwa [hsupply]) (hqueue hq hm) (hwait.trans hw) slot image

/-- The image write's buffer, or its request for one, where the jobs that have failed were part of no holder. -/
theorem buffer (h : s.slotTaken slot y) (hlen : s.store.buffers.length = 4)
    (hask : ∀ r ∈ s.store.waitList, r.who ≠ .imageWrite)
    (hout : ∀ l, ∀ j ∈ s.waitingFor slot, (s.lane l).without j.station) (image : Image) :
    let u := y.writeOpened slot image
    (s.store.waitList = [] → (∃ i, i < 4 ∧ (s.buffer i).state = .free) →
      u.store.waitList = [] ∧ ∃ i, i < 4 ∧ (u.buffer i).owner = some .imageWrite ∧ (u.buffer i).slot = slot ∧
        (u.buffer i).state = .full) ∧
    ((∀ i, i < 4 → (s.buffer i).state ≠ .free) →
      u.store.waitList = s.store.waitList ++ [{ who := .imageWrite, count := 1 }]) := by
  obtain ⟨-, -, -, -, hpool⟩ := h
  obtain ⟨hwait, hbuffers, -⟩ := hpool hout
  have hbuffer : ∀ i, y.buffer i = s.buffer i := fun i => congrArg (·.getD i Buffer.unowned) hbuffers
  simp only [← hwait, ← hbuffer]
  exact State.writeOpened_buffer (hbuffers ▸ hlen) (hwait ▸ hask) slot image

end State.slotTaken

/-- A sound wait list asks for no image write where there is none. -/
theorem State.waitListSound.asksNoWrite {s : State} (h : s.waitListSound) (hw : s.store.imageWrite.isSome = false) :
    ∀ r ∈ s.store.waitList, r.who ≠ .imageWrite := fun r hr hwho => by
  obtain ⟨-, -, hsound⟩ := h
  obtain ⟨-, -, -, himage⟩ := hsound r hr
  rw [himage hwho] at hw
  cases hw

theorem State.serves.notParked {s : State} (h : s.serves) : s.supply.state ≠ .parked := fun hp => by
  obtain ⟨-, hsilent, -⟩ := h
  simp [State.silent, hp] at hsilent

/-- Settles O48: the slot is taken first, its jobs failing one after another, and then the image write asks for its buffer and
queues its ERASE. -/
theorem imageOpenTaken : Obligations.ImageOpenTaken := by
  intro s tag payload slot image hserves hp hread hwriting hbusy hconf hlen hdist erase operations doomed gone posted
  have hexec := exec_takes (requestOf 0x10 tag payload) hserves (i := .imageOpen tag payload) rfl
    (serveImageOpen_taken hp hread hwriting hbusy hconf)
  obtain ⟨hslot, -, h1, h15, -⟩ := readOpen_some hread
  obtain ⟨hwrite, hloading⟩ := openBusy_free hbusy
  have htaken := State.slotTaken.taken (slot := slot) hdist.1 hloading (by omega) (by omega)
  rw [openImage_eq] at hexec
  generalize slotLeftValid slot (leaveMarkList slot (s.setSlot slot .writing)) = y at *
  obtain ⟨ulast, uops⟩ := y.writeOpened_operations slot image
  have uissued := htaken.issued hserves.notParked (image := image)
  have ubuffer := htaken.buffer (image := image)
  obtain ⟨tb, x, p, hu, ucount, udue, uslots, umarks, usave, uwrite, -⟩ := y.writeOpened_frame slot image
  have uslot : ∀ n, (y.writeOpened slot image).slot n = y.slot n := fun n => by
    rw [hu, State.slot, State.slot, uslots]
  generalize y.writeOpened slot image = u at *
  subst hu
  obtain ⟨hmeasured, habsent⟩ := s.openPosted_stations (s.waitingFor slot)
  have hops := fun op ho hw => uops op (htaken.operations (op := op) ho hw)
  obtain ⟨ujobs, ufailed⟩ := htaken.1.waiting hdist.1
  obtain ⟨⟨⟨hlink, hpins, hst⟩, ⟨hphase, hpass, hrestored, -, -⟩, ⟨hcount, hlimits⟩, hcar, hpushA, hpushB, hsupply, hset,
    hest, hquery, hload, -, hsave, hflash⟩, yslot, ymarks, -⟩ := htaken
  have houtside : (∀ l h, (s.lane l).holder = some h → ∀ n ∈ gone, n ∉ h.stations) →
      ∀ l, ∀ j ∈ s.waitingFor slot, (s.lane l).without j.station :=
    fun h l j hj k hk => h l k hk _ (List.mem_map_of_mem hj)
  exact ⟨_, hexec, (uslot slot).trans ((yslot slot).trans (if_pos rfl)),
    fun n hn => (uslot n).trans ((yslot n).trans (if_neg hn)), hlink, hpins, hst, fun n hn st hfound => habsent n hn st (by rw [← hfound, State.station?, State.station?, ← hst]),
    fun n hn => (udue _ (by simp)).trans (hlimits n hn), hphase, hpass, hrestored, ulast, hops, uissued,
    fun hbound hsound hout => ubuffer hbound.2.1 (hsound.asksNoWrite hwrite) (houtside hout),
    ⟨_, uwrite, rfl, rfl, rfl, rfl, rfl⟩, by rwa [umarks], ujobs, ufailed,
    (congrArg (List.map Station.measured) hst).trans hmeasured, hsupply, hcar, hset, hest, hpushA, hpushB, hquery, hload,
    usave.trans hsave, ucount.trans hcount, hflash⟩

end Sys2Proof.Machine
end

section
/-! PROOFS. What opens and closes the lanes: the supply state and cold start loading, which the work of the lanes and of the
Engine leaves alone (spec/06, 6.1 and 6.7; R97, R138). -/

namespace Sys2Proof.Machine

/-! ### What opens the lanes, through the work of jobs, lanes and buffers -/

/-- What says whether the lanes are open: the Supply Watch and cold start loading (R97). -/
def State.watch (s : State) : SupplyWatch × Loader := (s.supply, s.loader)

theorem State.lanesOpen_of_watch {s t : State} (h : t.watch = s.watch) : t.lanesOpen = s.lanesOpen := by
  obtain ⟨hs, hl⟩ := Prod.mk.inj h
  simp only [State.lanesOpen, State.loadingEnded, hs, hl]

/-- The work of the lanes does not reach it. -/
theorem State.watch_stable (w : SupplyWatch × Loader) : LaneStable fun s => s.watch = w where
  storeWork _ _ _ h := h
  park _ _ h := h
  laneA _ _ _ _ _ h := h
  laneB _ _ _ _ _ h := h
  free _ _ h := h
  laneDeadline _ _ _ _ h := h
  jobs _ _ _ h := h

theorem foldl_watch {α : Type} {f : State → α → State} (hf : ∀ s a, (f s a).watch = s.watch) (xs : List α) (s : State) :
    (xs.foldl f s).watch = s.watch := by
  induction xs generalizing s with
  | nil => rfl
  | cons x xs ih => exact (ih _).trans (hf s x)

@[simp] theorem State.watch_updLane (s : State) (l : Lane) (f : LaneState → LaneState) :
    (s.updLane l f).watch = s.watch := by
  cases l <;> rfl

@[simp] theorem State.watch_updJob (s : State) (n : Nat) (f : Job → Job) : (s.updJob n f).watch = s.watch := rfl

@[simp] theorem State.watch_setBuffer (s : State) (i : Nat) (b : Buffer) : (s.setBuffer i b).watch = s.watch := rfl

@[simp] theorem State.watch_updStation (s : State) (n : Nat) (f : Station → Station) :
    (s.updStation n f).watch = s.watch := rfl

@[simp] theorem State.watch_setSlot (s : State) (n : Nat) (x : Slot) : (s.setSlot n x).watch = s.watch := by
  unfold State.setSlot
  split <;> rfl

@[simp] theorem State.watch_drawn (s : State) : s.drawn.watch = s.watch := rfl

@[simp] theorem removeDeadline_watch (p : Purpose) (s : State) : (removeDeadline p s).watch = s.watch := rfl

@[simp] theorem setDeadlineIn_watch (p : Purpose) (n : Nat) (s : State) : (setDeadlineIn p n s).watch = s.watch := rfl

@[simp] theorem setPhase_watch (p : EnginePhase) (s : State) : (setPhase p s).watch = s.watch := rfl

@[simp] theorem removePush_watch (n : Nat) (s : State) : (removePush n s).watch = s.watch := rfl

@[simp] theorem postNotice_watch (b : NoticeBody) (s : State) : (postNotice b s).watch = s.watch := by
  unfold postNotice
  split <;> rfl

@[simp] theorem planBuffers_watch (l : Lane) (s : State) : (planBuffers l s).watch = s.watch :=
  (State.watch_stable s.watch).planBuffers rfl l

@[simp] theorem freeBuffer_watch (i : Nat) (s : State) : (freeBuffer i s).watch = s.watch :=
  (State.watch_stable s.watch).freeBuffer rfl i

@[simp] theorem grantBuffers_watch (s : State) : (grantBuffers s).watch = s.watch :=
  (State.watch_stable s.watch).grantBuffers rfl

@[simp] theorem lanesAct_watch (s : State) : (lanesAct s).watch = s.watch :=
  (State.watch_stable s.watch).lanesAct rfl

@[simp] theorem issueFlash_watch (s : State) : (issueFlash s).watch = s.watch :=
  (State.watch_stable s.watch).issueFlash rfl

@[simp] theorem endHolder_watch (l : Lane) (s : State) : (endHolder l s).watch = s.watch :=
  (State.watch_stable s.watch).endHolder rfl l

@[simp] theorem leaveHolder_watch (l : Lane) (n : Nat) (s : State) : (leaveHolder l n s).watch = s.watch :=
  (State.watch_stable s.watch).leaveHolder rfl l n

@[simp] theorem leaveLoad_watch (n : Nat) (s : State) : (leaveLoad n s).watch = s.watch :=
  (State.watch_stable s.watch).leaveLoad rfl n

@[simp] theorem settleGroup_watch (l : Lane) (members : List Nat) (count : Nat) (round : Option (List Nat)) (s : State) :
    (settleGroup l members count round s).watch = s.watch := by
  unfold settleGroup toSingle endHolder
  dsimp only
  split <;> simp

@[simp] theorem beginAttempt_watch (l : Lane) (t : Txn) (s : State) : (beginAttempt l t s).watch = s.watch := by
  have hf : ∀ (x : State) k, ({ x with free := k } : State).watch = x.watch := fun _ _ => rfl
  have hc : ∀ x : State, (countBlocks l t x).watch = x.watch := fun x => (State.watch_stable x.watch).countBlocks rfl l t
  have hm : ∀ x : State, (markSending t x).watch = x.watch := fun x => (State.watch_stable x.watch).markSending rfl t
  unfold beginAttempt
  dsimp only
  split <;> simp [hf, hc, hm]

@[simp] theorem setPresence_watch (n : Nat) (p : Presence) (s : State) : (setPresence n p s).watch = s.watch := by
  rw [setPresence_self_notified n p s]
  rfl

@[simp] theorem presenceReply_watch (n : Nat) (s : State) : (presenceReply n s).watch = s.watch := by
  unfold presenceReply
  split
  · rfl
  · split <;> simp

@[simp] theorem withdrawPoll_watch (n : Nat) (s : State) : (withdrawPoll n s).watch = s.watch := by
  simp [withdrawPoll, State.bothLanes]

/-! ### Jobs created, completed and failed -/

@[simp] theorem addJob_watch (n : Nat) (o : Origin) (p : Prediction) (s : State) : (addJob n o p s).watch = s.watch :=
  withdrawPoll_watch n (removePush n s)

@[simp] theorem joinJob_watch (n : Nat) (o : Origin) (p : Prediction) (s : State) : (joinJob n o p s).watch = s.watch := by
  unfold joinJob
  split <;> simp

@[simp] theorem createJob_watch (n : Nat) (o : Origin) (s : State) : (createJob n o s).watch = s.watch := by
  have h := addJob_watch n o .none s
  unfold createJob
  split
  · rfl
  · dsimp only
    split
    · split <;> exact h
    · exact h

theorem jobGone_watch (n : Nat) (p : Presence) (note : NoticeBody) (restored failed : Nat) (s : State) :
    (s.jobGone n p note restored failed).watch = s.watch := by
  obtain ⟨-, -, -, -, -, -, -, -, hs, -, -, -, hl, -⟩ := jobGone_fields n p note restored failed s
  exact Prod.ext hs hl

@[simp] theorem completeJob_watch (n : Nat) (o : RestoreOutcome) (s : State) : (completeJob n o s).watch = s.watch := by
  cases hj : s.job? n with
  | none => simp [completeJob, hj]
  | some j => rw [completeJob_eq hj, jobGone_watch]

@[simp] theorem failJob_watch (n : Nat) (r : Reason) (s : State) : (failJob n r s).watch = s.watch := by
  cases hj : s.job? n with
  | none => simp [failJob, hj]
  | some j => rw [failJob_eq hj, jobGone_watch]

@[simp] theorem slotLeftValid_watch (slot : Nat) (s : State) : (slotLeftValid slot s).watch = s.watch :=
  foldl_watch (fun _ _ => failJob_watch ..) _ s

@[simp] theorem kickMarkWriter_watch (s : State) : (kickMarkWriter s).watch = s.watch := by
  unfold kickMarkWriter
  split
  · rfl
  · split <;> rfl

/-! ### The ends of steps and attempts (R99 to R103) -/

@[simp] theorem endStep_watch (l : Lane) (t : Txn) (s : State) : (endStep l t s).watch = s.watch := by
  unfold endStep
  dsimp only
  split <;> simp

@[simp] theorem restartOpen_watch (n : Nat) (r : Reason) (s : State) : (restartOpen n r s).watch = s.watch := by
  unfold restartOpen
  split
  · rfl
  · split <;> simp

@[simp] theorem strictError_watch (l : Lane) (s : State) : (strictError l s).watch = s.watch := by
  unfold strictError
  split
  · rfl
  · rw [foldl_watch fun _ _ => restartOpen_watch .., endHolder_watch]

@[simp] theorem exhausted_watch (t : Txn) (e : List Ending) (s : State) : (exhausted t e s).watch = s.watch := by
  have hq : ∀ x : State, ({ x with query := none } : State).watch = x.watch := fun _ => rfl
  unfold exhausted
  split <;> simp [hq]

@[simp] theorem countRetry_watch (t : Txn) (s : State) : (countRetry t s).watch = s.watch := by
  unfold countRetry
  split <;> rfl

@[simp] theorem errorEnding_watch (l : Lane) (t : Txn) (e : Ending) (s : State) : (errorEnding l t e s).watch = s.watch := by
  unfold errorEnding
  dsimp only
  split
  · simp
  · split
    · simp
    · split <;> simp

/-! ### Replies (R78 to R84, R126 to R133) -/

@[simp] theorem checkPrediction_watch (n : Nat) (r : Report) (tag : Word) (s : State) :
    (checkPrediction n r tag s).watch = s.watch := by
  unfold checkPrediction
  split
  · split
    · dsimp only
      split <;> rfl
    · rfl
  · rfl

theorem probeOutcome_watch (n : Nat) (r : Report) (s : State) : (probeOutcome n r s).watch = s.watch := by
  unfold probeOutcome
  dsimp only
  split
  · split
    · simp
    · split
      · simp
      · split <;> simp
  · simp

theorem fillJudged_watch (l : Lane) (n f : Nat) (s : State) : (fillJudged l n f s).watch = s.watch := by
  unfold fillJudged
  split
  · split
    · simp
    · split <;> simp
  · rfl

@[simp] theorem slotChecked_watch (slot : Nat) (equal : Bool) (s : State) : (slotChecked slot equal s).watch = s.watch := by
  have hm : ∀ (x : State) y, ({ x with store := y } : State).watch = x.watch := fun _ _ => rfl
  unfold slotChecked
  split
  · split
    · simp
    · split <;> simp [hm]
  · rfl

theorem closeResult_watch (n : Nat) (equal : Bool) (s : State) : (closeResult n equal s).watch = s.watch := by
  unfold closeResult
  split
  · rfl
  · dsimp only
    rw [slotChecked_watch]
    split
    · simp
    · split <;> simp

theorem replayAcknowledged_watch (n epoch : Nat) (s : State) : (replayAcknowledged n epoch s).watch = s.watch := by
  unfold replayAcknowledged
  split
  · split <;> simp
  · rfl

@[simp] theorem wrongState_watch (n : Nat) (s : State) : (wrongState n s).watch = s.watch := by
  unfold wrongState
  split
  · rfl
  · split <;> simp

theorem jobRefused_watch (l : Lane) (t : Txn) (n : Nat) (reason : NakReason) (f : Nat) (s : State) :
    (jobRefused l t n reason f s).watch = s.watch := by
  have hbad : (badIndexOnBlock l t n f s).watch = s.watch := by
    unfold badIndexOnBlock
    split
    · simp
    · split
      · dsimp only
        rw [planBuffers_watch]
        split <;> rfl
      · simp
  unfold jobRefused
  split
  · rfl
  · simp
  · split <;> simp
  · split
    · simp
    · exact hbad
    · simp
    · simp

theorem jobReply_watch (l : Lane) (t : Txn) (n : Nat) (r : LaneReply) (s : State) :
    (jobReply l t n r s).watch = s.watch := by
  unfold jobReply
  split
  · exact jobRefused_watch ..
  · exact probeOutcome_watch ..
  · exact planBuffers_watch ..
  · simp [blockDelivered]
  · exact fillJudged_watch ..
  · exact closeResult_watch ..
  · rfl
  · exact replayAcknowledged_watch ..
  · rfl

theorem pushReply_watch (n : Nat) (r : LaneReply) (s : State) : (pushReply n r s).watch = s.watch := by
  unfold pushReply
  split
  · split
    · rfl
    · split <;> rfl
  · simp [pushLost]
  · rfl

@[simp] theorem presencePoll_watch (n : Nat) (r : Report) (s : State) : (presencePoll n r s).watch = s.watch := by
  unfold presencePoll
  split
  · rfl
  · split <;> simp

@[simp] theorem pollHandedOn_watch (n : Nat) (r : Report) (live : LiveStatus) (s : State) :
    (pollHandedOn n r live s).watch = s.watch := by
  have hleaf : ∀ x : State, (observeLeaf n live x).watch = x.watch := fun x => by
    unfold observeLeaf
    dsimp only
    split <;> rfl
  unfold pollHandedOn
  split
  · rfl
  · dsimp only
    split <;> simp [hleaf]

theorem pollReply_watch (n : Nat) (r : LaneReply) (s : State) : (pollReply n r s).watch = s.watch := by
  unfold pollReply
  split <;> simp

theorem queryReply_watch (n : Nat) (r : LaneReply) (s : State) : (queryReply n r s).watch = s.watch := by
  have hq : ∀ x : State, ({ x with query := none } : State).watch = x.watch := fun _ => rfl
  unfold queryReply
  split <;> simp [hq]

@[simp] theorem presenceOfReply_watch (n : Nat) (r : LaneReply) (gone : Bool) (s : State) :
    (presenceOfReply n r gone s).watch = s.watch := by
  unfold presenceOfReply
  split
  · split <;> simp
  · simp

@[simp] theorem takeReply_watch (l : Lane) (t : Txn) (r : LaneReply) (s : State) : (takeReply l t r s).watch = s.watch := by
  unfold takeReply
  dsimp only
  split
  · simp
  · split
    · simp
    · split <;> simp [jobReply_watch, pushReply_watch, pollReply_watch, queryReply_watch]

/-- A reply on a lane opens and closes nothing. -/
theorem laneReply_watch (l : Lane) (frame : List Byte) (s : State) : (laneReply l frame s).watch = s.watch := by
  unfold laneReply markStale
  split
  · rfl
  · split
    · rfl
    · split
      · simp
      · split
        · unfold unmatchedReply markStale
          split <;> simp
        · split <;> simp

theorem windowExpired_watch (l : Lane) (s : State) : (windowExpired l s).watch = s.watch := by
  unfold windowExpired
  split <;> simp

theorem groupFrameEnded_watch (l : Lane) (s : State) : (groupFrameEnded l s).watch = s.watch := by
  unfold groupFrameEnded
  split
  · rfl
  · dsimp only
    split
    · simp
    · split <;> simp
    · rfl

end Sys2Proof.Machine
end

section
/-! PROOFS. No lane has a load holder but where the lanes are open (spec/06, 6.7; spec/07, 7.1; R116, R118, R119). -/

namespace Sys2Proof.Machine

/-! ### What leaves the lanes without load holders -/

/-- No lane has a load holder but where the lanes are open. -/
def State.loadsSilent (s : State) : Prop := s.lanesOpen = true ∨ ∀ l, (s.lane l).holder = none

/-- Open lanes stay open, and no lane comes to a load holder. -/
theorem State.loadsSilent.keep {s t : State} (h : s.loadsSilent) (ho : s.lanesOpen = true → t.lanesOpen = true)
    (hh : (∀ l, (s.lane l).holder = none) → ∀ l, (t.lane l).holder = none) : t.loadsSilent := h.imp ho hh

theorem State.loadsSilent.of_watch {s t : State} (h : s.loadsSilent) (hw : t.watch = s.watch)
    (hl : ∀ l, (s.lane l).holder = none → (t.lane l).holder = none) : t.loadsSilent :=
  h.keep (fun ho => (State.lanesOpen_of_watch hw).trans ho) fun hh l => hl l (hh l)

/-- What leaves the requests of the wait list alone leaves the load holders alone. -/
theorem State.loadsSilent.of_asks {s t : State} (h : s.loadsSilent) (ha : t.asks = s.asks) (hw : t.watch = s.watch) :
    t.loadsSilent := by
  refine h.of_watch hw fun l hl => ?_
  have hn : (t.lane l).holder.isSome = (s.lane l).holder.isSome := congrFun (congrArg Asks.holds ha) l
  rw [hl] at hn
  simpa using hn

/-- The part is where the lanes are closed. -/
theorem State.loadsSilent.closed {s : State} (h : s.loadsSilent) (hc : s.lanesOpen = false) :
    ∀ l, (s.lane l).holder = none := h.resolve_left (by simp [hc])

theorem lanesOpen_outside {s : State} (h : s.supply.state ≠ .line) : s.lanesOpen = false := by
  simp [State.lanesOpen, h]

theorem lanesOpen_loading {s : State} (h : s.loader.step ≠ .ended) : s.lanesOpen = false := by
  simp [State.lanesOpen, State.loadingEnded, h]

theorem State.loadsSilent.pool {s t : State} (h : s.loadsSilent) (hp : s.poolBecomes t) : t.loadsSilent := by
  refine h.of_watch ?_ fun l hl => by rwa [hp.lane]
  obtain ⟨_, _, _, _, rfl⟩ := hp
  rfl

/-- The buffer pool and the park writer do not reach the load holders. -/
theorem loadsSilent_store : StoreStable State.loadsSilent where
  storeWork _ _ _ h := h
  park _ _ h := h

theorem lanesAct_loads {s : State} (h : s.loadsSilent) : (lanesAct s).loadsSilent := by
  cases ho : s.lanesOpen with
  | true => exact .inl ((State.lanesOpen_of_watch (lanesAct_watch s)).trans ho)
  | false =>
    rw [lanesAct_closed ho]
    exact h.of_asks (issueFlash_asks s) (issueFlash_watch s)

theorem issueFlash_loads {s : State} (h : s.loadsSilent) : (issueFlash s).loadsSilent :=
  h.of_asks (issueFlash_asks s) (issueFlash_watch s)

theorem postNotice_loads {s : State} (h : s.loadsSilent) (b : NoticeBody) : (postNotice b s).loadsSilent :=
  h.of_asks (postNotice_asks b s) (postNotice_watch b s)

theorem setSlot_loads {s : State} (h : s.loadsSilent) (n : Nat) (x : Slot) : (s.setSlot n x).loadsSilent :=
  h.of_asks (setSlot_asks n x s) (State.watch_setSlot s n x)

theorem kickMarkWriter_loads {s : State} (h : s.loadsSilent) : (kickMarkWriter s).loadsSilent :=
  h.of_asks (kickMarkWriter_asks s) (kickMarkWriter_watch s)

theorem settleDevice_loads {s : State} (h : s.loadsSilent) : (settleDevice s).loadsSilent := by
  unfold settleDevice
  split <;> exact h

theorem updWriteBuffer_loads {s : State} (h : s.loadsSilent) (f : Buffer → Buffer) : (updWriteBuffer f s).loadsSilent := by
  unfold updWriteBuffer
  split <;> exact h

/-! ### Jobs (R72, R73, R88, R89) -/

theorem createJob_loads {s : State} (h : s.loadsSilent) (n : Nat) (o : Origin) : (createJob n o s).loadsSilent :=
  h.of_asks (createJob_asks n o s) (createJob_watch n o s)

theorem failJob_loads {s : State} (h : s.loadsSilent) (n : Nat) (r : Reason) : (failJob n r s).loadsSilent := by
  refine h.of_watch (failJob_watch n r s) fun l hl => ?_
  cases hj : s.job? n with
  | none => simpa [failJob, hj] using hl
  | some j =>
    rw [failJob_eq hj]
    obtain ⟨⟨hs, -⟩, -⟩ := jobGone_lane n .absent (.nodeFailed n (j.pass.getD 0) r j.state) s.engine.restored (s.engine.failed + 1) s
    obtain ⟨-, hk⟩ := hs l
    rw [Option.eq_none_iff_forall_ne_some]
    intro x hx
    obtain ⟨y, hy, -⟩ := hk x hx
    rw [hl] at hy
    cases hy

theorem slotLeftValid_loads {s : State} (h : s.loadsSilent) (slot : Nat) : (slotLeftValid slot s).loadsSilent :=
  Stable.fold (P := State.loadsSilent) (fun _ j hs => failJob_loads hs j.station .noImage) _ h

@[simp] theorem buildPass_watch (s : State) : (buildPass s).watch = s.watch := by
  have hjoin (o : Origin) (xs : List Station) (x : State) : (joinAll o xs x).watch = x.watch :=
    foldl_watch (fun _ _ => joinJob_watch ..) xs x
  have harm (x : State) : (armAll x).watch = x.watch :=
    foldl_watch (f := fun (y : State) (j : Job) => armLimit j.station y) (fun _ _ => rfl) x.engine.queue x
  have hopen (p : Nat) (x : State) : (openPass p x).watch = x.watch := by
    unfold openPass
    split <;> simp
  have hrun (x : State) : (startRun x).watch = x.watch := rfl
  unfold buildPass
  dsimp only
  rw [hopen, hrun, harm, postNotice_watch, hjoin]
  rfl

theorem buildPass_loads {s : State} (h : s.loadsSilent) : (buildPass s).loadsSilent :=
  h.of_asks (buildPass_asks s) (buildPass_watch s)

/-! ### Cold starts and the park (R116, R118, R152, R168 to R171) -/

theorem coldStart_loads (cause : Cause) (line : LineLevel) (baudHigh : Bool) (s : State) :
    (coldStart cause line baudHigh s).loadsSilent := by
  obtain ⟨-, -, -, -, -, -, -, -, -, -, -, -, ha, hb, -⟩ := coldStarted_coldStart cause line baudHigh s
  refine .inr fun l => ?_
  cases l
  · exact congrArg LaneState.holder ha
  · exact congrArg LaneState.holder hb

theorem stateless_loads (powered rstnLow baudHigh : Bool) (s : State) :
    (stateless powered rstnLow baudHigh s).loadsSilent := .inr fun l => by cases l <;> rfl

theorem powerRises_loads (line : LineLevel) (baudHigh : Bool) (s : State) : (powerRises line baudHigh s).loadsSilent := by
  unfold powerRises
  split
  · exact stateless_loads ..
  · exact coldStart_loads ..

theorem resetLineFalls_loads {s : State} (h : s.loadsSilent) : (resetLineFalls s).loadsSilent := by
  unfold resetLineFalls
  split
  · exact h
  · exact stateless_loads ..

theorem resetLineRises_loads {s : State} (h : s.loadsSilent) (line : LineLevel) (baudHigh : Bool) :
    (resetLineRises line baudHigh s).loadsSilent := by
  unfold resetLineRises
  split
  · exact h
  · split
    · exact coldStart_loads ..
    · exact stateless_loads ..

theorem endPark_loads {s : State} (h : s.loadsSilent) : (endPark s).loadsSilent := by
  have hended : ({ s with park := { s.park with phase := .ended } } : State).loadsSilent := h
  have hfree := hended.pool (.freeParkBuffer _)
  unfold endPark
  dsimp only
  split
  · exact hfree
  · rename_i hp
    split
    · exact coldStart_loads ..
    · exact .inr (hfree.closed (lanesOpen_outside fun hl => hp (by rw [hl]; decide)))

/-- A park begins in GAP, where no lane has a load holder. -/
theorem beginPark_loads {s : State} (h : ∀ l, (s.lane l).holder = none) : (beginPark s).loadsSilent := by
  have hentry : s.parkEntry.loadsSilent := .inr fun l => by
    rw [(parkEntry_pool s).lane]
    cases l
    · exact h .a
    · exact h .b
  rw [beginPark_eq]
  split
  · exact issueFlash_loads (loadsSilent_store.grantBuffers (loadsSilent_store.requestBuffers (postNotice_loads hentry _) _ _))
  · exact endPark_loads (postNotice_loads hentry _)

/-! ### The Supply Watch -/

/-- Once a gap has opened no lane has a load holder (R116). -/
theorem openGapAt_loads (raw : Time) (s : State) : (openGapAt raw s).loadsSilent := by
  obtain ⟨b, w, q, p, -, he⟩ := openGapAt_eq raw s
  rw [he]
  exact .inr fun l => by cases l <;> rfl

theorem gapFromLine_loads (raw : Time) (s : State) : (gapFromLine raw s).loadsSilent := by
  have h := openGapAt_loads raw s
  unfold gapFromLine
  generalize openGapAt raw s = x at h ⊢
  exact h

theorem rawChange_loads {s : State} (h : s.loadsSilent) (level : LineLevel) : (rawChange level s).loadsSilent := by
  unfold rawChange
  split
  · exact h
  · split <;> exact h

theorem confirmedFall_loads {s : State} (h : s.loadsSilent) (raw : Time) : (confirmedFall raw s).loadsSilent := by
  unfold confirmedFall
  split
  · exact gapFromLine_loads raw s
  · rename_i hs
    split
    · exact openGapAt_loads raw _
    · exact .inr (h.closed (lanesOpen_outside (by rw [hs]; decide)))
  all_goals exact h

theorem confirmedRise_loads {s : State} (h : s.loadsSilent) (raw : Time) : (confirmedRise raw s).loadsSilent := by
  unfold confirmedRise
  split
  · exact h
  · exact h
  · rename_i hs
    exact .inr (h.closed (lanesOpen_outside (by rw [hs]; decide)))
  · exact h
  · exact coldStart_loads ..

theorem confirmFilter_loads {s : State} (h : s.loadsSilent) : (confirmFilter s).loadsSilent := by
  unfold confirmFilter
  split
  · exact h
  · rename_i c _
    have hc : (s.updSupply fun w => { w with confirmed := c.level, candidate := none }).loadsSilent := h
    dsimp only
    split
    · exact confirmedFall_loads hc _
    · exact confirmedRise_loads hc _

theorem settleExpired_loads {s : State} (h : s.loadsSilent) : (settleExpired s).loadsSilent := by
  have hclose : s.supply.state = .settle → (closeGap s).loadsSilent := fun hs => by
    have h1 : (s.updSupply fun w =>
        { w with state := .line, openGap := none, lastGap := w.openGap.or w.lastGap }).loadsSilent :=
      .inr (h.closed (lanesOpen_outside (by rw [hs]; decide)))
    unfold closeGap
    dsimp only
    split
    · exact h1
    · exact postNotice_loads h1 _
  unfold settleExpired
  split
  · rename_i hs
    refine lanesAct_loads ?_
    show (engineSettled (closeGap s)).loadsSilent
    unfold engineSettled
    split
    · exact buildPass_loads (hclose hs)
    · exact hclose hs
  · exact h

theorem rescheduleSample_loads {s : State} (h : s.loadsSilent) (due : Time) : (rescheduleSample due s).loadsSilent := by
  unfold rescheduleSample
  split <;> exact h

theorem holdupSampled_loads {s : State} (h : s.loadsSilent) (mv : Nat) (due : Time) :
    (holdupSampled mv due s).loadsSilent := by
  unfold holdupSampled
  dsimp only
  split
  · rename_i hd
    have hs : s.supply.state = .gap := by
      simp only [parkDecided, Bool.and_eq_true, decide_eq_true_eq] at hd
      exact hd.1
    have hp : (beginPark (takeSample (holdupLevel mv) s)).loadsSilent :=
      beginPark_loads (h.closed (lanesOpen_outside (by rw [hs]; decide)))
    split
    · exact rescheduleSample_loads hp due
    · exact hp
  · split
    · exact h
    · exact rescheduleSample_loads (s := takeSample _ s) h due

/-! ### The ends of flash operations (R138, R140) -/

theorem endWrite_loads {s : State} (h : s.loadsSilent) (pending : Bool) : (endWrite pending s).loadsSilent := by
  have h1 : ({ withdrawRequest .imageWrite (withdrawOps .imageWrite s) with
      store := { (withdrawRequest .imageWrite (withdrawOps .imageWrite s)).store with imageWrite := none } } : State).loadsSilent := h
  refine loadsSilent_store.grantBuffers ?_
  unfold giveBackWriteBuffer
  split
  · exact h1
  · exact loadsSilent_store.giveBack h1 _ _

/-- An image write ends with its STORE RESULT. -/
theorem imageResult_loads {s : State} (h : s.loadsSilent) (slot : Nat) (x : Slot) (pending : Bool) (o : StoreOutcome) :
    (imageResult slot o (endWrite pending (s.setSlot slot x))).loadsSilent :=
  postNotice_loads (endWrite_loads (setSlot_loads h _ _) _) _

theorem abandonWrite_loads {s : State} (h : s.loadsSilent) : (abandonWrite s).loadsSilent := by
  unfold abandonWrite
  split
  · exact h
  · exact endWrite_loads (setSlot_loads h _ _) _

theorem freeReleasedWriteBuffer_loads {s : State} (h : s.loadsSilent) : (freeReleasedWriteBuffer s).loadsSilent := by
  unfold freeReleasedWriteBuffer
  split
  · exact h
  · split
    · exact loadsSilent_store.freeBuffer h _
    · exact h

theorem laneReadDone_loads {s : State} (h : s.loadsSilent) (l : Lane) (i : Nat) (data : List Byte) :
    (laneReadDone l i data s).loadsSilent := by
  unfold laneReadDone
  dsimp only
  split
  · exact loadsSilent_store.planBuffers (loadsSilent_store.freeBuffer h _) _
  · exact h

theorem queueReadback_loads {s : State} (h : s.loadsSilent) (w : ImageWrite) (i : Nat) : (queueReadback w i s).loadsSilent :=
  updWriteBuffer_loads (s := setWrite _ s) h _

theorem imageWriteDone_loads {s : State} (h : s.loadsSilent) (data : List Byte) : (imageWriteDone data s).loadsSilent := by
  unfold imageWriteDone
  split
  · exact freeReleasedWriteBuffer_loads h
  · rename_i w _
    split
    · unfold sectorErased
      dsimp only
      split <;> exact h
    · exact updWriteBuffer_loads h _
    · have h1 := updWriteBuffer_loads (s := setWrite { w with crcSoFar := crc32Feed w.crcSoFar data } s) h
        fun b => { b with state := .full, data := data, crc := crc16 data }
      unfold blockReadBack
      dsimp only
      split
      · exact queueReadback_loads h1 ..
      · unfold readbackDone
        split
        · exact h1
        · exact imageResult_loads h1 ..
    · exact imageResult_loads h ..

theorem endSave_loads {s : State} (h : s.loadsSilent) (o : StoreOutcome) : (endSave o s).loadsSilent :=
  postNotice_loads (s := { s with store := { s.store with configSave := none } }) h _

theorem configSaveDone_loads {s : State} (h : s.loadsSilent) (data : List Byte) : (configSaveDone data s).loadsSilent := by
  unfold configSaveDone
  split
  · exact h
  · split
    · exact h
    · split <;> exact h
    · split
      · exact endSave_loads h _
      · split
        · exact h
        · exact endSave_loads h _

theorem markDone_loads {s : State} (h : s.loadsSilent) (slot : Nat) : (markDone slot s).loadsSilent :=
  kickMarkWriter_loads (s := { s with store := { s.store with markList := s.store.markList.filter (· ≠ slot) } }) h

theorem parkProgrammed_loads {s : State} (h : s.loadsSilent) : (parkProgrammed s).loadsSilent := by
  unfold parkProgrammed
  split
  · unfold programPage2
    dsimp only
    split <;> exact h
  · exact endPark_loads h
  · exact h

/-- An operation of the loader completes: until loading has ended the lanes are not open, and it concerns no load holder. -/
theorem loaderDone_loads {s : State} (h : s.loadsSilent) (data : List Byte) : (loaderDone data s).loadsSilent := by
  by_cases he : s.loader.step = .ended
  · unfold loaderDone
    rw [he]
    exact h
  · refine .inr fun l => ?_
    have hn : ((loaderDone data s).lane l).holder.isSome = (s.lane l).holder.isSome :=
      congrFun (congrArg Asks.holds (loaderDone_asks data s)) l
    rw [h.closed (lanesOpen_loading he) l] at hn
    simpa using hn

theorem requesterDone_loads {s : State} (h : s.loadsSilent) (op : FlashOp) (data : List Byte) :
    (requesterDone op data s).loadsSilent := by
  unfold requesterDone
  split
  · exact laneReadDone_loads h ..
  · exact imageWriteDone_loads h _
  · exact configSaveDone_loads h _
  · exact markDone_loads h _
  · exact loaderDone_loads h _
  · exact parkProgrammed_loads h
  · exact freeReleasedWriteBuffer_loads h

theorem requesterFailed_loads {s : State} (h : s.loadsSilent) (op : FlashOp) : (requesterFailed op s).loadsSilent := by
  unfold requesterFailed
  split
  · unfold imageWriteFailed
    split
    · exact freeReleasedWriteBuffer_loads h
    · exact imageResult_loads h ..
  · split
    · exact endSave_loads h _
    · exact h
  · exact markDone_loads h _
  · exact endPark_loads h
  all_goals exact h

/-- The end of loading opens the lanes in LINE (R174). -/
theorem endLoading_loads {s : State} (h : s.loadsSilent) : (endLoading s).loadsSilent := by
  have h1 : (s.updLoader fun x => { x with step := .ended }).loadsSilent :=
    h.keep (fun ho => by simp only [State.lanesOpen, Bool.and_eq_true] at ho ⊢; exact ⟨ho.1, rfl⟩) id
  have h2 := postNotice_loads h1 (.started s.loader.cause s.loader.configFinding s.loader.parkFinding)
  have h3 : (setDeadlineIn (.pollInterval .b) s.settings.pollInterval (setDeadlineIn (.pollInterval .a)
      s.settings.pollInterval (postNotice (.started s.loader.cause s.loader.configFinding s.loader.parkFinding)
        (s.updLoader fun x => { x with step := .ended })))).loadsSilent := h2
  unfold endLoading
  dsimp only
  split
  · exact buildPass_loads h3
  · exact h3

theorem issueNext_loads {s : State} (h : s.loadsSilent) : (issueNext s).loadsSilent := by
  unfold issueNext
  dsimp only
  split
  · exact endLoading_loads (issueFlash_loads h)
  · exact issueFlash_loads h

theorem flashCompleted_loads {s : State} (h : s.loadsSilent) (given : Option (List Byte)) :
    (flashCompleted given s).loadsSilent := by
  unfold flashCompleted
  split
  · exact settleDevice_loads h
  · rename_i op _
    refine lanesAct_loads (issueNext_loads (requesterDone_loads ?_ _ _))
    unfold deviceDone
    split
    · exact settleDevice_loads (s := clearRunning s) h
    · exact h

theorem storeTimedOut_loads {s : State} (h : s.loadsSilent) : (storeTimedOut s).loadsSilent := by
  unfold storeTimedOut
  split
  · exact h
  · rename_i op _
    refine lanesAct_loads (issueNext_loads ?_)
    unfold settleFailure
    split
    · exact requesterFailed_loads (s := queueRecovery (failRunning op s)) h op
    · exact requesterFailed_loads (s := failRunning op s) h op

/-! ### Requests -/

theorem restartEngine_loads (s : State) : (restartEngine s).loadsSilent := by
  obtain ⟨b, w, q, p, -, he⟩ := restartEngine_eq s
  rw [he]
  exact .inr fun l => by cases l <;> rfl

theorem makePending_watch (n : Nat) (urgent : Bool) (s : State) : (makePending n urgent s).watch = s.watch := by
  unfold makePending joinPush
  split
  · rfl
  · split
    · rfl
    · rename_i st _
      cases st.entry.lane <;> rfl

theorem makePending_loads {s : State} (h : s.loadsSilent) (n : Nat) (urgent : Bool) : (makePending n urgent s).loadsSilent :=
  h.of_asks (makePending_asks n urgent s) (makePending_watch n urgent s)

theorem openImage_loads {s : State} (h : s.loadsSilent) (slot : Nat) (image : Image) : (openImage slot image s).loadsSilent := by
  have h1 := slotLeftValid_loads (markDone_loads (s := withdrawOps (.markWriter slot) (s.setSlot slot .writing))
    (setSlot_loads h slot .writing) slot) slot
  exact issueFlash_loads (loadsSilent_store.queueOp (loadsSilent_store.grantBuffers (loadsSilent_store.requestBuffers
    (s := setWrite _ (slotLeftValid slot (leaveMarkList slot (s.setSlot slot .writing)))) h1 _ _)) _)

theorem serveNodeDefine_loads {s : State} (h : s.loadsSilent) (p : List Byte) : (serveNodeDefine p s).state.loadsSilent := by
  refine h.of_asks (serveNodeDefine_asks p s) ?_
  unfold serveNodeDefine
  split
  · rfl
  · split
    · rfl
    · split
      · rfl
      · split
        · rfl
        · split
          · rfl
          · split
            · rfl
            · rename_i e _ _ _ _ _
              show (withdrawPoll e.number (removePush e.number (setPresence e.number .absent s))).watch = s.watch
              simp

theorem serveNodeRemove_loads {s : State} (h : s.loadsSilent) (p : List Byte) : (serveNodeRemove p s).state.loadsSilent := by
  refine h.of_asks (serveNodeRemove_asks p s) ?_
  unfold serveNodeRemove
  split
  · dsimp only
    repeat' split
    all_goals rfl
  · rfl

theorem serveNodeQuery_loads {s : State} (h : s.loadsSilent) (p : List Byte) : (serveNodeQuery p s).state.loadsSilent := by
  unfold serveNodeQuery
  split
  · split
    · exact h
    · split
      · exact h
      · split
        · exact h
        · rename_i st _ _ _
          exact lanesAct_loads (s := { s with query := some st.entry.number }) h
  · exact h

theorem serveContextSet_loads {s : State} (h : s.loadsSilent) (p : List Byte) : (serveContextSet p s).state.loadsSilent := by
  unfold serveContextSet
  split
  · exact h
  · split
    · exact h
    · rename_i st _
      dsimp only
      split
      · exact h
      · split
        · exact h
        · rename_i f _
          have hset : (setContext st f s).loadsSilent :=
            makePending_loads (s := s.updStation st.entry.number (Station.withFields s.car f)) h _ _
          exact lanesAct_loads (s := (setContext st f s).drawn) hset

theorem serveCarStateSet_loads {s : State} (h : s.loadsSilent) (p : List Byte) : (serveCarStateSet p s).state.loadsSilent := by
  unfold serveCarStateSet
  split
  · split
    · dsimp only
      rw [taken_state]
      refine lanesAct_loads ?_
      unfold setCar
      refine Stable.fold (P := State.loadsSilent) (fun _ _ hs => makePending_loads hs _ _) _ ?_
      exact h
    · exact h
  · exact h

theorem serveRestoreNow_loads {s : State} (h : s.loadsSilent) (p : List Byte) : (serveRestoreNow p s).state.loadsSilent := by
  unfold serveRestoreNow
  split
  · exact h
  · split
    · exact h
    · dsimp only
      rw [taken_state]
      exact lanesAct_loads (Stable.fold (P := State.loadsSilent) (fun _ n hs => createJob_loads hs n .host) _ h)

theorem serveEngineRestart_loads {s : State} (h : s.loadsSilent) (p : List Byte) :
    (serveEngineRestart p s).state.loadsSilent := by
  unfold serveEngineRestart
  split
  · exact h
  · rw [taken_state]
    exact lanesAct_loads (restartEngine_loads s)

theorem serveImageOpen_loads {s : State} (h : s.loadsSilent) (p : List Byte) : (serveImageOpen p s).state.loadsSilent := by
  unfold serveImageOpen
  split
  · exact h
  · split
    · exact h
    · split
      · exact h
      · split
        · exact h
        · split
          · exact h
          · exact openImage_loads h ..

theorem serveImageBlock_loads {s : State} (h : s.loadsSilent) (p : List Byte) : (serveImageBlock p s).state.loadsSilent := by
  unfold serveImageBlock
  split
  · exact h
  · split
    · exact h
    · split
      · exact h
      · split
        · exact h
        · split
          · exact h
          · split
            · exact h
            · split
              · exact h
              · exact issueFlash_loads h

theorem serveImageClose_loads {s : State} (h : s.loadsSilent) (p : List Byte) : (serveImageClose p s).state.loadsSilent := by
  unfold serveImageClose
  split
  · split
    · exact h
    · split
      · exact h
      · split
        · exact h
        · split
          · exact h
          · exact issueFlash_loads (queueReadback_loads h ..)
  · exact h

theorem serveImageAbort_loads {s : State} (h : s.loadsSilent) (p : List Byte) : (serveImageAbort p s).state.loadsSilent := by
  unfold serveImageAbort
  split
  · split
    · exact h
    · split
      · exact h
      · exact issueFlash_loads (abandonWrite_loads h)
  · exact h

end Sys2Proof.Machine
end

section
/-! PROOFS. Every step keeps the lanes silent outside LINE and while loading goes on, and the output pins following the work
that they serve (spec/06, 6.1 and 6.7; spec/08, 8.1): the proof of O7. -/

namespace Sys2Proof.Machine

/-! ### Requests and bytes -/

theorem serveKind_loads {s : State} (h : s.loadsSilent) (r : Request) : (serveKind r s).state.loadsSilent := by
  unfold serveKind
  split
  · unfold serveStatus
    split <;> exact h
  · refine h.of_asks (serveNoticeFetch_asks ..) ?_
    unfold serveNoticeFetch takeNotice
    split
    · dsimp only
      split <;> rfl
    all_goals rfl
  · unfold serveSettingsSet
    split
    · exact h
    · dsimp only
      split <;> exact h
  · unfold serveSettingsRead
    split <;> exact h
  · unfold serveConfigSave
    split
    · exact h
    · split
      · exact h
      · exact issueFlash_loads h
  · exact serveNodeDefine_loads h _
  · exact serveNodeRemove_loads h _
  · unfold serveNodeRead
    repeat' split
    all_goals exact h
  · exact serveNodeQuery_loads h _
  · exact serveContextSet_loads h _
  · unfold serveContextRead
    repeat' split
    all_goals exact h
  · exact serveCarStateSet_loads h _
  · exact serveRestoreNow_loads h _
  · exact serveEngineRestart_loads h _
  · unfold serveGapRead
    split <;> exact h
  · exact serveImageOpen_loads h _
  · exact serveImageBlock_loads h _
  · exact serveImageClose_loads h _
  · exact serveImageAbort_loads h _
  · unfold serveImageList
    split <;> exact h
  · refine h.of_asks (serveLaneInject_asks ..) ?_
    unfold serveLaneInject
    split
    · split
      · split
        · exact s.watch_updLane ..
        · rfl
      · rfl
    · rfl
  · exact h

theorem serveOldest_loads {s : State} (h : s.loadsSilent) : (serveOldest s).loadsSilent := by
  unfold serveOldest
  split
  · exact h
  · split
    · exact h
    · rename_i r rest _
      show (answerRequest r { s with link := { s.link with held := rest } }).state.loadsSilent
      unfold answerRequest
      split
      · exact serveKind_loads (s := { s with link := { s.link with held := rest } }) h r
      · exact h

theorem arrive_loads {s : State} (h : s.loadsSilent) (r : Request) : (arrive r s).loadsSilent := by
  unfold arrive
  split
  · exact h
  · split
    · exact h
    · exact serveOldest_loads (s := { s with link := { s.link with held := s.link.held ++ [r] } }) h

theorem replyDone_loads {s : State} (h : s.loadsSilent) : (replyDone s).loadsSilent := by
  unfold replyDone
  split
  · exact h
  · exact serveOldest_loads (s := { s with link := { s.link with reply := none } }) h

theorem receiveByte_loads {s : State} (h : s.loadsSilent) (b : Byte) : (receiveByte b s).loadsSilent := by
  have hextend : ∀ frame, (extendFrame frame s).loadsSilent := fun frame => by
    unfold extendFrame
    dsimp only
    split
    · exact h
    · split
      · exact h
      · split
        · exact h
        · unfold checkFrame
          split
          · exact arrive_loads (s := setReceiver .idle (removeDeadline .interByte s)) h _
          · exact h
  unfold receiveByte
  split
  · exact hextend _
  · exact hextend _
  · exact h

theorem lineQuiet_loads {s : State} (h : s.loadsSilent) : (lineQuiet s).loadsSilent := by
  unfold lineQuiet
  split <;> exact h

/-! ### Events at the lanes -/

theorem State.lanesSilent.loads {s : State} (h : s.lanesSilent) : s.loadsSilent := h.imp id fun h l => (h l).2

/-- An event of a transaction leaves the lanes as open as they were; without a transaction nothing happens. -/
theorem State.lanesSilent.event {s t : State} (h : s.lanesSilent) (l : Lane) (hw : t.watch = s.watch)
    (hn : (s.lane l).txn = none → t = s) : t.loadsSilent := by
  rcases h with ho | hs
  · exact .inl ((State.lanesOpen_of_watch hw).trans ho)
  · rw [hn (hs l).1]
    exact .inr fun m => (hs m).2

theorem laneReply_loads {s : State} (h : s.lanesSilent) (l : Lane) (frame : List Byte) :
    (laneReply l frame s).loadsSilent :=
  h.event l (laneReply_watch ..) fun hn => by simp only [laneReply, hn]

theorem windowExpired_loads {s : State} (h : s.lanesSilent) (l : Lane) : (windowExpired l s).loadsSilent :=
  h.event l (windowExpired_watch ..) fun hn => by simp only [windowExpired, hn]

theorem groupFrameEnded_loads {s : State} (h : s.lanesSilent) (l : Lane) : (groupFrameEnded l s).loadsSilent :=
  h.event l (groupFrameEnded_watch ..) fun hn => by simp only [groupFrameEnded, hn]

theorem pollExpired_loads {s : State} (h : s.loadsSilent) (l : Lane) (due : Time) : (pollExpired l due s).loadsSilent := by
  refine lanesAct_loads ?_
  unfold makePollPending
  split
  · exact h
  · split
    · exact h
    · exact h.of_asks (State.asks_updLane _ l rfl) (State.watch_updLane ..)

/-! ### Commands -/

theorem onExpiry_loads {s : State} (h : s.lanesSilent) (p : Purpose) {act : Time → State → State}
    (hact : ∀ due (x : State), x.lanesSilent → (act due x).loadsSilent) : (onExpiry p act s).loadsSilent := by
  unfold onExpiry
  split
  · exact h.loads
  · exact hact _ _ h

theorem whileRunning_loads {f : State → State} {s t : State} (hf : s.lanesSilent → (f s).loadsSilent) (h : s.lanesSilent)
    (ht : whileRunning f s = .next t) : t.loadsSilent := by
  unfold whileRunning at ht
  cases ht
  split
  · exact hf h
  · exact h.loads

/-- After every command a lane has a load holder only where the lanes are open (R97, R116, R118, R138). -/
theorem exec_loads {i : Instr} {s t : State} (h : s.lanesSilent) (ht : exec i s = .next t) : t.loadsSilent := by
  cases i with
  | powerOn line baud => cases ht; exact powerRises_loads ..
  | resetLineAssert => cases ht; exact resetLineFalls_loads h.loads
  | resetLineRelease line baud => cases ht; exact resetLineRises_loads h.loads ..
  | supplyLoss => cases ht; exact stateless_loads ..
  | millisecondTick =>
    exact whileRunning_loads (f := fun s => { s with timebase := s.timebase.tick }) (fun h => h.loads) h ht
  | rawLineChange level => exact whileRunning_loads (fun h => rawChange_loads h.loads level) h ht
  | filterConfirmExpiry =>
    exact whileRunning_loads (fun h => onExpiry_loads h _ fun _ _ h => confirmFilter_loads h.loads) h ht
  | settleExpiry => exact whileRunning_loads (fun h => onExpiry_loads h _ fun _ _ h => settleExpired_loads h.loads) h ht
  | spanHorizonExpiry =>
    exact whileRunning_loads (fun h => onExpiry_loads (act := fun _ s => horizonExpired s) h _ fun _ _ h => h.loads) h ht
  | holdupSampleExpiry mv =>
    exact whileRunning_loads (fun h => onExpiry_loads h _ fun d _ h => holdupSampled_loads h.loads mv d) h ht
  | responseWindowExpiry l =>
    exact whileRunning_loads (fun h => onExpiry_loads h _ fun _ _ h => windowExpired_loads h l) h ht
  | pollIntervalExpiry l =>
    exact whileRunning_loads (fun h => onExpiry_loads h _ fun d _ h => pollExpired_loads h.loads l d) h ht
  | restoreLimitExpiry n =>
    exact whileRunning_loads (fun h => onExpiry_loads h _ fun _ _ h => lanesAct_loads (failJob_loads h.loads n .time)) h ht
  | interByteTimeoutExpiry =>
    exact whileRunning_loads (fun h => onExpiry_loads h _ fun _ _ h => lineQuiet_loads h.loads) h ht
  | storeOperationTimeoutExpiry =>
    exact whileRunning_loads (fun h => onExpiry_loads h _ fun _ _ h => storeTimedOut_loads h.loads) h ht
  | laneReplyReceived l frame => exact whileRunning_loads (fun h => laneReply_loads h l frame) h ht
  | groupFrameEnd l => exact whileRunning_loads (fun h => groupFrameEnded_loads h l) h ht
  | flashOpComplete given => exact whileRunning_loads (fun h => flashCompleted_loads h.loads given) h ht
  | controlByteReceived b => exact whileRunning_loads (fun h => receiveByte_loads h.loads b) h ht
  | replySent => exact whileRunning_loads (fun h => replyDone_loads h.loads) h ht
  | _ => exact whileRunning_loads (fun h => arrive_loads h.loads _) h ht

/-! ### Transactions (R97, R116, R138) -/

/-- No lane has a transaction but where the lanes are open. -/
def State.txnsSilent (s : State) : Prop := s.lanesOpen = true ∨ ∀ l, (s.lane l).txn = none

theorem txnsSilent_stable : Stable State.txnsSilent :=
  FieldStable.stable
    { supply := fun s x hx h => by
        rcases h with ho | ht
        · simp only [State.lanesOpen, Bool.and_eq_true, decide_eq_true_eq] at ho
          have hopen : x.state = .line → State.txnsSilent { s with supply := x } := fun hl =>
            .inl (by simp only [State.lanesOpen, Bool.and_eq_true, decide_eq_true_eq]; exact ⟨hl, ho.2⟩)
          rcases hx with hx | hx | hx | ⟨ha, hb⟩
          · exact hopen (hx.trans ho.1)
          · exact hopen hx
          · exact absurd ho.1 hx
          · exact .inr fun l => by cases l; exacts [ha, hb]
        · exact .inr ht
      lane := fun s l x hx _ h => by
        have hw : (s.setLane l x).lanesOpen = s.lanesOpen := by cases l <;> rfl
        cases ho : s.lanesOpen with
        | true => exact .inl (hw.trans ho)
        | false =>
          have ht : ∀ m, (s.lane m).txn = none := h.resolve_left (by simp [ho])
          refine .inr fun m => ?_
          by_cases hm : m = l
          · rw [hm, State.lane_setLane, ← Option.not_isSome_iff_eq_none]
            intro hs
            simpa [ht l, ho] using hx hs
          · rw [State.lane_setLane_ne _ _ _ _ hm]
            exact ht m }
    (hj := fun s n o p _ _ h => h.imp (fun ho => (State.lanesOpen_of_watch (addJob_watch n o p s)).trans ho) fun ht l => by
      rw [addJob_lane]
      split <;> exact ht l)
    (hl := fun s x hx h => h.imp (fun ho => by
      simp only [State.lanesOpen, State.loadingEnded, Bool.and_eq_true, decide_eq_true_eq] at ho ⊢
      exact ⟨ho.1, hx ho.2⟩) id)
    (hc := fun _ _ _ _ _ => .inr fun l => by cases l <;> rfl)
    (hs := fun _ _ _ _ _ => .inr fun l => by cases l <;> rfl)

theorem lanesSilent_iff (s : State) : s.lanesSilent ↔ s.txnsSilent ∧ s.loadsSilent := by
  unfold State.lanesSilent State.txnsSilent State.loadsSilent
  cases s.lanesOpen <;> simp [forall_and]

theorem lanesSilent_step {s t : State} (h : s.lanesSilent) (ht : step s = .next t) : t.lanesSilent := by
  refine (lanesSilent_iff t).2 ⟨txnsSilent_stable.step (fun _ _ h => h) ((lanesSilent_iff s).1 h).1 ht, ?_⟩
  unfold step at ht
  split at ht
  · cases ht
    exact h.loads
  · rename_i c rest _
    exact exec_loads (s := s.withPending rest) h ht

/-! ### The output pins (6.1, 8.1, R98, R138, R171; log 33) -/

theorem outputsFollow_block : BlockStable State.outputsFollow where
  park _ _ h := h
  laneA _ _ _ _ hd h := ⟨fun l => by cases l; exacts [hd (h.1 .a), h.1 .b], h.2⟩
  laneB _ _ _ _ hd h := ⟨fun l => by cases l; exacts [h.1 .a, hd (h.1 .b)], h.2⟩
  free _ _ h := h
  jobs _ _ _ h := h
  store s x hx h := by
    obtain ⟨-, -, -, -, hc⟩ := hx
    exact ⟨h.1, hc h.2⟩
  setDeadline _ _ _ h := h
  supply _ _ _ h := h
  estimator _ _ h := h
  carStations _ _ h := h
  settings _ _ _ h := h
  query _ _ h := h
  tick _ h := h
  deadlines _ _ _ h := h
  engine _ _ _ h := h
  pushes _ _ _ _ _ h := h
  joinPush s n u _ h := by
    unfold joinPush
    split
    · exact h
    · rename_i st _
      cases st.entry.lane <;> exact h
  stations _ _ _ _ _ _ h := h
  insertStation _ _ _ _ _ h := h
  complete _ _ h := h
  settleDevice s h := by
    unfold settleDevice
    split <;> exact h
  leaveBusy _ _ _ h := h
  postNotice s b h := by
    unfold postNotice
    split <;> exact h
  takeNotice s h := by
    unfold takeNotice
    split <;> exact h
  link _ _ _ _ h := h
  hold _ _ _ h := h

theorem outputsFollow_stable : Stable State.outputsFollow where
  toBlockStable := outputsFollow_block
  events s h _ :=
    ({ outputsFollow_block with
        addJob := fun s n o p _ _ h => ⟨fun l => by
          unfold LaneState.driverFollows
          rw [addJob_lane]
          split <;> exact h.1 l, h.2⟩ } : EventStable State.outputsFollow).events s h
  loader _ _ _ h := h
  coldBlocks _ _ _ _ _ := ⟨fun l => by cases l <;> rfl, rfl⟩
  stateless _ _ _ _ _ := ⟨fun l => by cases l <;> rfl, rfl⟩

/-- Settles O7. -/
theorem lanesStaySilent : Obligations.LanesStaySilent :=
  ⟨fun _ _ h ht => lanesSilent_step h ht, fun _ _ h ht => outputsFollow_stable.step (fun _ _ h => h) h ht⟩

end Sys2Proof.Machine
end

section
/-! PROOFS. LANE INJECT: the injection counted at each frame, and the frame that it alters (spec/06, 6.6). -/

namespace Sys2Proof.Machine

/-! ### The count of a pending injection (R115) -/

theorem countInjection_last (kind : InjectionKind) :
    countInjection (some { kind := kind, count := 1 }) = (some kind, none) := rfl

theorem countInjection_before {n : Nat} (h : 0 < n) (kind : InjectionKind) :
    countInjection (some { kind := kind, count := n + 1 }) = (none, some { kind := kind, count := n }) := by
  unfold countInjection
  dsimp only
  rw [if_neg (by omega), Nat.add_sub_cancel]

/-! ### A frame under another CRC-16 (log 19) -/

theorem wrongCrc_ne (draw : Nat) (right : Half) : wrongCrc draw right ≠ right := by
  have hm : ∀ m : Half, m ≠ 0 → right ^^^ m ≠ right := fun m hm h => hm (BitVec.xor_right_inj right |>.mp (by simpa using h))
  unfold wrongCrc
  dsimp only
  split
  · exact hm 1 (by decide)
  · exact hm _ ‹_›

/-- The bytes of a lane frame before its CRC-16. -/
def laneBody (address sequence kind : Nat) (payload : List Byte) : List Byte :=
  [byte address, byte sequence, byte kind] ++ le16 payload.length ++ payload

theorem laneFrame_eq (address sequence kind : Nat) (payload : List Byte) :
    laneFrame address sequence kind payload =
      laneBody address sequence kind payload ++ crcBytes (laneBody address sequence kind payload) := rfl

theorem laneFrame_length (address sequence kind : Nat) (payload : List Byte) :
    (laneFrame address sequence kind payload).length = (laneBody address sequence kind payload).length + 2 := by
  rw [laneFrame_eq, List.length_append, crcBytes_length]

theorem laneFrame_take (address sequence kind : Nat) (payload : List Byte) :
    (laneFrame address sequence kind payload).take ((laneFrame address sequence kind payload).length - 2) =
      laneBody address sequence kind payload := by
  rw [laneFrame_length, Nat.add_sub_cancel, laneFrame_eq, List.take_left']
  rfl

/-- A corrupted lane frame is its own bytes under a CRC-16 that is not theirs. -/
theorem corrupted_laneFrame (draw address sequence kind : Nat) (payload : List Byte) :
    corrupted draw (laneFrame address sequence kind payload) =
      laneBody address sequence kind payload ++
        le16 (wrongCrc draw (crc16 (laneBody address sequence kind payload))).toNat := by
  unfold corrupted
  rw [laneFrame_take]

/-! ### One bit of a BLOCK frame inverted -/

/-- A FLIP changes one byte of the payload, in one bit. -/
theorem flipBlock_eq_set (draw : Nat) (payload : List Byte) :
    flipBlock draw payload =
      payload.set (6 + Config.flippedBit draw % 2048 / 8)
        (payload.getD (6 + Config.flippedBit draw % 2048 / 8) 0 ^^^ byte (2 ^ (Config.flippedBit draw % 2048 % 8))) := by
  unfold flipBlock
  apply List.ext_getElem
  · rw [List.length_mapIdx, List.length_set]
  · intro i hi hset
    rw [List.length_mapIdx] at hi
    rw [List.getElem_mapIdx, List.getElem_set]
    by_cases h : i = 6 + Config.flippedBit draw % 2048 / 8
    · subst h
      rw [if_pos rfl, if_pos rfl, List.getD_eq_getElem _ _ hi]
    · rw [if_neg h, if_neg (Ne.symm h)]

/-! ### The frame that goes out -/

theorem sentFrame_none (draw : Nat) (step : StepKind) (address sequence : Nat) (payload : List Byte) :
    sentFrame none draw step address sequence payload = some (laneFrame address sequence step.code payload) := rfl

theorem sentFrame_drop (draw : Nat) (step : StepKind) (address sequence : Nat) (payload : List Byte) :
    sentFrame (some .drop) draw step address sequence payload = none := rfl

theorem sentFrame_flip_block (draw address sequence : Nat) (payload : List Byte) :
    sentFrame (some .flip) draw .block address sequence payload =
      some (laneFrame address sequence StepKind.block.code (flipBlock draw payload)) := rfl

/-- A CORRUPT, and a FLIP on a frame that is no BLOCK frame, corrupt the frame. -/
theorem sentFrame_corrupt {kind : InjectionKind} {step : StepKind}
    (h : kind = .corrupt ∨ (kind = .flip ∧ step ≠ .block)) (draw address sequence : Nat) (payload : List Byte) :
    sentFrame (some kind) draw step address sequence payload =
      some (corrupted draw (laneFrame address sequence step.code payload)) := by
  rcases h with rfl | ⟨rfl, hs⟩
  · rfl
  · exact if_neg hs

/-! ### The request -/

theorem serveLaneInject_taken {a k n : Byte} {l : Lane} {kind : InjectionKind} (hl : laneOfCode a.toNat = some l)
    (hk : InjectionKind.ofCode k.toNat = some kind) (h1 : 1 ≤ n.toNat) (h8 : n.toNat ≤ 8) (s : State) :
    serveLaneInject [a, k, n] s =
      taken [] (s.setLane l { s.lane l with injection := some { kind := kind, count := n.toNat } }) := by
  simp only [serveLaneInject, hl, hk, h1, h8, decide_true, Bool.and_self, if_true]
  rfl

/-- Settles O44. -/
theorem injectionAltersAFrame : Obligations.InjectionAltersAFrame := by
  refine ⟨fun s tag a k n l kind hs hl hk h1 h8 => ?_, fun l t s kind n hi => ?_⟩
  · exact exec_takes (requestOf 0x15 tag [a, k, n]) hs rfl (serveLaneInject_taken hl hk h1 h8 s)
  · intro payload frame
    have hframe : (t.begun l s).frame =
        sentFrame (countInjection (some { kind := kind, count := n + 1 })).1 s.free t.step (frameAddress t s)
          (s.lane l).seq payload := by
      rw [← hi]
      rfl
    have hleft : ((beginAttempt l t s).lane l).injection =
        (countInjection (some { kind := kind, count := n + 1 })).2 := by
      rw [beginAttempt_lane_self, ← hi]
      rfl
    refine ⟨t.begun l s, by rw [beginAttempt_lane_self]; rfl, by rw [beginAttempt_lane_self]; rfl, fun hn => ?_, ?_⟩
    · rw [hleft, hframe, countInjection_before hn]
      exact ⟨rfl, sentFrame_none ..⟩
    · rintro rfl
      rw [hleft, hframe, countInjection_last]
      refine ⟨rfl, fun hd => ?_, fun hf hb => ?_, fun hc => ?_⟩
      · rw [hd, sentFrame_drop]
      · refine ⟨Config.flippedBit s.free % 2048 / 8, Config.flippedBit s.free % 2048 % 8, by omega, by omega, ?_⟩
        rw [← flipBlock_eq_set, hf, hb, sentFrame_flip_block]
        simp only [frame, hb]
      · refine ⟨laneBody (frameAddress t s) (s.lane l).seq t.step.code payload, _, laneFrame_eq .., wrongCrc_ne s.free _, ?_⟩
        rw [sentFrame_corrupt hc, corrupted_laneFrame]

end Sys2Proof.Machine
end

section
/-! PROOFS. Lane frames and the replies of units, read back as they were written (spec/11, 11.4, Figures 11-8 and 11-9;
R99, R177). -/

namespace Sys2Proof.Machine

theorem le16_length (n : Nat) : (le16 n).length = 2 := rfl

/-! ### A lane frame (Figure 11-8) -/

theorem laneBody_length (address sequence kind : Nat) (payload : List Byte) :
    (laneBody address sequence kind payload).length = payload.length + 5 := by
  simp [laneBody, le16]

theorem laneFrame_crcGood (address sequence kind : Nat) (payload : List Byte) :
    crcGood (laneFrame address sequence kind payload) = true := by
  have hdrop : (laneFrame address sequence kind payload).drop ((laneFrame address sequence kind payload).length - 2) =
      crcBytes (laneBody address sequence kind payload) := by
    rw [laneFrame_length, Nat.add_sub_cancel, laneFrame_eq, List.drop_left']
    rfl
  unfold crcGood
  rw [laneFrame_take, hdrop]
  exact decide_eq_true rfl

theorem laneFrame_payloadLength {payload : List Byte} (h : payload.length < 65536) (address sequence kind : Nat) :
    num16At (laneFrame address sequence kind payload) 3 = payload.length :=
  nat16_le16 _ h

theorem readReplyFrame_laneFrame {address sequence kind : Nat} {payload : List Byte} (ha : address < 256)
    (hs : sequence < 256) (hk : kind < 256) (hp : payload.length < 65536) :
    readReplyFrame (laneFrame address sequence kind payload) =
      some { address := address, sequence := sequence, kind := kind, payload := payload } := by
  have hlength : (laneFrame address sequence kind payload).length =
      num16At (laneFrame address sequence kind payload) 3 + 7 := by
    rw [laneFrame_payloadLength hp, laneFrame_length, laneBody_length]
  have haddress : numAt (laneFrame address sequence kind payload) 0 = address := byte_toNat ha
  have hsequence : numAt (laneFrame address sequence kind payload) 1 = sequence := byte_toNat hs
  have hkind : numAt (laneFrame address sequence kind payload) 2 = kind := byte_toNat hk
  unfold readReplyFrame
  rw [laneFrame_crcGood, laneFrame_take, haddress, hsequence, hkind, if_pos (by rw [decide_eq_true hlength]; rfl)]
  rfl

/-! ### The codes of Figure 11-9 -/

theorem ImageState.ofCode_code (x : ImageState) : ImageState.ofCode x.code = some x := by cases x <;> rfl

theorem LiveStatus.ofCode_code (x : LiveStatus) : LiveStatus.ofCode x.code = some x := by cases x <;> rfl

theorem NakReason.ofCode_code (x : NakReason) : NakReason.ofCode x.code = some x := by cases x <;> rfl

theorem flagOf_flagByte (b : Bool) : flagOf (flagByte b) = some b := by cases b <;> rfl

theorem nat16_crc (crc : Half) :
    BitVec.ofNat 16 (nat16 (byte crc.toNat) (byte (crc.toNat / 256))) = crc := by
  rw [nat16_le16 _ crc.isLt, BitVec.ofNat_toNat, BitVec.setWidth_eq]

/-! ### A STATE REPORT -/

theorem Report.bytes_length (r : Report) : r.bytes.length = 12 := rfl

/-- A report is read back from its 12 bytes, whatever bytes follow them. -/
theorem readReport_bytes {r : Report} (hg : r.generation < 65536) (hf : r.fill ≤ 4095) (he : r.epoch < 65536)
    (rest : List Byte) : readReport (r.bytes ++ rest) = some r := by
  have hstate : ImageState.ofCode (numAt (r.bytes ++ rest) 0) = some r.state := by
    rw [show numAt (r.bytes ++ rest) 0 = (byte r.state.code).toNat from rfl, byte_toNat (by cases r.state <;> decide),
      ImageState.ofCode_code]
  have hkind : Kind.ofCode (numAt (r.bytes ++ rest) 1) = some r.kind := by
    rw [show numAt (r.bytes ++ rest) 1 = (byte r.kind.code).toNat from rfl, byte_toNat (by cases r.kind <;> decide),
      Kind.ofCode_code]
  have htag : wordAt (r.bytes ++ rest) 2 = r.tag := word32_le32 r.tag
  have hgeneration : num16At (r.bytes ++ rest) 6 = r.generation := nat16_le16 _ hg
  have hfill : num16At (r.bytes ++ rest) 8 = r.fill := nat16_le16 _ (by omega)
  have hepoch : num16At (r.bytes ++ rest) 10 = r.epoch := nat16_le16 _ he
  unfold readReport
  rw [hstate, hkind, htag, hgeneration, hfill, hepoch]
  exact if_pos hf

/-! ### The replies (Figure 11-9) -/

theorem readAnswer_report {r : Report} (hg : r.generation < 65536) (hf : r.fill ≤ 4095) (he : r.epoch < 65536) :
    readAnswer .probe 0x20 r.bytes = .reply (.report r) := by
  have hr : readReport r.bytes = some r := by rw [← List.append_nil r.bytes, readReport_bytes hg hf he]
  simp [readAnswer, answerOf, hr, Report.bytes_length]

theorem readAnswer_pollReport {r : Report} (hg : r.generation < 65536) (hf : r.fill ≤ 4095) (he : r.epoch < 65536)
    (live : LiveStatus) :
    readAnswer .poll 0x26 (r.bytes ++ [byte live.code]) = .reply (.pollReport r live) := by
  have hlive : LiveStatus.ofCode (numAt (r.bytes ++ [byte live.code]) 12) = some live := by
    rw [show numAt (r.bytes ++ [byte live.code]) 12 = (byte live.code).toNat from rfl,
      byte_toNat (by cases live <;> decide), LiveStatus.ofCode_code]
  simp [readAnswer, answerOf, readReport_bytes hg hf he, hlive, Report.bytes_length]

theorem readAnswer_blockAck {index : Nat} (h : index < 65536) (crc : Half) :
    readAnswer .block 0x22 (le16 index ++ le16 crc.toNat) = .reply (.blockAck index crc) := by
  have hindex : num16At (le16 index ++ le16 crc.toNat) 0 = index := nat16_le16 _ h
  have hcrc : BitVec.ofNat 16 (num16At (le16 index ++ le16 crc.toNat) 2) = crc := nat16_crc crc
  simp [readAnswer, answerOf, hindex, hcrc, le16_length]

theorem readAnswer_fillReport {fill : Nat} (h : fill < 65536) :
    readAnswer .fill 0x23 (le16 fill) = .reply (.fillReport fill) := by
  have hfill : num16At (le16 fill) 0 = fill := nat16_le16 _ h
  simp [readAnswer, answerOf, hfill, le16_length]

theorem readAnswer_closeResult (equal : Bool) :
    readAnswer .close 0x24 [flagByte equal] = .reply (.closeResult equal) := by
  have hequal : flagOf (byteAt [flagByte equal] 0) = some equal := flagOf_flagByte equal
  simp [readAnswer, answerOf, hequal]

theorem readAnswer_contextAck {epoch : Nat} (h : epoch < 65536) :
    readAnswer .context 0x25 (le16 epoch) = .reply (.contextAck epoch) := by
  have hepoch : num16At (le16 epoch) 0 = epoch := nat16_le16 _ h
  simp [readAnswer, answerOf, hepoch, le16_length]

/-- A NAK answers every step. -/
theorem readAnswer_nak {fill : Nat} (h : fill < 65536) (reason : NakReason) (step : StepKind) :
    readAnswer step 0x2F ([byte reason.code] ++ le16 fill) = .reply (.nak reason fill) := by
  have hreason : NakReason.ofCode (numAt ([byte reason.code] ++ le16 fill) 0) = some reason := by
    rw [show numAt ([byte reason.code] ++ le16 fill) 0 = (byte reason.code).toNat from rfl,
      byte_toNat (by cases reason <;> decide), NakReason.ofCode_code]
  have hfill : num16At ([byte reason.code] ++ le16 fill) 1 = fill := nat16_le16 _ h
  unfold readAnswer
  rw [if_pos rfl, hreason, hfill]
  rfl

/-- Settles O60. -/
theorem laneFramesReadBack : Obligations.LaneFramesReadBack := by
  refine ⟨fun address sequence kind payload => readReplyFrame_laneFrame, ?_⟩
  intro r live index fill epoch crc equal reason step hg hf he hindex hfill hepoch answers
  exact ⟨readAnswer_report hg hf he, rfl, rfl, readAnswer_blockAck hindex crc, readAnswer_fillReport hfill,
    readAnswer_closeResult equal, readAnswer_contextAck hepoch, readAnswer_pollReport hg hf he live,
    readAnswer_nak hfill reason step⟩

end Sys2Proof.Machine
end

section
/-! PROOFS. The arbiter of a free lane, the restore step of a turn, and the next step of a load holder (spec/06, 6.3; spec/07,
Figure 7-2; R105, R106, R129 to R132). -/

namespace Sys2Proof.Machine

/-! ### The sources of a turn (R105) -/

theorem pushTurn_urgent {l : Lane} {s : State} {before rest : List Push} {p : Push}
    (hq : s.pushes l = before ++ p :: rest) (hb : ∀ q ∈ before, q.urgent = false) (hp : p.urgent = true) :
    pushTurn l true s = some (Turn.plain .context (.push p.station) p.station) := by
  have hnone : (before.find? fun q => q.urgent || !true) = none :=
    List.find?_eq_none.mpr fun q hmem => by simp [hb q hmem]
  unfold pushTurn
  rw [hq, List.find?_append, hnone, Option.none_or, List.find?_cons_of_pos (by simp [hp])]
  rfl

theorem pushTurn_urgent_none {l : Lane} {s : State} (h : ∀ p ∈ s.pushes l, p.urgent = false) :
    pushTurn l true s = none := by
  have hnone : ((s.pushes l).find? fun p => p.urgent || !true) = none :=
    List.find?_eq_none.mpr fun p hp => by simp [h p hp]
  unfold pushTurn
  rw [hnone]
  rfl

theorem pushTurn_first {l : Lane} {s : State} {p : Push} {rest : List Push} (hq : s.pushes l = p :: rest) :
    pushTurn l false s = some (Turn.plain .context (.push p.station) p.station) := by
  unfold pushTurn
  rw [hq, List.find?_cons_of_pos (by simp)]
  rfl

theorem pushTurn_nil {l : Lane} {s : State} (hq : s.pushes l = []) (urgentOnly : Bool) :
    pushTurn l urgentOnly s = none := by
  unfold pushTurn
  rw [hq]
  rfl

/-- The NODE QUERY has a turn on its station's lane, and on no other. -/
theorem queryTurn_eq {s : State} {n : Nat} (hq : s.query = some n) (l : Lane) :
    queryTurn l s = if s.onLane l n then some (Turn.plain .poll (.query n) n) else none := by
  unfold queryTurn State.onLane
  rw [hq]
  dsimp only
  cases s.station? n with
  | none => rfl
  | some st => simp

theorem queryTurn_none {l : Lane} {s : State} (h : ∀ n, s.query = some n → s.onLane l n = false) :
    queryTurn l s = none := by
  cases hq : s.query with
  | none => simp only [queryTurn, hq]
  | some n => rw [queryTurn_eq hq, h n hq, if_neg Bool.false_ne_true]

theorem pollTurn_eq (l : Lane) (s : State) :
    pollTurn l s = (s.lane l).pendingPoll.map fun n => Turn.plain .poll (.poll n) n := rfl

/-! ### What the arbiter takes (R105) -/

theorem arbiterChoice_urgent {l : Lane} {s : State} {t : Turn} (h : pushTurn l true s = some t) :
    arbiterChoice l s = some (t, (s.lane l).lastTurn) := by
  simp only [arbiterChoice, h, Option.map_some, Option.some_or]

theorem arbiterChoice_restore {l : Lane} {s : State} {x : Turn × TurnKind} (hu : pushTurn l true s = none)
    (h : restoreTurn l s = some x) : arbiterChoice l s = some x := by
  simp only [arbiterChoice, hu, h, Option.map_none, Option.none_or, Option.some_or]

/-- With neither an urgent push nor a restore step, the arbiter takes a push, the query or the poll, in this order. -/
theorem arbiterChoice_plain {l : Lane} {s : State} (hu : pushTurn l true s = none) (hr : restoreTurn l s = none) :
    arbiterChoice l s =
      ((pushTurn l false s).or ((queryTurn l s).or (pollTurn l s))).map fun t => (t, (s.lane l).lastTurn) := by
  simp only [arbiterChoice, hu, hr, Option.map_none, Option.none_or]
  cases pushTurn l false s with
  | some t => rfl
  | none =>
    cases queryTurn l s with
    | some t => rfl
    | none => rfl

/-! ### The other step of a lane (R106) -/

/-- The step of a job in PROBE, START or REPLAY. -/
def Job.otherStep (j : Job) : StepKind :=
  if j.state = .probe then .probe else if j.state = .start then .start else .context

theorem stepOfState_other {j : Job} (h : j.state = .probe ∨ j.state = .start ∨ j.state = .replay) :
    stepOfState j.state = some j.otherStep := by
  unfold Job.otherStep
  rcases h with h | h | h <;> rw [h] <;> rfl

/-- The eligible other steps of a lane are those of the eligible jobs of the queue. -/
theorem mem_eligibleJobs (l : Lane) (s : State) (j : Job) :
    (!j.inFlight && (j.state = .probe || j.state = .start || j.state = .replay) && s.onLane l j.station) = true ↔
      s.eligible l j := by
  unfold State.eligible
  simp [and_assoc, or_assoc]

theorem otherTurn_first {l : Lane} {s : State} {j : Job} (h : s.firstJob (s.eligible l) j) :
    otherTurn l s = some (Turn.ofJob j.otherStep j) := by
  obtain ⟨hj, before, rest, hq, hbefore⟩ := h
  unfold otherTurn
  rw [s.laneJobs_eq, hq, List.filter_append,
    List.filter_eq_nil_iff.mpr fun x hx => by rw [mem_eligibleJobs]; exact hbefore x hx,
    List.nil_append, List.filter_cons, if_pos ((mem_eligibleJobs l s j).mpr hj)]
  dsimp only
  rw [stepOfState_other hj.2.1]
  rfl

theorem otherTurn_none {l : Lane} {s : State} (h : ∀ j ∈ s.engine.queue, ¬s.eligible l j) : otherTurn l s = none := by
  unfold otherTurn
  rw [s.laneJobs_eq, List.filter_eq_nil_iff.mpr fun x hx => by rw [mem_eligibleJobs]; exact h x hx]

/-! ### The restore step of a turn (R106) -/

theorem restoreTurn_other {l : Lane} {s : State} {t : Turn} (ho : otherTurn l s = some t)
    (h : (s.lane l).lastTurn = .load ∨ holderTurn l s = none) : restoreTurn l s = some (t, .other) := by
  unfold restoreTurn
  rw [ho]
  rcases h with h | h
  · rw [h]
  · rw [h]
    cases (s.lane l).lastTurn <;> rfl

theorem restoreTurn_holder {l : Lane} {s : State} {t : Turn} (hh : holderTurn l s = some t)
    (h : (s.lane l).lastTurn ≠ .load ∨ otherTurn l s = none) : restoreTurn l s = some (t, .load) := by
  unfold restoreTurn
  rw [hh]
  rcases h with h | h
  · cases hk : (s.lane l).lastTurn with
    | load => exact absurd hk h
    | other => rfl
    | none => rfl
  · rw [h]
    cases (s.lane l).lastTurn <;> rfl

theorem restoreTurn_none {l : Lane} {s : State} (hh : holderTurn l s = none) (ho : otherTurn l s = none) :
    restoreTurn l s = none := by
  simp only [restoreTurn, hh, ho]

/-! ### A buffer FULL with a block (R106) -/

theorem fullBuffer?_some {l : Lane} {slot block i : Nat} {s : State} (h : fullBuffer? l slot block s = some i) :
    s.fullWith l slot block i := by
  have hi := List.find?_some h
  simp only [Bool.and_eq_true, decide_eq_true_eq, and_assoc] at hi
  exact ⟨List.mem_of_find?_eq_some h, hi⟩

theorem fullBuffer?_none_iff {l : Lane} {slot block : Nat} {s : State} :
    fullBuffer? l slot block s = none ↔ ∀ i, ¬s.fullWith l slot block i := by
  unfold fullBuffer? State.fullWith
  simp [List.find?_eq_none, and_assoc]

theorem fullBuffer?_of_exists {l : Lane} {slot block : Nat} {s : State} (h : ∃ i, s.fullWith l slot block i) :
    ∃ i, s.fullWith l slot block i ∧ fullBuffer? l slot block s = some i := by
  cases hf : fullBuffer? l slot block s with
  | none =>
    obtain ⟨i, hi⟩ := h
    exact absurd hi (fullBuffer?_none_iff.mp hf i)
  | some i => exact ⟨i, fullBuffer?_some hf, rfl⟩

/-! ### The next step of a job alone (Figure 7-2) -/

theorem holderTurn_single_open {l : Lane} {s : State} {n : Nat} {j : Job} (hh : (s.lane l).holder = some (.single n))
    (hj : s.job? n = some j) (h : j.state = .opn) : holderTurn l s = some (Turn.ofJob .opn j) := by
  simp only [holderTurn, hh, hj, h]

theorem holderTurn_single_close {l : Lane} {s : State} {n : Nat} {j : Job} (hh : (s.lane l).holder = some (.single n))
    (hj : s.job? n = some j) (h : j.state = .close) : holderTurn l s = some (Turn.ofJob .close j) := by
  simp only [holderTurn, hh, hj, h]

theorem holderTurn_single_load {l : Lane} {s : State} {n : Nat} {j : Job} (hh : (s.lane l).holder = some (.single n))
    (hj : s.job? n = some j) (h : j.state = .load) :
    holderTurn l s =
      (fullBuffer? l (s.slotOf n) j.fill s).map fun i => { Turn.ofJob .block j with index := j.fill, buffer := i } := by
  simp only [holderTurn, hh, hj, h]
  cases fullBuffer? l (s.slotOf n) j.fill s <;> rfl

/-! ### The next step of a group (Figure 7-2) -/

/-- The job of the first of some stations is the first that the stations' jobs give. -/
theorem State.firstOf.find? {s : State} {members : List Nat} {p : Job → Prop} {j : Job} (h : s.firstOf members p j)
    {keep : Job → Bool} (hk : ∀ x, keep x = true ↔ p x ∧ x.inFlight = false) :
    (members.filterMap s.job?).find? keep = some j := by
  obtain ⟨hp, hi, before, n, rest, rfl, hn, hbefore⟩ := h
  have hnone : (before.filterMap s.job?).find? keep = none := List.find?_eq_none.mpr fun x hx hkx => by
    obtain ⟨m, hm, hx⟩ := List.mem_filterMap.mp hx
    obtain ⟨hpx, hfx⟩ := (hk x).mp hkx
    rw [hbefore m hm x hx hpx] at hfx
    cases hfx
  rw [List.filterMap_append, List.find?_append, hnone, Option.none_or, List.filterMap_cons_some hn,
    List.find?_cons_of_pos ((hk j).mpr ⟨hp, hi⟩)]

theorem firstIn_firstOf {s : State} {members : List Nat} {state : JobState} {j : Job}
    (h : s.firstOf members (·.state = state) j) : firstIn state members s = some j :=
  h.find? fun x => by simp

/-- A member of some stations has its job in OPEN. -/
def State.opens (s : State) (members : List Nat) : Prop := ∃ m ∈ members, ∃ j, s.job? m = some j ∧ j.state = .opn

section
variable {l : Lane} {s : State} {n : Nat} {others : List Nat} {count : Nat} {round : Option (List Nat)}

/-- A group with a member in OPEN opens the first of them. -/
theorem holderTurn_group_opening (hh : (s.lane l).holder = some (.group (n :: others) count round))
    (ho : s.opens (n :: others)) :
    holderTurn l s = (firstIn .opn (n :: others) s).map (Turn.ofJob .opn) := by
  obtain ⟨m, hm, j, hj, hs⟩ := ho
  unfold holderTurn
  rw [hh]
  refine if_pos (List.any_eq_true.mpr ⟨m, hm, ?_⟩)
  rw [hj]
  exact decide_eq_true hs

/-- A group with no member in OPEN goes on with its open fill round, and otherwise with its blocks and then its CLOSEs. -/
theorem holderTurn_group_opened (hh : (s.lane l).holder = some (.group (n :: others) count round))
    (ho : ¬s.opens (n :: others)) :
    (∀ r, round = some r →
        holderTurn l s = ((r.filterMap s.job?).find? fun j => !j.inFlight).map (Turn.ofJob .fill)) ∧
      (round = none →
        holderTurn l s =
          if count < s.lengthOf n then
            (fullBuffer? l (s.slotOf n) count s).map fun i =>
              { step := .block, owner := .group, station := none, index := count, buffer := i }
          else (firstIn .close (n :: others) s).map (Turn.ofJob .close)) := by
  unfold holderTurn
  rw [hh]
  dsimp only
  split
  · rename_i h
    refine absurd ?_ ho
    obtain ⟨m, hm, h⟩ := List.any_eq_true.mp h
    cases hj : s.job? m with
    | none => simp [hj] at h
    | some j => exact ⟨m, hm, j, hj, by simpa [hj] using h⟩
  · exact ⟨fun r hr => by rw [hr], fun hr => by rw [hr]⟩

theorem holderTurn_group_open {j : Job} (hh : (s.lane l).holder = some (.group (n :: others) count round))
    (h : s.firstOf (n :: others) (·.state = .opn) j) : holderTurn l s = some (Turn.ofJob .opn j) := by
  have hopens : s.opens (n :: others) := by
    obtain ⟨hp, -, before, m, rest, hm, hj, -⟩ := h
    exact ⟨m, by rw [hm]; simp, j, hj, hp⟩
  rw [holderTurn_group_opening hh hopens, firstIn_firstOf h]
  rfl

theorem holderTurn_group_fill {r : List Nat} {j : Job}
    (hh : (s.lane l).holder = some (.group (n :: others) count (some r))) (ho : ¬s.opens (n :: others))
    (h : s.firstOf r (fun _ => True) j) : holderTurn l s = some (Turn.ofJob .fill j) := by
  rw [(holderTurn_group_opened hh ho).1 r rfl, h.find? fun x => by simp]
  rfl

theorem holderTurn_group_block (hh : (s.lane l).holder = some (.group (n :: others) count none))
    (ho : ¬s.opens (n :: others)) (h : count < s.lengthOf n) :
    holderTurn l s =
      (fullBuffer? l (s.slotOf n) count s).map fun i =>
        { step := .block, owner := .group, station := none, index := count, buffer := i } := by
  rw [(holderTurn_group_opened hh ho).2 rfl, if_pos h]

theorem holderTurn_group_close {j : Job} (hh : (s.lane l).holder = some (.group (n :: others) count none))
    (ho : ¬s.opens (n :: others)) (h : s.lengthOf n ≤ count) (hc : s.firstOf (n :: others) (·.state = .close) j) :
    holderTurn l s = some (Turn.ofJob .close j) := by
  rw [(holderTurn_group_opened hh ho).2 rfl, if_neg (Nat.not_lt.mpr h), firstIn_firstOf hc]
  rfl

end

/-- A turn of a block is ready exactly where a buffer is FULL with it. -/
theorem blockTurn_ready {l : Lane} {s : State} {slot block : Nat} {f : Nat → Turn}
    (h : holderTurn l s = (fullBuffer? l slot block s).map f) :
    ((∀ i, ¬s.fullWith l slot block i) → holderTurn l s = none) ∧
      ((∃ i, s.fullWith l slot block i) → ∃ i, s.fullWith l slot block i ∧ holderTurn l s = some (f i)) := by
  rw [h]
  refine ⟨fun hn => by rw [fullBuffer?_none_iff.mpr hn]; rfl, fun he => ?_⟩
  obtain ⟨i, hi, hf⟩ := fullBuffer?_of_exists he
  exact ⟨i, hi, by rw [hf]; rfl⟩

/-- Settles O42. -/
theorem arbiterOrder : Obligations.ArbiterOrder := by
  intro l s last
  refine ⟨fun before rest p hq hb hp => arbiterChoice_urgent (pushTurn_urgent hq hb hp), fun hu => ?_, ?_, fun hh => ?_,
    fun n j hh hj => ⟨holderTurn_single_open hh hj, fun hl => blockTurn_ready (holderTurn_single_load hh hj hl),
      holderTurn_single_close hh hj⟩,
    fun n others count round hh => ?_⟩
  · have hurgent := pushTurn_urgent_none hu
    refine ⟨fun x hx => arbiterChoice_restore hurgent hx, fun hr => ?_⟩
    have hplain := arbiterChoice_plain hurgent hr
    refine ⟨fun p rest hq => by rw [hplain, pushTurn_first hq]; rfl, fun hq => ?_⟩
    rw [pushTurn_nil hq, Option.none_or] at hplain
    refine ⟨fun n hn hon => by rw [hplain, queryTurn_eq hn, if_pos hon]; rfl, fun hn => ?_⟩
    rw [queryTurn_none hn, Option.none_or, pollTurn_eq] at hplain
    exact ⟨fun n hp => by rw [hplain, hp]; rfl, fun hp => by rw [hplain, hp]; rfl⟩
  · intro barren
    exact ⟨fun j hj => by intro other ho; exact restoreTurn_other (otherTurn_first hj) ho,
      fun turn hh h => restoreTurn_holder hh (h.imp_right otherTurn_none),
      fun hh hb => restoreTurn_none hh (otherTurn_none hb)⟩
  · simp only [holderTurn, hh]
  · intro opening
    refine ⟨fun j => holderTurn_group_open hh, fun ho => ⟨fun r j hr => ?_, fun hr hc => ?_, fun hr hc j => ?_⟩⟩
    · exact holderTurn_group_fill (hr ▸ hh) ho
    · exact blockTurn_ready (holderTurn_group_block (hr ▸ hh) ho hc)
    · exact holderTurn_group_close (hr ▸ hh) ho hc

end Sys2Proof.Machine
end

section
/-! PROOFS. The needed and the missing blocks of a lane's load holder, and how many buffers the lane wants (spec/07, 7.6; R134). -/

namespace Sys2Proof.Machine

/-! ### The needed blocks -/

theorem State.nextIndex_single {s : State} {l : Lane} {n : Nat} (h : (s.lane l).holder = some (.single n)) (m next : Nat) :
    s.nextIndex l m next ↔
      n = m ∧ ∃ j, s.job? n = some j ∧ ((j.state = .opn ∧ next = 0) ∨ (j.state = .load ∧ next = j.fill)) := by
  unfold State.nextIndex
  rw [h]
  constructor
  · rintro (⟨hn, hj⟩ | ⟨_, _, hn, _⟩)
    · cases hn
      exact ⟨rfl, hj⟩
    · cases hn
  · rintro ⟨rfl, hj⟩
    exact .inl ⟨rfl, hj⟩

theorem State.nextIndex_group {s : State} {l : Lane} {n count : Nat} {others : List Nat} {round : Option (List Nat)}
    (h : (s.lane l).holder = some (.group (n :: others) count round)) (m next : Nat) :
    s.nextIndex l m next ↔
      (n = m ∧ count = next) ∧ ∃ k ∈ n :: others, ∃ j, s.job? k = some j ∧ (j.state = .opn ∨ j.state = .load) := by
  unfold State.nextIndex
  rw [h]
  constructor
  · rintro (⟨hn, -⟩ | ⟨_, _, hn, hj⟩)
    · cases hn
    · cases hn
      exact ⟨⟨rfl, rfl⟩, hj⟩
  · rintro ⟨⟨rfl, rfl⟩, hj⟩
    exact .inr ⟨others, round, rfl, hj⟩

/-- The next index of a job alone. -/
theorem holderNext_single {s : State} {l : Lane} {n : Nat} (h : (s.lane l).holder = some (.single n))
    (slot next length : Nat) :
    holderNext l s = some (slot, next, length) ↔ ∃ m, s.nextIndex l m next ∧ slot = s.slotOf m ∧ length = s.lengthOf m := by
  simp only [State.nextIndex_single h, and_assoc, exists_eq_left']
  unfold holderNext
  rw [h]
  dsimp only
  cases hj : s.job? n with
  | none => simp
  | some j => cases hs : j.state <;> simp [hs, eq_comm, and_left_comm]

/-- The group count is the next index of a group that opens or loads. -/
theorem holderNext_group {s : State} {l : Lane} {n count : Nat} {others : List Nat} {round : Option (List Nat)}
    (h : (s.lane l).holder = some (.group (n :: others) count round)) (slot next length : Nat) :
    holderNext l s = some (slot, next, length) ↔ ∃ m, s.nextIndex l m next ∧ slot = s.slotOf m ∧ length = s.lengthOf m := by
  simp only [State.nextIndex_group h, and_assoc, exists_eq_left']
  unfold holderNext
  rw [h]
  dsimp only
  split
  · rename_i hl
    obtain ⟨k, hk, hl⟩ := List.any_eq_true.mp hl
    have hloads : ∃ k ∈ n :: others, ∃ j, s.job? k = some j ∧ (j.state = .opn ∨ j.state = .load) := by
      cases hj : s.job? k with
      | none => simp [hj] at hl
      | some j => exact ⟨k, hk, j, hj, by simpa [hj] using hl⟩
    simp only [Option.some.injEq, Prod.mk.injEq, hloads, true_and]
    tauto
  · rename_i hl
    refine ⟨nofun, fun ⟨_, ⟨k, hk, j, hj, hs⟩, _⟩ => absurd (List.any_eq_true.mpr ⟨k, hk, ?_⟩) hl⟩
    rw [hj]
    simpa using hs

/-- What a lane's load holder needs is read from its slot, its next index and its image length. -/
theorem holderNext_iff (l : Lane) (s : State) (slot next length : Nat) :
    holderNext l s = some (slot, next, length) ↔
      ∃ n, s.nextIndex l n next ∧ slot = s.slotOf n ∧ length = s.lengthOf n := by
  cases hh : (s.lane l).holder with
  | none => simp [holderNext, State.nextIndex, hh]
  | some holder =>
    cases holder with
    | single n => exact holderNext_single hh slot next length
    | group members count round =>
      cases members with
      | nil => simp [holderNext, State.nextIndex, hh]
      | cons n others => exact holderNext_group hh slot next length

theorem mem_neededBlocks (l : Lane) (s : State) (slot block : Nat) :
    (slot, block) ∈ neededBlocks l s ↔ s.needs l slot block := by
  unfold neededBlocks State.needs
  cases hn : holderNext l s with
  | none =>
    refine ⟨fun h => absurd h List.not_mem_nil, ?_⟩
    rintro ⟨n, next, hi, hs, -⟩
    have := (holderNext_iff l s slot next _).mpr ⟨n, hi, hs, rfl⟩
    rw [hn] at this
    cases this
  | some x =>
    obtain ⟨slot', next, length⟩ := x
    have hmem : (slot, block) ∈ ([next, next + 1].filter (· < length)).map (fun b => (slot', b)) ↔
        slot = slot' ∧ (block = next ∨ block = next + 1) ∧ block < length := by
      simp only [List.mem_map, List.mem_filter, List.mem_cons, List.not_mem_nil, or_false, decide_eq_true_eq,
        Prod.mk.injEq]
      constructor
      · rintro ⟨b, ⟨hb, hl⟩, rfl, rfl⟩
        exact ⟨rfl, hb, hl⟩
      · rintro ⟨rfl, hb, hl⟩
        exact ⟨block, ⟨hb, hl⟩, rfl, rfl⟩
    refine hmem.trans ⟨?_, ?_⟩
    · rintro ⟨rfl, hb, hl⟩
      obtain ⟨n, hi, hs, rfl⟩ := (holderNext_iff l s _ _ _).mp hn
      exact ⟨n, next, hi, hs, hb, hl⟩
    · rintro ⟨n, next', hi, hs, hb, hl⟩
      have := (holderNext_iff l s slot next' _).mpr ⟨n, hi, hs, rfl⟩
      rw [hn] at this
      cases this
      exact ⟨rfl, hb, hl⟩

/-- Of two needed blocks the second is the one after the first, of the same slot. -/
theorem neededBlocks_consecutive (l : Lane) (s : State) :
    (neededBlocks l s).Pairwise (fun x y => x.1 = y.1 ∧ y.2 = x.2 + 1) := by
  unfold neededBlocks
  split
  · exact .nil
  · refine List.Pairwise.map _ (R := fun a b => b = a + 1) (fun a b h => ⟨rfl, h⟩) (List.Pairwise.filter _ ?_)
    simp

theorem neededBlocks_length_le (l : Lane) (s : State) : (neededBlocks l s).length ≤ 2 := by
  unfold neededBlocks
  split
  · exact Nat.zero_le _
  · rw [List.length_map]
    exact List.length_filter_le ..

/-- The work of the buffer pool changes no needs. -/
theorem State.poolBecomes.neededBlocks {s t : State} (h : s.poolBecomes t) (l : Lane) :
    Machine.neededBlocks l t = Machine.neededBlocks l s := by
  obtain ⟨_, _, _, _, rfl⟩ := h
  cases l <;> rfl

theorem State.poolBecomes.needs_iff {s t : State} (h : s.poolBecomes t) (l : Lane) (slot block : Nat) :
    t.needs l slot block ↔ s.needs l slot block := by
  rw [← mem_neededBlocks, h.neededBlocks, mem_neededBlocks]

/-! ### The missing blocks -/

/-- A buffer of a lane holds a block for its present holder. -/
def State.holdsBlock (s : State) (l : Lane) (x : Nat × Nat) : Prop :=
  ∃ i ∈ s.heldBy l, (s.buffer i).slot = x.1 ∧ (s.buffer i).block = x.2

theorem mem_missingBlocks (l : Lane) (s : State) (x : Nat × Nat) :
    x ∈ missingBlocks l s ↔ x ∈ neededBlocks l s ∧ ¬s.holdsBlock l x := by
  unfold missingBlocks State.holdsBlock
  simp

theorem any_holdsBlock (l : Lane) (s : State) (x : Nat × Nat) :
    ((s.heldBy l).any fun i => (s.buffer i).slot = x.1 && (s.buffer i).block = x.2) = true ↔ s.holdsBlock l x := by
  simp [State.holdsBlock]

theorem mem_missingBlocks_iff (l : Lane) (s : State) (slot block : Nat) :
    (slot, block) ∈ missingBlocks l s ↔ s.misses l slot block := by
  rw [mem_missingBlocks, mem_neededBlocks]
  unfold State.misses State.holdsBlock
  simp only [not_exists, not_and]

theorem missingBlocks_consecutive (l : Lane) (s : State) :
    (missingBlocks l s).Pairwise (fun x y => x.1 = y.1 ∧ y.2 = x.2 + 1) :=
  (neededBlocks_consecutive l s).filter _

theorem missingBlocks_nodup (l : Lane) (s : State) : (missingBlocks l s).Nodup :=
  (missingBlocks_consecutive l s).imp fun h he => by
    rw [he] at h
    omega

theorem missingBlocks_length_le (l : Lane) (s : State) : (missingBlocks l s).length ≤ 2 :=
  (List.length_filter_le ..).trans (neededBlocks_length_le l s)

theorem missingBlocks_eq_nil_iff (l : Lane) (s : State) : missingBlocks l s = [] ↔ ∀ slot block, ¬s.misses l slot block := by
  simp only [← mem_missingBlocks_iff, List.eq_nil_iff_forall_not_mem, Prod.forall]

/-- The lowest missing block stands first. -/
theorem missingBlocks_lowest {l : Lane} {s : State} {slot block : Nat} (h : s.misses l slot block)
    (hl : ∀ x y, s.misses l x y → block ≤ y) : ∃ more, missingBlocks l s = (slot, block) :: more := by
  have hmem := (mem_missingBlocks_iff l s slot block).mpr h
  have hc := missingBlocks_consecutive l s
  cases hm : missingBlocks l s with
  | nil => rw [hm] at hmem; cases hmem
  | cons x more =>
    rw [hm] at hmem hc
    rcases List.mem_cons.mp hmem with rfl | hmore
    · exact ⟨more, rfl⟩
    · have hx : s.misses l x.1 x.2 := (mem_missingBlocks_iff ..).mp (by rw [hm]; exact List.mem_cons_self ..)
      have hlow := hl _ _ hx
      have hnext := ((List.pairwise_cons.mp hc).1 _ hmore).2
      dsimp only at hnext
      omega

/-- Two blocks are missing exactly where a block and the one after it are. -/
theorem missingBlocks_two_iff (l : Lane) (s : State) :
    2 ≤ (missingBlocks l s).length ↔ ∃ slot block, s.misses l slot block ∧ s.misses l slot (block + 1) := by
  constructor
  · intro h
    have hc := missingBlocks_consecutive l s
    have hmem := mem_missingBlocks_iff l s
    match hm : missingBlocks l s with
    | [] => rw [hm] at h; cases h
    | [_] => rw [hm] at h; simp at h
    | x :: y :: _ =>
      rw [hm] at hc hmem
      obtain ⟨hslot, hnext⟩ := (List.pairwise_cons.mp hc).1 y (List.mem_cons_self ..)
      refine ⟨x.1, x.2, (hmem _ _).mp (List.mem_cons_self ..), ?_⟩
      rw [hslot, ← hnext]
      exact (hmem _ _).mp (List.mem_cons_of_mem _ (List.mem_cons_self ..))
  · rintro ⟨slot, block, h, h'⟩
    have hsub : [(slot, block), (slot, block + 1)] ⊆ missingBlocks l s := by
      simpa using ⟨(mem_missingBlocks_iff ..).mpr h, (mem_missingBlocks_iff ..).mpr h'⟩
    exact (List.subperm_of_subset (by simp) hsub).length_le

theorem wantedBuffers_eq (l : Lane) (s : State) :
    wantedBuffers l s = min (2 - (s.ownedBy (.lane l)).length) (missingBlocks l s).length := rfl

/-! ### The buffers of a lane -/

theorem State.mem_ownedBy (s : State) (o : BufferOwner) (i : Nat) :
    i ∈ s.ownedBy o ↔ i ∈ bufferIndices ∧ (s.buffer i).owner = some o := by
  simp [State.ownedBy]

theorem State.ownedBy_nodup (s : State) (o : BufferOwner) : (s.ownedBy o).Nodup := List.Nodup.filter _ (by decide)

/-- A lane's buffers are the same, and hold the same. -/
def State.sameOwned (s t : State) (l : Lane) : Prop :=
  ∀ i, t.buffer i = s.buffer i ∨ ((s.buffer i).owner ≠ some (.lane l) ∧ (t.buffer i).owner ≠ some (.lane l))

theorem State.sameOwned.ownedBy {s t : State} {l : Lane} (h : s.sameOwned t l) :
    t.ownedBy (.lane l) = s.ownedBy (.lane l) := by
  refine List.filter_congr fun i _ => ?_
  rcases h i with he | ⟨hs, ht⟩
  · rw [he]
  · rw [decide_eq_false hs, decide_eq_false ht]

theorem State.sameOwned.heldBy {s t : State} {l : Lane} (h : s.sameOwned t l) : t.heldBy l = s.heldBy l := by
  unfold State.heldBy
  rw [h.ownedBy]
  refine List.filter_congr fun i hi => ?_
  rcases h i with he | ⟨hs, -⟩
  · rw [he]
  · exact absurd ((s.mem_ownedBy _ i).mp hi).2 hs

theorem State.sameOwned.holdsBlock {s t : State} {l : Lane} (h : s.sameOwned t l) (x : Nat × Nat) :
    t.holdsBlock l x ↔ s.holdsBlock l x := by
  unfold State.holdsBlock
  rw [h.heldBy]
  refine exists_congr fun i => and_congr_right fun hi => ?_
  rcases h i with he | ⟨hs, -⟩
  · rw [he]
  · exact absurd ((s.heldBy_iff l i).mp hi).2.1 hs

theorem State.sameOwned.missingBlocks {s t : State} {l : Lane} (h : s.sameOwned t l) (hp : s.poolBecomes t) :
    Machine.missingBlocks l t = Machine.missingBlocks l s := by
  unfold Machine.missingBlocks
  rw [hp.neededBlocks]
  refine List.filter_congr fun x _ => congrArg (!·) (Bool.eq_iff_iff.mpr ?_)
  rw [any_holdsBlock, any_holdsBlock, h.holdsBlock]

/-- A lane whose buffers are the same wants as many as before. -/
theorem State.sameOwned.wantedBuffers {s t : State} {l : Lane} (h : s.sameOwned t l) (hp : s.poolBecomes t) :
    Machine.wantedBuffers l t = Machine.wantedBuffers l s := by
  unfold Machine.wantedBuffers
  rw [h.ownedBy, h.missingBlocks hp]

/-! ### A buffer that a lane fills -/

/-- One buffer has been given to a lane, which fills it with a block. -/
def State.givenTo (s t : State) (l : Lane) (i slot block : Nat) : Prop :=
  ∀ j, t.buffer j = if j = i then Buffer.fillingFor l slot block else s.buffer j

theorem State.givenTo.ownedBy_length {s t : State} {l : Lane} {i slot block : Nat} (h : s.givenTo t l i slot block)
    (hi : i ∈ bufferIndices) (ho : (s.buffer i).owner ≠ some (.lane l)) :
    (t.ownedBy (.lane l)).length = (s.ownedBy (.lane l)).length + 1 := by
  have hnot : i ∉ s.ownedBy (.lane l) := fun hm => ho ((s.mem_ownedBy _ i).mp hm).2
  have hperm : (t.ownedBy (.lane l)).Perm (i :: s.ownedBy (.lane l)) := by
    refine (List.perm_ext_iff_of_nodup (t.ownedBy_nodup _) (List.nodup_cons.mpr ⟨hnot, s.ownedBy_nodup _⟩)).mpr fun j => ?_
    rw [List.mem_cons, t.mem_ownedBy, s.mem_ownedBy, h j]
    by_cases hj : j = i
    · simp [hj, hi, Buffer.fillingFor]
    · simp [hj]
  rw [hperm.length_eq, List.length_cons]

theorem State.givenTo.holdsBlock {s t : State} {l : Lane} {i slot block : Nat} (h : s.givenTo t l i slot block)
    (hi : i ∈ bufferIndices) (ho : (s.buffer i).owner ≠ some (.lane l)) (x : Nat × Nat) :
    t.holdsBlock l x ↔ s.holdsBlock l x ∨ x = (slot, block) := by
  unfold State.holdsBlock
  simp only [t.heldBy_iff, s.heldBy_iff, h _]
  constructor
  · rintro ⟨j, hj, hb⟩
    by_cases he : j = i
    · rw [if_pos he] at hb
      exact .inr (Prod.ext hb.1.symm hb.2.symm)
    · rw [if_neg he] at hj hb
      exact .inl ⟨j, hj, hb⟩
  · rintro (⟨j, hj, hb⟩ | rfl)
    · have he : j ≠ i := fun he => ho (he ▸ hj.2.1)
      refine ⟨j, ?_⟩
      rw [if_neg he]
      exact ⟨hj, hb⟩
    · refine ⟨i, ?_⟩
      rw [if_pos rfl]
      exact ⟨⟨hi, rfl, rfl⟩, rfl, rfl⟩

/-- The block that a lane fills a buffer with is missing no more. -/
theorem State.givenTo.missingBlocks {s t : State} {l : Lane} {i slot block : Nat} {more : List (Nat × Nat)}
    (h : s.givenTo t l i slot block) (hp : s.poolBecomes t) (hi : i ∈ bufferIndices)
    (ho : (s.buffer i).owner ≠ some (.lane l)) (hm : Machine.missingBlocks l s = (slot, block) :: more) :
    Machine.missingBlocks l t = more := by
  have hfilter : Machine.missingBlocks l t = (Machine.missingBlocks l s).filter (· ≠ (slot, block)) := by
    unfold Machine.missingBlocks
    rw [hp.neededBlocks, List.filter_filter]
    refine List.filter_congr fun x _ => Bool.eq_iff_iff.mpr ?_
    rw [Bool.and_eq_true, Bool.not_eq_true', Bool.not_eq_true', ← Bool.not_eq_true, ← Bool.not_eq_true, any_holdsBlock,
      any_holdsBlock, h.holdsBlock hi ho, decide_eq_true_eq]
    tauto
  have hnodup := List.nodup_cons.mp (hm ▸ missingBlocks_nodup l s)
  rw [hfilter, hm, List.filter_cons, if_neg (by simp), List.filter_eq_self]
  exact fun x hx => decide_eq_true fun he => hnodup.1 (he ▸ hx)

/-- A lane that fills a buffer with the lowest missing block wants one buffer less. -/
theorem State.givenTo.wantedBuffers {s t : State} {l : Lane} {i slot block : Nat} {more : List (Nat × Nat)}
    (h : s.givenTo t l i slot block) (hp : s.poolBecomes t) (hi : i ∈ bufferIndices)
    (ho : (s.buffer i).owner ≠ some (.lane l)) (hm : Machine.missingBlocks l s = (slot, block) :: more) :
    Machine.wantedBuffers l t = Machine.wantedBuffers l s - 1 := by
  unfold Machine.wantedBuffers
  rw [h.ownedBy_length hi ho, h.missingBlocks hp hi ho hm, hm, List.length_cons]
  omega

end Sys2Proof.Machine
end

section
/-! PROOFS. The grants of FREE buffers to the wait list, one after another (spec/08, 8.4; R134, R143, R144, R169). -/

namespace Sys2Proof.Machine

/-! ### One grant (R143) -/

/-- The request at the head of the wait list has had its turn: its count has fallen by one. -/
def State.turnTaken (s : State) : State :=
  { s with store := { s.store with waitList := takeTurn s.store.waitList } }

theorem State.poolBecomes.turnTaken (s : State) : s.poolBecomes s.turnTaken := ⟨_, _, _, _, rfl⟩

theorem takeTurn_cons (r : BufferRequest) (rest : List BufferRequest) :
    takeTurn (r :: rest) = if r.count ≤ 1 then rest else { r with count := r.count - 1 } :: rest := rfl

theorem grantSome_succ {s : State} {r : BufferRequest} {rest : List BufferRequest} {i : Nat}
    (hw : s.store.waitList = r :: rest) (hi : freeBuffer? s = some i) (k : Nat) :
    grantSome (k + 1) s = grantSome k (giveBuffer i r.who s.turnTaken) := by
  simp only [grantSome, State.turnTaken, hw, hi]

theorem grantSome_noneFree (k : Nat) {s : State} (h : freeBuffer? s = none) : grantSome k s = s := by
  cases k with
  | zero => rfl
  | succ k =>
    unfold grantSome
    rw [h]
    cases s.store.waitList <;> rfl

/-- What each grant keeps, the grants keep. -/
theorem grantSome_induction {P : State → Prop}
    (step : ∀ (s : State) (r : BufferRequest) (rest : List BufferRequest) (i : Nat), s.store.waitList = r :: rest →
      freeBuffer? s = some i → P s → P (giveBuffer i r.who s.turnTaken))
    (k : Nat) {s : State} (h : P s) : P (grantSome k s) := by
  induction k generalizing s with
  | zero => exact h
  | succ k ih =>
    cases hw : s.store.waitList with
    | nil => rw [grantSome_nil _ hw]; exact h
    | cons r rest =>
      cases hi : freeBuffer? s with
      | none => rw [grantSome_noneFree _ hi]; exact h
      | some i =>
        rw [grantSome_succ hw hi]
        exact ih (step s r rest i hw hi h)

theorem giveBuffer_turnTaken_asks (i : Nat) (who : BufferOwner) (s : State) :
    (giveBuffer i who s.turnTaken).asks = s.asks.granted := by
  rw [(State.poolBecomes.giveBuffer i who _).asks, giveBuffer_waitList]
  rfl

/-- The FREE buffer that is granted is the first of them. -/
theorem freeBuffer?_first {s : State} {i : Nat} (hi : i < 4) (hf : (s.buffer i).state = .free)
    (hb : ∀ k, k < i → (s.buffer k).state ≠ .free) : freeBuffer? s = some i := by
  have hrange : bufferIndices = List.range 4 := rfl
  unfold freeBuffer?
  rw [hrange, List.find?_range_eq_some]
  exact ⟨decide_eq_true hf, List.mem_range.mpr hi, fun k hk => by simpa using hb k hk⟩

/-! ### What a grant gives (R134, R143, R169) -/

theorem giveBuffer_nothingMissing {l : Lane} {s : State} (h : missingBlocks l s = []) (i : Nat) :
    giveBuffer i (.lane l) s = s := by
  simp only [giveBuffer, h]

theorem giveBuffer_fills {l : Lane} {s : State} {slot block : Nat} {more : List (Nat × Nat)}
    (h : missingBlocks l s = (slot, block) :: more) (ho : (s.ownedBy (.lane l)).length < 2) (i : Nat) :
    giveBuffer i (.lane l) s = queueOp (FlashOp.fills l i slot block) (s.setBuffer i (Buffer.fillingFor l slot block)) := by
  simp only [giveBuffer, h]
  exact if_neg (Nat.not_le.mpr ho)

theorem giveBuffer_ownsTwo {l : Lane} {s : State} (ho : 2 ≤ (s.ownedBy (.lane l)).length) (i : Nat) :
    giveBuffer i (.lane l) s = s := by
  unfold giveBuffer
  dsimp only
  split
  · rfl
  · exact if_pos ho

theorem giveBuffer_write {s : State} {w : ImageWrite} (h : s.store.imageWrite = some w) (i : Nat) :
    giveBuffer i .imageWrite s = s.setBuffer i w.buffer := by
  simp only [giveBuffer, h]
  rfl

theorem giveBuffer_park (i : Nat) (s : State) :
    giveBuffer i .parkWriter s =
      queueOpFirst s.parkPage1.2
        (State.setBuffer { s with park := { s.park with phase := .page1 } } i s.parkPage1.1) := rfl

/-- A lane that is granted a buffer fills it, or leaves it as it is. -/
theorem giveBuffer_lane (i : Nat) (l : Lane) (s : State) :
    giveBuffer i (.lane l) s = s ∨
      ∃ slot block, s.needs l slot block ∧
        giveBuffer i (.lane l) s =
          queueOp (FlashOp.fills l i slot block) (s.setBuffer i (Buffer.fillingFor l slot block)) := by
  cases hm : missingBlocks l s with
  | nil => exact .inl (giveBuffer_nothingMissing hm i)
  | cons x more =>
    by_cases ho : 2 ≤ (s.ownedBy (.lane l)).length
    · exact .inl (giveBuffer_ownsTwo ho i)
    · obtain ⟨slot, block⟩ := x
      obtain ⟨hneed, -⟩ : s.misses l slot block := (mem_missingBlocks_iff ..).mp (by rw [hm]; exact List.mem_cons_self ..)
      exact .inr ⟨slot, block, hneed, giveBuffer_fills hm (Nat.lt_of_not_le ho) i⟩

/-- A buffer granted to another requester is no buffer of a lane. -/
theorem giveBuffer_other {who : BufferOwner} {l : Lane} (h : who ≠ .lane l) (i : Nat) (s : State) (j : Nat) :
    (giveBuffer i who s).buffer j = s.buffer j ∨ (j = i ∧ ((giveBuffer i who s).buffer j).owner ≠ some (.lane l)) := by
  have hset : ∀ (x : State) (b : Buffer), (∀ j, x.buffer j = s.buffer j) → b.owner ≠ some (.lane l) →
      (x.setBuffer i b).buffer j = s.buffer j ∨ (j = i ∧ ((x.setBuffer i b).buffer j).owner ≠ some (.lane l)) :=
    fun x b hx hb => by
      rw [State.buffer_setBuffer]
      split
      · rename_i hj
        exact .inr ⟨hj.1, hb⟩
      · exact .inl (hx j)
  cases who with
  | lane m =>
    rcases giveBuffer_lane i m s with he | ⟨slot, block, -, he⟩
    · rw [he]; exact .inl rfl
    · rw [he]
      exact hset s _ (fun _ => rfl) fun he => h (Option.some.inj he)
  | imageWrite =>
    cases hw : s.store.imageWrite with
    | none => exact .inl (by simp only [giveBuffer, hw])
    | some w =>
      rw [giveBuffer_write hw]
      exact hset s _ (fun _ => rfl) nofun
  | parkWriter => exact hset { s with park := { s.park with phase := .page1 } } _ (fun _ => rfl) nofun

/-! ### The number of buffers asked for (R143) -/

/-- A request of a sound wait list names at least one buffer. -/
theorem Asks.sound.count_pos {s : State} (h : s.asks.sound) {r : BufferRequest} (hr : r ∈ s.store.waitList) :
    1 ≤ r.count := by
  obtain ⟨-, -, hrequests⟩ := h
  obtain ⟨hone, -⟩ := hrequests r hr
  exact hone

/-- How many buffers the wait list asks for. -/
def State.asked (s : State) : Nat := (s.store.waitList.map (·.count)).sum

/-- A sound wait list asks for two buffers for each lane and one for each of the image write and the park writer at most. -/
theorem State.asked_le {s : State} (h : s.asks.sound) : s.asked ≤ 6 := by
  obtain ⟨hn, -, hr⟩ := h
  have hn : (s.store.waitList.map (·.who)).Nodup := hn
  have hsub : (s.store.waitList.map (·.who)).toFinset ⊆
      {BufferOwner.lane .a, BufferOwner.lane .b, BufferOwner.imageWrite, BufferOwner.parkWriter} := fun o _ => by
    rcases o with (_ | _) | _ | _ <;> simp
  calc s.asked ≤ (s.store.waitList.map fun r => r.who.mostAsked).sum :=
        List.sum_le_sum fun r hm => (hr r hm).2.1
    _ = ((s.store.waitList.map (·.who)).toFinset).sum BufferOwner.mostAsked := by
        rw [List.sum_toFinset _ hn, List.map_map]
        rfl
    _ ≤ _ := Finset.sum_le_sum_of_subset hsub
    _ ≤ 6 := by decide

/-- A turn asks for one buffer less. -/
theorem State.asked_turnTaken {s : State} (h : s.asks.sound) {r : BufferRequest} {rest : List BufferRequest}
    (hw : s.store.waitList = r :: rest) : s.turnTaken.asked + 1 = s.asked := by
  have hr : 1 ≤ r.count := h.count_pos (by rw [hw]; exact List.mem_cons_self ..)
  unfold State.asked State.turnTaken
  rw [hw]
  dsimp only
  rw [takeTurn_cons]
  split
  · rw [List.map_cons, List.sum_cons]
    omega
  · rw [List.map_cons, List.map_cons, List.sum_cons, List.sum_cons]
    dsimp only
    omega

theorem State.asked_giveBuffer {s : State} (h : s.asks.sound) {r : BufferRequest} {rest : List BufferRequest}
    (hw : s.store.waitList = r :: rest) (i : Nat) : (giveBuffer i r.who s.turnTaken).asked + 1 = s.asked := by
  rw [← s.asked_turnTaken h hw, State.asked, giveBuffer_waitList]
  rfl

theorem State.waitList_of_asked {s : State} (h : s.asks.sound) (ha : s.asked = 0) : s.store.waitList = [] := by
  cases hw : s.store.waitList with
  | nil => rfl
  | cons r rest =>
    have := s.asked_turnTaken h hw
    omega

/-- The grants end as no buffer is asked for or none is FREE. -/
theorem grantSome_ends {k : Nat} {s : State} (h : s.asks.sound) (hk : s.asked ≤ k) :
    (grantSome k s).store.waitList = [] ∨ freeBuffer? (grantSome k s) = none := by
  induction k generalizing s with
  | zero => exact .inl (State.waitList_of_asked h (Nat.le_zero.mp hk))
  | succ k ih =>
    cases hw : s.store.waitList with
    | nil => exact .inl (by rw [grantSome_nil _ hw, hw])
    | cons r rest =>
      cases hi : freeBuffer? s with
      | none => exact .inr (by rw [grantSome_noneFree _ hi, hi])
      | some i =>
        have hless := State.asked_giveBuffer h hw i
        rw [grantSome_succ hw hi]
        exact ih (by rw [giveBuffer_turnTaken_asks]; exact h.granted) (by omega)

/-- More grants than buffers asked for change nothing. -/
theorem grantSome_more {k : Nat} {s : State} (h : s.asks.sound) (hk : s.asked ≤ k) :
    grantSome (k + 1) s = grantSome k s := by
  induction k generalizing s with
  | zero =>
    have hw := State.waitList_of_asked h (Nat.le_zero.mp hk)
    rw [grantSome_nil _ hw, grantSome_nil _ hw]
  | succ k ih =>
    cases hw : s.store.waitList with
    | nil => rw [grantSome_nil _ hw, grantSome_nil _ hw]
    | cons r rest =>
      cases hi : freeBuffer? s with
      | none => rw [grantSome_noneFree _ hi, grantSome_noneFree _ hi]
      | some i =>
        have hless := State.asked_giveBuffer h hw i
        rw [grantSome_succ hw hi, grantSome_succ hw hi]
        exact ih (by rw [giveBuffer_turnTaken_asks]; exact h.granted) (by omega)

/-- The head request is granted the FREE buffer, and the grants go on. -/
theorem grantBuffers_step {s : State} (h : s.asks.sound) {r : BufferRequest} {rest : List BufferRequest} {i : Nat}
    (hw : s.store.waitList = r :: rest) (hi : freeBuffer? s = some i) :
    grantBuffers s = grantBuffers (giveBuffer i r.who s.turnTaken) := by
  have hless := State.asked_giveBuffer h hw i
  have hmost := State.asked_le h
  unfold grantBuffers
  rw [grantSome_succ hw hi, grantSome_more (k := 5) (by rw [giveBuffer_turnTaken_asks]; exact h.granted) (by omega)]

theorem grantBuffers_ends {s : State} (h : s.asks.sound) :
    (grantBuffers s).store.waitList = [] ∨ ∀ i, i < 4 → ((grantBuffers s).buffer i).state ≠ .free :=
  (grantSome_ends h (State.asked_le h)).imp_right fun hf _ hi => freeBuffer?_none hf hi

/-! ### What the grants leave a lane (R134, R143) -/

/-- What grants make of a state, as a lane sees it: only a FREE buffer changes, which then is no buffer of the lane, or is
one that it fills with a block it needs; and no operation leaves the queue. -/
def State.grantedTo (s t : State) (l : Lane) : Prop :=
  s.poolBecomes t ∧ (∀ op ∈ s.store.queue, op ∈ t.store.queue) ∧
    ∀ i, t.buffer i = s.buffer i ∨
      ((s.buffer i).state = .free ∧
        ((t.buffer i).owner ≠ some (.lane l) ∨
          ∃ slot block, t.buffer i = Buffer.fillingFor l slot block ∧ FlashOp.fills l i slot block ∈ t.store.queue ∧
            s.needs l slot block))

theorem State.grantedTo.trans {s t u : State} {l : Lane} (h : s.grantedTo t l) (h' : t.grantedTo u l) :
    s.grantedTo u l := by
  obtain ⟨hp, hq, hb⟩ := h
  obtain ⟨hp', hq', hb'⟩ := h'
  refine ⟨hp.trans hp', fun op ho => hq' op (hq op ho), fun i => ?_⟩
  rcases hb i with he | ⟨hf, hb⟩
  · rw [← he]
    refine (hb' i).imp_right fun ⟨hf, hb⟩ => ⟨hf, hb.imp_right fun ⟨slot, block, hu, ho, hn⟩ => ?_⟩
    exact ⟨slot, block, hu, ho, (hp.needs_iff l slot block).mp hn⟩
  · refine .inr ⟨hf, ?_⟩
    rcases hb with hno | ⟨slot, block, ht, ho, hn⟩
    · rcases hb' i with he | ⟨-, hb⟩
      · exact .inl (by rw [he]; exact hno)
      · refine hb.imp_right fun ⟨slot, block, hu, ho, hn⟩ => ?_
        exact ⟨slot, block, hu, ho, (hp.needs_iff l slot block).mp hn⟩
    · rcases hb' i with he | ⟨hfree, -⟩
      · exact .inr ⟨slot, block, by rw [he, ht], hq' _ ho, hn⟩
      · rw [ht] at hfree
        cases hfree

theorem State.grantedTo.of_same {s t : State} (l : Lane) (hp : s.poolBecomes t)
    (hb : t.store.buffers = s.store.buffers) (hq : t.store.queue = s.store.queue) : s.grantedTo t l :=
  ⟨hp, fun _ h => hq.symm ▸ h, fun i => .inl (by rw [State.buffer, hb, State.buffer])⟩

theorem State.grantedTo.giveBuffer {s : State} {i : Nat} (hf : (s.buffer i).state = .free) (who : BufferOwner)
    (l : Lane) : s.grantedTo (Machine.giveBuffer i who s) l := by
  refine ⟨.giveBuffer i who s, (State.poolKeeps.giveBuffer i who s).2.1, fun j => ?_⟩
  by_cases hw : who = .lane l
  · subst hw
    rcases giveBuffer_lane i l s with he | ⟨slot, block, hn, he⟩
    · rw [he]; exact .inl rfl
    · have hb : ∀ x : State, (queueOp (FlashOp.fills l i slot block) x).buffer j = x.buffer j := fun _ => rfl
      rw [he, hb, State.buffer_setBuffer]
      split
      · rename_i hj
        rw [hj.1]
        exact .inr ⟨hf, .inr ⟨slot, block, rfl, List.mem_append_right _ (List.mem_singleton_self _), hn⟩⟩
      · exact .inl rfl
  · refine (giveBuffer_other hw i s j).imp_right fun ⟨hj, ho⟩ => ?_
    rw [hj] at ho ⊢
    exact ⟨hf, .inl ho⟩

theorem State.grantedTo.grantBuffers (s : State) (l : Lane) : s.grantedTo (Machine.grantBuffers s) l :=
  grantSome_induction (P := fun t => s.grantedTo t l)
    (fun t r _ _ _ hi h =>
      (h.trans (.of_same l (.turnTaken t) rfl rfl)).trans (.giveBuffer (s := t.turnTaken) (freeBuffer?_some hi).2 r.who l))
    6 (.of_same l (.refl s) rfl rfl)

/-! ### A lane's request stands at what the lane wants (R134) -/

/-- A lane's request, if it has one, asks for as many buffers as the lane wants, and a lane that wants some has a request. -/
def State.asksAsWanted (s : State) (l : Lane) : Prop :=
  (∀ r ∈ s.store.waitList, r.who = .lane l → r.count = wantedBuffers l s) ∧
    (wantedBuffers l s ≠ 0 → ∃ r ∈ s.store.waitList, r.who = .lane l)

theorem State.storeBounded.buffers_length {s : State} (h : s.storeBounded) : s.store.buffers.length = 4 := by
  obtain ⟨-, hlength, -⟩ := h
  exact hlength

theorem State.storeBounded.ownedBy_le {s : State} (h : s.storeBounded) (l : Lane) :
    (s.ownedBy (.lane l)).length ≤ 2 := by
  obtain ⟨-, -, howns, -⟩ := h
  exact howns l

/-- A FREE buffer of a bounded store has no owner. -/
theorem State.storeBounded.free {s : State} (h : s.storeBounded) {i : Nat} (hi : i < 4)
    (hf : (s.buffer i).state = .free) : (s.buffer i).owner = none := by
  obtain ⟨-, hlength, -, hfree⟩ := h
  have hget : s.buffer i = s.store.buffers[i] := List.getD_eq_getElem _ _ (by omega)
  rw [hget] at hf ⊢
  exact hfree _ (List.getElem_mem _) hf

/-- A grant to the lane itself leaves it one wanted buffer less. -/
theorem giveBuffer_wanted_self {s : State} (hb : s.storeBounded) {i : Nat} (hi : freeBuffer? s = some i) {l : Lane}
    (hw : wantedBuffers l s ≠ 0) :
    wantedBuffers l (giveBuffer i (.lane l) s) = wantedBuffers l s - 1 := by
  obtain ⟨hlt, hf⟩ := freeBuffer?_some hi
  have ho : (s.buffer i).owner ≠ some (.lane l) := by
    rw [hb.free hlt hf]
    exact nofun
  have howned : (s.ownedBy (.lane l)).length < 2 := by
    by_contra hn
    exact hw (by rw [wantedBuffers_eq, Nat.sub_eq_zero_of_le (Nat.not_lt.mp hn), Nat.zero_min])
  cases hm : missingBlocks l s with
  | nil => exact absurd (by rw [wantedBuffers, hm]; exact Nat.min_zero _) hw
  | cons x more =>
    obtain ⟨slot, block⟩ := x
    have hgiven : s.givenTo (giveBuffer i (.lane l) s) l i slot block := fun j => by
      have hj : ∀ x : State, (queueOp (FlashOp.fills l i slot block) x).buffer j = x.buffer j := fun _ => rfl
      rw [giveBuffer_fills hm howned, hj, State.buffer_setBuffer, hb.buffers_length]
      simp [hlt]
    exact hgiven.wantedBuffers (.giveBuffer ..) (List.mem_of_find?_eq_some hi) ho hm

/-- A grant to another requester leaves the lane what it wants. -/
theorem giveBuffer_wanted_other {s : State} (hb : s.storeBounded) {i : Nat} (hi : freeBuffer? s = some i) {l : Lane}
    {who : BufferOwner} (h : who ≠ .lane l) : wantedBuffers l (giveBuffer i who s) = wantedBuffers l s := by
  obtain ⟨hlt, hf⟩ := freeBuffer?_some hi
  have hsame : s.sameOwned (giveBuffer i who s) l := fun j =>
    (giveBuffer_other h i s j).imp_right fun ⟨hj, ho⟩ => ⟨by rw [hj, hb.free hlt hf]; exact nofun, ho⟩
  exact hsame.wantedBuffers (.giveBuffer ..)

theorem wantedBuffers_turnTaken (l : Lane) (s : State) : wantedBuffers l s.turnTaken = wantedBuffers l s :=
  State.sameOwned.wantedBuffers (fun _ => .inl rfl) (.turnTaken s)

/-- Each grant keeps a lane's request at what the lane wants. -/
theorem State.asksAsWanted.giveBuffer {s : State} {l : Lane} (h : s.asksAsWanted l) (hb : s.storeBounded)
    (ha : s.asks.sound) {r : BufferRequest} {rest : List BufferRequest} {i : Nat} (hw : s.store.waitList = r :: rest)
    (hi : freeBuffer? s = some i) : (Machine.giveBuffer i r.who s.turnTaken).asksAsWanted l := by
  obtain ⟨hcount, hexists⟩ := h
  have hnodup : (s.store.waitList.map (·.who)).Nodup := ha.1
  have hbounded : s.turnTaken.storeBounded := hb
  have hfree : freeBuffer? s.turnTaken = some i := hi
  have hlist : (Machine.giveBuffer i r.who s.turnTaken).store.waitList = takeTurn (r :: rest) := by
    rw [giveBuffer_waitList, ← hw]
    rfl
  have hmem : r ∈ s.store.waitList := by rw [hw]; exact List.mem_cons_self ..
  rw [hw, List.map_cons, List.nodup_cons] at hnodup
  rw [hw] at hcount hexists
  unfold State.asksAsWanted
  rw [hlist, takeTurn_cons]
  by_cases hl : r.who = .lane l
  · have hr := hcount r (List.mem_cons_self ..) hl
    have hone : 1 ≤ r.count := ha.count_pos hmem
    have hrest : ∀ q ∈ rest, q.who ≠ .lane l := fun q hq he =>
      hnodup.1 (by rw [hl, ← he]; exact List.mem_map_of_mem hq)
    have hwant : wantedBuffers l (Machine.giveBuffer i r.who s.turnTaken) = r.count - 1 := by
      rw [hl, giveBuffer_wanted_self hbounded hfree (by rw [wantedBuffers_turnTaken]; omega), wantedBuffers_turnTaken, hr]
    rw [hwant]
    split
    · exact ⟨fun q hq he => absurd he (hrest q hq), fun hne => absurd (by omega) hne⟩
    · refine ⟨fun q hq he => ?_, fun _ => ⟨_, List.mem_cons_self .., hl⟩⟩
      rcases List.mem_cons.mp hq with rfl | hq
      · rfl
      · exact absurd he (hrest q hq)
  · have hwant : wantedBuffers l (Machine.giveBuffer i r.who s.turnTaken) = wantedBuffers l s := by
      rw [giveBuffer_wanted_other hbounded hfree hl, wantedBuffers_turnTaken]
    rw [hwant]
    have hrest : wantedBuffers l s ≠ 0 → ∃ q ∈ rest, q.who = .lane l := fun hne => by
      obtain ⟨q, hq, he⟩ := hexists hne
      rcases List.mem_cons.mp hq with rfl | hq
      · exact absurd he hl
      · exact ⟨q, hq, he⟩
    split
    · exact ⟨fun q hq he => hcount q (List.mem_cons_of_mem _ hq) he, hrest⟩
    · refine ⟨fun q hq he => ?_, fun hne => ?_⟩
      · rcases List.mem_cons.mp hq with rfl | hq
        · exact absurd he hl
        · exact hcount q (List.mem_cons_of_mem _ hq) he
      · obtain ⟨q, hq, he⟩ := hrest hne
        exact ⟨q, List.mem_cons_of_mem _ hq, he⟩

theorem State.asksAsWanted.grantBuffers {s : State} {l : Lane} (h : s.asksAsWanted l) (hb : s.storeBounded)
    (ha : s.asks.sound) : (Machine.grantBuffers s).asksAsWanted l :=
  (grantSome_induction (P := fun t => t.asksAsWanted l ∧ t.storeBounded ∧ t.asks.sound)
    (fun t r rest i hw hi ⟨h, hb, ha⟩ =>
      ⟨h.giveBuffer hb ha hw hi, storeBounded_stable.giveBuffer (s := t.turnTaken) hb i r.who,
        by rw [giveBuffer_turnTaken_asks]; exact ha.granted⟩)
    6 ⟨h, hb, ha⟩).1

end Sys2Proof.Machine
end

section
/-! PROOFS. The end of a group BLOCK frame, and the plan of a lane's buffers (spec/07, 7.3 and 7.6; R130, R131, R134 to R136,
R143, R144). -/

namespace Sys2Proof.Machine

/-! ### The release of the buffers that a lane does not need (R134, R136) -/

theorem State.setBuffer_self (s : State) (i : Nat) : s.setBuffer i (s.buffer i) = s := by
  have hset : s.store.buffers.set i (s.buffer i) = s.store.buffers := by
    refine List.ext_getElem (List.length_set ..) fun j hj hj' => ?_
    rw [List.getElem_set]
    split
    · rename_i h
      subst h
      exact List.getD_eq_getElem _ _ hj'
    · rfl
  unfold State.setBuffer
  rw [hset]

/-- A buffer as a lane with some needed blocks releases it: given back where its block is none of them. -/
def Buffer.releasedUnless (needed : List (Nat × Nat)) (b : Buffer) : Buffer :=
  if needed.contains (b.slot, b.block) then b else b.givenBack

theorem releaseUnneeded_eq (l : Lane) (s : State) :
    releaseUnneeded l s =
      (s.heldBy l).foldl (fun x i => x.setBuffer i ((x.buffer i).releasedUnless (neededBlocks l s))) s := by
  refine congrArg (List.foldl · s (s.heldBy l)) (funext fun x => funext fun i => ?_)
  unfold Buffer.releasedUnless
  dsimp only
  split
  · exact (x.setBuffer_self i).symm
  · by_cases hf : (x.buffer i).state = .filling <;> simp [giveBack, Buffer.givenBack, hf]

theorem foldl_setBuffer_buffer (f : Buffer → Buffer) {is : List Nat} (h : is.Nodup) (s : State) (j : Nat) :
    (is.foldl (fun x i => x.setBuffer i (f (x.buffer i))) s).buffer j =
      if j ∈ is ∧ j < s.store.buffers.length then f (s.buffer j) else s.buffer j := by
  induction is generalizing s with
  | nil => simp
  | cons i is ih =>
    obtain ⟨hi, hn⟩ := List.nodup_cons.mp h
    have hl : (s.setBuffer i (f (s.buffer i))).store.buffers.length = s.store.buffers.length := List.length_set ..
    rw [List.foldl_cons, ih hn, hl, State.buffer_setBuffer]
    grind

/-- What becomes of each buffer as a lane releases those it does not need. -/
theorem releaseUnneeded_buffer (l : Lane) (s : State) (i : Nat) :
    (i ∈ s.heldBy l → ¬s.needs l (s.buffer i).slot (s.buffer i).block →
        (releaseUnneeded l s).buffer i = (s.buffer i).givenBack) ∧
      (¬(i ∈ s.heldBy l ∧ ¬s.needs l (s.buffer i).slot (s.buffer i).block) →
        (releaseUnneeded l s).buffer i = s.buffer i) := by
  have hneeds : (neededBlocks l s).contains ((s.buffer i).slot, (s.buffer i).block) = true ↔
      s.needs l (s.buffer i).slot (s.buffer i).block := by
    rw [List.contains_iff_mem, mem_neededBlocks]
  rw [releaseUnneeded_eq, foldl_setBuffer_buffer _ (s.heldBy_nodup l)]
  refine ⟨fun hi hn => ?_, fun h => ?_⟩
  · have howner := ((s.heldBy_iff l i).mp hi).2.1
    rw [if_pos ⟨hi, State.buffer_owned (by rw [howner]; exact nofun)⟩, Buffer.releasedUnless,
      if_neg fun hc => hn (hneeds.mp hc)]
  · split
    · rename_i hi
      exact if_pos (hneeds.mpr (not_not.mp fun hn => h ⟨hi.1, hn⟩))
    · rfl

/-- A buffer given back is held no more. -/
theorem Buffer.givenBack_notHeld (b : Buffer) (l : Lane) :
    ¬(b.givenBack.owner = some (.lane l) ∧ b.givenBack.released = false) := by
  unfold Buffer.givenBack
  split
  · exact fun h => by cases h.2
  · exact fun h => by cases h.1

/-- A lane keeps, of what it has released, only the buffers that it held and needs. -/
theorem mem_heldBy_releaseUnneeded {l : Lane} {s : State} {i : Nat} (h : i ∈ (releaseUnneeded l s).heldBy l) :
    i ∈ s.heldBy l ∧ s.needs l (s.buffer i).slot (s.buffer i).block ∧ (releaseUnneeded l s).buffer i = s.buffer i := by
  obtain ⟨hreleased, hkept⟩ := releaseUnneeded_buffer l s i
  obtain ⟨hi, howned⟩ := (State.heldBy_iff ..).mp h
  have hno : ¬(i ∈ s.heldBy l ∧ ¬s.needs l (s.buffer i).slot (s.buffer i).block) := fun ⟨hm, hn⟩ => by
    rw [hreleased hm hn] at howned
    exact Buffer.givenBack_notHeld _ l howned
  have hsame := hkept hno
  rw [hsame] at howned
  have hheld := (s.heldBy_iff l i).mpr ⟨hi, howned⟩
  exact ⟨hheld, not_not.mp fun hn => hno ⟨hheld, hn⟩, hsame⟩

/-! ### The request of a plan (R134, R143) -/

/-- A lane's request withdrawn, for a lane that wants none. -/
theorem withdrawRequest_asksAsWanted {l : Lane} {s : State} (h : wantedBuffers l s = 0) :
    (withdrawRequest (.lane l) s).asksAsWanted l := by
  have hwant : wantedBuffers l (withdrawRequest (.lane l) s) = 0 :=
    (State.sameOwned.wantedBuffers (fun _ => .inl rfl) (.withdrawRequest (.lane l) s)).trans h
  refine ⟨fun r hr he => ?_, fun hne => absurd hwant hne⟩
  simpa [he] using List.of_mem_filter hr

/-- A lane's request joins the wait list behind the others, or its count changes in place (log 55). -/
theorem requestBuffers_lane_waitList (l : Lane) (n : Nat) (s : State) :
    (requestBuffers (.lane l) n s).store.waitList =
      if s.store.waitList.any (·.who = .lane l) then
        s.store.waitList.map fun r => if r.who = .lane l then { r with count := n } else r
      else s.store.waitList ++ [{ who := .lane l, count := n }] := by
  unfold requestBuffers
  dsimp only
  rw [if_neg (show BufferOwner.lane l ≠ .parkWriter from nofun)]

/-- A lane's request entered for as many as it wants. -/
theorem requestBuffers_asksAsWanted (l : Lane) (s : State) :
    (requestBuffers (.lane l) (wantedBuffers l s) s).asksAsWanted l := by
  have hwant : wantedBuffers l (requestBuffers (.lane l) (wantedBuffers l s) s) = wantedBuffers l s :=
    State.sameOwned.wantedBuffers (fun _ => .inl rfl) (.requestBuffers (.lane l) (wantedBuffers l s) s)
  unfold State.asksAsWanted
  rw [hwant, requestBuffers_lane_waitList]
  split
  · rename_i hany
    obtain ⟨q, hq, he⟩ := List.any_eq_true.mp hany
    refine ⟨fun r hr hl => ?_, fun _ => ⟨_, List.mem_map_of_mem hq, ?_⟩⟩
    · obtain ⟨p, -, rfl⟩ := List.mem_map.mp hr
      by_cases hp : p.who = .lane l
      · rw [if_pos hp]
      · rw [if_neg hp] at hl
        exact absurd hl hp
    · rw [if_pos (of_decide_eq_true he)]
      exact of_decide_eq_true he
  · rename_i hnone
    refine ⟨fun r hr hl => ?_, fun _ => ⟨_, List.mem_append_right _ (List.mem_singleton_self _), rfl⟩⟩
    rcases List.mem_append.mp hr with hr | hr
    · exact absurd (List.any_eq_true.mpr ⟨r, hr, decide_eq_true hl⟩) hnone
    · rw [List.mem_singleton.mp hr]

theorem requestBuffers_wanted_asks {l : Lane} {s : State} (h : s.asks.sound) (hw : wantedBuffers l s ≠ 0) :
    (requestBuffers (.lane l) (wantedBuffers l s) s).asks.sound := by
  rw [requestBuffers_asks]
  refine h.request (Nat.one_le_iff_ne_zero.mpr hw) ?_ (fun m hm => ?_) nofun
  · exact (Nat.min_le_left ..).trans (Nat.sub_le ..)
  · cases hm
    exact holder_of_wantedBuffers hw

/-! ### The plan (R134, R136, R143) -/

/-- A lane has planned: what a sound and bounded state then holds of its request, and of what is FREE. -/
def State.planned (t : State) (l : Lane) : Prop :=
  t.asksAsWanted l ∧ (t.store.waitList = [] ∨ ∀ i, i < 4 → (t.buffer i).state ≠ .free)

theorem planBuffers_planned {l : Lane} {s : State} (hb : s.storeBounded) (ha : s.asks.sound) :
    (releaseUnneeded l s).grantedTo (planBuffers l s) l ∧ (planBuffers l s).planned l := by
  have hasks : (releaseUnneeded l s).asks.sound := by rw [releaseUnneeded_asks]; exact ha
  have hgranted := State.grantedTo.grantBuffers (releaseUnneeded l s) l
  have hends := grantBuffers_ends hasks
  have hasks := grantBuffers_asks hasks
  have hbounded := storeBounded_stable.grantBuffers (storeBounded_stable.releaseUnneeded hb l)
  unfold planBuffers State.planned
  dsimp only
  generalize grantBuffers (releaseUnneeded l s) = u at *
  split
  · rename_i hw
    refine ⟨hgranted.trans (.of_same l (.withdrawRequest _ _) rfl rfl), withdrawRequest_asksAsWanted hw,
      hends.imp_left fun hnil => ?_⟩
    show u.store.waitList.filter _ = []
    rw [hnil, List.filter_nil]
  · rename_i hw
    have hrequest := requestBuffers_wanted_asks hasks hw
    exact ⟨(hgranted.trans (.of_same l (.requestBuffers _ _ _) rfl rfl)).trans (.grantBuffers _ l),
      (requestBuffers_asksAsWanted l u).grantBuffers (storeBounded_stable.requestBuffers hbounded _ _) hrequest,
      grantBuffers_ends hrequest⟩

theorem planBuffers_needs_iff (l : Lane) (s : State) (slot block : Nat) :
    (planBuffers l s).needs l slot block ↔ s.needs l slot block :=
  (State.poolBecomes.planBuffers l s).needs_iff l slot block

/-- The buffers that a lane holds after it plans hold needed blocks, and each is one it held, or one that it fills. -/
theorem planBuffers_held {l : Lane} {s : State} (hb : s.storeBounded) (ha : s.asks.sound) {i : Nat}
    (hi : i ∈ (planBuffers l s).heldBy l) :
    (planBuffers l s).needs l ((planBuffers l s).buffer i).slot ((planBuffers l s).buffer i).block ∧
      ((i ∈ s.heldBy l ∧ (planBuffers l s).buffer i = s.buffer i) ∨
        ((planBuffers l s).buffer i =
            Buffer.fillingFor l ((planBuffers l s).buffer i).slot ((planBuffers l s).buffer i).block ∧
          FlashOp.fills l i ((planBuffers l s).buffer i).slot ((planBuffers l s).buffer i).block ∈
            (planBuffers l s).store.queue)) := by
  obtain ⟨⟨-, -, hbuffer⟩, -⟩ := planBuffers_planned (l := l) hb ha
  obtain ⟨hm, howned⟩ := (State.heldBy_iff ..).mp hi
  rw [planBuffers_needs_iff]
  rcases hbuffer i with he | ⟨-, hno | ⟨slot, block, he, ho, hn⟩⟩
  · rw [he] at howned
    obtain ⟨hheld, hneeds, hsame⟩ := mem_heldBy_releaseUnneeded ((State.heldBy_iff ..).mpr ⟨hm, howned⟩)
    rw [he, hsame]
    exact ⟨hneeds, .inl ⟨hheld, rfl⟩⟩
  · exact absurd howned.1 hno
  · rw [he]
    exact ⟨((State.poolBecomes.releaseUnneeded l s).needs_iff ..).mp hn, .inr ⟨rfl, ho⟩⟩

/-- A buffer that a lane's release leaves, and that is not FREE, stays as the lane plans. -/
theorem planBuffers_stays {l : Lane} {s : State} (hb : s.storeBounded) (ha : s.asks.sound) {i : Nat}
    (hf : ((releaseUnneeded l s).buffer i).state ≠ .free) :
    (planBuffers l s).buffer i = (releaseUnneeded l s).buffer i := by
  obtain ⟨⟨-, -, hbuffer⟩, -⟩ := planBuffers_planned (l := l) hb ha
  rcases hbuffer i with he | ⟨hfree, -⟩
  · exact he
  · exact absurd hfree hf

/-- What becomes of the buffers that a lane held before it plans, but are not FREE. -/
theorem planBuffers_released {l : Lane} {s : State} (hb : s.storeBounded) (ha : s.asks.sound) {i : Nat}
    (hi : i ∈ s.heldBy l) (hf : (s.buffer i).state ≠ .free) :
    (s.needs l (s.buffer i).slot (s.buffer i).block → (planBuffers l s).buffer i = s.buffer i) ∧
      (¬s.needs l (s.buffer i).slot (s.buffer i).block → (s.buffer i).state = .filling →
        (planBuffers l s).buffer i = { s.buffer i with released := true }) := by
  obtain ⟨hreleased, hkept⟩ := releaseUnneeded_buffer l s i
  refine ⟨fun hn => ?_, fun hn hs => ?_⟩
  · have hsame := hkept fun h => h.2 hn
    rw [planBuffers_stays hb ha (by rw [hsame]; exact hf), hsame]
  · have hback := hreleased hi hn
    rw [Buffer.givenBack, if_pos hs] at hback
    rw [planBuffers_stays hb ha (by rw [hback]; exact hf), hback]

/-- A buffer of another owner, that is not FREE, stays as a lane plans. -/
theorem planBuffers_others {l : Lane} {s : State} (hb : s.storeBounded) (ha : s.asks.sound) {i : Nat}
    (hf : (s.buffer i).state ≠ .free) (ho : (s.buffer i).owner ≠ some (.lane l)) :
    (planBuffers l s).buffer i = s.buffer i := by
  have hsame := (releaseUnneeded_buffer l s i).2 fun ⟨hi, _⟩ => ho ((s.heldBy_iff l i).mp hi).2.1
  rw [planBuffers_stays hb ha (by rw [hsame]; exact hf), hsame]

/-- A block that a lane misses after it has planned is asked for, unless the lane owns two buffers. -/
theorem State.asksAsWanted.missing {t : State} {l : Lane} (h : t.asksAsWanted l) (hb : t.storeBounded) {slot block : Nat}
    (hm : t.misses l slot block) :
    (t.ownedBy (.lane l)).length = 2 ∨ ∃ r ∈ t.store.waitList, r.who = .lane l := by
  by_cases hw : wantedBuffers l t = 0
  · have hmost := hb.ownedBy_le l
    have hsome := List.length_pos_of_mem ((mem_missingBlocks_iff ..).mpr hm)
    rw [wantedBuffers_eq] at hw
    left
    omega
  · exact .inr (h.2 hw)

/-- What a request of a lane that has planned asks for. -/
theorem State.asksAsWanted.request {t : State} {l : Lane} (h : t.asksAsWanted l) (ha : t.asks.sound) {r : BufferRequest}
    (hr : r ∈ t.store.waitList) (hl : r.who = .lane l) :
    (∃ slot block, t.misses l slot block) ∧ r.count ≤ 2 - (t.ownedBy (.lane l)).length ∧
      (r.count = 2 ↔
        t.ownedBy (.lane l) = [] ∧ ∃ slot block, t.misses l slot block ∧ t.misses l slot (block + 1)) := by
  have hone : 1 ≤ r.count := ha.count_pos hr
  have hcount := h.1 r hr hl
  rw [wantedBuffers_eq] at hcount
  refine ⟨?_, by omega, ?_⟩
  · by_contra hnone
    simp only [not_exists] at hnone
    rw [(missingBlocks_eq_nil_iff l t).mpr hnone, List.length_nil] at hcount
    omega
  · rw [← missingBlocks_two_iff, ← List.length_eq_zero_iff]
    omega

/-! ### The end of a group BLOCK frame (R130, R131, R135) -/

theorem roundAt_group (s : State) (first : Nat) (others : List Nat) (count : Nat) :
    roundAt (first :: others) count s =
      if count % 16 = 0 ∨ count = s.lengthOf first then
        some ((first :: others).filter fun n => (s.job? n).any (·.state = .load))
      else none := by
  unfold roundAt
  simp only [Bool.or_eq_true, decide_eq_true_eq]
  split
  · exact congrArg some (List.filter_congr fun n _ => by cases s.job? n <;> rfl)
  · rfl

theorem groupFrameEnded_group {s : State} {l : Lane} {t : Txn} {members : List Nat} {count : Nat}
    {round : Option (List Nat)} (ht : (s.lane l).txn = some t) (ho : t.owner = .group)
    (hh : (s.lane l).holder = some (.group members count round)) :
    groupFrameEnded l s =
      lanesAct (planBuffers l (freeBuffer t.buffer
        (s.setLane l
          { s.lane l with
            txn := none, driver := .released
            holder := some (.group members (count + 1) (roundAt members (count + 1) s)) }))) := by
  unfold groupFrameEnded
  rw [ht, hh]
  dsimp only
  rw [ho]
  cases l <;> rfl

/-- Settles O40. -/
theorem groupFramesAndBuffers : Obligations.GroupFramesAndBuffers := by
  refine ⟨fun s l t first others count round hrun ht ho hh => ?_, fun s l hb ha => ?_, fun s h => ?_,
    fun s r rest i hb ha hw hi hf hfirst => ?_⟩
  · intro opened x
    have hexec : exec (.groupFrameEnd l) s = .next (groupFrameEnded l s) := whileRunning_runs hrun _
    rw [hexec, groupFrameEnded_group ht ho hh, roundAt_group]
    rfl
  · intro t
    have ha : s.asks.sound := s.waitListSound_iff.mp ha
    obtain ⟨-, hasks, hends⟩ := planBuffers_planned (l := l) hb ha
    refine ⟨?_, fun i => planBuffers_held hb ha, fun i => planBuffers_released hb ha, fun i => planBuffers_others hb ha,
      fun slot block => hasks.missing (storeBounded_stable.planBuffers hb l),
      fun r => hasks.request (planBuffers_asks (ha.holding l)), hends⟩
    obtain ⟨b, w, q, p, he⟩ := State.poolBecomes.planBuffers l s
    simp only [t, he]
    rfl
  · rcases h with h | h
    · exact grantBuffers_nil h
    · refine grantBuffers_noneFree ?_
      cases hi : freeBuffer? s with
      | none => rfl
      | some i => exact absurd (freeBuffer?_some hi).2 (h i (freeBuffer?_some hi).1)
  · have ha : s.asks.sound := s.waitListSound_iff.mp ha
    intro taken
    have hone : 1 ≤ r.count := ha.count_pos (by rw [hw]; exact List.mem_cons_self ..)
    have htaken : s.turnTaken = taken := by
      have hcount : (r.count ≤ 1) = (r.count = 1) := propext (by omega)
      simp only [State.turnTaken, taken, hw, takeTurn_cons, hcount]
    have hstep := grantBuffers_step ha hw (freeBuffer?_first hi hf hfirst)
    rw [htaken] at hstep
    have hmissing : ∀ l, missingBlocks l taken = missingBlocks l s := fun l =>
      State.sameOwned.missingBlocks (fun _ => .inl rfl) ⟨_, _, _, _, rfl⟩
    refine ⟨fun l hl => ?_, fun w hr hwrite => ?_, fun hr => ?_⟩
    · rw [hl] at hstep
      refine ⟨fun hnone => ?_, fun slot block hm hlow hown => ?_⟩
      · rw [hstep, giveBuffer_nothingMissing]
        rw [hmissing, missingBlocks_eq_nil_iff]
        exact hnone
      · obtain ⟨more, hmore⟩ := missingBlocks_lowest hm hlow
        rw [hstep, giveBuffer_fills ((hmissing l).trans hmore) hown]
    · rw [hstep, hr, giveBuffer_write (s := taken) hwrite]
      rfl
    · rw [hstep, hr, giveBuffer_park]
      rfl

end Sys2Proof.Machine
end
